-- ==== Sys2Proof/Word.lean ====
section
/-!
DEFINITION. The words of the QB-416 and the two fixed-size tables everything else is kept in: `Four` (one item for each
port or quad) and `Sixteen` (one item for each bank or tag). Names and ranges: spec/00_scope.md section 2, R1, R2.
-/

namespace Sys2Proof

/-- Eight bits of a packet or of the array. -/
abbrev Byte := BitVec 8

/-- The 8 data bytes of one unit (R1); byte b of the unit is bits 8b+7 to 8b (log 25). -/
abbrev UnitData := BitVec 64

/-- A port, P0 to P3. -/
abbrev Port := Fin 4

/-- A quad, 0 to 3; quad q holds banks 4q to 4q+3 (R2). -/
abbrev Quad := Fin 4

/-- A bank, 0 to 15. -/
abbrev Bank := Fin 16

/-- A row of a bank, 0 to 8191. -/
abbrev Row := Fin 8192

/-- A tag, 0 to 15. -/
abbrev Tag := Fin 16

/-- A sequence number, counted modulo 16 (R121, R130). -/
abbrev Seq := BitVec 4

/-- One item for each of four places. -/
structure Four (α : Type) where
  q0 : α
  q1 : α
  q2 : α
  q3 : α
  deriving DecidableEq, Repr

/-- The same item in all four places. -/
def Four.all {α : Type} (a : α) : Four α := ⟨a, a, a, a⟩

/-- The item at place `i`. -/
def Four.get {α : Type} (t : Four α) (i : Fin 4) : α :=
  match i.val with
  | 0 => t.q0
  | 1 => t.q1
  | 2 => t.q2
  | _ => t.q3

/-- The table with `a` at place `i` and everything else as it was. -/
def Four.set {α : Type} (t : Four α) (i : Fin 4) (a : α) : Four α :=
  match i.val with
  | 0 => { t with q0 := a }
  | 1 => { t with q1 := a }
  | 2 => { t with q2 := a }
  | _ => { t with q3 := a }

/-- `f` applied to every item. -/
def Four.map {α β : Type} (f : α → β) (t : Four α) : Four β := ⟨f t.q0, f t.q1, f t.q2, f t.q3⟩

/-- The four items in order. -/
def Four.toList {α : Type} (t : Four α) : List α := [t.q0, t.q1, t.q2, t.q3]

/-- One item for each of sixteen places, four by four: place i is item i mod 4 of group i / 4, so that the
sixteen bank records stand quad by quad (R2). -/
abbrev Sixteen (α : Type) := Four (Four α)

/-- The group of place `i`; of a bank, its quad (R2). -/
def groupOf (i : Fin 16) : Fin 4 := ⟨i.val / 4, by omega⟩

/-- The position of place `i` in its group. -/
def laneOf (i : Fin 16) : Fin 4 := ⟨i.val % 4, by omega⟩

/-- The same item in all sixteen places. -/
def sixteenAll {α : Type} (a : α) : Sixteen α := Four.all (Four.all a)

/-- The item at place `i`. -/
def sixteenGet {α : Type} (t : Sixteen α) (i : Fin 16) : α := (t.get (groupOf i)).get (laneOf i)

/-- The table with `a` at place `i` and everything else as it was. -/
def sixteenSet {α : Type} (t : Sixteen α) (i : Fin 16) (a : α) : Sixteen α :=
  t.set (groupOf i) ((t.get (groupOf i)).set (laneOf i) a)

/-- `f` applied to every item. -/
def sixteenMap {α β : Type} (f : α → β) (t : Sixteen α) : Sixteen β := t.map (fun g => g.map f)

/-- The sixteen items in order. -/
def sixteenList {α : Type} (t : Sixteen α) : List α :=
  t.q0.toList ++ t.q1.toList ++ t.q2.toList ++ t.q3.toList

end Sys2Proof
end

