-- ==== Sys2Proof/Syntax.lean ====
section
/-!
DEFINITION. The commands of the QB-416, one constructor of `Instr` for each row of spec/opcode_table.json, and the
packets they carry. Packet fields: spec/11_packet_and_record_formats.md, R177, R178.
-/

namespace Sys2Proof

/-- The use a port asks of, or has of, a row (R21, R24). -/
inductive HoldMode where
  | shared
  | exclusive
  deriving DecidableEq, Repr

/-- One unit of a WRITE: its byte mask (bit b selects byte b) and its 8 data bytes (R53, 11.2). -/
structure WriteUnit where
  mask : BitVec 8
  data : UnitData
  deriving DecidableEq, Repr

/-- What every tagged packet carries beside its body: the link it arrives on, its sequence number and its tag (11.1). -/
structure Header where
  port : Port
  sequence : Seq
  tag : Tag
  deriving DecidableEq, Repr

/-- The request kinds with their bodies, fields "taken as whole numbers of their width" (11.2, R178). -/
inductive Request where
  | attach (role : Byte)
  | detach
  | idle
  | openBank (bank : Byte) (row : BitVec 16) (mode : HoldMode) (wait : Bool)
  | upgrade (bank : Byte)
  | closeBank (bank : Byte)
  | read (bank column units : Byte) (autoClose : Bool)
  | write (bank column units : Byte) (autoClose : Bool) (data : List WriteUnit)
  | cfgRead (item index : Byte)
  | cfgWrite (item index value : Byte)
  | inspect (target number : Byte)
  | faultClear (index : Byte)
  | lapseClear (quad : Byte)
  | countClear (bank : Byte)
  deriving DecidableEq, Repr

/-- What an arriving packet holds, as far as the link checks tell it apart (R118, R120). -/
inductive Content where
  /-- a kind code of the part's own, or none of the table's (R120 check 3) -/
  | notAllowed
  /-- a kind that may arrive on an UP link, with a length that does not agree (R120 check 4) -/
  | badLength
  /-- a HELLO, and whether its length agrees (R118) -/
  | hello (lengthAgrees : Bool)
  /-- a LINK_RESET of agreeing length (R123) -/
  | linkReset
  /-- a request of agreeing length -/
  | request (r : Request)
  deriving DecidableEq, Repr

/-- A packet that arrives on a link: whether its check word agrees, its sequence number and tag, and its content. -/
structure Arrival where
  checkAgrees : Bool
  sequence : Seq
  tag : Tag
  content : Content
  deriving DecidableEq, Repr

/-- The commands: one constructor for each row of spec/opcode_table.json. -/
inductive Instr where
  -- power and reset
  | powerOn (resetNHigh : Bool) (carrier : Four Bool)
  | resetNFall
  | resetNRise
  -- the line and the world
  | carrierLoss (port : Port)
  | carrierReturn (port : Port)
  | unitCorruption (bank : Bank) (row : Row) (column : Fin 128) (dataBits : UnitData) (checkBits : BitVec 8)
  -- link packets
  | hello (port : Port)
  | ignoredPacket (port : Port) (bytes : List Byte)
  | inboundCheckFailure (port : Port) (bytes : List Byte)
  | linkReset (port : Port) (sequence : Seq)
  | packetArrivalInRetention (port : Port) (bytes : List Byte)
  | heldPacketArrival (port : Port) (bytes : List Byte)
  | wakeCompletion
  -- sessions
  | attach (h : Header) (role : Byte)
  | detach (h : Header)
  | idle (h : Header)
  -- holds
  | openBank (h : Header) (bank : Byte) (row : BitVec 16) (mode : HoldMode) (wait : Bool)
  | upgrade (h : Header) (bank : Byte)
  | closeBank (h : Header) (bank : Byte)
  -- bursts
  | read (h : Header) (bank column units : Byte) (autoClose : Bool)
  | write (h : Header) (bank column units : Byte) (autoClose : Bool) (data : List WriteUnit)
  | burstUnitStep
  | executionCompletion
  | cutCompletion
  -- banks
  | openCompletion (bank : Bank)
  | dwellExpiry (bank : Bank)
  | closeCompletion (bank : Bank)
  -- maintenance
  | retentionTimerExpiry
  | refreshCompletion
  | clearCompletion
  -- links
  | transmission (port : Port)
  -- configuration
  | cfgRead (h : Header) (item index : Byte)
  | cfgWriteRetentionInterval (h : Header) (value : Byte)
  | cfgWriteReclaimLevel (h : Header) (value : Byte)
  | cfgWritePullIn (h : Header) (index value : Byte)
  | cfgWriteHoldQuota (h : Header) (index value : Byte)
  | cfgWriteGrantPolicy (h : Header) (value : Byte)
  | cfgWriteIdleEntry (h : Header) (value : Byte)
  -- clear requests
  | faultClearIndex (h : Header) (index : Byte)
  | faultClearAll (h : Header)
  | lapseClear (h : Header) (quad : Byte)
  | countClear (h : Header) (bank : Byte)
  -- inspection
  | inspectSelf (h : Header)
  | inspectBank (h : Header) (bank : Byte)
  | inspectQuad (h : Header) (quad : Byte)
  | inspectFaults (h : Header)
  | inspectCounts (h : Header)
  | inspectDevice (h : Header)
  deriving DecidableEq, Repr

end Sys2Proof
end

