-- ==== Sys2Proof/WellFormed.lean ====
section
/-!
DEFINITION. Which commands are commands at all: the checks that a term of `Instr` stands for something that can come from
the outside. `exec` does not depend on them.
-/

namespace Sys2Proof

/-- The largest unit count a WRITE packet of at most 255 bytes can carry: 9 + 9 × 27 = 252 (R177). -/
def maxPacketUnits : Nat := 27

/-- A WRITE packet exists for its unit count and its data: "exactly the unit count the packet names" (R120), in at most
255 bytes (R177). -/
def writeShape (units : Byte) (data : List WriteUnit) : Bool :=
  data.length == units.toNat && units.toNat ≤ maxPacketUnits

/-- The well-formed commands. -/
def Instr.wf : Instr → Bool
  | .write _ _ _ units _ data => writeShape units data
  -- "One or more stored bits of a single unit change" (R103)
  | .unitCorruption _ _ _ dataBits checkBits => dataBits != 0 || checkBits != 0
  -- the argument FFh spells ALL, which is the row FAULT_CLEAR_ALL (11.2)
  | .faultClearIndex _ index => index != 0xFF
  | .powerOn .. | .resetNFall | .resetNRise | .carrierLoss .. | .carrierReturn .. | .hello .. | .ignoredPacket ..
  | .inboundCheckFailure .. | .linkReset .. | .packetArrivalInRetention .. | .heldPacketArrival .. | .wakeCompletion
  | .attach .. | .detach .. | .idle .. | .openBank .. | .upgrade .. | .closeBank .. | .read .. | .burstUnitStep
  | .executionCompletion | .cutCompletion | .openCompletion .. | .dwellExpiry .. | .closeCompletion ..
  | .retentionTimerExpiry | .refreshCompletion | .clearCompletion | .transmission .. | .cfgRead ..
  | .cfgWriteRetentionInterval .. | .cfgWriteReclaimLevel .. | .cfgWritePullIn .. | .cfgWriteHoldQuota ..
  | .cfgWriteGrantPolicy .. | .cfgWriteIdleEntry .. | .faultClearAll .. | .lapseClear .. | .countClear ..
  | .inspectSelf .. | .inspectBank .. | .inspectQuad .. | .inspectFaults .. | .inspectCounts .. | .inspectDevice .. => true

end Sys2Proof
end

