-- ==== Sys2Proof/Decode.lean ====
section
/-!
DEFINITION. The packet frame: from the byte string a link delivers to what the link checks see of it (R177, table 11-1,
11.2, R178), total on any bytes; after it the encoder, from a request to its bytes. `decodeTableWord` stands at the end: no row of
spec/opcode_table.json gives bits.
-/

namespace Sys2Proof

/-- One bit of the cyclic check with generator polynomial 1021h, most significant bit first (R177). -/
def crcBit (r : BitVec 16) : BitVec 16 := if r.msb then (r <<< 1) ^^^ 0x1021#16 else r <<< 1

/-- One byte of the cyclic check (R177). -/
def crcByte (r : BitVec 16) (b : Byte) : BitVec 16 :=
  let r0 := r ^^^ (b.setWidth 16 <<< 8)
  crcBit (crcBit (crcBit (crcBit (crcBit (crcBit (crcBit (crcBit r0)))))))

/-- The check word of a string: the register "is set to FFFFh before the first byte", "with no final inversion" (R177). -/
def checkWord (bytes : List Byte) : BitVec 16 := bytes.foldl crcByte 0xFFFF#16

/-- The high byte of a two-byte field, which is sent first (chapter 11). -/
def highByte (w : BitVec 16) : Byte := w.extractLsb' 8 8

/-- The low byte of a two-byte field. -/
def lowByte (w : BitVec 16) : Byte := w.extractLsb' 0 8

/-- A two-byte field from its bytes, high byte first (chapter 11). -/
def twoBytes (high low : Byte) : BitVec 16 := high ++ low

/-- The first `n - 2` of the `n` bytes received: what the check word is computed from (R177). -/
def checkedPart (bytes : List Byte) : List Byte := bytes.take (bytes.length - 2)

/-- Whether the check word agrees; a packet of fewer than 5 bytes has none (R177). -/
def checkAgrees (bytes : List Byte) : Bool :=
  5 ≤ bytes.length &&
    bytes.drop (bytes.length - 2) == [highByte (checkWord (checkedPart bytes)), lowByte (checkWord (checkedPart bytes))]

/-- The 8 data bytes of a unit, byte 0 first in the packet and lowest in the word (11.2, log 25). -/
def joinUnit (b : List Byte) : UnitData :=
  b.getD 7 0 ++ b.getD 6 0 ++ b.getD 5 0 ++ b.getD 4 0 ++ b.getD 3 0 ++ b.getD 2 0 ++ b.getD 1 0 ++ b.getD 0 0

/-- Byte `i` of a unit (R1). -/
def unitByte (d : UnitData) (i : Nat) : Byte := d.extractLsb' (8 * i) 8

/-- The 8 bytes of a unit in order. -/
def unitBytes (d : UnitData) : List Byte :=
  [unitByte d 0, unitByte d 1, unitByte d 2, unitByte d 3, unitByte d 4, unitByte d 5, unitByte d 6, unitByte d 7]

/-- `u` units of a WRITE body, each one mask byte and 8 data bytes (11.2). -/
def decodeUnits : Nat → List Byte → List WriteUnit
  | 0, _ => []
  | u + 1, bytes => ⟨bytes.getD 0 0, joinUnit (bytes.drop 1)⟩ :: decodeUnits u (bytes.drop 9)

/-- The mode bit of an OPEN's flags byte (11.2). -/
def modeOfBit (b : Bool) : HoldMode := if b then .exclusive else .shared

/-- A content that stands only where the length agrees. -/
def whenLength (agrees : Bool) (c : Content) : Content := if agrees then c else .badLength

/-- The content of a packet from its kind code, its length byte, the number of bytes received and its body
(table 11-1, 11.2, R177, R178). -/
def contentOf (kind : Byte) (lengthByte : Byte) (received : Nat) (body : List Byte) : Content :=
  let f := fun i => body.getD i 0
  let agrees := fun (l : Nat) => lengthByte.toNat == received && received == l
  match kind.toNat with
  | 0x01 => .hello (agrees 5)
  | 0x02 => whenLength (agrees 5) .linkReset
  | 0x10 => whenLength (agrees 6) (.request (.attach (f 0)))
  | 0x11 => whenLength (agrees 5) (.request .detach)
  | 0x12 => whenLength (agrees 5) (.request .idle)
  | 0x20 => whenLength (agrees 9)
      (.request (.openBank (f 0) (twoBytes (f 1) (f 2)) (modeOfBit ((f 3).getLsbD 0)) ((f 3).getLsbD 1)))
  | 0x21 => whenLength (agrees 6) (.request (.upgrade (f 0)))
  | 0x22 => whenLength (agrees 6) (.request (.closeBank (f 0)))
  | 0x30 => whenLength (agrees 9) (.request (.read (f 0) (f 1) (f 2) ((f 3).getLsbD 0)))
  | 0x31 => whenLength (agrees (9 + 9 * (f 2).toNat))
      (.request (.write (f 0) (f 1) (f 2) ((f 3).getLsbD 0) (decodeUnits (f 2).toNat (body.drop 4))))
  | 0x40 => whenLength (agrees 7) (.request (.cfgRead (f 0) (f 1)))
  | 0x41 => whenLength (agrees 8) (.request (.cfgWrite (f 0) (f 1) (f 2)))
  | 0x42 => whenLength (agrees 7) (.request (.inspect (f 0) (f 1)))
  | 0x43 => whenLength (agrees 6) (.request (.faultClear (f 0)))
  | 0x44 => whenLength (agrees 6) (.request (.lapseClear (f 0)))
  | 0x45 => whenLength (agrees 6) (.request (.countClear (f 0)))
  | _ => .notAllowed

/-- The sequence field, bits 7 to 4 of byte 1 (11.1). -/
def sequenceOf (b : Byte) : Seq := b.extractLsb' 4 4

/-- The tag field, bits 3 to 0 of byte 1 (11.1). -/
def tagOf (b : Byte) : Tag := ⟨b.toNat % 16, by omega⟩

/-- What the link checks see of a byte string (R177): the frame of 11.1, whatever the string. A string of fewer than 3
bytes lacks fields; its check word does not agree, so nothing else of it is looked at (R118, R120). -/
def decodePacket (bytes : List Byte) : Arrival :=
  let second := bytes.getD 1 0
  { checkAgrees := checkAgrees bytes
    sequence := sequenceOf second
    tag := tagOf second
    content := contentOf (bytes.getD 0 0) (bytes.getD 2 0) bytes.length
      ((bytes.drop 3).take (bytes.length - 5)) }

/-! ## The encoder (the master's side of the same tables) -/

/-- A frame: three-byte header, body, check word (11.1, R177). -/
def frame (kind : Byte) (sequence : Seq) (tag : Tag) (body : List Byte) : List Byte :=
  let checked := kind :: (sequence ++ BitVec.ofNat 4 tag.val : BitVec (4 + 4)) :: BitVec.ofNat 8 (body.length + 5) :: body
  checked ++ [highByte (checkWord checked), lowByte (checkWord checked)]

/-- A flag bit as a byte. -/
def flagByte (b : Bool) : Byte := if b then 1 else 0

/-- The mode bit of a flags byte or of a mode field (11.2, 11.3). -/
def modeByte : HoldMode → Byte
  | .shared => 0
  | .exclusive => 1

/-- The units of a WRITE body (11.2). -/
def encodeUnits : List WriteUnit → List Byte
  | [] => []
  | w :: ws => (w.mask :: unitBytes w.data) ++ encodeUnits ws

/-- The kind code of a request (table 11-1). -/
def requestKind : Request → Byte
  | .attach _ => 0x10
  | .detach => 0x11
  | .idle => 0x12
  | .openBank .. => 0x20
  | .upgrade _ => 0x21
  | .closeBank _ => 0x22
  | .read .. => 0x30
  | .write .. => 0x31
  | .cfgRead .. => 0x40
  | .cfgWrite .. => 0x41
  | .inspect .. => 0x42
  | .faultClear _ => 0x43
  | .lapseClear _ => 0x44
  | .countClear _ => 0x45

/-- The body of a request (11.2). -/
def requestBody : Request → List Byte
  | .attach role => [role]
  | .detach => []
  | .idle => []
  | .openBank bank row mode wait => [bank, highByte row, lowByte row, modeByte mode ||| (flagByte wait <<< 1)]
  | .upgrade bank => [bank]
  | .closeBank bank => [bank]
  | .read bank column units autoClose => [bank, column, units, flagByte autoClose]
  | .write bank column units autoClose data => [bank, column, units, flagByte autoClose] ++ encodeUnits data
  | .cfgRead item index => [item, index]
  | .cfgWrite item index value => [item, index, value]
  | .inspect target number => [target, number]
  | .faultClear index => [index]
  | .lapseClear quad => [quad]
  | .countClear bank => [bank]

/-- The bytes of a request packet (R177). -/
def encodeRequest (sequence : Seq) (tag : Tag) (r : Request) : List Byte :=
  frame (requestKind r) sequence tag (requestBody r)

/-- The requests a packet can spell: a WRITE's data is of its unit count and fits in 255 bytes (R177). -/
def Request.encodable : Request → Bool
  | .write _ _ units _ data => writeShape units data
  | .attach _ | .detach | .idle | .openBank .. | .upgrade _ | .closeBank _ | .read .. | .cfgRead .. | .cfgWrite ..
  | .inspect .. | .faultClear _ | .lapseClear _ | .countClear _ => true

/-! ## Packets of the packet commands -/

/-- The arrival of a packet whose check word agrees. A WRITE whose data does not match its count is "a packet whose length
is inconsistent with its kind" (R54, R120, R177). -/
def goodArrival (sequence : Seq) (tag : Tag) (r : Request) : Arrival :=
  { checkAgrees := true, sequence := sequence, tag := tag
    content := if r.encodable then .request r else .badLength }

/-- A well-formed HELLO: agreeing check word, kind and length, sequence number 0 (R118). -/
def helloArrival : Arrival := { checkAgrees := true, sequence := 0, tag := 0, content := .hello true }

/-- A LINK_RESET of agreeing check word and length (R123). -/
def linkResetArrival (sequence : Seq) : Arrival :=
  { checkAgrees := true, sequence := sequence, tag := 0, content := .linkReset }

/-- The command that a word spells by the opcode table's bits: the table gives no row any bits, so there is none. -/
def decodeTableWord (nbits w : Nat) : Option Instr :=
  match nbits, w with
  | _, _ => none

end Sys2Proof
end

