-- ==== Sys2Proof/Config.lean ====
section
/-!
DEFINITION. The free values: what the manual leaves open, as constants without a body. No proof can see what they are, so
a claim that goes through says it of every value. (The durations and ranges that the manual fixes stand in
Machine/Timing.lean.)
-/

namespace Sys2Proof

/-- The number of set bits among the first `n`. -/
def countBits {w : Nat} (x : BitVec w) : Nat → Nat
  | 0 => 0
  | n + 1 => countBits x n + (if x.getLsbD n then 1 else 0)

/-! ## That a check code of R102 exists

The constant `Config.code` below needs a code to exist. This one is not the part's: nothing is ever computed with it. -/

/-- The bytes with three or five set bits. -/
def oddBytes : List Byte :=
  ((List.range 256).map (BitVec.ofNat 8)).filter (fun b => countBits b 8 == 3 || countBits b 8 == 5)

/-- The sum of the columns of the set data bits among the first `n`. -/
def columnSum (d : UnitData) : Nat → Byte
  | 0 => 0#8
  | n + 1 => columnSum d n ^^^ (if d.getLsbD n then oddBytes.getD n 0 else 0#8)

theorem columnSum_xor (d e : UnitData) : ∀ n, columnSum (d ^^^ e) n = columnSum d n ^^^ columnSum e n
  | 0 => by simp [columnSum]
  | n + 1 => by
    simp only [columnSum, columnSum_xor d e n, BitVec.getLsbD_xor]
    generalize columnSum d n = a
    generalize columnSum e n = b
    generalize oddBytes.getD n 0 = c
    have h : ∀ x y z : Byte, x ^^^ y ^^^ z = x ^^^ z ^^^ y := fun x y z => by rw [BitVec.xor_assoc, BitVec.xor_comm y, BitVec.xor_assoc]
    cases d.getLsbD n <;> cases e.getLsbD n
    · simp
    · simp [BitVec.xor_assoc]
    · simp [h a c b]
    · simp only [Bool.xor_self, if_true, Bool.false_eq_true, if_false]
      rw [h a c, BitVec.xor_assoc a b, BitVec.xor_assoc, BitVec.xor_assoc, BitVec.xor_self, BitVec.xor_zero]

theorem countBits_xor_parity {w : Nat} (a b : BitVec w) : ∀ n,
    countBits (a ^^^ b) n % 2 = (countBits a n + countBits b n) % 2
  | 0 => rfl
  | n + 1 => by
    have h := countBits_xor_parity a b n
    simp only [countBits, BitVec.getLsbD_xor]
    cases a.getLsbD n <;> cases b.getLsbD n <;> simp <;> omega

theorem oddBytes_length : oddBytes.length = 112 := by decide +kernel
theorem oddBytes_nodup : oddBytes.Nodup := by decide +kernel
theorem oddBytes_weight : ∀ b ∈ oddBytes, countBits b 8 % 2 = 1 ∧ 3 ≤ countBits b 8 := by decide +kernel

theorem column_mem {n : Nat} (h : n < 64) : oddBytes.getD n 0 ∈ oddBytes := by
  have hl : n < oddBytes.length := by rw [oddBytes_length]; omega
  rw [List.getD_eq_getElem _ _ hl]
  exact List.getElem_mem hl

theorem column_injective {m n : Nat} (hm : m < 64) (hn : n < 64) (h : oddBytes.getD m 0 = oddBytes.getD n 0) : m = n := by
  have hml : m < oddBytes.length := by rw [oddBytes_length]; omega
  have hnl : n < oddBytes.length := by rw [oddBytes_length]; omega
  rw [List.getD_eq_getElem _ _ hml, List.getD_eq_getElem _ _ hnl] at h
  exact (List.Nodup.getElem_inj_iff oddBytes_nodup).1 h

/-- The weight of a column sum is even or odd as the number of its columns. -/
theorem columnSum_parity (d : UnitData) : ∀ n, n ≤ 64 → countBits (columnSum d n) 8 % 2 = countBits d n % 2
  | 0, _ => by simp [columnSum, countBits]
  | n + 1, hn => by
    have h := columnSum_parity d n (by omega)
    have hc := (oddBytes_weight _ (column_mem (show n < 64 by omega))).1
    rw [show columnSum d (n + 1) = columnSum d n ^^^ (if d.getLsbD n then oddBytes.getD n 0 else 0#8) from rfl,
      show countBits d (n + 1) = countBits d n + (if d.getLsbD n then 1 else 0) from rfl]
    cases d.getLsbD n
    · simpa using h
    · rw [if_pos rfl, if_pos rfl, countBits_xor_parity]; omega

/-- No column, one, or two different ones: the sum of the columns of few data bits. -/
theorem columnSum_few (d : UnitData) : ∀ n, n ≤ 64 →
    (countBits d n = 0 → columnSum d n = 0#8)
      ∧ (countBits d n = 1 → ∃ i < n, columnSum d n = oddBytes.getD i 0)
      ∧ (countBits d n = 2 → ∃ i < n, ∃ j < i, columnSum d n = oddBytes.getD j 0 ^^^ oddBytes.getD i 0)
  | 0, _ => ⟨fun _ => rfl, fun h => by simp [countBits] at h, fun h => by simp [countBits] at h⟩
  | n + 1, hn => by
    obtain ⟨h0, h1, h2⟩ := columnSum_few d n (by omega)
    simp only [columnSum, countBits]
    cases d.getLsbD n
    · simp only [Bool.false_eq_true, if_false, Nat.add_zero, BitVec.xor_zero]
      refine ⟨h0, fun h => ?_, fun h => ?_⟩
      · obtain ⟨i, hi, e⟩ := h1 h; exact ⟨i, by omega, e⟩
      · obtain ⟨i, hi, j, hj, e⟩ := h2 h; exact ⟨i, by omega, j, hj, e⟩
    · simp only [if_true]
      refine ⟨fun h => by omega, fun h => ⟨n, by omega, ?_⟩, fun h => ?_⟩
      · rw [h0 (by omega)]; exact BitVec.zero_xor
      · obtain ⟨i, hi, e⟩ := h1 (by omega)
        exact ⟨n, by omega, i, hi, by rw [e]⟩

theorem weight_zero (b : Byte) (h : countBits b 8 = 0) : b = 0 := by
  revert h; revert b; decide +kernel

theorem countBits_zero_imp {w : Nat} (d : BitVec w) : ∀ n, countBits d n = 0 → ∀ i < n, d.getLsbD i = false
  | 0, _, _, hi => by omega
  | n + 1, h, i, hi => by
    simp only [countBits] at h
    rcases Nat.lt_succ_iff_lt_or_eq.1 hi with hlt | rfl
    · exact countBits_zero_imp d n (by omega) i hlt
    · cases hd : d.getLsbD i
      · rfl
      · rw [hd] at h; simp at h

/-- Two words of the column code differ in at least four of their 72 bits. -/
theorem columnSum_distance (d e : UnitData) (he : e ≠ 0) :
    4 ≤ countBits e 64 + countBits (columnSum d 64 ^^^ columnSum (d ^^^ e) 64) 8 := by
  rw [columnSum_xor, ← BitVec.xor_assoc, BitVec.xor_self, BitVec.zero_xor]
  obtain ⟨-, h1, h2⟩ := columnSum_few e 64 (le_refl _)
  have hp := columnSum_parity e 64 (le_refl _)
  have h0 : countBits e 64 ≠ 0 := fun h => he (by
    ext i hi
    have := countBits_zero_imp e 64 h i hi
    rw [BitVec.getLsbD_eq_getElem hi] at this
    rw [this]; simp)
  rcases Nat.lt_or_ge (countBits e 64) 3 with hlt | hge
  · interval_cases hk : countBits e 64
    · exact absurd rfl h0
    · obtain ⟨i, hi, hs⟩ := h1 rfl
      have := (oddBytes_weight _ (column_mem hi)).2
      rw [hs]; omega
    · obtain ⟨i, hi, j, hj, hs⟩ := h2 rfl
      have hne : countBits (columnSum e 64) 8 ≠ 0 := fun hz => by
        have hxor := weight_zero _ hz
        rw [hs] at hxor
        exact absurd (column_injective (show j < 64 by omega) hi (BitVec.xor_eq_zero_iff.1 hxor)) (by omega)
      omega
  · omega

/-! ## The free values -/

/-- A check code: eight check bits for 8 data bytes (log 10), which "let the integrity unit correct any single changed bit in
the unit and detect any two changed bits" (R102). For that any two units in agreement with their check bits must differ in
four of their 72 bits or more. -/
structure CheckCode where
  checkBits : UnitData → Byte := fun d => columnSum d 64
  distance : ∀ d e : UnitData, e ≠ 0 → 4 ≤ countBits e 64 + countBits (checkBits d ^^^ checkBits (d ^^^ e)) 8 := by
    exact columnSum_distance
  deriving Inhabited

/-- The part's check code. "The check code is not given in this manual" (R104): any code of R102 (log 10). -/
opaque Config.code : CheckCode

/-- What the check bits of a unit indicate (R104): nothing wrong, one bit to change (0 to 63 a data bit, 64 to 71 a check
bit), or more than can be corrected. -/
inductive Syndrome where
  | clean
  | oneBit (bit : Fin 72)
  | uncorrectable
  deriving DecidableEq, Repr, Inhabited

/-- What stored data and stored check bits indicate that are three changed bits or more from every unit in agreement: "a
function of the stored data and check bits that the manual leaves open" (R104, log 10). -/
opaque Config.manyBitOutcome : UnitData → Byte → Syndrome

/-- The byte at a byte address of an array region whose contents are undefined (R4), in a numbered epoch (log 9). -/
opaque Config.undefinedByte : Nat → Nat → Byte

/-- The disagreement with the check bits of a unit whose check bits are undefined (R4, R102): cell by cell, in a numbered
epoch (log 9). -/
opaque Config.undefinedUpset : Nat → Nat → Byte

/-- How long after the start of the clear of a numbered epoch the clear writes a unit: "in the course of the quad clear
interval" (R167), which fixes no moment (log 11). -/
opaque Config.clearWriteTime : Nat → Nat → Nat

/-- Whether a numbered OPEN that falls together with a refresh start of its bank's quad is taken before the start: "Either may be
taken first" (R92, log 30). -/
opaque Config.openBeforeStart : Nat → Bool

/-- Whether a numbered corruption that falls together with the corrected rewrite of its unit is taken before the rewrite, after
the unit has been read: R106 gives both orders (log 33). -/
opaque Config.corruptionBeforeRewrite : Nat → Bool

end Sys2Proof
end

