-- ==== Sys2Proof/Machine/State.lean ====
section
/-!
DEFINITION. The state of the QB-416 as plain data, block by block (00_scope.md section 3), its reset value, and the
reasons a step can stop. Every field cites the rule that names it; INVENTORY.md lists them.
-/

namespace Sys2Proof.Machine

open Sys2Proof

/-! ## The array (R1, R3, R4, R102) -/

/-- Cells by address: strictly rising addresses, and no entry equal to what an unlisted address reads as. -/
abbrev Memory := List Host.Cell

/-- What the unlisted cells of a quad read as. -/
inductive QuadBase where
  /-- every unit zero with valid check bits, by a clear since power-on (R17, R167) -/
  | zero
  /-- contents and check bits undefined (R4): the free values of a numbered epoch (log 9) -/
  | undefined (epoch : Nat)
  /-- a clear was abandoned, `elapsed` after its start: "the units already zeroed stay zero, the others keep their contents"
  (R17), and which had been zeroed by then is `Config.clearWriteTime` (log 11) -/
  | partlyZeroed (clear elapsed : Nat) (under : QuadBase)
  deriving DecidableEq, Repr

/-- A unit as it stands: its 8 data bytes as last written, and the stored bits that have changed since (R104). -/
structure UnitBits where
  written : UnitData
  changedData : UnitData
  changedCheck : Byte
  deriving DecidableEq, Repr

/-- The array. `cells` holds the data bytes as last written; `upsets` the stored bits that have changed since (R104),
9 cells a unit: 8 of data bits and 1 of check bits (log 10). -/
structure ArrayState where
  cells : Memory
  upsets : Memory
  /-- stored bits changed in units of the quad being cleared since the clear has written them (R167, log 11) -/
  lateUpsets : Memory
  base : Four QuadBase
  /-- the next unused epoch (log 9) -/
  epoch : Nat
  deriving DecidableEq, Repr

/-! ## Bank records (R5, R21, R23, R43) -/

/-- The bank states (section 1.5). -/
inductive BankPhase where
  | closed
  | opening
  | opened
  | closeWait
  | closing
  | refreshing
  | clearing
  deriving DecidableEq, Repr

/-- A hold record (section 2.1). -/
structure HoldRecord where
  port : Port
  mode : HoldMode
  releasing : Bool
  revokePending : Bool
  openTag : Option Tag
  closeTag : Option Tag
  /-- the place of its grant among all grants and waits (R22, log 15) -/
  stamp : Nat
  deriving DecidableEq, Repr

/-- A wait entry (section 2.2). -/
structure WaitEntry where
  port : Port
  tag : Tag
  row : Row
  mode : HoldMode
  /-- the place of its joining among all grants and waits (R22, log 15) -/
  stamp : Nat
  deriving DecidableEq, Repr

/-- The pending upgrade of a bank: the port and the UPGRADE's tag (R43). -/
structure PendingUpgrade where
  port : Port
  tag : Tag
  deriving DecidableEq, Repr

/-- A bank record (section 1.3). -/
structure BankRecord where
  phase : BankPhase
  row : Option Row
  /-- in grant order -/
  holds : List HoldRecord
  dwellExpired : Option Bool
  /-- oldest first -/
  waitQueue : List WaitEntry
  upgrade : Option PendingUpgrade
  lastGranted : Port
  /-- the end of the running row open, dwell or row close interval (R9); at most one of the three runs on a bank -/
  endsAt : Option Nat
  deriving DecidableEq, Repr

/-! ## Burst engine (R53, R56, R58, R69) -/

inductive BurstKind where
  | read
  | write
  deriving DecidableEq, Repr

/-- A queued burst (R53). -/
structure QueuedBurst where
  port : Port
  tag : Tag
  kind : BurstKind
  bank : Bank
  row : Row
  column : Nat
  units : Nat
  autoClose : Bool
  /-- the unit list of a WRITE, in column order -/
  data : List WriteUnit
  deriving DecidableEq, Repr

/-- Unit statuses of burst responses (R60, R62 to R64; 11.3). -/
inductive UnitStatus where
  | ok
  | corrected
  | poisoned
  | written
  | unchanged
  deriving DecidableEq, Repr

/-- What one unit's step gives the response: its status and, for a READ, its data. -/
structure UnitResult where
  data : UnitData
  status : UnitStatus
  deriving DecidableEq, Repr

/-- The executing burst: the time of the arbiter's choice and the units finished so far, in column order (R59). -/
structure Execution where
  burst : QueuedBurst
  startedAt : Nat
  results : List UnitResult
  /-- once RESET_N fall has cut the burst within a unit: when that unit is finished, which is the cut completion (R69) -/
  cut : Option Nat
  deriving DecidableEq, Repr

structure BurstEngine where
  queues : Four (List QueuedBurst)
  executing : Option Execution
  lastServed : Port
  deriving DecidableEq, Repr

/-! ## Retention controller (section 4.1) -/

inductive Maintenance where
  | current
  | due
  | forced
  deriving DecidableEq, Repr

/-- The account of one quad (R73, R74, R85). -/
structure QuadAccount where
  debt : Int
  state : Maintenance
  lapse : Bool
  deriving DecidableEq, Repr

/-- The retention timer: the length of the running period, 16 to 128 steps of 0.1 µs, and its end (R75). -/
structure RetentionTimer where
  period : Nat
  endsAt : Nat
  deriving DecidableEq, Repr

/-- A refresh in progress (R87). -/
structure RefreshRun where
  quad : Quad
  endsAt : Nat
  deriving DecidableEq, Repr

/-! ## Integrity unit (R107, R112, R113) -/

inductive FaultKind where
  | read
  | merge
  deriving DecidableEq, Repr

/-- An entry of the fault unit list; its index is its position (R108). -/
structure FaultEntry where
  bank : Bank
  row : Row
  column : Nat
  port : Port
  kind : FaultKind
  deriving DecidableEq, Repr

structure IntegrityUnit where
  /-- oldest detection first -/
  faults : List FaultEntry
  overflow : Bool
  /-- corrected counts, one a bank -/
  counts : Sixteen Nat
  deriving DecidableEq, Repr

/-! ## Configuration table (R151) -/

inductive GrantPolicy where
  | arrival
  | rotating
  deriving DecidableEq, Repr

structure ConfigTable where
  retentionInterval : Nat
  reclaimLevel : Nat
  pullIn : Four Bool
  holdQuota : Four Nat
  grantPolicy : GrantPolicy
  idleEntry : Bool
  /-- the port whose session holds MAINTAINER -/
  maintainer : Option Port
  deriving DecidableEq, Repr

/-! ## Mode controller (R163) -/

inductive DeviceMode where
  | clearing
  | active
  | retention
  | waking
  | reset
  deriving DecidableEq, Repr

inductive ClearState where
  | uncleared
  | clearing
  | cleared
  deriving DecidableEq, Repr

/-- A clear in progress (R166): its quad, its start, and the number that tells it from every other clear (log 11). -/
structure ClearRun where
  quad : Quad
  startedAt : Nat
  epoch : Nat
  deriving DecidableEq, Repr

structure ModeController where
  mode : DeviceMode
  clearStates : Four ClearState
  resetDuringClearing : Bool
  clearRun : Option ClearRun
  /-- the end of the wake interval, while it runs -/
  wakeEndsAt : Option Nat
  deriving DecidableEq, Repr

/-! ## Sessions (R133) -/

inductive SessionState where
  | none
  | attached
  | detaching
  | teardown
  deriving DecidableEq, Repr

inductive Role where
  | user
  | maintainer
  deriving DecidableEq, Repr

inductive TagState where
  | free
  | busy
  | queued
  deriving DecidableEq, Repr

structure Session where
  state : SessionState
  role : Option Role
  tags : Sixteen TagState
  idleVote : Bool
  detachTag : Option Tag
  deriving DecidableEq, Repr

/-! ## Answers, notices and link units (R116, R127, R128, chapter 11) -/

/-- Refusal reasons (table 11-2). -/
inductive Reason where
  | notAttached
  | alreadyAttached
  | bounds
  | alreadyHeld
  | alreadyWaiting
  | quota
  | bankBusy
  | maintenance
  | starting
  | notHeld
  | notExclusive
  | upgradeConflict
  | burstFull
  | denied
  | range
  | inUse
  deriving DecidableEq, Repr

/-- Link fault reasons (table 11-3). -/
inductive FaultReason where
  | none
  | check
  | sequence
  | kind
  | length
  | tag
  | reset
  | carrier
  deriving DecidableEq, Repr

/-- The fields of an OK by the request answered (11.3). -/
inductive OkBody where
  | plain
  | attach (role : Role) (roleTaken : Bool) (quota : Nat) (port : Port) (mode : DeviceMode)
  | close (notHeld : Bool)
  | write (bank : Bank) (row : Row) (column units : Nat) (statuses : List UnitStatus)
  | cfgWrite (item index : Byte) (value : Nat)
  | faultCleared (bank : Bank) (row : Row) (column : Nat)
  deriving DecidableEq, Repr

/-- The fields of a DATA by the request answered (11.3). -/
inductive DataBody where
  | read (bank : Bank) (row : Row) (column units : Nat) (lapse : Bool) (results : List UnitResult)
  | cfgOne (item index : Byte) (value : Nat) (maintainer : Option Port)
  | cfgAll (table : ConfigTable)
  | inspect (target : Byte) (record : List Byte)
  deriving DecidableEq, Repr

/-- Response statuses with their fields (11.3). -/
inductive Answer where
  | ok (body : OkBody)
  | queued
  | granted (bank : Bank) (row : Row) (mode : HoldMode)
  | data (body : DataBody)
  | cancelled
  | revoked
  | refused (reason : Reason)
  deriving DecidableEq, Repr

/-- An entry of an outbound queue: a response for a tag, or a notice (R127, R128). -/
inductive OutEntry where
  | response (tag : Tag) (answer : Answer)
  | reclaim (bank : Bank) (row : Row) (debt : Int) (count : Nat)
  | revoked (bank : Bank) (row : Row) (count : Nat)
  | lapse (quad : Quad) (count : Nat)
  deriving DecidableEq, Repr

/-- The packets of the control slot (R126). -/
inductive ControlPacket where
  | helloAck
  | linkFault (reason : FaultReason)
  deriving DecidableEq, Repr

/-- A packet held through a wake, with its place among all arrivals (R131, log 15). -/
structure HeldPacket where
  stamp : Nat
  packet : Arrival
  deriving DecidableEq, Repr

/-- A link unit (R116). -/
structure Link where
  up : Bool
  carrier : Bool
  expectedSeq : Seq
  outboundSeq : Seq
  control : Option ControlPacket
  queue : List OutEntry
  held : List HeldPacket
  overrun : Bool
  lastFault : FaultReason
  /-- the bytes of the packet last transmitted on the link (the link's output; log 16) -/
  sent : List Byte
  deriving DecidableEq, Repr

/-! ## The machine -/

/-- The model's own marks of what has just been taken, by which it knows an event that falls together with the next one, and the
counts that number those events for `Config` (logs 30, 33). No rule of the part reads them. -/
structure RecentMarks where
  /-- requests taken so far -/
  requests : Nat
  /-- `requests` as it stood at the last refresh start -/
  startedAfter : Nat
  /-- unit corruptions so far -/
  corruptions : Nat
  /-- the unit last rewritten after a correctable read, and the time of its rewrite (R106) -/
  rewritten : Option (Nat × Nat)
  deriving DecidableEq, Repr

structure State where
  /-- time, in half nanoseconds (log 3) -/
  now : Nat
  /-- the next place in the order of grants, waits and held arrivals (log 15) -/
  stamp : Nat
  marks : RecentMarks
  modeCtl : ModeController
  array : ArrayState
  banks : Sixteen BankRecord
  bursts : BurstEngine
  quads : Four QuadAccount
  timer : RetentionTimer
  refresh : Option RefreshRun
  integrity : IntegrityUnit
  config : ConfigTable
  sessions : Four Session
  links : Four Link
  /-- the commands that wait, first in, first out -/
  pending : List Instr
  deriving DecidableEq, Repr

/-- The reasons a step stops. Each is raised by a command that stands for the end of an interval, or for a transmission,
which cannot occur in the state it is taken in; the manual gives such an event no meaning. All are safe: the part never
takes the event there (log 5). -/
inductive Fault where
  /-- raised by BURST_UNIT_STEP when no unit of an executing, uncut burst is left to step (R59). Safe. -/
  | noUnitToStep
  /-- raised by EXECUTION_COMPLETION when no burst executes, or it has been cut (R65, R69). Safe. -/
  | noExecution
  /-- raised by CUT_COMPLETION when no burst has been cut (R69). Safe. -/
  | noCut
  /-- raised by OPEN_COMPLETION of a bank that is not OPENING (R11). Safe. -/
  | noRowOpen (bank : Bank)
  /-- raised by DWELL_EXPIRY of a bank whose dwell is not running (R12). Safe. -/
  | noDwell (bank : Bank)
  /-- raised by CLOSE_COMPLETION of a bank that is not CLOSING (R15). Safe. -/
  | noRowClose (bank : Bank)
  /-- raised by REFRESH_COMPLETION when the refresh unit is idle (R93). Safe. -/
  | noRefresh
  /-- raised by CLEAR_COMPLETION when no clear is in progress (R166). Safe. -/
  | noClear
  /-- raised by WAKE_COMPLETION when the wake interval is not running (R171). Safe. -/
  | noWake
  /-- raised by TRANSMISSION on a link that has no packet to send, has no carrier, or is in RESET (R130, R132). Safe. -/
  | nothingToSend (port : Port)
  deriving DecidableEq, Repr

/-- Why a command has no meaning. -/
inductive Refusal where
  /-- raised by `exec` for a command not modelled yet. Safe. -/
  | notModelled (mnemonic : String)
  deriving DecidableEq, Repr

/-- The outcomes of a command. -/
abbrev Result := Host.Outcome State Fault Refusal

/-! ## Power-on and reset -/

/-- A bank record at power-on (R7). -/
def BankRecord.powerOn : BankRecord :=
  { phase := .closed, row := none, holds := [], dwellExpired := none, waitQueue := [], upgrade := none
    lastGranted := 3, endsAt := none }

/-- A quad account at power-on (R96). -/
def QuadAccount.powerOn : QuadAccount := { debt := 0, state := .current, lapse := false }

/-- The configuration defaults (8.1). -/
def ConfigTable.default : ConfigTable :=
  { retentionInterval := 64, reclaimLevel := 8, pullIn := Four.all false, holdQuota := Four.all 4
    grantPolicy := .arrival, idleEntry := true, maintainer := none }

/-- A session record at power-on (R133). -/
def Session.powerOn : Session :=
  { state := .none, role := none, tags := sixteenAll .free, idleVote := false, detachTag := none }

/-- A link unit at power-on, its carrier "as the line stands" (R116). -/
def Link.powerOn (carrier : Bool) : Link :=
  { up := false, carrier := carrier, expectedSeq := 0, outboundSeq := 0, control := none, queue := []
    held := [], overrun := false, lastFault := .none, sent := [] }

/-- No request, refresh start, corruption or rewrite yet. -/
def RecentMarks.none : RecentMarks :=
  { requests := 0, startedAfter := 0, corruptions := 0, rewritten := .none }

/-- The part at power-on (R165), at time `now`, with the array undefined in epoch `epoch` (R4) and `pending` still waiting; the
counts of `marks` go on.
With RESET_N high the clear of quad 0 starts at once and banks 0 to 3 go to CLEARING; with RESET_N low the mode is RESET,
every quad is UNCLEARED and the reset-during-clearing note is yes. The first retention period is 6.4 µs. -/
def State.powerOn (resetNHigh : Bool) (carrier : Four Bool) (now epoch : Nat) (marks : RecentMarks) (pending : List Instr) :
    State :=
  let bank0 : BankRecord := if resetNHigh then { BankRecord.powerOn with phase := .clearing } else BankRecord.powerOn
  { now := now
    stamp := 0
    marks := { marks with rewritten := .none }
    modeCtl :=
      { mode := if resetNHigh then .clearing else .reset
        clearStates := { Four.all ClearState.uncleared with q0 := if resetNHigh then .clearing else .uncleared }
        resetDuringClearing := !resetNHigh
        clearRun := if resetNHigh then some { quad := 0, startedAt := now, epoch := epoch } else none
        wakeEndsAt := none }
    array :=
      { cells := [], upsets := [], lateUpsets := [], base := Four.all (.undefined epoch), epoch := epoch + 1 }
    banks := { sixteenAll BankRecord.powerOn with q0 := Four.all bank0 }
    bursts := { queues := Four.all [], executing := none, lastServed := 3 }
    quads := Four.all QuadAccount.powerOn
    timer := { period := 64, endsAt := now + 12800 }
    refresh := none
    integrity := { faults := [], overflow := false, counts := sixteenAll 0 }
    config := ConfigTable.default
    sessions := Four.all Session.powerOn
    links := carrier.map Link.powerOn
    pending := pending }

/-- The machine right after reset: power-on with RESET_N high (log 1) and carrier present on all four links (log 2). -/
def State.reset : State := State.powerOn true (Four.all true) 0 0 .none []

end Sys2Proof.Machine
end

