-- ==== Sys2Proof/Machine/Timing.lean ====
section
/-!
DEFINITION. The timing table (section 9.1) in half nanoseconds, and the fixed limits of section 2 of spec/00_scope.md.
-/

namespace Sys2Proof.Machine

/-- Row open: 14 ns. -/
def rowOpenTime : Nat := 28

/-- Row dwell: 36 ns. -/
def rowDwellTime : Nat := 72

/-- Row close: 14 ns. -/
def rowCloseTime : Nat := 28

/-- The part of a burst's execution before its first unit's step begins: 8 ns (R59). -/
def burstLeadTime : Nat := 16

/-- One unit's step: 2.5 ns (R59). -/
def unitStepTime : Nat := 5

/-- Quad refresh: 280 ns. -/
def refreshTime : Nat := 560

/-- One step of RETENTION_INTERVAL: 0.1 µs (R75). -/
def retentionStepTime : Nat := 200

/-- Quad clear: 1.3 ms. -/
def clearTime : Nat := 2600000

/-- Wake: 4 µs. -/
def wakeTime : Nat := 8000

/-- Bursts a port's burst queue holds (R54). -/
def burstQueueLimit : Nat := 8

/-- Packets a link unit holds through a wake (R131). -/
def heldLimit : Nat := 32

/-- Entries of the fault unit list (R108). -/
def faultListLimit : Nat := 16

/-- The top of a corrected count (R113) and of a RECLAIM or LAPSE notice's count (R128). -/
def countLimit : Nat := 255

/-- The force level (R74). -/
def forceLevel : Int := 12

/-- The lowest debt, reached by pull-in (R73, R88). -/
def pullInDebt : Int := -4

end Sys2Proof.Machine
end

