-- ==== Sys2Proof/Machine/Ops.lean ====
section
/-!
DEFINITION. The named operations every meaning is built from: the canonical memory, the array's units, the accessors of
the records, time, and the ways an answer or a notice reaches an outbound queue (R122, R127, R128, R138).
-/

namespace Sys2Proof.Machine

open Sys2Proof

/-! ## Enumerations -/

/-- The ports in order P0 to P3 (also the quads 0 to 3, and the places of a bank in its quad). -/
def allFour : List (Fin 4) := [0, 1, 2, 3]

/-- The bank `4q + i` (R2). -/
def quadBank (q : Quad) (i : Fin 4) : Bank := ⟨4 * q.val + i.val, by omega⟩

/-- The banks of a quad in the order 4q to 4q+3. -/
def quadBanks (q : Quad) : List Bank := [quadBank q 0, quadBank q 1, quadBank q 2, quadBank q 3]

/-- The banks in order. -/
def allBanks : List Bank := [0, 1, 2, 3, 4, 5, 6, 7, 8, 9, 10, 11, 12, 13, 14, 15]

/-- The tags in order. -/
def allTags : List Tag := [0, 1, 2, 3, 4, 5, 6, 7, 8, 9, 10, 11, 12, 13, 14, 15]

/-- The ports tried after `p` in the cycle P0, P1, P2, P3, P0 (R33, R58). -/
def cycleAfter (p : Port) : List Port := [p + 1, p + 2, p + 3, p]

/-! ## Memory in canonical form

`d a` is what the unlisted address `a` reads as. -/

/-- The listed byte at an address, if there is one. -/
def Memory.find : Memory → Nat → Option Byte
  | [], _ => none
  | c :: m, a => if c.1 = a then some c.2 else Memory.find m a

/-- The byte at an address. -/
def Memory.read (d : Nat → Byte) (m : Memory) (a : Nat) : Byte := (Memory.find m a).getD (d a)

/-- The memory without an entry at `a`. -/
def Memory.erase : Memory → Nat → Memory
  | [], _ => []
  | c :: m, a => if c.1 = a then m else c :: Memory.erase m a

/-- The memory with the entry `(a, v)` in its place by address. -/
def Memory.insert : Memory → Nat → Byte → Memory
  | [], a, v => [(a, v)]
  | c :: m, a, v =>
    if a < c.1 then (a, v) :: c :: m
    else if c.1 = a then (a, v) :: m
    else c :: Memory.insert m a v

/-- The memory after a byte is written: an entry, or none where the value is what an unlisted address reads as. -/
def Memory.write (d : Nat → Byte) (m : Memory) (a : Nat) (v : Byte) : Memory :=
  if v = d a then Memory.erase m a else Memory.insert m a v

/-- The bytes of a list written from address `a` on. -/
def Memory.writeAll (d : Nat → Byte) : Memory → Nat → List Byte → Memory
  | m, _, [] => m
  | m, a, v :: vs => Memory.writeAll d (Memory.write d m a v) (a + 1) vs

/-- Addresses strictly rising, all above `low` where there is a bound. -/
def Memory.rising : Option Nat → Memory → Bool
  | _, [] => true
  | none, c :: m => Memory.rising (some c.1) m
  | some low, c :: m => decide (low < c.1) && Memory.rising (some c.1) m

/-- The canonical form: addresses strictly rising, and no entry equal to what an unlisted address reads as. -/
def Memory.wf (d : Nat → Byte) (m : Memory) : Bool :=
  Memory.rising none m && m.all (fun c => decide (c.2 ≠ d c.1))

/-! ## The array's units -/

/-- The index of a unit: bank, then row, then column (R1). -/
def unitIndex (bank : Bank) (row : Row) (column : Nat) : Nat := (bank.val * 8192 + row.val) * 128 + column

/-- Units in a quad: 4 banks of 8192 rows of 128 units. -/
def unitsPerQuad : Nat := 4194304

/-- The quad a unit lies in (R2). -/
def quadOfUnit (u : Nat) : Quad := ⟨u / unitsPerQuad % 4, by omega⟩

/-- Cells of a unit in `upsets`: 8 of data bits, 1 of check bits (log 10). -/
def upsetCells : Nat := 9

/-- Whether a numbered clear has written a unit by the time `elapsed` after its start: at a moment of its own, no later than
the end of the quad clear interval (R167, log 11). -/
def clearWrote (clear elapsed u : Nat) : Bool := decide (min (Config.clearWriteTime clear u) clearTime ≤ elapsed)

/-- What an unlisted data byte reads as on a quad with this base. -/
def QuadBase.cell (addr : Nat) : QuadBase → Byte
  | .zero => 0
  | .undefined epoch => Config.undefinedByte epoch addr
  | .partlyZeroed clear elapsed under => if clearWrote clear elapsed (addr / 8) then 0 else under.cell addr

/-- What an unlisted cell of changed bits reads as on a quad with this base: none changed, or undefined. -/
def QuadBase.upset (addr : Nat) : QuadBase → Byte
  | .zero => 0
  | .undefined epoch => Config.undefinedUpset epoch addr
  | .partlyZeroed clear elapsed under => if clearWrote clear elapsed (addr / upsetCells) then 0 else under.upset addr

/-- What an unlisted cell of the stored data reads as: ONE definition (R4, log 9). -/
def ArrayState.unlistedCell (a : ArrayState) (addr : Nat) : Byte := (a.base.get (quadOfUnit (addr / 8))).cell addr

/-- What an unlisted cell of the changed bits reads as: none changed, or undefined (R4, R102, log 9). -/
def ArrayState.unlistedUpset (a : ArrayState) (addr : Nat) : Byte :=
  (a.base.get (quadOfUnit (addr / upsetCells))).upset addr

/-- No late upset is listed where none has struck. -/
def noUpset (_addr : Nat) : Byte := 0

/-- The canonical form of the array's three memories. -/
def ArrayState.wf (a : ArrayState) : Bool :=
  Memory.wf a.unlistedCell a.cells && Memory.wf a.unlistedUpset a.upsets && Memory.wf noUpset a.lateUpsets

/-- The data byte at a byte address, as last written. -/
def ArrayState.readByte (a : ArrayState) (addr : Nat) : Byte := a.cells.read a.unlistedCell addr

/-- The upset cell at an address. -/
def ArrayState.readUpset (a : ArrayState) (addr : Nat) : Byte := a.upsets.read a.unlistedUpset addr

/-- A unit's 8 data bytes as last written, before any corruption. -/
def ArrayState.writtenData (a : ArrayState) (u : Nat) : UnitData :=
  joinUnit [a.readByte (8 * u), a.readByte (8 * u + 1), a.readByte (8 * u + 2), a.readByte (8 * u + 3),
    a.readByte (8 * u + 4), a.readByte (8 * u + 5), a.readByte (8 * u + 6), a.readByte (8 * u + 7)]

/-- The data bits of a unit that have changed since it was last written (R104). -/
def ArrayState.changedData (a : ArrayState) (u : Nat) : UnitData :=
  joinUnit [a.readUpset (9 * u), a.readUpset (9 * u + 1), a.readUpset (9 * u + 2), a.readUpset (9 * u + 3),
    a.readUpset (9 * u + 4), a.readUpset (9 * u + 5), a.readUpset (9 * u + 6), a.readUpset (9 * u + 7)]

/-- The check bits of a unit that have changed since it was last written (R104). -/
def ArrayState.changedCheck (a : ArrayState) (u : Nat) : BitVec 8 := a.readUpset (9 * u + 8)

/-- A unit of the array. -/
def ArrayState.unit (a : ArrayState) (u : Nat) : UnitBits :=
  { written := a.writtenData u, changedData := a.changedData u, changedCheck := a.changedCheck u }

/-- The 8 data bytes of a unit as they stand. -/
def UnitBits.data (x : UnitBits) : UnitData := x.written ^^^ x.changedData

/-- The check bits of a unit as they stand: computed when it was written (R102), and changed since. -/
def UnitBits.check (x : UnitBits) : Byte := Config.code.checkBits x.written ^^^ x.changedCheck

/-- The 8 data bytes of a unit as they stand in the array. -/
def ArrayState.storedData (a : ArrayState) (u : Nat) : UnitData := (a.unit u).data

/-- A late upset cell at an address. -/
def ArrayState.readLate (a : ArrayState) (addr : Nat) : Byte := a.lateUpsets.read noUpset addr

/-- The data bits of a unit that have changed since the running clear wrote it (R167). -/
def ArrayState.lateData (a : ArrayState) (u : Nat) : UnitData :=
  joinUnit [a.readLate (9 * u), a.readLate (9 * u + 1), a.readLate (9 * u + 2), a.readLate (9 * u + 3),
    a.readLate (9 * u + 4), a.readLate (9 * u + 5), a.readLate (9 * u + 6), a.readLate (9 * u + 7)]

/-- The check bits of a unit that have changed since the running clear wrote it (R167). -/
def ArrayState.lateCheck (a : ArrayState) (u : Nat) : Byte := a.readLate (9 * u + 8)

/-- The nine upset cells of a unit set to the given changed bits. -/
def ArrayState.setUpset (a : ArrayState) (u : Nat) (data : UnitData) (check : BitVec 8) : ArrayState :=
  { a with upsets := a.upsets.writeAll a.unlistedUpset (9 * u) (unitBytes data ++ [check]) }

/-- A unit written with new data and "new check bits computed from the data being stored" (R102): a read taken next finds
it clean. -/
def ArrayState.writeUnit (a : ArrayState) (u : Nat) (data : UnitData) : ArrayState :=
  { a with cells := a.cells.writeAll a.unlistedCell (8 * u) (unitBytes data) }.setUpset u 0 0

/-- Whether a clear has written a unit by the time `now`: the unit lies in the quad being cleared, and its moment has passed
(R167, log 11). -/
def ClearRun.hasWritten (r : ClearRun) (now u : Nat) : Bool :=
  r.quad == quadOfUnit u && clearWrote r.epoch (now - r.startedAt) u

/-- Whether the clear in progress has written a unit; none does where no clear is in progress. -/
def clearHasWritten (run : Option ClearRun) (now u : Nat) : Bool := run.any (fun r => r.hasWritten now u)

/-- Stored bits of one unit change (R103); changes of the same bit add up by cancelling. -/
def ArrayState.corrupt (a : ArrayState) (u : Nat) (data : UnitData) (check : BitVec 8) : ArrayState :=
  a.setUpset u (a.changedData u ^^^ data) (a.changedCheck u ^^^ check)

/-- As `corrupt`, for a unit that the running clear has already written: the change stands in the zeroed unit (R167). -/
def ArrayState.corruptLate (a : ArrayState) (u : Nat) (data : UnitData) (check : BitVec 8) : ArrayState :=
  { a with lateUpsets :=
      a.lateUpsets.writeAll noUpset (9 * u) (unitBytes (a.lateData u ^^^ data) ++ [a.lateCheck u ^^^ check]) }

/-- The array with the units that `written` names zeroed by a clear, on quads that now have the bases `base`: eight zero bytes
with valid check bits, but for the bits that have changed since their write (R167). -/
def ArrayState.zeroUnits (a : ArrayState) (written : Nat → Bool) (base : Four QuadBase) : ArrayState :=
  let zeroed : ArrayState :=
    { a with
      cells := a.cells.filter (fun c => !written (c.1 / 8))
      upsets := a.upsets.filter (fun c => !written (c.1 / upsetCells))
      lateUpsets := []
      base := base }
  { zeroed with
    upsets := (a.lateUpsets.filter (fun c => written (c.1 / upsetCells))).foldl
      (fun m c => m.write zeroed.unlistedUpset c.1 c.2) zeroed.upsets }

/-- The array after the clear of a quad: every unit of it is zeroed (R17, R167). -/
def ArrayState.clearQuad (a : ArrayState) (q : Quad) : ArrayState :=
  a.zeroUnits (fun u => quadOfUnit u == q) (a.base.set q .zero)

/-- The array after a clear is abandoned: "the units already zeroed stay zero, the others keep their contents" (R17). -/
def ArrayState.abandonClear (a : ArrayState) (r : ClearRun) (now : Nat) : ArrayState :=
  a.zeroUnits (r.hasWritten now) (a.base.set r.quad (.partlyZeroed r.epoch (now - r.startedAt) (a.base.get r.quad)))

/-! ## Accessors: one home for each record -/

def State.bank (s : State) (b : Bank) : BankRecord := sixteenGet s.banks b

def State.setBank (s : State) (b : Bank) (r : BankRecord) : State := { s with banks := sixteenSet s.banks b r }

def State.link (s : State) (p : Port) : Link := s.links.get p

def State.setLink (s : State) (p : Port) (l : Link) : State := { s with links := s.links.set p l }

def State.session (s : State) (p : Port) : Session := s.sessions.get p

def State.setSession (s : State) (p : Port) (x : Session) : State := { s with sessions := s.sessions.set p x }

def State.quad (s : State) (q : Quad) : QuadAccount := s.quads.get q

def State.setQuad (s : State) (q : Quad) (x : QuadAccount) : State := { s with quads := s.quads.set q x }

def State.burstQueue (s : State) (p : Port) : List QueuedBurst := s.bursts.queues.get p

def State.setBurstQueue (s : State) (p : Port) (l : List QueuedBurst) : State :=
  { s with bursts := { s.bursts with queues := s.bursts.queues.set p l } }

def State.setExecuting (s : State) (e : Option Execution) : State :=
  { s with bursts := { s.bursts with executing := e } }

def State.mode (s : State) : DeviceMode := s.modeCtl.mode

def State.setMode (s : State) (m : DeviceMode) : State := { s with modeCtl := { s.modeCtl with mode := m } }

def State.clearState (s : State) (q : Quad) : ClearState := s.modeCtl.clearStates.get q

/-- The state with its clock at `t`, if that is later: an interval has run to its end (log 3). -/
def State.reach (s : State) (t : Nat) : State := { s with now := max s.now t }

/-- The four banks of a quad moved to one state together; row, dwell expired, holds and wait entries stay as they are
(R16, R17). -/
def State.setQuadPhase (s : State) (q : Quad) (ph : BankPhase) : State :=
  { s with banks := s.banks.set q ((s.banks.get q).map (fun r => { r with phase := ph })) }

/-! ## Records of a bank -/

/-- The hold record of a port on a bank; a port has at most one (R23). -/
def BankRecord.recordOf (r : BankRecord) (p : Port) : Option HoldRecord := r.holds.find? (fun h => h.port == p)

/-- The wait entry of a port on a bank; a port has at most one (R23). -/
def BankRecord.waitOf (r : BankRecord) (p : Port) : Option WaitEntry := r.waitQueue.find? (fun w => w.port == p)

/-- The bank without the hold record of a port. -/
def BankRecord.dropRecord (r : BankRecord) (p : Port) : BankRecord :=
  { r with holds := r.holds.filter (fun h => h.port != p) }

/-- The bank without the wait entry of a port. -/
def BankRecord.dropWait (r : BankRecord) (p : Port) : BankRecord :=
  { r with waitQueue := r.waitQueue.filter (fun w => w.port != p) }

/-- The bank with the hold record of a port changed. -/
def BankRecord.updRecord (r : BankRecord) (p : Port) (f : HoldRecord → HoldRecord) : BankRecord :=
  { r with holds := r.holds.map (fun h => if h.port = p then f h else h) }

/-- The open row of a bank, for a report of it; a bank with a hold record has one (R5). -/
def BankRecord.openRow (r : BankRecord) : Row := r.row.getD 0

/-! ## Outbound queue (R127, R128) -/

/-- Whether a queued entry is a notice of the same kind and subject as another (R128). -/
def OutEntry.sameSubject : OutEntry → OutEntry → Bool
  | .reclaim b _ _ _, .reclaim b' _ _ _ => b == b'
  | .revoked b _ _, .revoked b' _ _ => b == b'
  | .lapse q _, .lapse q' _ => q == q'
  | .response .., _ => false
  | .reclaim .., _ => false
  | .revoked .., _ => false
  | .lapse .., _ => false

/-- A queued notice with the content of a new one of its kind and subject (R128): "count raised by 1, up to 255" for
RECLAIM and LAPSE, "count raised by 1" for REVOKED. -/
def OutEntry.updateBy : OutEntry → OutEntry → OutEntry
  | .reclaim b _ _ n, .reclaim _ row debt _ => .reclaim b row debt (min (n + 1) countLimit)
  | .revoked b _ n, .revoked _ row _ => .revoked b row (n + 1)
  | .lapse q n, .lapse _ _ => .lapse q (min (n + 1) countLimit)
  | old, _ => old

/-- An entry placed in a queue: at the tail, or in the place of the notice it repeats (R127, R128). -/
def placeEntry (queue : List OutEntry) (e : OutEntry) : List OutEntry :=
  if queue.any (fun x => x.sameSubject e) then
    queue.map (fun x => if x.sameSubject e then x.updateBy e else x)
  else queue ++ [e]

/-- An entry generated for a port: "An entry generated for a port whose link is DOWN is discarded" (R127). -/
def State.enqueue (s : State) (p : Port) (e : OutEntry) : State :=
  if (s.link p).up then s.setLink p { s.link p with queue := placeEntry (s.link p).queue e } else s

/-! ## Answers through the tag table (R138) -/

/-- The state of a tag after an answer: QUEUED is interim, every other answer is final (R138). -/
def Answer.tagAfter : Answer → TagState
  | .queued => .queued
  | .ok _ | .granted .. | .data _ | .cancelled | .revoked | .refused _ => .free

/-- One tag of a port's tag table set. -/
def State.setTag (s : State) (p : Port) (t : Tag) (x : TagState) : State :=
  s.setSession p { s.session p with tags := sixteenSet (s.session p).tags t x }

/-- An answer to a request as it is taken: through the tag table into the outbound queue (R137, R138). -/
def State.answer (s : State) (p : Port) (t : Tag) (a : Answer) : State :=
  (s.setTag p t a.tagAfter).enqueue p (.response t a)

/-- Whether a port's session still receives the answers of its work: not once it has been torn down (R50, R148). -/
def State.answerable (s : State) (p : Port) : Bool :=
  match (s.session p).state with
  | .attached | .detaching => true
  | .none | .teardown => false

/-- An answer to work begun earlier (an open tag, a close tag, an upgrade, a burst): "discarded" once the session has been
torn down, and then the tag table is not touched (R138, R148). -/
def State.answerWork (s : State) (p : Port) (t : Tag) (a : Answer) : State :=
  if s.answerable p then s.answer p t a else s

/-- An answer to the tag of a record that may have none. -/
def State.answerTag (s : State) (p : Port) (t : Option Tag) (a : Answer) : State :=
  match t with
  | some t => s.answerWork p t a
  | none => s

/-- A REVOKED or RECLAIM notice: to sessions that are ATTACHED or DETACHING (R137). -/
def State.notify (s : State) (p : Port) (e : OutEntry) : State :=
  if s.answerable p then s.enqueue p e else s

/-! ## Stepping through lists -/

/-- The hold records of a bank taken in grant order; each answers the state after it and the record it leaves, if it
stays. Answers the records that stay, in order. -/
def sweep (f : State → HoldRecord → State × Option HoldRecord) : List HoldRecord → State → State × List HoldRecord
  | [], s => (s, [])
  | h :: hs, s =>
    let r := f s h
    let rest := sweep f hs r.1
    (rest.1, r.2.toList ++ rest.2)

/-- A list sorted by a stamp, smallest first: insertion of one element. -/
def insertBy {α : Type} (stampOf : α → Nat) (x : α) : List α → List α
  | [] => [x]
  | y :: ys => if stampOf x ≤ stampOf y then x :: y :: ys else y :: insertBy stampOf x ys

/-- A list sorted by a stamp, smallest first. -/
def sortBy {α : Type} (stampOf : α → Nat) : List α → List α
  | [] => []
  | x :: xs => insertBy stampOf x (sortBy stampOf xs)

end Sys2Proof.Machine
end

