-- ==== Sys2Proof/Machine/Operands.lean ====
section
/-!
DEFINITION. Operand forms: the fields of request bodies "taken as whole numbers of their width" and turned into banks,
rows, quads, items and targets, or found out of range (R178). FFh is ALL only where 11.2 names it.
-/

namespace Sys2Proof.Machine

open Sys2Proof

/-- A bank field: 0 to 15, else out of range (R1, R178). -/
def bankOf (b : Byte) : Option Bank := if h : b.toNat < 16 then some ⟨b.toNat, h⟩ else none

/-- A row field: 0 to 8191, else out of range (R1, R178). -/
def rowOf (r : BitVec 16) : Option Row := if h : r.toNat < 8192 then some ⟨r.toNat, h⟩ else none

/-- A quad or port-index field: 0 to 3, else out of range (R152, R158, R159). -/
def fourOf (b : Byte) : Option (Fin 4) := if h : b.toNat < 4 then some ⟨b.toNat, h⟩ else none

/-- The column and unit count of a burst: units 1 to 8, column + units at most 128, else out of bounds (R1, R54). -/
def burstBounds (column units : Byte) : Bool :=
  1 ≤ units.toNat && units.toNat ≤ 8 && column.toNat + units.toNat ≤ 128

/-- The role field of an ATTACH: 00h USER, 01h MAINTAINER (11.2, R140). -/
def roleOf (b : Byte) : Option Role :=
  match b.toNat with
  | 0 => some .user
  | 1 => some .maintainer
  | _ => none

/-- The configuration items with their index, where they have one (8.1). -/
inductive Item where
  | retentionInterval
  | reclaimLevel
  | pullIn (quad : Quad)
  | holdQuota (port : Port)
  | grantPolicy
  | idleEntry
  deriving DecidableEq, Repr

/-- The item that an item code and an index name (11.2). The index "is checked only for PULL_IN and HOLD_QUOTA and is
ignored for the other items" (R178). -/
def itemOf (code index : Byte) : Option Item :=
  match code.toNat with
  | 1 => some .retentionInterval
  | 2 => some .reclaimLevel
  | 3 => (fourOf index).map .pullIn
  | 4 => (fourOf index).map .holdQuota
  | 5 => some .grantPolicy
  | 6 => some .idleEntry
  | _ => none

/-- The item code of an item (11.2). -/
def Item.code : Item → Byte
  | .retentionInterval => 1
  | .reclaimLevel => 2
  | .pullIn _ => 3
  | .holdQuota _ => 4
  | .grantPolicy => 5
  | .idleEntry => 6

/-- The index of an item in an answer, 00h for items without one (11.3). -/
def Item.index : Item → Byte
  | .pullIn q => BitVec.ofNat 8 q.val
  | .holdQuota p => BitVec.ofNat 8 p.val
  | .retentionInterval | .reclaimLevel | .grantPolicy | .idleEntry => 0

/-- Whether a value lies in an item's range (8.1, 11.2; R152 check 3). -/
def Item.inRange (i : Item) (v : Nat) : Bool :=
  match i with
  | .retentionInterval => 16 ≤ v && v ≤ 128
  | .reclaimLevel => 1 ≤ v && v ≤ 11
  | .pullIn _ => v ≤ 1
  | .holdQuota _ => 1 ≤ v && v ≤ 8
  | .grantPolicy => v ≤ 1
  | .idleEntry => v ≤ 1

/-- A yes/no, set/clear or ON/OFF as its code (11.4). -/
def flagCode (b : Bool) : Nat := if b then 1 else 0

/-- A grant policy as its code (11.2). -/
def GrantPolicy.code : GrantPolicy → Nat
  | .arrival => 0
  | .rotating => 1

/-- The value in force of an item, in its value encoding (11.2). -/
def ConfigTable.value (c : ConfigTable) : Item → Nat
  | .retentionInterval => c.retentionInterval
  | .reclaimLevel => c.reclaimLevel
  | .pullIn q => flagCode (c.pullIn.get q)
  | .holdQuota p => c.holdQuota.get p
  | .grantPolicy => c.grantPolicy.code
  | .idleEntry => flagCode c.idleEntry

/-- The table with an item at a value of its range. -/
def ConfigTable.setItem (c : ConfigTable) (i : Item) (v : Nat) : ConfigTable :=
  match i with
  | .retentionInterval => { c with retentionInterval := v }
  | .reclaimLevel => { c with reclaimLevel := v }
  | .pullIn q => { c with pullIn := c.pullIn.set q (v == 1) }
  | .holdQuota p => { c with holdQuota := c.holdQuota.set p v }
  | .grantPolicy => { c with grantPolicy := if v = 1 then .rotating else .arrival }
  | .idleEntry => { c with idleEntry := v == 1 }

/-- The targets of an INSPECT (11.2); the number byte is ignored where the target has none. -/
inductive Target where
  | self
  | bank (b : Bank)
  | quad (q : Quad)
  | faults
  | counts
  | device
  deriving DecidableEq, Repr

/-- The target that a target code and a number name, none where RANGE is due (R159). -/
def targetOf (code number : Byte) : Option Target :=
  match code.toNat with
  | 1 => some .self
  | 2 => (bankOf number).map .bank
  | 3 => (fourOf number).map .quad
  | 4 => some .faults
  | 5 => some .counts
  | 6 => some .device
  | _ => none

/-- The target code of INSPECT DEVICE, which the session unit passes in any session state (R136, R159). -/
def deviceTarget : Byte := 6

/-- ALL in the arguments of the clear requests and of CFG_READ (11.2). -/
def allCode : Byte := 0xFF

/-- The byte mask of a WRITE unit as a mask of its data bits: bit b of the mask selects byte b (11.2). -/
def maskBits (m : BitVec 8) : UnitData :=
  let sel := fun i => if m.getLsbD i then (0xFF#8) else 0x00#8
  joinUnit [sel 0, sel 1, sel 2, sel 3, sel 4, sel 5, sel 6, sel 7]

/-- The merge of a partial unit: selected bytes from the new data, the others from the old (R63). -/
def mergeUnit (m : BitVec 8) (new old : UnitData) : UnitData := (new &&& maskBits m) ||| (old &&& ~~~ maskBits m)

end Sys2Proof.Machine
end

