-- ==== Sys2Proof/Machine/Flags.lean ====
section
/-!
DEFINITION. The conditions derived from the state that rules ask for by name: cleared, CURRENT, target, eligible, ready,
in flight, use, outstanding work, quiet, and the retention entry condition. Each is computed, none is stored.
-/

namespace Sys2Proof.Machine

open Sys2Proof

/-! ## Quads -/

/-- "A quad counts as cleared for every other block when its clear state is CLEARED" (R163). -/
def State.cleared (s : State) (q : Quad) : Bool := s.clearState q == .cleared

/-- The quad permits grants: cleared and CURRENT (R26, R32). -/
def State.grantable (s : State) (q : Quad) : Bool := s.cleared q && (s.quad q).state == .current

/-- All four banks of a quad are CLOSED (R89, R166). -/
def State.quadClosed (s : State) (q : Quad) : Bool := (quadBanks q).all (fun b => (s.bank b).phase == .closed)

/-- Some bank of the quad has a wait entry (R88). -/
def State.quadWaited (s : State) (q : Quad) : Bool := (quadBanks q).any (fun b => !(s.bank b).waitQueue.isEmpty)

/-- The target of a cleared quad (R88); an uncleared quad has none. -/
def State.target (s : State) (q : Quad) : Option Int :=
  if s.cleared q then
    some (if s.quadWaited q then (s.config.reclaimLevel : Int) - 1
      else if s.config.pullIn.get q then pullInDebt else 0)
  else none

/-- A quad is eligible for refresh: cleared, all four banks CLOSED, debt above its target (R89). -/
def State.eligible (s : State) (q : Quad) : Bool :=
  match s.target q with
  | some t => s.quadClosed q && decide (t < (s.quad q).debt)
  | none => false

/-- The maintenance state that follows from a debt and a reclaim level (R74). -/
def maintenanceOf (level : Nat) (debt : Int) : Maintenance :=
  if debt < level then .current else if debt < forceLevel then .due else .forced

/-! ## Bursts -/

/-- A queued burst is ready when its bank is OPEN (R57). -/
def State.ready (s : State) (b : QueuedBurst) : Bool := (s.bank b.bank).phase == .opened

/-- The head burst that makes a port a candidate for the arbiter: "The head alone decides" (R57). -/
def State.candidate (s : State) (p : Port) : Option QueuedBurst :=
  match s.burstQueue p with
  | b :: _ => if s.ready b then some b else none
  | [] => none

/-- A burst of the port executes on the bank (R47, R49, R50). -/
def State.executingOn (s : State) (p : Port) (b : Bank) : Bool :=
  match s.bursts.executing with
  | some e => e.burst.port == p && e.burst.bank == b
  | none => false

/-- A burst of the port to the bank is queued (R37, R38). -/
def State.queuedOn (s : State) (p : Port) (b : Bank) : Bool := (s.burstQueue p).any (fun x => x.bank == b)

/-- A burst of the port executes. -/
def State.executes (s : State) (p : Port) : Bool :=
  match s.bursts.executing with
  | some e => e.burst.port == p
  | none => false

/-- "The burst engine is idle when no burst is executing and all four burst queues are empty" (R70). -/
def State.engineIdle (s : State) : Bool :=
  s.bursts.executing.isNone && allFour.all (fun p => (s.burstQueue p).isEmpty)

/-! ## Ports -/

/-- The port's hold records with their banks, oldest grant first (R22). -/
def State.holdView (s : State) (p : Port) : List (Bank × HoldRecord) :=
  sortBy (fun x => x.2.stamp)
    (allBanks.flatMap (fun b => ((s.bank b).holds.filter (fun h => h.port == p)).map (fun h => (b, h))))

/-- The port's wait entries with their banks, by the time each joined its queue (R22). -/
def State.waitView (s : State) (p : Port) : List (Bank × WaitEntry) :=
  sortBy (fun x => x.2.stamp)
    (allBanks.flatMap (fun b => ((s.bank b).waitQueue.filter (fun w => w.port == p)).map (fun w => (b, w))))

/-- "The port's use is the number of its hold records, whatever their marks, plus the number of its wait entries"
(R22). -/
def State.use (s : State) (p : Port) : Nat := (s.holdView p).length + (s.waitView p).length

/-- The port has a pending upgrade on the bank. -/
def State.upgradeOn (s : State) (p : Port) (b : Bank) : Bool :=
  match (s.bank b).upgrade with
  | some u => u.port == p
  | none => false

/-- The port's outstanding work: a hold record, a wait entry, a pending upgrade, or a burst queued or executing (R134). -/
def State.outstanding (s : State) (p : Port) : Bool :=
  allBanks.any (fun b =>
    (s.bank b).holds.any (fun h => h.port == p) || (s.bank b).waitQueue.any (fun w => w.port == p) || s.upgradeOn p b)
  || !(s.burstQueue p).isEmpty || s.executes p

/-- Every tag of the port but the one given is FREE (R143, R145). -/
def State.tagsFreeBut (s : State) (p : Port) (t : Option Tag) : Bool :=
  allTags.all (fun i => some i == t || sixteenGet (s.session p).tags i == .free)

/-- A response of the outbound queue that carries a tag (R122). -/
def OutEntry.carriesTag (t : Tag) : OutEntry → Bool
  | .response t' _ => t' == t
  | .reclaim .. | .revoked .. | .lapse .. => false

/-- A tag is in flight: BUSY or QUEUED in the tag table, or carried by an entry not yet transmitted (R122). -/
def State.inFlight (s : State) (p : Port) (t : Tag) : Bool :=
  sixteenGet (s.session p).tags t != .free || (s.link p).queue.any (fun e => e.carriesTag t)

/-- The session unit's report to the mode controller (R143). -/
def State.quiet (s : State) (p : Port) : Bool :=
  match (s.session p).state with
  | .none => true
  | .attached => (s.session p).idleVote && s.tagsFreeBut p none && s.use p == 0
  | .detaching | .teardown => false

/-- The port's outbound queue and control slot are empty (R127). -/
def State.outboundEmpty (s : State) (p : Port) : Bool := (s.link p).queue.isEmpty && (s.link p).control.isNone

/-! ## The device -/

/-- The retention entry condition (R169). -/
def State.retentionEntry (s : State) : Bool :=
  s.mode == .active && s.config.idleEntry && s.engineIdle
    && allBanks.all (fun b => (s.bank b).phase == .closed || (s.bank b).phase == .refreshing)
    && allFour.all (fun p => s.quiet p) && allFour.all (fun p => s.outboundEmpty p)

end Sys2Proof.Machine
end

