-- ==== Sys2Proof/Machine/Integrity.lean ====
section
/-!
DEFINITION. The integrity unit: evaluation of a unit read, the corrected rewrite, the fault unit list, the overflow flag
and the corrected counts (spec/05_data_integrity_and_the_fault_unit_list.md).
-/

namespace Sys2Proof.Machine

open Sys2Proof

/-- The three classifications of a unit read (R104); a correctable one with the corrected 8 bytes. -/
inductive Verdict where
  | clean
  | correctable (corrected : UnitData)
  | uncorrectable
  deriving DecidableEq, Repr

/-- Changed bits of a unit since it was last written (R104). -/
def UnitBits.changed (x : UnitBits) : Nat := countBits x.changedData 64 + countBits x.changedCheck 8

/-- Stored data with one bit of the 72 changed; bits 64 to 71 are check bits (log 10). -/
def flipData (data : UnitData) (bit : Nat) : UnitData :=
  if bit < 64 then data ^^^ (1#64 <<< bit) else data

/-- Stored check bits with one bit of the 72 changed. -/
def flipCheck (check : Byte) (bit : Nat) : Byte :=
  if bit < 64 then check else check ^^^ (1#8 <<< (bit - 64))

/-- Data and check bits agree (R102). -/
def agrees (data : UnitData) (check : Byte) : Bool := Config.code.checkBits data == check

/-- The first bit whose change brings data and check bits into agreement; a code of R102 has no second one. -/
def oneBitAway (data : UnitData) (check : Byte) : Option Nat :=
  (List.range 72).find? (fun i => agrees (flipData data i) (flipCheck check i))

/-- Whether a change of two bits brings data and check bits into agreement. -/
def twoBitsAway (data : UnitData) (check : Byte) : Bool :=
  (List.range 72).any (fun i => (oneBitAway (flipData data i) (flipCheck check i)).isSome)

/-- The classification that stored data and check bits have by themselves (R104): in agreement, one bit from it, two bits from
it, or what the manual leaves open (log 10). -/
def classifyStored (data : UnitData) (check : Byte) : Verdict :=
  if agrees data check then .clean
  else
    match oneBitAway data check with
    | some i => .correctable (flipData data i)
    | none =>
      if twoBitsAway data check then .uncorrectable
      else
        match Config.manyBitOutcome data check with
        | .clean => .clean
        | .oneBit i => .correctable (flipData data i.val)
        | .uncorrectable => .uncorrectable

/-- The classification of a unit (R104). No, one or two changed bits: as the rule's table says; one changed bit gives the data as
last written, since a data bit is restored and a check bit leaves the stored 8 bytes right. Three or more: "the outcome is what
the check bits indicate". That the first three cases agree with the last, so that "the same stored bits give the same
classification", is `UnitBits.verdict_of_stored` (Laws/Integrity.lean). -/
def UnitBits.verdict (x : UnitBits) : Verdict :=
  match x.changed with
  | 0 => .clean
  | 1 => .correctable x.written
  | 2 => .uncorrectable
  | _ => classifyStored x.data x.check

/-- The classification of a unit of the array, as it stands. -/
def ArrayState.classify (a : ArrayState) (u : Nat) : Verdict := (a.unit u).verdict

/-- The corrected count of a bank one higher, "at 255 it stays 255" (R106, R113). -/
def State.countCorrected (s : State) (b : Bank) : State :=
  { s with integrity := { s.integrity with
      counts := sixteenSet s.integrity.counts b (min (sixteenGet s.integrity.counts b + 1) countLimit) } }

/-- A unit written with new check bits (R102). -/
def State.writeUnit (s : State) (u : Nat) (data : UnitData) : State := { s with array := s.array.writeUnit u data }

/-- A unit rewritten after a correctable read, with new check bits: the corrected rewrite or the merge write (R106). The model
marks it, since a corruption of the unit may fall together with it (log 33). -/
def State.rewriteUnit (s : State) (u : Nat) (data : UnitData) : State :=
  { s.writeUnit u data with marks := { s.marks with rewritten := some (u, s.now) } }

/-- An entry names the unit (R107). -/
def FaultEntry.names (e : FaultEntry) (b : Bank) (r : Row) (c : Nat) : Bool :=
  e.bank == b && e.row == r && e.column == c

/-- The unit has an entry in the fault unit list (R109). -/
def State.listed (s : State) (b : Bank) (r : Row) (c : Nat) : Bool := s.integrity.faults.any (fun e => e.names b r c)

/-- A detection (R107): appended at the tail if the unit is not listed and there is room; the overflow flag set if it is
not listed and there is none. -/
def State.detect (s : State) (e : FaultEntry) : State :=
  if s.listed e.bank e.row e.column then s
  else if s.integrity.faults.length < faultListLimit then
    { s with integrity := { s.integrity with faults := s.integrity.faults ++ [e] } }
  else { s with integrity := { s.integrity with overflow := true } }

/-- A full write mends the unit: its entry leaves, the later entries move up (R110). -/
def State.unlist (s : State) (b : Bank) (r : Row) (c : Nat) : State :=
  { s with integrity := { s.integrity with faults := s.integrity.faults.filter (fun e => !e.names b r c) } }

/-- FAULT_CLEAR by index: the entry at the position leaves, later entries move up, the flag stays (R111). -/
def State.removeFault (s : State) (i : Nat) : State :=
  { s with integrity := { s.integrity with faults := s.integrity.faults.eraseIdx i } }

/-- FAULT_CLEAR ALL: every entry leaves and the overflow flag is cleared (R111, R112). -/
def State.clearFaults (s : State) : State :=
  { s with integrity := { s.integrity with faults := [], overflow := false } }

/-- COUNT_CLEAR of one bank (R113). -/
def State.clearCount (s : State) (b : Bank) : State :=
  { s with integrity := { s.integrity with counts := sixteenSet s.integrity.counts b 0 } }

/-- COUNT_CLEAR ALL, and the counts at RESET_N fall (R113, R114). -/
def State.clearAllCounts (s : State) : State :=
  { s with integrity := { s.integrity with counts := sixteenAll 0 } }

end Sys2Proof.Machine
end

