-- ==== Sys2Proof/Machine/Bursts.lean ====
section
/-!
DEFINITION. The burst engine: the queues, the data-path arbiter, the step of one unit, removal of queued bursts, and the
response at completion (spec/03_bursts_and_the_burst_engine.md).
-/

namespace Sys2Proof.Machine

open Sys2Proof

/-! ## The data-path arbiter -/

/-- The head burst of the chosen port leaves its queue and begins execution; last served port becomes the port (R58). -/
def State.startBurst (s : State) (p : Port) (b : QueuedBurst) : State :=
  { s with bursts :=
      { queues := s.bursts.queues.set p ((s.burstQueue p).drop 1)
        executing := some { burst := b, startedAt := s.now, results := [], cut := none }
        lastServed := p } }

/-- The first candidate of a list of ports, with its head burst. -/
def State.firstCandidate (s : State) : List Port → Option (Port × QueuedBurst)
  | [] => none
  | p :: ps =>
    match s.candidate p with
    | some b => some (p, b)
    | none => s.firstCandidate ps

/-- The arbiter's choice, "when the data path is free and at least one port is a candidate": round-robin from the port
after the last served port (R58). -/
def State.arbiterChoice (s : State) : State :=
  match s.bursts.executing with
  | some _ => s
  | none =>
    match s.firstCandidate (cycleAfter s.bursts.lastServed) with
    | some (p, b) => s.startBurst p b
    | none => s

/-! ## One unit's step (R59, R60, R62, R63, R64) -/

/-- A READ unit (R60, R106, R107). -/
def State.readUnitStep (s : State) (b : QueuedBurst) (column : Nat) : State × UnitResult :=
  let u := unitIndex b.bank b.row column
  match s.array.classify u with
  | .clean => (s, ⟨s.array.storedData u, .ok⟩)
  | .correctable d => ((s.rewriteUnit u d).countCorrected b.bank, ⟨d, .corrected⟩)
  | .uncorrectable =>
    (s.detect { bank := b.bank, row := b.row, column := column, port := b.port, kind := .read },
      ⟨s.array.storedData u, .poisoned⟩)

/-- A WRITE unit with a full mask: written as sent, no read; its fault entry, if any, is removed after the write
(R62, R110). -/
def State.fullWriteStep (s : State) (b : QueuedBurst) (column : Nat) (w : WriteUnit) : State × UnitResult :=
  ((s.writeUnit (unitIndex b.bank b.row column) w.data).unlist b.bank b.row column, ⟨0, .written⟩)

/-- A WRITE unit with a partial mask: left unwritten if listed; else the merge read decides (R63, R106, R107, R109). -/
def State.partialWriteStep (s : State) (b : QueuedBurst) (column : Nat) (w : WriteUnit) : State × UnitResult :=
  let u := unitIndex b.bank b.row column
  if s.listed b.bank b.row column then (s, ⟨0, .poisoned⟩)
  else
    match s.array.classify u with
    | .clean => (s.writeUnit u (mergeUnit w.mask w.data (s.array.storedData u)), ⟨0, .written⟩)
    | .correctable d => ((s.rewriteUnit u (mergeUnit w.mask w.data d)).countCorrected b.bank, ⟨0, .written⟩)
    | .uncorrectable =>
      (s.detect { bank := b.bank, row := b.row, column := column, port := b.port, kind := .merge }, ⟨0, .poisoned⟩)

/-- A WRITE unit by its mask: full, partial or empty; an empty one makes no read and no write (R64). -/
def State.writeUnitStep (s : State) (b : QueuedBurst) (column : Nat) (w : WriteUnit) : State × UnitResult :=
  if w.mask = 0xFF then s.fullWriteStep b column w
  else if w.mask = 0 then (s, ⟨0, .unchanged⟩)
  else s.partialWriteStep b column w

/-- The step of unit `k` of a burst, counted from 0 (R59). -/
def State.unitStep (s : State) (b : QueuedBurst) (k : Nat) : State × UnitResult :=
  match b.kind with
  | .read => s.readUnitStep b (b.column + k)
  | .write => s.writeUnitStep b (b.column + k) (b.data.getD k ⟨0, 0⟩)

/-- When the step of the executing burst's next unit begins: 8 ns + 2.5 ns × k after the choice (R59). -/
def Execution.nextUnitBegins (e : Execution) : Nat := e.startedAt + burstLeadTime + unitStepTime * e.results.length

/-- When that step is finished: 8 ns + 2.5 ns × (k + 1) after the choice (R59). -/
def Execution.nextUnitEnds (e : Execution) : Nat := e.nextUnitBegins + unitStepTime

/-- When the execution completes: 8 ns + 2.5 ns per unit after the choice (R59). -/
def Execution.endsAt (e : Execution) : Nat := e.startedAt + burstLeadTime + unitStepTime * e.burst.units

/-- Units of the burst are left to step. -/
def Execution.unitsLeft (e : Execution) : Nat := e.burst.units - e.results.length

/-- The next unit of the executing burst stepped, its result kept for the response (R59). -/
def State.stepNextUnit (s : State) (e : Execution) : State :=
  let r := s.unitStep e.burst e.results.length
  r.1.setExecuting (some { e with results := e.results ++ [r.2] })

/-- The next `n` units of the executing burst stepped, in column order, each at the end of its step. -/
def State.stepUnits : Nat → State → State
  | 0, s => s
  | n + 1, s =>
    match s.bursts.executing with
    | some e => State.stepUnits n ((s.reach e.nextUnitEnds).stepNextUnit e)
    | none => s

/-! ## The response at completion (R61, R64) -/

/-- The final response of a burst: DATA with per-unit data, statuses and the quad's lapse indicator for a READ; OK with
per-unit statuses for a WRITE. -/
def burstAnswer (b : QueuedBurst) (lapse : Bool) (results : List UnitResult) : Answer :=
  match b.kind with
  | .read => .data (.read b.bank b.row b.column b.units lapse results)
  | .write => .ok (.write b.bank b.row b.column b.units (results.map (fun r => r.status)))

/-! ## Removal of queued bursts (R66 to R68) -/

/-- Each of a list of a port's bursts answered, in order. -/
def State.answerBursts (s : State) (p : Port) (a : Answer) (bs : List QueuedBurst) : State :=
  bs.foldl (fun s b => s.answerWork p b.tag a) s

/-- A port's queued bursts to one bank removed and answered, oldest first; the others keep their order (R66, R67). -/
def State.removeBankBursts (s : State) (p : Port) (b : Bank) (a : Answer) : State :=
  (s.setBurstQueue p ((s.burstQueue p).filter (fun x => x.bank != b))).answerBursts p a
    ((s.burstQueue p).filter (fun x => x.bank == b))

/-- All of a port's queued bursts removed and answered, oldest first (R67; at teardown the answers are discarded,
R68). -/
def State.removePortBursts (s : State) (p : Port) (a : Answer) : State :=
  (s.setBurstQueue p []).answerBursts p a (s.burstQueue p)

/-- A burst placed at the tail of its port's queue (R55). -/
def State.queueBurst (s : State) (b : QueuedBurst) : State := s.setBurstQueue b.port (s.burstQueue b.port ++ [b])

end Sys2Proof.Machine
end

