-- ==== Sys2Proof/Machine/Holds.lean ====
section
/-!
DEFINITION. The hold controller: grants, the leaving of records, upgrades, queue service, the decisions on OPEN, UPGRADE
and CLOSE, the bank state machine's timed events, revocation, and the release of holds at session end
(spec/01_banks_rows_and_the_array.md, spec/02_holds_and_wait_queues.md).
-/

namespace Sys2Proof.Machine

open Sys2Proof

/-! ## Leaving of records (R13) and completion of upgrades (R44) -/

/-- A pending upgrade completes when its port's record is the bank's only record: the record becomes EXCLUSIVE, the pending
upgrade is removed, and GRANTED is sent for the UPGRADE's tag (R44). -/
def State.completeUpgrade (s : State) (b : Bank) : State :=
  match (s.bank b).upgrade, (s.bank b).holds with
  | some u, [h] =>
    if h.port = u.port then
      (s.setBank b { s.bank b with holds := [{ h with mode := .exclusive }], upgrade := none }).answerWork u.port u.tag
        (.granted b (s.bank b).openRow .exclusive)
    else s
  | _, _ => s

/-- What follows the leaving of records of a bank: an OPEN bank whose last record has left goes to CLOSE_WAIT, or to
CLOSING if its dwell has expired, and has no pending upgrade from then on (R13); with records left, a pending upgrade may
complete (R44). -/
def State.afterLeaving (s : State) (b : Bank) : State :=
  let r := s.bank b
  if r.holds.isEmpty then
    if r.phase = .opened then
      s.setBank b
        (if r.dwellExpired = some true then
          { r with phase := .closing, upgrade := none, endsAt := some (s.now + rowCloseTime) }
        else { r with phase := .closeWait, upgrade := none })
    else s
  else s.completeUpgrade b

/-- The hold record of a port leaves a bank. -/
def State.leaveBank (s : State) (b : Bank) (p : Port) : State :=
  (s.setBank b ((s.bank b).dropRecord p)).afterLeaving b

/-- The hold record of a port on a bank changed in its marks. -/
def State.markRecord (s : State) (b : Bank) (p : Port) (f : HoldRecord → HoldRecord) : State :=
  s.setBank b ((s.bank b).updRecord p f)

/-- "marked releasing", no close tag stored (R40, R49). -/
def HoldRecord.release (h : HoldRecord) : HoldRecord := { h with releasing := true }

/-- "marked revoke pending, or kept releasing if it already is" (R8, R10, R47, R50). -/
def HoldRecord.revoke (h : HoldRecord) : HoldRecord := if h.releasing then h else { h with revokePending := true }

/-- Marked neither releasing nor revoke pending (R37, R41, R42). -/
def HoldRecord.unmarked (h : HoldRecord) : Bool := !h.releasing && !h.revokePending

/-- The pending upgrade of a port on a bank, if it stands there, removed and its tag answered (R45). -/
def State.dropUpgrade (s : State) (b : Bank) (p : Port) (a : Answer) : State :=
  match (s.bank b).upgrade with
  | some u =>
    if u.port = p then (s.setBank b { s.bank b with upgrade := none }).answerWork u.port u.tag a else s
  | none => s

/-- The wait entry of a port on a bank, if there is one, removed and its tag answered (R23). -/
def State.dropWait (s : State) (b : Bank) (p : Port) (a : Answer) : State :=
  match (s.bank b).waitOf p with
  | some w => (s.setBank b ((s.bank b).dropWait p)).answerWork p w.tag a
  | none => s

/-! ## Grants (R21, R29, R30, R31, R34) -/

/-- A hold record as a grant creates it (R21). -/
def newRecord (p : Port) (mode : HoldMode) (openTag : Option Tag) (stamp : Nat) : HoldRecord :=
  { port := p, mode := mode, releasing := false, revokePending := false, openTag := openTag, closeTag := none
    stamp := stamp }

/-- The bank goes from CLOSED to OPENING on a row with the granted records, and the row open interval begins (R10). -/
def State.openOn (s : State) (b : Bank) (row : Row) (records : List HoldRecord) : State :=
  s.setBank b { s.bank b with
    phase := .opening, row := some row, dwellExpired := some false, holds := records
    endsAt := some (s.now + rowOpenTime) }

/-- The state with the next stamp `n` later. -/
def State.tickStamp (s : State) (n : Nat) : State := { s with stamp := s.stamp + n }

/-- A fresh grant: the OPEN's tag is the record's open tag, GRANTED follows at open completion (R29). -/
def State.freshGrant (s : State) (b : Bank) (p : Port) (t : Tag) (row : Row) (mode : HoldMode) : State :=
  (s.openOn b row [newRecord p mode (some t) s.stamp]).tickStamp 1

/-- One record added to a bank's records, newest last. -/
def State.addRecord (s : State) (b : Bank) (h : HoldRecord) : State :=
  (s.setBank b { s.bank b with holds := (s.bank b).holds ++ [h] }).tickStamp 1

/-- A join on an OPENING bank carries its tag to open completion; on an OPEN bank GRANTED is sent at once (R30). -/
def State.joinBank (s : State) (b : Bank) (p : Port) (t : Tag) : State :=
  if (s.bank b).phase = .opening then s.addRecord b (newRecord p .shared (some t) s.stamp)
  else (s.addRecord b (newRecord p .shared none s.stamp)).answer p t (.granted b (s.bank b).openRow .shared)

/-- A rejoin returns the bank to OPEN with its dwell still running, GRANTED at once (R14, R31). -/
def State.rejoinBank (s : State) (b : Bank) (p : Port) (t : Tag) (mode : HoldMode) : State :=
  ((s.setBank b { s.bank b with phase := .opened }).addRecord b (newRecord p mode none s.stamp)).answer p t
    (.granted b (s.bank b).openRow mode)

/-- A wait entry at the tail, answered QUEUED (R28). -/
def State.addWait (s : State) (b : Bank) (p : Port) (t : Tag) (row : Row) (mode : HoldMode) : State :=
  ((s.setBank b { s.bank b with
      waitQueue := (s.bank b).waitQueue ++ [{ port := p, tag := t, row := row, mode := mode, stamp := s.stamp }] }
    ).tickStamp 1).answer p t .queued

/-! ## Queue service (R32, R33, R34) -/

/-- The entry of the port that comes first among `ports`. -/
def firstWaiting (queue : List WaitEntry) : List Port → Option WaitEntry
  | [] => none
  | p :: ps =>
    match queue.find? (fun w => w.port == p) with
    | some w => some w
    | none => firstWaiting queue ps

/-- The entry queue service chooses by the policy in force (R33). -/
def chooseEntry (policy : GrantPolicy) (lastGranted : Port) (queue : List WaitEntry) : Option WaitEntry :=
  match policy with
  | .arrival => queue.head?
  | .rotating => firstWaiting queue (cycleAfter lastGranted)

/-- The entry is granted together with the chosen one: a SHARED entry for the same row, where the chosen one is SHARED
(R34). -/
def WaitEntry.joinsBatch (chosen w : WaitEntry) : Bool :=
  chosen.mode == .shared && w.mode == .shared && w.row == chosen.row

/-- The batch in grant order: the chosen entry, then the others in queue order (R34). -/
def batchOf (chosen : WaitEntry) (queue : List WaitEntry) : List WaitEntry :=
  chosen :: queue.filter (fun w => w.port != chosen.port && chosen.joinsBatch w)

/-- The entries that stay, in their order (R34). -/
def leftWaiting (chosen : WaitEntry) (queue : List WaitEntry) : List WaitEntry :=
  queue.filter (fun w => w.port != chosen.port && !chosen.joinsBatch w)

/-- The records of a batch, stamped in grant order, each with its entry's mode and tag (R21, R34). -/
def batchRecords : List WaitEntry → Nat → List HoldRecord
  | [], _ => []
  | w :: ws, n => newRecord w.port w.mode (some w.tag) n :: batchRecords ws (n + 1)

/-- The grant of a chosen entry and its batch; last granted port names the chosen entry's port alone (R33, R34). -/
def State.grantBatch (s : State) (b : Bank) (chosen : WaitEntry) : State :=
  let queue := (s.bank b).waitQueue
  let batch := batchOf chosen queue
  ((s.setBank b { s.bank b with waitQueue := leftWaiting chosen queue, lastGranted := chosen.port }).openOn b chosen.row
    (batchRecords batch s.stamp)).tickStamp batch.length

/-- A bank offered for queue service: served when it is CLOSED with a wait entry and its quad is cleared and CURRENT, else
left as it is (R32). -/
def State.serveBank (s : State) (b : Bank) : State :=
  if (s.bank b).phase = .closed ∧ s.grantable (groupOf b) then
    match chooseEntry s.config.grantPolicy (s.bank b).lastGranted (s.bank b).waitQueue with
    | some w => s.grantBatch b w
    | none => s
  else s

/-- The four banks of a quad offered in the order 4q to 4q+3 (R32). -/
def State.serveQuad (s : State) (q : Quad) : State := (quadBanks q).foldl (fun s b => s.serveBank b) s

/-! ## The OPEN decision (R25, R26, R27) -/

/-- The checks of R25, in order; the first that fails names the refusal. -/
def State.openRefusal (s : State) (p : Port) (bank : Option Bank) (row : Option Row) : Option Reason :=
  if (s.session p).state ≠ .attached then some .notAttached
  else
    match bank, row with
    | some b, some _ =>
      if ((s.bank b).recordOf p).isSome then some .alreadyHeld
      else if ((s.bank b).waitOf p).isSome then some .alreadyWaiting
      else if s.use p < s.config.holdQuota.get p then none
      else some .quota
    | _, _ => some .bounds

/-- A SHARED request may join: same row, request SHARED, every record SHARED, no pending upgrade (R26). -/
def BankRecord.joinable (r : BankRecord) (row : Row) (mode : HoldMode) : Bool :=
  r.row == some row && mode == .shared && r.holds.all (fun h => h.mode == .shared) && r.upgrade.isNone

/-- Why an OPEN that passed its checks is not granted or joined, with the refusal it has without the wait flag (R27);
none where R26 grants or joins it. -/
def State.openConflict (s : State) (b : Bank) (row : Row) (mode : HoldMode) : Option Reason :=
  let r := s.bank b
  if !s.cleared (groupOf b) then some .starting
  else if (s.quad (groupOf b)).state ≠ .current ∨ r.phase = .refreshing then some .maintenance
  else if !r.waitQueue.isEmpty then some .bankBusy
  else
    match r.phase with
    | .closed => none
    | .opening | .opened => if r.joinable row mode then none else some .bankBusy
    | .closeWait => if r.row = some row then none else some .bankBusy
    | .closing | .refreshing | .clearing => some .bankBusy

/-- The grant, join or rejoin that the bank's state calls for (R26). -/
def State.placeOpen (s : State) (b : Bank) (p : Port) (t : Tag) (row : Row) (mode : HoldMode) : State :=
  match (s.bank b).phase with
  | .closed => s.freshGrant b p t row mode
  | .opening | .opened => s.joinBank b p t
  | .closeWait => s.rejoinBank b p t mode
  | .closing | .refreshing | .clearing => s

/-- OPEN as the hold controller decides it (R25 to R28). -/
def State.holdOpen (s : State) (p : Port) (t : Tag) (bank : Byte) (row : BitVec 16) (mode : HoldMode) (wait : Bool) :
    State :=
  match s.openRefusal p (bankOf bank) (rowOf row), bankOf bank, rowOf row with
  | some reason, _, _ => s.answer p t (.refused reason)
  | none, some b, some r =>
    match s.openConflict b r mode with
    | none => s.placeOpen b p t r mode
    | some reason => if wait then s.addWait b p t r mode else s.answer p t (.refused reason)
  | none, _, _ => s.answer p t (.refused .bounds)

/-! ## CLOSE (R36, R37, R39) -/

/-- A CLOSE on an unmarked record: it is marked releasing with the close tag, the port's pending upgrade on the bank is
cancelled, and on an OPEN bank without bursts of the port the record leaves at once, answered OK (R37). -/
def State.closeRecord (s : State) (b : Bank) (p : Port) (t : Tag) : State :=
  let s := (s.markRecord b p (fun h => { h with releasing := true, closeTag := some t })).dropUpgrade b p .cancelled
  if (s.bank b).phase = .opened ∧ !s.queuedOn p b ∧ !s.executingOn p b then
    (s.leaveBank b p).answer p t (.ok (.close false))
  else s

/-- CLOSE as the hold controller decides it (R36, R37, R39). -/
def State.holdClose (s : State) (p : Port) (t : Tag) (bank : Byte) : State :=
  if (s.session p).state ≠ .attached then s.answer p t (.refused .notAttached)
  else
    match bankOf bank with
    | none => s.answer p t (.refused .bounds)
    | some b =>
      if ((s.bank b).waitOf p).isSome then (s.dropWait b p .cancelled).answer p t (.ok (.close false))
      else
        match (s.bank b).recordOf p with
        | some h => if h.unmarked then s.closeRecord b p t else s.answer p t (.ok (.close true))
        | none => s.answer p t (.ok (.close true))

/-! ## UPGRADE (R42, R43) -/

/-- UPGRADE as the hold controller decides it: the first condition of R42 that applies. -/
def State.holdUpgrade (s : State) (p : Port) (t : Tag) (bank : Byte) : State :=
  if (s.session p).state ≠ .attached then s.answer p t (.refused .notAttached)
  else
    match bankOf bank with
    | none => s.answer p t (.refused .bounds)
    | some b =>
      match (s.bank b).recordOf p with
      | none => s.answer p t (.refused .notHeld)
      | some h =>
        if !h.unmarked then s.answer p t (.refused .notHeld)
        else if h.mode = .exclusive then s.answer p t (.ok .plain)
        else if (s.bank b).holds.length = 1 then
          (s.markRecord b p (fun h => { h with mode := .exclusive })).answer p t (.ok .plain)
        else if (s.bank b).upgrade.isSome then s.answer p t (.refused .upgradeConflict)
        else (s.setBank b { s.bank b with upgrade := some { port := p, tag := t } }).answer p t .queued

/-! ## Acceptance of bursts (R40, R41, R54, R55) -/

/-- The checks of R54, in order, with the hold check of R41 as its checks 3 and 4. -/
def State.burstRefusal (s : State) (p : Port) (kind : BurstKind) (bank : Option Bank) (column units : Byte) :
    Option Reason :=
  if (s.session p).state ≠ .attached then some .notAttached
  else
    match bank with
    | none => some .bounds
    | some b =>
      if !burstBounds column units then some .bounds
      else
        match (s.bank b).recordOf p with
        | none => some .notHeld
        | some h =>
          if !h.unmarked then some .notHeld
          else if kind = .write ∧ h.mode = .shared then some .notExclusive
          else if (s.burstQueue p).length < burstQueueLimit then none
          else some .burstFull

/-- Auto-close at acceptance: the record is marked releasing without a close tag, and the port's pending upgrade on the
bank is cancelled (R40). -/
def State.autoClose (s : State) (b : Bank) (p : Port) : State :=
  (s.markRecord b p HoldRecord.release).dropUpgrade b p .cancelled

/-- A READ or WRITE as the burst engine decides it: refused, or accepted at the tail of the port's queue with the row of the
port's hold record (R53, R55); an acceptance that makes a port a candidate lets the data-path arbiter choose (R58). -/
def State.acceptBurst (s : State) (p : Port) (t : Tag) (kind : BurstKind) (bank column units : Byte) (autoClose : Bool)
    (data : List WriteUnit) : State :=
  match s.burstRefusal p kind (bankOf bank) column units, bankOf bank with
  | some reason, _ => s.answer p t (.refused reason)
  | none, some b =>
    let queued := s.queueBurst
      { port := p, tag := t, kind := kind, bank := b, row := (s.bank b).openRow, column := column.toNat
        units := units.toNat, autoClose := autoClose, data := data }
    (if autoClose then queued.autoClose b p else queued).arbiterChoice
  | none, none => s.answer p t (.refused .bounds)

/-! ## Timed events of a bank (R11, R12, R15) -/

/-- One record at open completion (R11, R38): an unmarked one stays and its open tag is GRANTED; a revoke pending one
leaves, its open tag answered REVOKED; a releasing one leaves, its open tag answered CANCELLED, then the port's queued
bursts to the bank CANCELLED, then its close tag OK. -/
def openRecord (b : Bank) (s : State) (h : HoldRecord) : State × Option HoldRecord :=
  if h.releasing then
    (((s.answerTag h.port h.openTag .cancelled).removeBankBursts h.port b .cancelled).answerTag h.port h.closeTag
      (.ok (.close false)), none)
  else if h.revokePending then (s.answerTag h.port h.openTag .revoked, none)
  else (s.answerTag h.port h.openTag (.granted b (s.bank b).openRow h.mode), some { h with openTag := none })

/-- The bank after open completion: OPEN if a record stays, else CLOSE_WAIT; the dwell begins; the pending upgrade goes
with its port's record (R11). -/
def BankRecord.afterOpening (r : BankRecord) (kept : List HoldRecord) (now : Nat) : BankRecord :=
  { r with
    phase := if kept.isEmpty then .closeWait else .opened
    holds := kept
    dwellExpired := some false
    upgrade := r.upgrade.filter (fun u => kept.any (fun h => h.port == u.port))
    endsAt := some (now + rowDwellTime) }

/-- Open completion as the hold controller takes it (R11). Where it also completes the port's pending upgrade, the GRANTED for the open
tag comes first (R44) and reports the mode that the record still has then, SHARED: that the record is not EXCLUSIVE yet is the model's
choice (R21, R44), log 34. -/
def State.completeOpen (s : State) (b : Bank) : State :=
  let swept := sweep (openRecord b) (s.bank b).holds s
  (swept.1.setBank b ((swept.1.bank b).afterOpening swept.2 s.now)).completeUpgrade b

/-- The dwell of a bank runs: from open completion to dwell expiry, through OPEN and CLOSE_WAIT alike (R9). -/
def BankRecord.dwellRuns (r : BankRecord) : Bool :=
  (r.phase == .opened || r.phase == .closeWait) && r.dwellExpired == some false

/-- Dwell expiry: an OPEN bank stays OPEN, a bank in CLOSE_WAIT goes to CLOSING (R12). -/
def State.expireDwell (s : State) (b : Bank) : State :=
  let r := s.bank b
  s.setBank b
    (if r.phase = .closeWait then
      { r with phase := .closing, dwellExpired := some true, endsAt := some (s.now + rowCloseTime) }
    else { r with dwellExpired := some true, endsAt := none })

/-- Close completion: CLOSED, row and dwell expired absent, then the bank is offered for queue service (R15). -/
def State.completeClose (s : State) (b : Bank) : State :=
  (s.setBank b { s.bank b with phase := .closed, row := none, dwellExpired := none, endsAt := none }).serveBank b

/-! ## The report of a burst completion (R38, R48, R65) -/

/-- The hold controller's action on the record of a port at the completion of its burst to a bank (R65). -/
def State.reportCompletion (s : State) (p : Port) (b : Bank) : State :=
  match (s.bank b).recordOf p with
  | none => s
  | some h =>
    if h.releasing then
      if s.queuedOn p b then s else (s.leaveBank b p).answerTag p h.closeTag (.ok (.close false))
    else if h.revokePending then (s.leaveBank b p).notify p (.revoked b (s.bank b).openRow 1)
    else s

/-- The end of a cut burst: no response, its port's record leaves its bank, and the data path is free; the record's answers
are discarded, the session having been torn down (R8, R69). -/
def State.endCut (s : State) (x : QueuedBurst) : State :=
  let freed := s.setExecuting none
  match (freed.bank x.bank).recordOf x.port with
  | some _ => freed.leaveBank x.bank x.port
  | none => freed

/-! ## Revocation at FORCED entry (R46, R47) -/

/-- One record at FORCED entry (R47). A bank that is still OPENING keeps its records, marked, until open completion
(R10, log 19). -/
def revokeRecord (b : Bank) (s : State) (h : HoldRecord) : State × Option HoldRecord :=
  if (s.bank b).phase ≠ .opened then (s, some h.revoke)
  else if h.revokePending then (s, some h)
  else if s.executingOn h.port b then (s, some h.revoke)
  else if h.releasing then (s.answerTag h.port h.closeTag (.ok (.close false)), none)
  else (s.notify h.port (.revoked b (s.bank b).openRow 1), none)

/-- One bank of the quad: its queued bursts from every port's queue, then its pending upgrade, then its records
(R46, R66). -/
def State.revokeBank (s : State) (b : Bank) : State :=
  let s := allFour.foldl (fun s p => s.removeBankBursts p b .revoked) s
  let s :=
    match (s.bank b).upgrade with
    | some u => s.dropUpgrade b u.port .revoked
    | none => s
  let swept := sweep (revokeRecord b) (s.bank b).holds s
  (swept.1.setBank b { swept.1.bank b with holds := swept.2 }).afterLeaving b

/-- FORCED entry of a quad: its banks in the order 4q to 4q+3; wait entries stay (R46). -/
def State.revokeQuad (s : State) (q : Quad) : State := (quadBanks q).foldl (fun s b => s.revokeBank b) s

/-! ## Session end (R49, R50) -/

/-- One of a port's records at DETACH (R49). -/
def State.detachRecord (s : State) (p : Port) (b : Bank) : State :=
  match (s.bank b).recordOf p with
  | none => s
  | some h =>
    if h.revokePending then s
    else if (s.bank b).phase = .opened ∧ !s.executingOn p b then
      (s.leaveBank b p).answerTag p h.closeTag (.ok (.close false))
    else s.markRecord b p HoldRecord.release

/-- DETACH at the hold controller: wait entries in bank order, pending upgrades in bank order, records in grant order
(R49). -/
def State.detachHolds (s : State) (p : Port) : State :=
  let s := allBanks.foldl (fun s b => s.dropWait b p .cancelled) s
  let s := allBanks.foldl (fun s b => s.dropUpgrade b p .cancelled) s
  ((s.holdView p).map (fun x => x.1)).foldl (fun s b => s.detachRecord p b) s

/-- One of a port's records at teardown (R50). -/
def State.teardownRecord (s : State) (p : Port) (b : Bank) : State :=
  match (s.bank b).recordOf p with
  | none => s
  | some h =>
    if h.revokePending then s
    else if (s.bank b).phase = .opened ∧ !s.executingOn p b then s.leaveBank b p
    else s.markRecord b p HoldRecord.revoke

/-- Teardown at the hold controller: waits and upgrades removed, records in grant order; nothing is sent to the port, since
its session no longer receives answers (R50). -/
def State.teardownHolds (s : State) (p : Port) : State :=
  let s := allBanks.foldl (fun s b => s.dropWait b p .cancelled) s
  let s := allBanks.foldl (fun s b => s.dropUpgrade b p .cancelled) s
  ((s.holdView p).map (fun x => x.1)).foldl (fun s b => s.teardownRecord p b) s

/-! ## RESET_N fall at the bank records (R8) -/

/-- The record stays at RESET_N fall: its bank is not OPEN, or its port's burst executes on the bank (R8). -/
def State.staysAtReset (s : State) (b : Bank) (h : HoldRecord) : Bool :=
  (s.bank b).phase != .opened || s.executingOn h.port b

/-- One bank record at RESET_N fall: waits and upgrade removed, last granted port P3, records removed or marked; the state,
row and dwell expired are not set back, and an OPEN bank left without records follows R13 (R8). -/
def State.resetBank (s : State) (b : Bank) : State :=
  (s.setBank b { s.bank b with
    waitQueue := [], upgrade := none, lastGranted := 3
    holds := ((s.bank b).holds.filter (fun h => s.staysAtReset b h)).map HoldRecord.revoke }).afterLeaving b

end Sys2Proof.Machine
end

