-- ==== Sys2Proof/Machine/Retention.lean ====
section
/-!
DEFINITION. The retention controller: debts and maintenance states, reclaim, lapse, and the refresh unit with its arbiter
(spec/04_refresh_debt_and_the_retention_controller.md).
-/

namespace Sys2Proof.Machine

open Sys2Proof

/-! ## Maintenance state (R73, R74, R78, R80, R82) -/

/-- A quad's debt set. -/
def State.setDebt (s : State) (q : Quad) (d : Int) : State := s.setQuad q { s.quad q with debt := d }

/-- A quad's maintenance state set. -/
def State.setMaintenance (s : State) (q : Quad) (m : Maintenance) : State := s.setQuad q { s.quad q with state := m }

/-- The RECLAIM notices for the records of one bank, in grant order; a record marked revoke pending is passed over, and so
is one whose session is neither ATTACHED nor DETACHING (R78). -/
def State.reclaimBank (s : State) (b : Bank) (debt : Int) : State :=
  (s.bank b).holds.foldl
    (fun s' h => if h.revokePending then s' else s'.notify h.port (.reclaim b (s.bank b).openRow debt 1)) s

/-- Entry to DUE: the RECLAIM notices of the quad's banks in the order 4q to 4q+3 (R78). -/
def State.reclaimQuad (s : State) (q : Quad) : State :=
  (quadBanks q).foldl (fun s' b => s'.reclaimBank b (s.quad q).debt) s

/-- The maintenance state evaluated again, and each change of state acted on (R74): entry to DUE sends RECLAIM, entry to
FORCED revokes, the return from DUE to CURRENT offers the quad's banks for queue service (R80). -/
def State.evaluateQuad (s : State) (q : Quad) : State :=
  let old := (s.quad q).state
  let new := maintenanceOf s.config.reclaimLevel (s.quad q).debt
  let t := s.setMaintenance q new
  match old, new with
  | .current, .due => t.reclaimQuad q
  | .current, .forced => t.revokeQuad q
  | .due, .forced => t.revokeQuad q
  | .due, .current => t.serveQuad q
  | .current, .current => t
  | .due, .due => t
  | .forced, .current => t
  | .forced, .due => t
  | .forced, .forced => t

/-- Every quad evaluated again in the order 0 to 3 (R81, R98). -/
def State.evaluateAll (s : State) : State := allFour.foldl (fun s q => s.evaluateQuad q) s

/-! ## Expiry (R76, R84) -/

/-- A LAPSE notice to the port of every ATTACHED session (R84). -/
def State.lapseNotices (s : State) (q : Quad) : State :=
  allFour.foldl (fun s p => if (s.session p).state = .attached then s.enqueue p (.lapse q 1) else s) s

/-- The lapse path: the flag is set, the debt and state stay, LAPSE is sent (R84). -/
def State.lapseQuad (s : State) (q : Quad) : State := (s.setQuad q { s.quad q with lapse := true }).lapseNotices q

/-- One quad at an expiry (R73, R76). -/
def State.expireQuad (s : State) (q : Quad) : State :=
  if !s.cleared q then s
  else if (s.quad q).debt < forceLevel then (s.setDebt q ((s.quad q).debt + 1)).evaluateQuad q
  else s.lapseQuad q

/-- The next period, with the length of the RETENTION_INTERVAL in force (R75). -/
def State.nextPeriod (s : State) : State :=
  { s with timer :=
      { period := s.config.retentionInterval, endsAt := s.now + retentionStepTime * s.config.retentionInterval } }

/-! ## The refresh unit (R87, R90, R91, R92) -/

/-- The rank of a quad in the refresh arbiter's order (R90). -/
def State.refreshRank (s : State) (q : Quad) : Nat :=
  match (s.quad q).state with
  | .forced => 1
  | .due => 2
  | .current => if 0 < (s.quad q).debt then 3 else 4

/-- A quad comes before another of higher number in the refresh arbiter's order: by rank, then by debt, highest first; "FORCED:
lowest quad number first" looks at no debt (R90). The lower number comes first unless this says that the higher one does. -/
def State.refreshBefore (s : State) (q r : Quad) : Bool :=
  s.refreshRank q < s.refreshRank r
    || (s.refreshRank q == s.refreshRank r && s.refreshRank q != 1 && decide ((s.quad r).debt < (s.quad q).debt))

/-- The first eligible quad in the arbiter's order (R90), looking at the quads in number order. -/
def State.refreshPick (s : State) : Option Quad :=
  allFour.foldl
    (fun best q =>
      if s.eligible q then
        match best with
        | none => some q
        | some r => if s.refreshBefore q r then some q else some r
      else best) none

/-- A refresh start: the unit busy with the quad, its four banks from CLOSED to REFRESHING, the debt unchanged (R92). -/
def State.startRefresh (s : State) (q : Quad) : State :=
  { s.setQuadPhase q .refreshing with
    refresh := some { quad := q, endsAt := s.now + refreshTime }
    marks := { s.marks with startedAfter := s.marks.requests } }

/-- The quad of a refresh start with which a request falls together: its interval begins now, and this request is the first to be
taken since, so that none has found the quad's banks REFRESHING (R92, log 30). -/
def State.startTogether (s : State) : Option Quad :=
  match s.refresh with
  | some r =>
    if r.endsAt = s.now + refreshTime ∧ s.marks.requests = s.marks.startedAfter + 1 then some r.quad else none
  | none => none

/-- The state without the refresh start of a quad: "the refresh start is not taken" (R92). -/
def State.withoutStart (s : State) (q : Quad) : State := { s.setQuadPhase q .closed with refresh := none }

/-- The refresh arbiter's choice, "when the refresh unit is idle and at least one quad is eligible" (R91). -/
def State.refreshChoice (s : State) : State :=
  match s.refresh with
  | some _ => s
  | none =>
    match s.refreshPick with
    | some q => s.startRefresh q
    | none => s

/-- The first four steps of a refresh completion: debt, maintenance state, banks to CLOSED, offer for queue service (R93). -/
def State.finishRefresh (s : State) (q : Quad) : State :=
  let paid := if s.cleared q then (s.setDebt q ((s.quad q).debt - 1)).evaluateQuad q else s
  let freed := paid.setQuadPhase q .closed
  { freed.serveQuad q with refresh := none }

end Sys2Proof.Machine
end

