-- ==== Sys2Proof/Machine/Sessions.lean ====
section
/-!
DEFINITION. The session unit: ATTACH, IDLE, DETACH, teardown, and the completion of sessions that end
(spec/07_sessions_and_tags.md).
-/

namespace Sys2Proof.Machine

open Sys2Proof

/-! ## Role (R141) -/

/-- The role of a port's session released: the configuration table clears its note if the port is named there. -/
def State.releaseRole (s : State) (p : Port) : State :=
  if s.config.maintainer = some p then { s with config := { s.config with maintainer := none } } else s

/-- The role granted to an ATTACH: MAINTAINER if it is asked for and no session holds it, else USER (R141). -/
def State.grantedRole (s : State) (asked : Role) : Role :=
  match asked, s.config.maintainer with
  | .maintainer, none => .maintainer
  | .maintainer, some _ => .user
  | .user, _ => .user

/-! ## ATTACH (R140) -/

/-- The session record of an ATTACH taken: ATTACHED, its role, the idle vote clear, its own tag BUSY and every other FREE. -/
def attachedSession (role : Role) (t : Tag) : Session :=
  { state := .attached, role := some role, tags := sixteenSet (sixteenAll .free) t .busy, idleVote := false
    detachTag := none }

/-- ATTACH in a session that is NONE: the role field is checked first, then the session begins and is answered OK (R140). -/
def State.attachSession (s : State) (p : Port) (t : Tag) (role : Byte) : State :=
  match roleOf role with
  | none => s.answer p t (.refused .range)
  | some asked =>
    let granted := s.grantedRole asked
    let table := if granted = .maintainer then { s.config with maintainer := some p } else s.config
    let taken := (({ s with config := table } : State).setSession p (attachedSession granted t))
    taken.answer p t
      (.ok (.attach granted (asked == .maintainer && granted == .user) (s.config.holdQuota.get p) p s.mode))

/-! ## IDLE (R143) -/

/-- The idle vote of a port's session set or cleared. -/
def State.setVote (s : State) (p : Port) (v : Bool) : State := s.setSession p { s.session p with idleVote := v }

/-! ## DETACH (R144) and its completion (R145), teardown (R148) and its completion (R149) -/

/-- DETACH in an ATTACHED session, its four steps in order (R144). That its bursts to an OPENING bank are removed at the DETACH itself,
as R144, R67 and R56 say, and not at open completion, as a row of R71's table says, is the model's choice, log 31. -/
def State.detachSession (s : State) (p : Port) (t : Tag) : State :=
  let detaching := s.setSession p
    { s.session p with state := .detaching, detachTag := some t, idleVote := false, role := none }
  ((detaching.releaseRole p).removePortBursts p .cancelled).detachHolds p

/-- A session that has ended: NONE, role absent, vote clear, every tag FREE (R145). -/
def endedSession : Session :=
  { state := .none, role := none, tags := sixteenAll .free, idleVote := false, detachTag := none }

/-- The end of a session whose last outstanding work has ended: DETACHING answers its detach tag OK, after every other
entry of the event, and becomes NONE (R145); TEARDOWN becomes NONE silently (R149). -/
def State.finishSession (s : State) (p : Port) : State :=
  let x := s.session p
  match x.state with
  | .detaching =>
    if !s.outstanding p && s.tagsFreeBut p x.detachTag then
      (s.answerTag p x.detachTag (.ok .plain)).setSession p endedSession
    else s
  | .teardown => if s.outstanding p then s else s.setSession p { x with state := .none }
  | .none | .attached => s

/-- Every port looked at, after the event's other changes. -/
def State.finishSessions (s : State) : State := allFour.foldl (fun s p => s.finishSession p) s

/-- The session record from teardown on: role absent, vote clear, every tag FREE, detach tag absent (R148). -/
def tornDownSession : Session :=
  { state := .teardown, role := none, tags := sixteenAll .free, idleVote := false, detachTag := none }

/-- Teardown of a port's session, without the change to NONE that `finishSession` makes where no work is left: a session in
NONE or TEARDOWN is left as it is (R147, R148). A burst of the port that executes runs on, whenever it began (R59, R68): where its choice
and the teardown fall together, as in R125 and R176, that is the model's choice among these rules, log 32. -/
def State.teardownSession (s : State) (p : Port) : State :=
  match (s.session p).state with
  | .attached | .detaching =>
    (((s.setSession p tornDownSession).releaseRole p).removePortBursts p .cancelled).teardownHolds p
  | .none | .teardown => s

end Sys2Proof.Machine
end

