-- ==== Sys2Proof/Machine/Modes.lean ====
section
/-!
DEFINITION. The mode controller: the start and completion of clears, entry to retention mode, device reset, and the end of
an event, at which the blocks' choices are made (spec/09_start_up_device_reset_and_retention_mode.md).
-/

namespace Sys2Proof.Machine

open Sys2Proof

/-! ## Clears (R166, R167) -/

/-- The first quad that is not CLEARED: the one whose turn has come, since the quads are cleared in the order 0 to 3. -/
def State.clearTurn (s : State) : Option Quad := allFour.find? (fun q => !s.cleared q)

/-- The clear of a quad starts: its clear state and its four banks become CLEARING, and the quad clear interval begins. -/
def State.startClear (s : State) (q : Quad) : State :=
  let banked := s.setQuadPhase q .clearing
  { banked with
    modeCtl := { s.modeCtl with
      clearStates := s.modeCtl.clearStates.set q .clearing
      clearRun := some { quad := q, startedAt := s.now, epoch := s.array.epoch } }
    array := { s.array with epoch := s.array.epoch + 1 } }

/-- The clear start evaluated: mode CLEARING, the quad UNCLEARED, every quad below CLEARED, its four banks CLOSED (R166). -/
def State.tryClearStart (s : State) : State :=
  if s.mode ≠ .clearing then s
  else
    match s.clearTurn with
    | some q => if s.clearState q = .uncleared ∧ s.quadClosed q then s.startClear q else s
    | none => s

/-- A clear state set. -/
def State.setClearState (s : State) (q : Quad) (c : ClearState) : State :=
  { s with modeCtl := { s.modeCtl with clearStates := s.modeCtl.clearStates.set q c } }

/-- The first steps of a clear completion: the quad CLEARED and zeroed, debt 0 and CURRENT, banks CLOSED and offered for
queue service (R17, R166, R167). -/
def State.finishClear (s : State) (q : Quad) : State :=
  let cleared := s.setClearState q .cleared
  let zeroed : State :=
    { cleared with
      array := s.array.clearQuad q
      modeCtl := { cleared.modeCtl with clearRun := none } }
  let account := zeroed.setQuad q { zeroed.quad q with debt := 0, state := .current }
  (account.setQuadPhase q .closed).serveQuad q

/-! ## Retention mode (R169) -/

/-- Retention entry: where the entry condition holds at the end of an event, the mode becomes RETENTION. -/
def State.enterRetention (s : State) : State := if s.retentionEntry then s.setMode .retention else s

/-! ## The end of an event -/

/-- After an event that removes or ends work of ports: the data-path arbiter's choice (R58), the sessions that end (R145,
R149), the refresh arbiter's choice (R91), and the retention entry condition last (R169). Where one event both brings ready bursts to
the heads of their queues and makes head bursts ready, R58 does not say when in the event the arbiter chooses; that it does so once,
after the event's other changes and so among all candidates, is the model's choice, log 36. -/
def State.settle (s : State) : State := s.arbiterChoice.finishSessions.refreshChoice.enterRetention

/-! ## Device reset (R172, R174) -/

/-- A session record at RESET_N fall, before it is known whether work remains: torn down, or left as it is in NONE and
TEARDOWN, with every tag FREE, the vote clear and the role absent (R133, R147, R148). -/
def Session.atReset (x : Session) : Session :=
  { tornDownSession with state := match x.state with
    | .none => .none
    | .attached | .detaching | .teardown => .teardown }

/-- A link unit at RESET_N fall (R132). -/
def Link.atReset (l : Link) : Link :=
  { l with
    up := false, expectedSeq := 0, outboundSeq := 0, control := none, queue := [], held := [], overrun := false
    lastFault := .none }

/-- A unit of the burst is in progress: the next one, once its step has begun (R59, log 12). -/
def Execution.inUnit (e : Execution) (now : Nat) : Bool := decide (e.nextUnitBegins ≤ now) && decide (0 < e.unitsLeft)

/-- The executing burst at RESET_N fall: with a unit in progress it is cut when that unit is finished (R69). A burst
already cut stays as it is. -/
def Execution.cutAt (e : Execution) (now : Nat) : Execution :=
  match e.cut with
  | some _ => e
  | none => if e.inUnit now then { e with cut := some e.nextUnitEnds } else e

/-- The burst engine at RESET_N fall (R69). -/
def BurstEngine.atReset (b : BurstEngine) (now : Nat) : BurstEngine :=
  { queues := Four.all [], executing := b.executing.map (fun e => e.cutAt now), lastServed := 3 }

/-- "If no unit is in progress when RESET_N falls, the cut completion is at once" (R69). -/
def State.cutAtOnce (s : State) : State :=
  match s.bursts.executing with
  | some e => if e.cut.isNone then s.endCut e.burst else s
  | none => s

/-- A clear in progress abandoned: the quad UNCLEARED, its banks from CLEARING to CLOSED, its units partly zeroed (R17,
R172). -/
def State.abandonClear (s : State) : State :=
  match s.modeCtl.clearRun with
  | none => s
  | some r =>
    let banked := (s.setQuadPhase r.quad .closed).setClearState r.quad .uncleared
    { banked with
      modeCtl := { banked.modeCtl with clearRun := none }
      array := s.array.abandonClear r s.now }

/-- The mode controller's own steps at RESET_N fall: the note, the mode, the clear in progress, the wake interval (R172). -/
def State.resetMode (s : State) : State :=
  let noted : State := { s with modeCtl := { s.modeCtl with
    resetDuringClearing := s.mode == .clearing, mode := .reset, wakeEndsAt := none } }
  noted.abandonClear

/-- The other blocks at RESET_N fall, each by its own rule (R172's table): link units (R132), sessions (R148), bank records
(R8), burst engine (R69), integrity unit (R114), configuration table (R156). -/
def State.resetBlocks (s : State) : State :=
  let quieted : State := { s with links := s.links.map Link.atReset, sessions := s.sessions.map Session.atReset }
  let banked := allBanks.foldl (fun s b => s.resetBank b) quieted
  { banked.clearAllCounts with
    bursts := banked.bursts.atReset banked.now
    config := ConfigTable.default }

/-- RESET_N falls: the mode controller, the other blocks, a cut that completes at once (R69), the retention controller's
evaluation against the defaults (R98), the sessions left without work (R148), and the refresh arbiter's choice (R91). -/
def State.resetFall (s : State) : State := s.resetMode.resetBlocks.cutAtOnce.evaluateAll.finishSessions.refreshChoice

/-- Every quad uncleared again, with debt 0 and CURRENT, without notices or queue service; the lapse flags are kept (R99,
R174). -/
def State.unclearAll (s : State) : State :=
  { s with
    modeCtl := { s.modeCtl with clearStates := Four.all .uncleared }
    quads := s.quads.map (fun a => { a with debt := 0, state := .current }) }

/-- RESET_N rises (R174). -/
def State.resetRise (s : State) : State :=
  let cleared : State := { s with modeCtl := { s.modeCtl with resetDuringClearing := false } }
  if s.modeCtl.resetDuringClearing then ((cleared.setMode .clearing).unclearAll).tryClearStart
  else (cleared.setMode .active).enterRetention

end Sys2Proof.Machine
end

