-- ==== Sys2Proof/Machine/Configuration.lean ====
section
/-!
DEFINITION. The configuration table: CFG_WRITE with its effects, CFG_READ, and the clear requests
(spec/08_configuration_and_inspection.md sections 8.1 to 8.4).
-/

namespace Sys2Proof.Machine

open Sys2Proof

/-- The requesting session holds MAINTAINER (R152 check 1, R158); the table owns the note (R133). -/
def State.isMaintainer (s : State) (p : Port) : Bool := s.config.maintainer == some p

/-- An item takes a new value (R152). -/
def State.setItem (s : State) (i : Item) (v : Nat) : State := { s with config := s.config.setItem i v }

/-- The effects in the write's event of an item whose value has changed (R153): RECLAIM_LEVEL evaluates every quad and the
refresh arbiter chooses (R81); PULL_IN lets the refresh arbiter choose (R95); the others have none here. -/
def State.itemEffect (s : State) (i : Item) : State :=
  match i with
  | .reclaimLevel => s.evaluateAll.refreshChoice
  | .pullIn _ => s.refreshChoice
  | .retentionInterval | .holdQuota _ | .grantPolicy | .idleEntry => s

/-- IN_USE: a HOLD_QUOTA value below the port's use (R152 check 4, R154), whatever the value in force. That a write of the value
in force is refused so as well, where the use is above it (R156), although R152 answers such a write OK where it passes the checks,
is the model's choice, log 29. -/
def State.quotaInUse (s : State) (i : Item) (v : Nat) : Bool :=
  match i with
  | .holdQuota p => v < s.use p
  | .retentionInterval | .reclaimLevel | .pullIn _ | .grantPolicy | .idleEntry => false

/-- The checks of R152, in order; the first that fails names the refusal. -/
def State.cfgRefusal (s : State) (p : Port) (item : Option Item) (v : Nat) : Option Reason :=
  if !s.isMaintainer p then some .denied
  else
    match item with
    | none => some .range
    | some i =>
      if !i.inRange v then some .range
      else if s.quotaInUse i v then some .inUse
      else none

/-- A write applied: "A write of the value already in force ... changes nothing and causes no effect" (R152). -/
def State.applyItem (s : State) (i : Item) (v : Nat) : State :=
  if s.config.value i = v then s else (s.setItem i v).itemEffect i

/-- CFG_WRITE (R152): refused, or applied and answered OK with the value now in force, after the answers and notices that
the write causes; a write of IDLE_ENTRY has the retention entry condition evaluated again (R155). -/
def State.cfgWrite (s : State) (p : Port) (t : Tag) (code index value : Byte) : State :=
  match s.cfgRefusal p (itemOf code index) value.toNat, itemOf code index with
  | some reason, _ => s.answer p t (.refused reason)
  | none, some i =>
    let written := (s.applyItem i value.toNat).answer p t (.ok (.cfgWrite i.code i.index value.toNat))
    if i = .idleEntry then written.enterRetention else written
  | none, none => s.answer p t (.refused .range)

/-- CFG_READ (R157): one item or ALL, with the maintainer; RANGE where the code or the index names none. -/
def State.cfgRead (s : State) (p : Port) (t : Tag) (code index : Byte) : State :=
  if code = allCode then s.answer p t (.data (.cfgAll s.config))
  else
    match itemOf code index with
    | some i => s.answer p t (.data (.cfgOne i.code i.index (s.config.value i) s.config.maintainer))
    | none => s.answer p t (.refused .range)

/-! ## The clear requests (R158) -/

/-- FAULT_CLEAR: DENIED, ALL, RANGE, or one entry removed and named in the OK (R111, R158). -/
def State.faultClear (s : State) (p : Port) (t : Tag) (index : Byte) : State :=
  if !s.isMaintainer p then s.answer p t (.refused .denied)
  else if index = allCode then s.clearFaults.answer p t (.ok .plain)
  else if index.toNat < faultListLimit then
    match s.integrity.faults[index.toNat]? with
    | some e => (s.removeFault index.toNat).answer p t (.ok (.faultCleared e.bank e.row e.column))
    | none => s.answer p t (.refused .range)
  else s.answer p t (.refused .range)

/-- A lapse flag cleared (R85). -/
def State.clearLapse (s : State) (q : Quad) : State := s.setQuad q { s.quad q with lapse := false }

/-- LAPSE_CLEAR of one quad or ALL (R85, R158). -/
def State.lapseClear (s : State) (p : Port) (t : Tag) (quad : Byte) : State :=
  if !s.isMaintainer p then s.answer p t (.refused .denied)
  else if quad = allCode then
    ({ s with quads := s.quads.map (fun a => { a with lapse := false }) } : State).answer p t (.ok .plain)
  else
    match fourOf quad with
    | some q => (s.clearLapse q).answer p t (.ok .plain)
    | none => s.answer p t (.refused .range)

/-- COUNT_CLEAR of one bank or ALL (R113, R158). -/
def State.countClear (s : State) (p : Port) (t : Tag) (bank : Byte) : State :=
  if !s.isMaintainer p then s.answer p t (.refused .denied)
  else if bank = allCode then s.clearAllCounts.answer p t (.ok .plain)
  else
    match bankOf bank with
    | some b => (s.clearCount b).answer p t (.ok .plain)
    | none => s.answer p t (.refused .range)

end Sys2Proof.Machine
end

