-- ==== Sys2Proof/Machine/Wire.lean ====
section
/-!
DEFINITION. What the part sends: the codes of chapter 11 and the bytes of every outbound packet (R177, R179).
-/

namespace Sys2Proof.Machine

open Sys2Proof

/-! ## Codes (11.3, 11.4, tables 11-2 and 11-3) -/

/-- A number as one byte. -/
def numByte (n : Nat) : Byte := BitVec.ofNat 8 n

/-- A signed quantity as one byte in two's complement (R179). -/
def signedByte (i : Int) : Byte := BitVec.ofInt 8 i

/-- A row as two bytes, high byte first. -/
def rowBytes (r : Row) : List Byte := [highByte (BitVec.ofNat 16 r.val), lowByte (BitVec.ofNat 16 r.val)]

/-- An absent row is sent as FFFFh (R179). -/
def rowOptBytes : Option Row → List Byte
  | some r => rowBytes r
  | none => [0xFF, 0xFF]

/-- A port, or FFh where it is absent (R179). -/
def portOptByte : Option (Fin 4) → Byte
  | some p => numByte p.val
  | none => 0xFF

/-- A tag, or FFh where it is absent (R179). -/
def tagOptByte : Option Tag → Byte
  | some t => numByte t.val
  | none => 0xFF

def Reason.code : Reason → Byte
  | .notAttached => 0x01
  | .alreadyAttached => 0x02
  | .bounds => 0x03
  | .alreadyHeld => 0x04
  | .alreadyWaiting => 0x05
  | .quota => 0x06
  | .bankBusy => 0x07
  | .maintenance => 0x08
  | .starting => 0x09
  | .notHeld => 0x0A
  | .notExclusive => 0x0B
  | .upgradeConflict => 0x0C
  | .burstFull => 0x0D
  | .denied => 0x0E
  | .range => 0x0F
  | .inUse => 0x10

def FaultReason.code : FaultReason → Byte
  | .none => 0x00
  | .check => 0x01
  | .sequence => 0x02
  | .kind => 0x03
  | .length => 0x04
  | .tag => 0x05
  | .reset => 0x06
  | .carrier => 0x07

def UnitStatus.code : UnitStatus → Byte
  | .ok => 0x00
  | .corrected => 0x01
  | .poisoned => 0x02
  | .written => 0x03
  | .unchanged => 0x04

def Role.code : Role → Byte
  | .user => 0x00
  | .maintainer => 0x01

def roleOptByte : Option Role → Byte
  | some r => r.code
  | none => 0xFF

/-- The device mode's code: "A request is taken in CLEARING or ACTIVE, never in RETENTION, WAKING or RESET" (R159), so the
others have none in 11.4 and are never sent. -/
def DeviceMode.code : DeviceMode → Byte
  | .clearing => 0x00
  | .active => 0x01
  | .retention | .waking | .reset => 0xFF

def SessionState.code : SessionState → Byte
  | .none => 0x00
  | .attached => 0x01
  | .detaching => 0x02
  | .teardown => 0x03

def TagState.code : TagState → Nat
  | .free => 0
  | .busy => 1
  | .queued => 2

def BankPhase.code : BankPhase → Byte
  | .closed => 0x00
  | .opening => 0x01
  | .opened => 0x02
  | .closeWait => 0x03
  | .closing => 0x04
  | .refreshing => 0x05
  | .clearing => 0x06

def Maintenance.code : Maintenance → Byte
  | .current => 0x00
  | .due => 0x01
  | .forced => 0x02

def ClearState.code : ClearState → Byte
  | .uncleared => 0x00
  | .clearing => 0x01
  | .cleared => 0x02

/-! ## Bodies (11.3) -/

/-- The fields of an OK after the status byte (11.3). -/
def OkBody.bytes : OkBody → List Byte
  | .plain => []
  | .attach role roleTaken quota port mode => [role.code, flagByte roleTaken, numByte quota, numByte port.val, mode.code]
  | .close notHeld => [flagByte notHeld]
  | .write bank row column units statuses =>
    numByte bank.val :: rowBytes row ++ [numByte column, numByte units] ++ statuses.map UnitStatus.code
  | .cfgWrite item index value => [item, index, numByte value]
  | .faultCleared bank row column => numByte bank.val :: rowBytes row ++ [numByte column]

/-- The whole configuration table in a CFG_READ of ALL (11.3). -/
def ConfigTable.bytes (c : ConfigTable) : List Byte :=
  [numByte c.retentionInterval, numByte c.reclaimLevel] ++ c.pullIn.toList.map flagByte
    ++ c.holdQuota.toList.map numByte ++ [numByte c.grantPolicy.code, flagByte c.idleEntry, portOptByte c.maintainer]

/-- One unit of a READ's DATA: 8 data bytes and one unit status (11.3). -/
def UnitResult.bytes (r : UnitResult) : List Byte := unitBytes r.data ++ [r.status.code]

/-- The fields of a DATA after the status byte (11.3). -/
def DataBody.bytes : DataBody → List Byte
  | .read bank row column units lapse results =>
    numByte bank.val :: rowBytes row ++ [numByte column, numByte units, flagByte lapse]
      ++ results.flatMap UnitResult.bytes
  | .cfgOne item index value maintainer => [item, index, numByte value, portOptByte maintainer]
  | .cfgAll table => table.bytes
  | .inspect target record => target :: record

/-- The body of a RESPONSE: status byte, then its fields (11.3). -/
def Answer.bytes : Answer → List Byte
  | .ok body => 0x00 :: body.bytes
  | .queued => [0x01]
  | .granted bank row mode => [0x02, numByte bank.val] ++ rowBytes row ++ [modeByte mode]
  | .data body => 0x03 :: body.bytes
  | .cancelled => [0x04]
  | .revoked => [0x05]
  | .refused reason => [0x06, reason.code]

/-! ## Packets (11.1, table 11-1) -/

/-- The bytes of an outbound queue entry, with the request's tag in every response and 0 in every notice (R177). -/
def OutEntry.packet (e : OutEntry) (sequence : Seq) : List Byte :=
  match e with
  | .response tag answer => frame 0x90 sequence tag answer.bytes
  | .reclaim bank row debt count =>
    frame 0xA0 sequence 0 (numByte bank.val :: rowBytes row ++ [signedByte debt, numByte count])
  | .revoked bank row count => frame 0xA1 sequence 0 (numByte bank.val :: rowBytes row ++ [numByte count])
  | .lapse quad count => frame 0xA2 sequence 0 [numByte quad.val, numByte count]

/-- The bytes of a control slot packet: HELLO_ACK carries vendor code 3C2h, part code 416h, revision 1 and the port number
(R119, 11.3). -/
def ControlPacket.packet (c : ControlPacket) (sequence : Seq) (port : Port) : List Byte :=
  match c with
  | .helloAck => frame 0x81 sequence 0 [0x03, 0xC2, 0x04, 0x16, 0x01, numByte port.val]
  | .linkFault reason => frame 0x82 sequence 0 [reason.code]

end Sys2Proof.Machine
end

