-- ==== Sys2Proof/Machine/Inspect.lean ====
section
/-!
DEFINITION. INSPECT: the records of 11.4, gathered from the blocks as they stand in the request's event (R159 to R162,
R22, R72, R101, R115, R150).
-/

namespace Sys2Proof.Machine

open Sys2Proof

/-- A flag in a bit of a flags byte (R179). -/
def flagBit (b : Bool) (bit : Nat) : Nat := if b then 2 ^ bit else 0

/-- A list preceded by its count (R179). -/
def counted {α : Type} (l : List α) (f : α → List Byte) : List Byte := numByte l.length :: l.flatMap f

/-- Four tags in a byte, 2 bits each, the lowest tag lowest (11.4). -/
def tagsByte (f : Four TagState) : Byte :=
  numByte (f.q0.code + 4 * f.q1.code + 16 * f.q2.code + 64 * f.q3.code)

/-! ## SELF (R22, R72, R150, R160) -/

def State.selfHold (s : State) (p : Port) (x : Bank × HoldRecord) : List Byte :=
  numByte x.1.val :: rowOptBytes (s.bank x.1).row ++
    [numByte (flagBit (x.2.mode == .exclusive) 0 + flagBit x.2.releasing 1 + flagBit x.2.revokePending 2
      + flagBit x.2.openTag.isSome 3 + flagBit (s.upgradeOn p x.1) 4)]

def selfWait (x : Bank × WaitEntry) : List Byte :=
  numByte x.1.val :: rowBytes x.2.row ++ [numByte (flagBit (x.2.mode == .exclusive) 4 + x.2.tag.val)]

def State.selfBurst (s : State) (b : QueuedBurst) : List Byte :=
  [numByte (flagBit (b.kind == .write) 4 + b.tag.val), numByte b.bank.val, numByte b.column,
    numByte (b.units + flagBit (s.ready b) 7)]

/-- The tag of the port's executing burst, if it has one. -/
def State.executingTag (s : State) (p : Port) : Option Tag :=
  match s.bursts.executing with
  | some e => if e.burst.port = p then some e.burst.tag else none
  | none => none

def State.selfRecord (s : State) (p : Port) : List Byte :=
  let x := s.session p
  [x.state.code, roleOptByte x.role, flagByte x.idleVote] ++ x.tags.toList.map tagsByte
    ++ [numByte (s.use p), numByte (s.config.holdQuota.get p)]
    ++ counted (s.holdView p) (s.selfHold p) ++ counted (s.waitView p) selfWait
    ++ counted (s.burstQueue p) s.selfBurst ++ [tagOptByte (s.executingTag p)]

/-! ## BANK (R160) -/

def bankHold (h : HoldRecord) : List Byte :=
  [numByte (h.port.val + flagBit (h.mode == .exclusive) 2 + flagBit h.releasing 3 + flagBit h.revokePending 4
    + flagBit h.openTag.isSome 5)]

def bankWait (w : WaitEntry) : List Byte := numByte w.port.val :: rowBytes w.row ++ [modeByte w.mode]

/-- Dwell expired: 00h, 01h, or FFh where absent (11.4). -/
def dwellByte : Option Bool → Byte
  | some d => flagByte d
  | none => 0xFF

/-- The number of queued bursts to a bank in all four queues. -/
def State.queuedTo (s : State) (b : Bank) : Nat :=
  (allFour.map (fun p => ((s.burstQueue p).filter (fun x => x.bank == b)).length)).sum

/-- The port whose burst executes on a bank. -/
def State.executingPort (s : State) (b : Bank) : Option Port :=
  match s.bursts.executing with
  | some e => if e.burst.bank = b then some e.burst.port else none
  | none => none

def State.bankRecordBytes (s : State) (b : Bank) : List Byte :=
  let r := s.bank b
  r.phase.code :: rowOptBytes r.row ++ [dwellByte r.dwellExpired] ++ counted r.holds bankHold
    ++ counted r.waitQueue bankWait
    ++ [portOptByte (r.upgrade.map (fun u => u.port)), numByte r.lastGranted.val, numByte (s.queuedTo b),
      portOptByte (s.executingPort b), (s.quad (groupOf b)).state.code, (s.clearState (groupOf b)).code,
      numByte (sixteenGet s.integrity.counts b)]

/-! ## QUAD (R101, R161) -/

/-- The target, or 80h where it is absent (R179). -/
def targetByte : Option Int → Byte
  | some t => signedByte t
  | none => 0x80

/-- The quad is being refreshed (R101). -/
def State.refreshing (s : State) (q : Quad) : Bool :=
  match s.refresh with
  | some r => r.quad == q
  | none => false

def State.quadRecord (s : State) (q : Quad) : List Byte :=
  let a := s.quad q
  [(s.clearState q).code, signedByte a.debt, a.state.code, flagByte a.lapse, flagByte (s.config.pullIn.get q),
    targetByte (s.target q), flagByte (s.refreshing q), flagByte (s.eligible q),
    numByte ((quadBanks q).map (fun b => (s.bank b).holds.length)).sum,
    numByte ((quadBanks q).map (fun b => (s.bank b).waitQueue.length)).sum]

/-! ## FAULTS, COUNTS (R115, R161) -/

/-- The entries of the list with their positions from `i` on. -/
def faultEntries : Nat → List FaultEntry → List Byte
  | _, [] => []
  | i, e :: es =>
    (numByte i :: numByte e.bank.val :: rowBytes e.row ++
      [numByte e.column, numByte (e.port.val + flagBit (e.kind == .merge) 4)]) ++ faultEntries (i + 1) es

def State.faultsRecord (s : State) : List Byte :=
  [numByte s.integrity.faults.length, flagByte s.integrity.overflow] ++ faultEntries 0 s.integrity.faults

/-- The corrected counts, bank 0 first. R179 has a list preceded by its count and names "counts in bank order" among the lists; the table
of 11.4 gives this record as "16 corrected counts" and no count. That there is none is the model's choice, log 37. -/
def State.countsRecord (s : State) : List Byte := (sixteenList s.integrity.counts).map numByte

/-! ## DEVICE (R162) -/

def State.devicePort (s : State) (p : Port) : List Byte :=
  [flagByte (s.link p).up, (s.link p).lastFault.code, (s.session p).state.code, roleOptByte (s.session p).role]

def State.deviceRecord (s : State) : List Byte :=
  s.mode.code :: s.modeCtl.clearStates.toList.map ClearState.code ++ allFour.flatMap s.devicePort
    ++ [portOptByte s.config.maintainer, numByte (flagBit (!s.engineIdle) 0 + 16 * s.bursts.lastServed.val),
      portOptByte (s.refresh.map (fun r => r.quad)), numByte s.timer.period,
      numByte (flagBit (s.quad 0).lapse 0 + flagBit (s.quad 1).lapse 1 + flagBit (s.quad 2).lapse 2
        + flagBit (s.quad 3).lapse 3)]

/-! ## The request -/

/-- The record of a target (11.4). -/
def State.report (s : State) (p : Port) : Target → List Byte
  | .self => s.selfRecord p
  | .bank b => s.bankRecordBytes b
  | .quad q => s.quadRecord q
  | .faults => s.faultsRecord
  | .counts => s.countsRecord
  | .device => s.deviceRecord

/-- INSPECT at the configuration table: RANGE, or DATA with the report; no other state changes (R159). -/
def State.inspect (s : State) (p : Port) (t : Tag) (code number : Byte) : State :=
  match targetOf code number with
  | some target => s.answer p t (.data (.inspect code (s.report p target)))
  | none => s.answer p t (.refused .range)

end Sys2Proof.Machine
end

