-- ==== Sys2Proof/Machine/Requests.lean ====
section
/-!
DEFINITION. The taking of a good request by the session unit: idle vote, tag table, and dispatch by request kind and
session state (R135, R136, R137).
-/

namespace Sys2Proof.Machine

open Sys2Proof

/-- The session of a port is ATTACHED. -/
def State.attached (s : State) (p : Port) : Bool := (s.session p).state == .attached

/-- A request that the session unit passes on, or takes itself, only in an ATTACHED session; else it refuses it with
NOT_ATTACHED (R136). -/
def State.ifAttached (s : State) (p : Port) (t : Tag) (f : State → State) : State :=
  if s.attached p then f s else s.answer p t (.refused .notAttached)

/-- A request that reaches its owner block in every session but NONE, and fails the session check there (R136). -/
def State.unlessNone (s : State) (p : Port) (t : Tag) (f : State → State) : State :=
  if (s.session p).state = .none then s.answer p t (.refused .notAttached) else f s

/-- ATTACH: taken in NONE, else refused with ALREADY_ATTACHED, without a look at the role field (R140, R142). -/
def State.requestAttach (s : State) (p : Port) (t : Tag) (role : Byte) : State :=
  if (s.session p).state = .none then s.attachSession p t role else s.answer p t (.refused .alreadyAttached)

/-- IDLE: the vote is set and the IDLE answered OK; the retention entry condition is evaluated (R143, R169). -/
def State.requestIdle (s : State) (p : Port) (t : Tag) : State :=
  s.ifAttached p t (fun s => ((s.setVote p true).answer p t (.ok .plain)).enterRetention)

/-- DETACH, and at its end the choices it makes room for; it completes in the same event where nothing is outstanding
(R144, R145). -/
def State.requestDetach (s : State) (p : Port) (t : Tag) : State :=
  s.ifAttached p t (fun s => (s.detachSession p t).settle)

/-- An OPEN that falls together with a refresh start of its bank's quad would take the bank, CLOSED without the start: a fresh
grant (R29, R92). -/
def State.takesBankFrom (s : State) (q : Quad) (p : Port) (bank : Byte) (row : BitVec 16) (mode : HoldMode) : Bool :=
  (s.openRefusal p (bankOf bank) (rowOf row)).isNone
    && match bankOf bank, rowOf row with
      | some b, some r =>
        groupOf b == q && (s.bank b).phase == .refreshing && ((s.withoutStart q).openConflict b r mode).isNone
      | _, _ => false

/-- OPEN at the hold controller (R25 to R31). Where it falls together with a refresh start and would take a bank of the quad,
"Either may be taken first": which is free (log 30). If the OPEN is, the start is not taken, the bank goes to OPENING, "and the
arbiter chooses among the quads that remain eligible" (R92). -/
def State.orderedOpen (s : State) (p : Port) (t : Tag) (bank : Byte) (row : BitVec 16) (mode : HoldMode) (wait : Bool) :
    State :=
  match s.startTogether with
  | some q =>
    if s.takesBankFrom q p bank row mode && Config.openBeforeStart s.marks.requests then
      ((s.withoutStart q).holdOpen p t bank row mode wait).refreshChoice
    else s.holdOpen p t bank row mode wait
  | none => s.holdOpen p t bank row mode wait

/-- OPEN (R25 to R31, R92). -/
def State.requestOpen (s : State) (p : Port) (t : Tag) (bank : Byte) (row : BitVec 16) (mode : HoldMode) (wait : Bool) :
    State :=
  s.unlessNone p t (fun s => s.orderedOpen p t bank row mode wait)

/-- UPGRADE (R42, R43). -/
def State.requestUpgrade (s : State) (p : Port) (t : Tag) (bank : Byte) : State :=
  s.unlessNone p t (fun s => s.holdUpgrade p t bank)

/-- A CLOSE that removes a wait entry of its port (R36, R39). -/
def State.withdraws (s : State) (p : Port) (bank : Byte) : Bool :=
  s.attached p &&
    match bankOf bank with
    | some b => ((s.bank b).waitOf p).isSome
    | none => false

/-- CLOSE (R36 to R39); the removal of a quad's last wait entry lets the refresh arbiter choose (R91). -/
def State.requestClose (s : State) (p : Port) (t : Tag) (bank : Byte) : State :=
  s.unlessNone p t (fun s =>
    if s.withdraws p bank then (s.holdClose p t bank).refreshChoice else s.holdClose p t bank)

/-- READ or WRITE (R54, R55). -/
def State.requestBurst (s : State) (p : Port) (t : Tag) (kind : BurstKind) (bank column units : Byte) (autoClose : Bool)
    (data : List WriteUnit) : State :=
  s.unlessNone p t (fun s => s.acceptBurst p t kind bank column units autoClose data)

/-- INSPECT: the target DEVICE is passed from a session in any state, every other target code from an ATTACHED session only
(R136, R159). -/
def State.requestInspect (s : State) (p : Port) (t : Tag) (target number : Byte) : State :=
  if target = deviceTarget then s.inspect p t target number else s.ifAttached p t (fun s => s.inspect p t target number)

/-- A request decided by its owner (R136, R137). -/
def State.dispatch (s : State) (p : Port) (t : Tag) : Request → State
  | .attach role => s.requestAttach p t role
  | .detach => s.requestDetach p t
  | .idle => s.requestIdle p t
  | .openBank bank row mode wait => s.requestOpen p t bank row mode wait
  | .upgrade bank => s.requestUpgrade p t bank
  | .closeBank bank => s.requestClose p t bank
  | .read bank column units autoClose => s.requestBurst p t .read bank column units autoClose []
  | .write bank column units autoClose data => s.requestBurst p t .write bank column units autoClose data
  | .cfgRead item index => s.ifAttached p t (fun s => s.cfgRead p t item index)
  | .cfgWrite item index value => s.ifAttached p t (fun s => s.cfgWrite p t item index value)
  | .inspect target number => s.requestInspect p t target number
  | .faultClear index => s.ifAttached p t (fun s => s.faultClear p t index)
  | .lapseClear quad => s.ifAttached p t (fun s => s.lapseClear p t quad)
  | .countClear bank => s.ifAttached p t (fun s => s.countClear p t bank)

/-- One request more taken (log 30). -/
def State.countRequest (s : State) : State := { s with marks := { s.marks with requests := s.marks.requests + 1 } }

/-- The first two steps of the taking: any request but IDLE clears the idle vote, and the tag becomes BUSY (R135, R143). -/
def State.beginRequest (s : State) (p : Port) (t : Tag) (r : Request) : State :=
  ((if r = .idle then s else s.setVote p false).setTag p t .busy).countRequest

/-- A good request taken by the session unit (R135). -/
def State.take (s : State) (p : Port) (t : Tag) (r : Request) : State := (s.beginRequest p t r).dispatch p t r

end Sys2Proof.Machine
end

