-- ==== Sys2Proof/Machine/Links.lean ====
section
/-!
DEFINITION. The link units: link faults, the checks of an arriving packet on a DOWN and on an UP link, what an arrival does
in each device mode, packets held through a wake, carrier events and transmission (spec/06_port_links.md).
-/

namespace Sys2Proof.Machine

open Sys2Proof

/-- The link unit's own steps at a link fault: queue and control slot discarded, LINK_FAULT placed unless the reason is
CARRIER, link DOWN, expected sequence 0, reason recorded; the outbound sequence is left as it is (R124). -/
def Link.faulted (l : Link) (reason : FaultReason) : Link :=
  { l with
    queue := []
    control := if reason = .carrier then none else some (.linkFault reason)
    up := false
    expectedSeq := 0
    lastFault := reason }

/-- A link fault on an UP link: the link unit's steps, then teardown of the port's session (R124, R147), and at its end the
choices the teardown makes room for. -/
def State.linkFault (s : State) (p : Port) (reason : FaultReason) : State :=
  ((s.setLink p ((s.link p).faulted reason)).teardownSession p).settle

/-- A well-formed HELLO on a DOWN link: UP, expected sequence 1, outbound sequence 0, HELLO_ACK in the control slot
(R119). -/
def Link.broughtUp (l : Link) : Link :=
  { l with up := true, expectedSeq := 1, outboundSeq := 0, control := some .helloAck }

/-- "a check word that agrees with the packet, the packet kind HELLO, the length of a HELLO, and sequence number 0"
(R118). -/
def isHelloPacket (a : Arrival) : Bool := a.checkAgrees && a.content == .hello true && a.sequence == 0

/-- The checks of a packet on an UP link, in order; the first that fails names the reason (R120). -/
def State.linkCheck (s : State) (p : Port) (a : Arrival) : Option FaultReason :=
  if !a.checkAgrees then some .check
  else if a.sequence ≠ (s.link p).expectedSeq then some .sequence
  else
    match a.content with
    | .notAllowed => some .kind
    | .hello _ => some .kind
    | .badLength => some .length
    | .linkReset => none
    | .request _ => if s.inFlight p a.tag then some .tag else none

/-- The expected inbound sequence advanced by one, from 15 to 0, at a good packet (R120, R121). -/
def State.advanceSeq (s : State) (p : Port) : State :=
  s.setLink p { s.link p with expectedSeq := (s.link p).expectedSeq + 1 }

/-- A good packet: LINK_RESET is a link fault with reason RESET (R123), a request is taken by the session unit (R135). -/
def State.goodPacket (s : State) (p : Port) (a : Arrival) : State :=
  match a.content with
  | .linkReset => (s.advanceSeq p).linkFault p .reset
  | .request r => (s.advanceSeq p).take p a.tag r
  | .notAllowed | .badLength | .hello _ => s

/-- A packet checked by its link unit: for HELLO alone while the link is DOWN (R118), by R120 while it is UP. -/
def State.accept (s : State) (p : Port) (a : Arrival) : State :=
  if (s.link p).up then
    match s.linkCheck p a with
    | some reason => s.linkFault p reason
    | none => s.goodPacket p a
  else if isHelloPacket a then s.setLink p (s.link p).broughtUp
  else s

/-- A packet held at its link unit, up to 32; beyond that it is discarded and the overrun mark is set (R131). -/
def State.holdPacket (s : State) (p : Port) (a : Arrival) : State :=
  let l := s.link p
  if l.held.length < heldLimit then
    (s.setLink p { l with held := l.held ++ [{ stamp := s.stamp, packet := a }] }).tickStamp 1
  else s.setLink p { l with overrun := true }

/-- The wake begins: mode WAKING, the wake interval of 4 µs runs (R171). -/
def State.startWake (s : State) : State :=
  { s with modeCtl := { s.modeCtl with mode := .waking, wakeEndsAt := some (s.now + wakeTime) } }

/-- A packet arrives on a link. While carrier is absent none does (R117). In RESET it is ignored (R132); in RETENTION it
starts the wake and is held, in WAKING it is held, unchecked (R131, R171); in CLEARING and ACTIVE its link unit checks
it. -/
def State.receive (s : State) (p : Port) (a : Arrival) : State :=
  if !(s.link p).carrier then s
  else
    match s.mode with
    | .reset => s
    | .retention => s.startWake.holdPacket p a
    | .waking => s.holdPacket p a
    | .clearing | .active => s.accept p a

/-! ## The end of a wake (R131, R171) -/

/-- All held packets with their ports, "in the order of their original arrivals" (R131). -/
def State.heldOrder (s : State) : List (Port × HeldPacket) :=
  sortBy (fun x => x.2.stamp) (allFour.flatMap (fun p => (s.link p).held.map (fun h => (p, h))))

/-- After a link's last held packet: the overrun mark is cleared, and if it was set and the link is still UP, a link fault
with reason SEQUENCE (R131). -/
def State.endHeld (s : State) (p : Port) : State :=
  let t := s.setLink p { s.link p with overrun := false }
  if (s.link p).overrun ∧ (s.link p).up then t.linkFault p .sequence else t

/-- Held packets taken in order, "as though each had just arrived" (R131). -/
def State.takeHeld : List (Port × HeldPacket) → State → State
  | [], s => s
  | x :: rest, s =>
    let taken := s.accept x.1 x.2.packet
    State.takeHeld rest (if rest.any (fun y => y.1 == x.1) then taken else taken.endHeld x.1)

/-- Wake completion: mode ACTIVE, the held packets taken, every overrun mark cleared, and last the retention entry condition
evaluated (R171). -/
def State.finishWake (s : State) : State :=
  let awake : State :=
    { s with
      modeCtl := { s.modeCtl with mode := .active, wakeEndsAt := none }
      links := s.links.map (fun l => { l with held := [] }) }
  (allFour.foldl (fun s p => s.endHeld p) (State.takeHeld s.heldOrder awake)).enterRetention

/-! ## Carrier (R117) -/

/-- Carrier loss: held packets discarded and the overrun mark cleared (R131); on an UP link a link fault with reason
CARRIER, on a DOWN link the control slot is emptied (R117),
which may let the part enter retention mode (R169). -/
def State.loseCarrier (s : State) (p : Port) : State :=
  let l : Link := { s.link p with carrier := false, held := [], overrun := false }
  if l.up then (s.setLink p l).linkFault p .carrier else (s.setLink p { l with control := none }).enterRetention

/-! ## Transmission (R130) -/

/-- What a link unit would send: the control slot's packet, else the head of the outbound queue on an UP link; nothing
without carrier, and nothing in RESET (R130, R132). -/
def State.transmittable (s : State) (p : Port) : Option (List Byte) :=
  let l := s.link p
  if !l.carrier || s.mode == .reset then none
  else
    match l.control, l.queue with
    | some c, _ => some (c.packet l.outboundSeq p)
    | none, e :: _ => if l.up then some (e.packet l.outboundSeq) else none
    | none, [] => none

/-- The link unit after a transmission: the packet has left the slot or the queue, and the outbound sequence has advanced
(R130). -/
def Link.transmitted (l : Link) (bytes : List Byte) : Link :=
  { l with
    control := none
    queue := if l.control.isSome then l.queue else l.queue.drop 1
    outboundSeq := l.outboundSeq + 1
    sent := bytes }

end Sys2Proof.Machine
end

