-- ==== Sys2Proof/Machine/Events.lean ====
section
/-!
DEFINITION. The meanings of the commands that are no requests: power and reset, the line and the world, the timed events of
banks, bursts, maintenance and modes, and transmission. One definition for each row of spec/opcode_table.json.
-/

namespace Sys2Proof.Machine

open Sys2Proof

/-! ## Power and reset -/

/-- POWER_ON (R165): every block takes its power-on state; the array is undefined anew (R4). -/
def execPowerOn (resetNHigh : Bool) (carrier : Four Bool) (s : State) : Result :=
  .next (State.powerOn resetNHigh carrier s.now s.array.epoch s.marks s.pending)

/-- RESET_N_FALL (R172): "taken ... in any mode other than RESET" (section 9.5). -/
def execResetNFall (s : State) : Result := .next (if s.mode = .reset then s else s.resetFall)

/-- RESET_N_RISE (R174); outside RESET the input is high already and nothing rises (log 6). -/
def execResetNRise (s : State) : Result := .next (if s.mode = .reset then s.resetRise else s)

/-! ## The line and the world -/

/-- CARRIER_LOSS (R117). -/
def execCarrierLoss (p : Port) (s : State) : Result := .next (s.loseCarrier p)

/-- CARRIER_RETURN: "sets carrier present and changes nothing else" (R117). -/
def execCarrierReturn (p : Port) (s : State) : Result := .next (s.setLink p { s.link p with carrier := true })

/-- A corruption of the unit that comes now is taken before the unit's rewrite of this same moment, which then "replaces the changed
bits with the corrected data already handed over" (R106); which of the two comes first is free (log 33). -/
def State.rewrittenOver (s : State) (u : Nat) : Bool :=
  s.marks.rewritten == some (u, s.now) && Config.corruptionBeforeRewrite s.marks.corruptions

/-- UNIT_CORRUPTION (R103): stored bits of one unit change, in any mode and any bank state. In a unit that the running clear has
written already the change stands past the clear; in one it has still to write the change is lost with that write (R167). One that
comes between a unit's read and its rewrite is replaced by the rewrite (R106). -/
def execUnitCorruption (bank : Bank) (row : Row) (column : Fin 128) (data : UnitData) (check : BitVec 8) (s : State) :
    Result :=
  let u := unitIndex bank row column.val
  .next { s with
    marks := { s.marks with corruptions := s.marks.corruptions + 1 }
    array :=
      if s.rewrittenOver u then s.array
      else if clearHasWritten s.modeCtl.clearRun s.now u then s.array.corruptLate u data check
      else s.array.corrupt u data check }

/-! ## Arrivals named by what becomes of them (log 7) -/

/-- HELLO: a well-formed HELLO arrives (R118, R119). -/
def execHello (p : Port) (s : State) : Result := .next (s.receive p helloArrival)

/-- LINK_RESET: a LINK_RESET with agreeing check word and length arrives (R123). -/
def execLinkReset (p : Port) (sequence : Seq) (s : State) : Result := .next (s.receive p (linkResetArrival sequence))

/-- IGNORED_PACKET: a byte string arrives; on a DOWN link that is no well-formed HELLO, and in RESET, it is ignored (R118,
R132). -/
def execIgnoredPacket (p : Port) (bytes : List Byte) (s : State) : Result := .next (s.receive p (decodePacket bytes))

/-- INBOUND_CHECK_FAILURE: a byte string arrives; on an UP link the first check that fails is a link fault with its reason
(R120, R124). -/
def execInboundCheckFailure (p : Port) (bytes : List Byte) (s : State) : Result :=
  .next (s.receive p (decodePacket bytes))

/-- PACKET_ARRIVAL_IN_RETENTION: a byte string arrives; in RETENTION it starts the wake and is held (R171). -/
def execPacketArrivalInRetention (p : Port) (bytes : List Byte) (s : State) : Result :=
  .next (s.receive p (decodePacket bytes))

/-- HELD_PACKET_ARRIVAL: a byte string arrives; in WAKING it is held, or discarded with the overrun mark set (R131). -/
def execHeldPacketArrival (p : Port) (bytes : List Byte) (s : State) : Result :=
  .next (s.receive p (decodePacket bytes))

/-! ## Burst events -/

/-- BURST_UNIT_STEP: the next unit of the executing burst, at the end of its step (R59, log 12). -/
def execBurstUnitStep (s : State) : Result :=
  match s.bursts.executing with
  | some e =>
    if e.cut.isNone ∧ 0 < e.unitsLeft then .next ((s.reach e.nextUnitEnds).stepNextUnit e) else .fault .noUnitToStep
  | none => .fault .noUnitToStep

/-- The lapse indicator of a burst: the lapse flag of its bank's quad as it stands (R61, R86). -/
def State.lapseOf (s : State) (b : QueuedBurst) : Bool := (s.quad (groupOf b.bank)).lapse

/-- The three steps of an execution completion: the response, the report to the hold controller, the data path free (R65). -/
def State.finishBurst (s : State) (e : Execution) : State :=
  let answered := s.answerWork e.burst.port e.burst.tag (burstAnswer e.burst (s.lapseOf e.burst) e.results)
  (answered.setExecuting none).reportCompletion e.burst.port e.burst.bank

/-- EXECUTION_COMPLETION (R65). Units whose steps have not been taken are taken first: the execution does not end before
they are finished (R59, log 14). -/
def execExecutionCompletion (s : State) : Result :=
  match s.bursts.executing with
  | some e =>
    if e.cut.isSome then .fault .noExecution
    else
      let stepped := (State.stepUnits e.unitsLeft s).reach e.endsAt
      match stepped.bursts.executing with
      | some done => .next ((stepped.finishBurst done).settle)
      | none => .fault .noExecution
  | none => .fault .noExecution

/-- CUT_COMPLETION: the unit in progress is finished, the burst ends without a response, its record leaves, and the data
path is free (R69). -/
def execCutCompletion (s : State) : Result :=
  match s.bursts.executing with
  | some e =>
    match e.cut with
    | some t => .next ((((s.reach t).unitStep e.burst e.results.length).1.endCut e.burst).settle)
    | none => .fault .noCut
  | none => .fault .noCut

/-! ## Bank events -/

/-- The end of a bank's running interval, for the clock. -/
def State.reachBank (s : State) (b : Bank) : State := s.reach ((s.bank b).endsAt.getD s.now)

/-- OPEN_COMPLETION (R11). -/
def execOpenCompletion (b : Bank) (s : State) : Result :=
  if (s.bank b).phase = .opening then .next (((s.reachBank b).completeOpen b).settle) else .fault (.noRowOpen b)

/-- DWELL_EXPIRY (R12). -/
def execDwellExpiry (b : Bank) (s : State) : Result :=
  if (s.bank b).dwellRuns then .next ((s.reachBank b).expireDwell b) else .fault (.noDwell b)

/-- CLOSE_COMPLETION (R15); afterwards the clear start (R166), the refresh arbiter (R91) and the retention entry condition
(R169). -/
def execCloseCompletion (b : Bank) (s : State) : Result :=
  if (s.bank b).phase = .closing then
    .next ((s.reachBank b).completeClose b).tryClearStart.refreshChoice.enterRetention
  else .fault (.noRowClose b)

/-! ## Maintenance events -/

/-- RETENTION_TIMER_EXPIRY: the quads in the order 0 to 3, then the next period, last the refresh arbiter (R76); bursts
removed at a FORCED entry may let the data-path arbiter choose (R66). -/
def execRetentionTimerExpiry (s : State) : Result :=
  .next (((allFour.foldl (fun s q => s.expireQuad q) (s.reach s.timer.endsAt)).nextPeriod).settle)

/-- REFRESH_COMPLETION (R93); afterwards the clear start (R166), the refresh arbiter and the retention entry condition. An OPEN of
the same moment may yet be taken before the refresh start in it (`State.requestOpen`, R92, log 30). -/
def execRefreshCompletion (s : State) : Result :=
  match s.refresh with
  | some r => .next ((s.reach r.endsAt).finishRefresh r.quad).tryClearStart.refreshChoice.enterRetention
  | none => .fault .noRefresh

/-! ## Mode events -/

/-- After the clear of a quad: the start of the next one is evaluated, or after quad 3 the mode becomes ACTIVE (R166). -/
def State.afterClear (s : State) (q : Quad) : State := if q = 3 then s.setMode .active else s.tryClearStart

/-- CLEAR_COMPLETION (R166). -/
def execClearCompletion (s : State) : Result :=
  match s.modeCtl.clearRun with
  | some r =>
    .next (((s.reach (r.startedAt + clearTime)).finishClear r.quad).refreshChoice.afterClear r.quad).enterRetention
  | none => .fault .noClear

/-- WAKE_COMPLETION (R171). -/
def execWakeCompletion (s : State) : Result :=
  match s.modeCtl.wakeEndsAt with
  | some t => .next (s.reach t).finishWake
  | none => .fault .noWake

/-! ## Transmission -/

/-- TRANSMISSION (R130); the last one of a port may let the part enter retention mode (R169). -/
def execTransmission (p : Port) (s : State) : Result :=
  match s.transmittable p with
  | some bytes => .next (s.setLink p ((s.link p).transmitted bytes)).enterRetention
  | none => .fault (.nothingToSend p)

end Sys2Proof.Machine
end

