-- ==== Sys2Proof/Machine/Clock.lean ====
section
/-!
DEFINITION. What the block does by itself: which of its timed events is due, and the passing of time (section 9.1, log 4).
-/

namespace Sys2Proof.Machine

open Sys2Proof

/-- An interval's end has come. -/
def State.due (s : State) (t : Nat) : Bool := decide (t ≤ s.now)

/-- The executing burst's event that is due: its cut's end, the end of its next unit's step, or its completion (R59,
R69). -/
def State.dueBurst (s : State) : Option Instr :=
  match s.bursts.executing with
  | none => none
  | some e =>
    match e.cut with
    | some t => if s.due t then some .cutCompletion else none
    | none =>
      if 0 < e.unitsLeft then (if s.due e.nextUnitEnds then some .burstUnitStep else none)
      else if s.due e.endsAt then some .executionCompletion else none

/-- A bank's event that is due: open completion, dwell expiry or close completion (R9). -/
def State.dueBank (s : State) (b : Bank) : Option Instr :=
  match (s.bank b).endsAt with
  | none => none
  | some t =>
    if !s.due t then none
    else if (s.bank b).phase = .opening then some (.openCompletion b)
    else if (s.bank b).dwellRuns then some (.dwellExpiry b)
    else if (s.bank b).phase = .closing then some (.closeCompletion b)
    else none

/-- The refresh completion, if it is due (R87). -/
def State.dueRefresh (s : State) : Option Instr :=
  match s.refresh with
  | some r => if s.due r.endsAt then some .refreshCompletion else none
  | none => none

/-- The clear completion, if it is due (R166). -/
def State.dueClear (s : State) : Option Instr :=
  match s.modeCtl.clearRun with
  | some r => if s.due (r.startedAt + clearTime) then some .clearCompletion else none
  | none => none

/-- The wake completion, if it is due (R171). -/
def State.dueWake (s : State) : Option Instr :=
  match s.modeCtl.wakeEndsAt with
  | some t => if s.due t then some .wakeCompletion else none
  | none => none

/-- The retention timer expiry, if it is due (R75). -/
def State.dueExpiry (s : State) : Option Instr :=
  if s.due s.timer.endsAt then some .retentionTimerExpiry else none

/-- The first element present in a list. -/
def firstSome : List (Option Instr) → Option Instr
  | [] => none
  | some c :: _ => some c
  | none :: rest => firstSome rest

/-- The timed event the block takes next, where one is due. Of several that are due it takes the first of this order
(log 4); any other order is an order of commands in the queue. -/
def State.dueCommand (s : State) : Option Instr :=
  firstSome (s.dueBurst :: allBanks.map s.dueBank ++ [s.dueRefresh, s.dueClear, s.dueWake, s.dueExpiry])

/-- Half a nanosecond passes. -/
def State.passTime (s : State) : State := { s with now := s.now + 1 }

end Sys2Proof.Machine
end

