-- ==== Sys2Proof/Machine/Packets.lean ====
section
/-!
DEFINITION. The meanings of the request commands: each is the arrival of its packet, with an agreeing check word, on its
link (R118, R120, R131, R135). One definition for each row of spec/opcode_table.json.
-/

namespace Sys2Proof.Machine

open Sys2Proof

/-- The arrival of a request packet on its header's link. -/
def State.request (s : State) (h : Header) (r : Request) : State := s.receive h.port (goodArrival h.sequence h.tag r)

/-- ATTACH (R140 to R142). -/
def execAttach (h : Header) (role : Byte) (s : State) : Result := .next (s.request h (.attach role))

/-- DETACH (R144). -/
def execDetach (h : Header) (s : State) : Result := .next (s.request h .detach)

/-- IDLE (R143). -/
def execIdle (h : Header) (s : State) : Result := .next (s.request h .idle)

/-- OPEN (R25 to R31). -/
def execOpenBank (h : Header) (bank : Byte) (row : BitVec 16) (mode : HoldMode) (wait : Bool) (s : State) : Result :=
  .next (s.request h (.openBank bank row mode wait))

/-- UPGRADE (R42). -/
def execUpgrade (h : Header) (bank : Byte) (s : State) : Result := .next (s.request h (.upgrade bank))

/-- CLOSE (R36). -/
def execCloseBank (h : Header) (bank : Byte) (s : State) : Result := .next (s.request h (.closeBank bank))

/-- READ (R54). -/
def execRead (h : Header) (bank column units : Byte) (autoClose : Bool) (s : State) : Result :=
  .next (s.request h (.read bank column units autoClose))

/-- WRITE (R54). -/
def execWrite (h : Header) (bank column units : Byte) (autoClose : Bool) (data : List WriteUnit) (s : State) : Result :=
  .next (s.request h (.write bank column units autoClose data))

/-- CFG_READ (R157). -/
def execCfgRead (h : Header) (item index : Byte) (s : State) : Result := .next (s.request h (.cfgRead item index))

/-- CFG_WRITE of RETENTION_INTERVAL (R75, R152); the index byte of a packet is ignored for this item (R178). -/
def execCfgWriteRetentionInterval (h : Header) (value : Byte) (s : State) : Result :=
  .next (s.request h (.cfgWrite 0x01 0 value))

/-- CFG_WRITE of RECLAIM_LEVEL (R81, R152). -/
def execCfgWriteReclaimLevel (h : Header) (value : Byte) (s : State) : Result :=
  .next (s.request h (.cfgWrite 0x02 0 value))

/-- CFG_WRITE of PULL_IN of a quad (R95, R152). -/
def execCfgWritePullIn (h : Header) (index value : Byte) (s : State) : Result :=
  .next (s.request h (.cfgWrite 0x03 index value))

/-- CFG_WRITE of HOLD_QUOTA of a port (R152, R154). -/
def execCfgWriteHoldQuota (h : Header) (index value : Byte) (s : State) : Result :=
  .next (s.request h (.cfgWrite 0x04 index value))

/-- CFG_WRITE of GRANT_POLICY (R33, R152). -/
def execCfgWriteGrantPolicy (h : Header) (value : Byte) (s : State) : Result :=
  .next (s.request h (.cfgWrite 0x05 0 value))

/-- CFG_WRITE of IDLE_ENTRY (R152, R155). -/
def execCfgWriteIdleEntry (h : Header) (value : Byte) (s : State) : Result :=
  .next (s.request h (.cfgWrite 0x06 0 value))

/-- FAULT_CLEAR by index (R111, R158). -/
def execFaultClearIndex (h : Header) (index : Byte) (s : State) : Result := .next (s.request h (.faultClear index))

/-- FAULT_CLEAR of ALL (R111, R158). -/
def execFaultClearAll (h : Header) (s : State) : Result := .next (s.request h (.faultClear allCode))

/-- LAPSE_CLEAR of a quad, or of ALL with FFh (R85, R158). -/
def execLapseClear (h : Header) (quad : Byte) (s : State) : Result := .next (s.request h (.lapseClear quad))

/-- COUNT_CLEAR of a bank, or of ALL with FFh (R113, R158). -/
def execCountClear (h : Header) (bank : Byte) (s : State) : Result := .next (s.request h (.countClear bank))

/-- INSPECT SELF (R160); the number byte of a packet is ignored for this target (11.2). -/
def execInspectSelf (h : Header) (s : State) : Result := .next (s.request h (.inspect 0x01 0))

/-- INSPECT BANK (R160). -/
def execInspectBank (h : Header) (bank : Byte) (s : State) : Result := .next (s.request h (.inspect 0x02 bank))

/-- INSPECT QUAD (R161). -/
def execInspectQuad (h : Header) (quad : Byte) (s : State) : Result := .next (s.request h (.inspect 0x03 quad))

/-- INSPECT FAULTS (R161). -/
def execInspectFaults (h : Header) (s : State) : Result := .next (s.request h (.inspect 0x04 0))

/-- INSPECT COUNTS (R161). -/
def execInspectCounts (h : Header) (s : State) : Result := .next (s.request h (.inspect 0x05 0))

/-- INSPECT DEVICE (R162). -/
def execInspectDevice (h : Header) (s : State) : Result := .next (s.request h (.inspect 0x06 0))

end Sys2Proof.Machine
end

