-- ==== Sys2Proof/Machine/Dispatch.lean ====
section
/-!
DEFINITION. One arm for each command: its meaning.
-/

namespace Sys2Proof.Machine

open Sys2Proof

def exec (i : Instr) (s : State) : Host.Outcome State Fault Refusal :=
  match i with
  | .powerOn resetNHigh carrier => Sys2Proof.Machine.execPowerOn resetNHigh carrier s
  | .resetNFall => Sys2Proof.Machine.execResetNFall s
  | .resetNRise => Sys2Proof.Machine.execResetNRise s
  | .carrierLoss port => Sys2Proof.Machine.execCarrierLoss port s
  | .carrierReturn port => Sys2Proof.Machine.execCarrierReturn port s
  | .unitCorruption bank row column dataBits checkBits => Sys2Proof.Machine.execUnitCorruption bank row column dataBits checkBits s
  | .hello port => Sys2Proof.Machine.execHello port s
  | .ignoredPacket port bytes => Sys2Proof.Machine.execIgnoredPacket port bytes s
  | .inboundCheckFailure port bytes => Sys2Proof.Machine.execInboundCheckFailure port bytes s
  | .linkReset port sequence => Sys2Proof.Machine.execLinkReset port sequence s
  | .packetArrivalInRetention port bytes => Sys2Proof.Machine.execPacketArrivalInRetention port bytes s
  | .heldPacketArrival port bytes => Sys2Proof.Machine.execHeldPacketArrival port bytes s
  | .wakeCompletion => Sys2Proof.Machine.execWakeCompletion s
  | .attach h role => Sys2Proof.Machine.execAttach h role s
  | .detach h => Sys2Proof.Machine.execDetach h s
  | .idle h => Sys2Proof.Machine.execIdle h s
  | .openBank h bank row mode wait => Sys2Proof.Machine.execOpenBank h bank row mode wait s
  | .upgrade h bank => Sys2Proof.Machine.execUpgrade h bank s
  | .closeBank h bank => Sys2Proof.Machine.execCloseBank h bank s
  | .read h bank column units autoClose => Sys2Proof.Machine.execRead h bank column units autoClose s
  | .write h bank column units autoClose data => Sys2Proof.Machine.execWrite h bank column units autoClose data s
  | .burstUnitStep => Sys2Proof.Machine.execBurstUnitStep s
  | .executionCompletion => Sys2Proof.Machine.execExecutionCompletion s
  | .cutCompletion => Sys2Proof.Machine.execCutCompletion s
  | .openCompletion bank => Sys2Proof.Machine.execOpenCompletion bank s
  | .dwellExpiry bank => Sys2Proof.Machine.execDwellExpiry bank s
  | .closeCompletion bank => Sys2Proof.Machine.execCloseCompletion bank s
  | .retentionTimerExpiry => Sys2Proof.Machine.execRetentionTimerExpiry s
  | .refreshCompletion => Sys2Proof.Machine.execRefreshCompletion s
  | .clearCompletion => Sys2Proof.Machine.execClearCompletion s
  | .transmission port => Sys2Proof.Machine.execTransmission port s
  | .cfgRead h item index => Sys2Proof.Machine.execCfgRead h item index s
  | .cfgWriteRetentionInterval h value => Sys2Proof.Machine.execCfgWriteRetentionInterval h value s
  | .cfgWriteReclaimLevel h value => Sys2Proof.Machine.execCfgWriteReclaimLevel h value s
  | .cfgWritePullIn h index value => Sys2Proof.Machine.execCfgWritePullIn h index value s
  | .cfgWriteHoldQuota h index value => Sys2Proof.Machine.execCfgWriteHoldQuota h index value s
  | .cfgWriteGrantPolicy h value => Sys2Proof.Machine.execCfgWriteGrantPolicy h value s
  | .cfgWriteIdleEntry h value => Sys2Proof.Machine.execCfgWriteIdleEntry h value s
  | .faultClearIndex h index => Sys2Proof.Machine.execFaultClearIndex h index s
  | .faultClearAll h => Sys2Proof.Machine.execFaultClearAll h s
  | .lapseClear h quad => Sys2Proof.Machine.execLapseClear h quad s
  | .countClear h bank => Sys2Proof.Machine.execCountClear h bank s
  | .inspectSelf h => Sys2Proof.Machine.execInspectSelf h s
  | .inspectBank h bank => Sys2Proof.Machine.execInspectBank h bank s
  | .inspectQuad h quad => Sys2Proof.Machine.execInspectQuad h quad s
  | .inspectFaults h => Sys2Proof.Machine.execInspectFaults h s
  | .inspectCounts h => Sys2Proof.Machine.execInspectCounts h s
  | .inspectDevice h => Sys2Proof.Machine.execInspectDevice h s

end Sys2Proof.Machine
end

