-- ==== Sys2Proof/Machine/Step.lean ====
section
/-!
DEFINITION. One step of the block: the command at the front of the queue, or with the queue empty the block's own next
timed event or the passing of time (log 4).
-/

namespace Sys2Proof.Machine

open Sys2Proof

/-- One step: the front command with the queue's rest; on an empty queue the timed event that is due, or half a
nanosecond. -/
def step (s : State) : Host.Outcome State Fault Refusal :=
  match s.pending with
  | c :: rest => exec c { s with pending := rest }
  | [] =>
    match s.dueCommand with
    | some c => exec c s
    | none => .next s.passTime

/-- The state with the command that a word spells put at the front of its queue, unchanged where the word spells none. -/
def State.withFetchWord (s : State) (nbits w : Nat) : State :=
  match decodeTableWord nbits w with
  | some c => { s with pending := c :: s.pending }
  | none => s

end Sys2Proof.Machine
end

