-- ==== Sys2Proof/Safety.lean ====
section
/-!
DEFINITION. The vocabulary of the statements: what an operation leaves alone, when a request is good, the whole effect of a
request answered as it is taken, and the laws of the state that every step keeps.
-/

namespace Sys2Proof.Machine

open Sys2Proof

/-! ## Frames: what differs between two states, at most -/

/-- At most sessions and links differ. -/
def State.OnlyAnswers (s t : State) : Prop := t = { s with sessions := t.sessions, links := t.links }

/-- At most what the ports' work ties together differs: bank records, burst engine, sessions, links and the order of grants.
Time, mode, array, quad accounts, timer, refresh unit, integrity unit, configuration and queue are the same. -/
def State.OnlyHolds (s t : State) : Prop :=
  t = { s with banks := t.banks, bursts := t.bursts, sessions := t.sessions, links := t.links, stamp := t.stamp }

/-- Time, array, retention timer, integrity unit and queue are the same. -/
def State.KeepsStore (s t : State) : Prop :=
  t.now = s.now ∧ t.array = s.array ∧ t.timer = s.timer ∧ t.integrity = s.integrity ∧ t.pending = s.pending

/-! ## The place law -/

/-- "On any one bank, a port has at most one hold record or one wait entry, never both" (R23). -/
def State.placeLaw (s : State) : Prop :=
  ∀ (b : Bank) (p : Port),
    ((s.bank b).holds.filter (fun h => h.port == p)).length + ((s.bank b).waitQueue.filter (fun w => w.port == p)).length
      ≤ 1

/-! ## Choices of the data-path arbiter -/

/-- `t` is after the data-path arbiter's choice on a free data path, taken with these queues and this last served port (R57, R58): where
no burst at the head of a queue has its bank OPEN, none begins; else the first such head in the cycle after the last served port leaves
its queue and begins execution now. -/
def State.choseFrom (t : State) (queues : Four (List QueuedBurst)) (last : Port) : Prop :=
  ((∀ p b, (queues.get p).head? = some b → (t.bank b.bank).phase ≠ .opened) →
      t.bursts = { queues := queues, executing := none, lastServed := last })
    ∧ ∀ (n : Nat) (p : Port) (b : QueuedBurst) (rest : List QueuedBurst), n < 4 → p.val = (last.val + 1 + n) % 4 →
        queues.get p = b :: rest → (t.bank b.bank).phase = .opened →
        (∀ (k : Nat) (q : Port) (c : QueuedBurst), k < n → q.val = (last.val + 1 + k) % 4 → (queues.get q).head? = some c →
          (t.bank c.bank).phase ≠ .opened) →
        t.bursts =
          { queues := queues.set p rest
            executing := some { burst := b, startedAt := t.now, results := [], cut := none }
            lastServed := p }

/-- `t` is `s` in its burst engine after an event that leaves these queues: an executing burst goes on; on a free data path the arbiter
chooses (R58). -/
def State.engineGoesOn (s t : State) (queues : Four (List QueuedBurst)) : Prop :=
  (s.bursts.executing ≠ none → t.bursts = { s.bursts with queues := queues })
    ∧ (s.bursts.executing = none → t.choseFrom queues s.bursts.lastServed)

/-! ## Link faults -/

/-- `t` is `s` after the teardown of the port's session, in bursts, waits, upgrades and records (R50, R68). No burst of the port is
queued; the executing burst goes on. Nothing of the port's waits and upgrades stays. Its record leaves at once where it is not revoke
pending, the bank is OPEN and no burst of the port executes there; where it stays it is marked revoke pending, or releasing if it already
was. Every other port's records and waits keep their places. An upgrade whose port is left alone by a leaving completes; any other port's
stays as it is. A bank that a leaving leaves without a record goes to CLOSE_WAIT, or after dwell expiry to CLOSING for 14 ns. -/
def State.workEnded (s t : State) (p : Port) : Prop :=
  s.engineGoesOn t (s.bursts.queues.set p [])
    ∧ (∀ b, (t.bank b).waitQueue = (s.bank b).waitQueue.filter (fun w => w.port != p))
    ∧ (∀ b, ∀ u, (t.bank b).upgrade = some u → u.port ≠ p)
    ∧ ∀ (b : Bank) (leaves : HoldRecord → Bool) (kept : List HoldRecord),
        (∀ h, leaves h = true ↔
          h.port = p ∧ h.revokePending = false ∧ (s.bank b).phase = .opened ∧ s.executingOn p b = false) →
        kept = ((s.bank b).holds.filter (fun h => !leaves h)).map (fun h =>
          if h.port = p ∧ h.releasing = false then { h with revokePending := true } else h) →
        ((∀ u, (s.bank b).upgrade = some u → u.port = p) → (t.bank b).holds = kept)
          ∧ (∀ u, (s.bank b).upgrade = some u → u.port ≠ p →
              (∀ h ∈ (s.bank b).holds, leaves h = false) ∨ (kept ≠ [] ∧ kept.map (fun x => x.port) ≠ [u.port]) →
              (t.bank b).holds = kept ∧ (t.bank b).upgrade = some u)
          ∧ (∀ u x, (s.bank b).upgrade = some u → u.port ≠ p → (∃ h ∈ (s.bank b).holds, leaves h = true) →
              kept = [x] → x.port = u.port →
              (t.bank b).holds = [{ x with mode := .exclusive }] ∧ (t.bank b).upgrade = none
                ∧ ((s.session u.port).state = .attached → (s.link u.port).up = true →
                    .response u.tag (.granted b (s.bank b).openRow .exclusive) ∈ (t.link u.port).queue))
          ∧ ((∃ h ∈ (s.bank b).holds, leaves h = true) → kept = [] →
              (t.bank b).phase = (if (s.bank b).dwellExpired = some true then .closing else .closeWait)
                ∧ ((s.bank b).dwellExpired = some true → (t.bank b).endsAt = some (s.now + 28)))

/-- Records, waits and upgrades are as before, as at a link fault of a port whose session is NONE or in TEARDOWN (R147). -/
def State.keepsRecords (s t : State) : Prop :=
  ∀ b, (t.bank b).holds = (s.bank b).holds ∧ (t.bank b).waitQueue = (s.bank b).waitQueue
    ∧ (t.bank b).upgrade = (s.bank b).upgrade

/-- The session record after teardown: in ATTACHED and DETACHING everything is cleared and the state is TEARDOWN, or NONE where
the port has no outstanding work (R148); TEARDOWN ends in the same way (R149); NONE is left as it is (R147). -/
def tornDown (x : Session) (workLeft : Bool) : Session :=
  let state := if workLeft then SessionState.teardown else SessionState.none
  match x.state with
  | .none => x
  | .attached | .detaching =>
    { state := state, role := none, tags := sixteenAll .free, idleVote := false, detachTag := none }
  | .teardown => { x with state := state }

/-- `t` is what a link fault with the reason makes of `s` on port `p` (R124, R147, R148): the link's own steps; the session torn
down, and with it the port's work, where the place law (R23) holds; the maintainer note cleared if it names the port; the rest of the configuration, array, integrity unit, timer, time and
queue, and of every other link all but its outbound queue, as before. -/
def State.faulted (s t : State) (p : Port) (reason : FaultReason) : Prop :=
  t.link p =
      { s.link p with
        up := false, expectedSeq := 0, queue := [], lastFault := reason
        control := if reason = .carrier then none else some (.linkFault reason) }
    ∧ t.session p = tornDown (s.session p) (t.outstanding p)
    ∧ t.config =
        (if ((s.session p).state = .attached ∨ (s.session p).state = .detaching) ∧ s.config.maintainer = some p then
          { s.config with maintainer := none }
        else s.config)
    ∧ ((s.session p).state = .attached ∨ (s.session p).state = .detaching → s.placeLaw → s.workEnded t p)
    ∧ ((s.session p).state = .none ∨ (s.session p).state = .teardown → s.keepsRecords t)
    ∧ (∀ q, q ≠ p → t.link q = { s.link q with queue := (t.link q).queue })
    ∧ s.KeepsStore t ∧ (∀ q, t.quad q = s.quad q)

/-! ## Units and the integrity unit -/

/-- A unit as it stands now. Where the clear in progress has written it, it is eight zero bytes with the bits that have changed
since (R167; the moment of its write is free, log 11); else it is as the array holds it. -/
def State.unitNow (s : State) (u : Nat) : UnitBits :=
  if clearHasWritten s.modeCtl.clearRun s.now u then
    { written := 0, changedData := s.array.lateData u, changedCheck := s.array.lateCheck u }
  else s.array.unit u

/-- `a'` is `a` with the unit `u` written with the data `d` (R102): it is clean and holds `d`; every other unit holds and is
classified as before. -/
def ArrayState.wroteUnit (a a' : ArrayState) (u : Nat) (d : UnitData) : Prop :=
  a'.classify u = .clean
    ∧ ∀ v, a'.storedData v = (if v = u then d else a.storedData v) ∧ (v ≠ u → a'.classify v = a.classify v)

/-- `d` has the bytes of `new` that the mask selects and the bytes of `old` that it does not (R63). -/
def merged (mask : BitVec 8) (new old d : UnitData) : Prop :=
  ∀ i, i < 8 → unitByte d i = if mask.getLsbD i then unitByte new i else unitByte old i

/-- `j` is `i` with the corrected count of a bank one higher, up to 255 (R106, R113). -/
def countedUp (i j : IntegrityUnit) (b : Bank) : Prop :=
  j = { i with counts := j.counts }
    ∧ ∀ c, sixteenGet j.counts c =
        if c = b then min (sixteenGet i.counts b + 1) 255 else sixteenGet i.counts c

/-- The integrity unit after a detection (R107): nothing new for a listed unit; else an entry at the tail, or with 16 entries
the overflow flag. -/
def detectedIn (i : IntegrityUnit) (e : FaultEntry) : IntegrityUnit :=
  if i.faults.any (fun x => x.names e.bank e.row e.column) then i
  else if i.faults.length < 16 then { i with faults := i.faults ++ [e] } else { i with overflow := true }

/-! ## Queue service -/

/-- `w` is the wait entry that queue service chooses on the bank (R33): under ARRIVAL the oldest; under ROTATING that of the first
waiting port in the cycle after the last granted port. -/
def State.servedFirst (s : State) (b : Bank) (w : WaitEntry) : Prop :=
  (s.config.grantPolicy = .arrival ∧ (s.bank b).waitQueue.head? = some w)
    ∨ (s.config.grantPolicy = .rotating
        ∧ ∃ n : Nat, n < 4 ∧ w.port.val = ((s.bank b).lastGranted.val + 1 + n) % 4
          ∧ (s.bank b).waitQueue.find? (fun y => y.port == w.port) = some w
          ∧ ∀ k : Nat, k < n → ∀ y ∈ (s.bank b).waitQueue, y.port.val ≠ ((s.bank b).lastGranted.val + 1 + k) % 4)

/-- The bank as the grant of `w` at the time `now` leaves it (R10, R34): OPENING on its row for 14 ns; a record, unmarked and with
its tag as open tag, for `w` and for every SHARED entry for the row that is granted with it; the other entries waiting on. -/
def BankRecord.grantedTo (r r' : BankRecord) (w : WaitEntry) (now : Nat) : Prop :=
  ∃ joins : WaitEntry → Bool,
    (∀ y, joins y = (y.port != w.port && w.mode == .shared && y.mode == .shared && y.row == w.row))
      ∧ r' = { r with
          phase := .opening, row := some w.row, dwellExpired := some false, endsAt := some (now + 28)
          lastGranted := w.port, holds := r'.holds
          waitQueue := r.waitQueue.filter (fun y => y.port != w.port && !joins y) }
      ∧ r'.holds.map (fun h => (h.port, h.mode, h.openTag)) =
          (w :: r.waitQueue.filter joins).map (fun y => (y.port, y.mode, some y.tag))
      ∧ ∀ h ∈ r'.holds, h.releasing = false ∧ h.revokePending = false ∧ h.closeTag = none

/-! ## Starts of clears and refreshes -/

/-- The clear of a quad is due: mode CLEARING, the quad UNCLEARED with its four banks CLOSED, every lower quad CLEARED (R17,
R166). -/
def State.clearDue (s : State) (q : Quad) : Prop :=
  s.mode = .clearing ∧ (∀ r, r < q → s.cleared r = true) ∧ s.clearState q = .uncleared
    ∧ ∀ b, groupOf b = q → (s.bank b).phase = .closed

/-- `t` is `s` with the clear of a quad started now: the quad and its four banks CLEARING, nothing else (R17, R166). -/
def State.clearBegun (s t : State) (q : Quad) : Prop :=
  t = { s with banks := t.banks, modeCtl := t.modeCtl, array := { s.array with epoch := t.array.epoch } }
    ∧ t.modeCtl =
        { s.modeCtl with
          clearStates := s.modeCtl.clearStates.set q .clearing, clearRun := t.modeCtl.clearRun }
    ∧ t.modeCtl.clearRun.map (fun r => (r.quad, r.startedAt)) = some (q, s.now)
    ∧ ∀ b, t.bank b = if groupOf b = q then { s.bank b with phase := .clearing } else s.bank b

/-- `t` is `s` after the clear start has been evaluated: the clear that is due has begun, or where none is, nothing more. -/
def State.clearEvaluated (s t : State) : Prop :=
  (∀ q, s.clearDue q → s.clearBegun t q) ∧ ((∀ q, ¬ s.clearDue q) → t = s)

/-- A refresh start of the bank's quad falls together with a request taken now: its interval begins at this moment, and no request
has been taken since (R92, log 30). -/
def State.startOfThisMoment (s : State) (b : Bank) : Prop :=
  s.refresh = some { quad := groupOf b, endsAt := s.now + 560 } ∧ s.marks.requests = s.marks.startedAfter

/-! ## Laws of the state -/

/-- The array's memories have their canonical form. -/
def State.arrayLaw (s : State) : Prop := s.array.wf = true

/-- "Every quad's refresh debt lies between −4 and +12 inclusive" (R73); while a quad is refreshed its debt is at least −3,
so that the completion leaves it at −4 or above. -/
def State.debtLaw (s : State) : Prop :=
  (∀ q, -4 ≤ (s.quad q).debt ∧ (s.quad q).debt ≤ 12) ∧ ∀ r, s.refresh = some r → -3 ≤ (s.quad r.quad).debt

/-- The maintenance state of every quad is the one its debt and RECLAIM_LEVEL give, and RECLAIM_LEVEL is 1 to 11 (R74, 8.1). -/
def State.maintenanceLaw (s : State) : Prop :=
  (1 ≤ s.config.reclaimLevel ∧ s.config.reclaimLevel ≤ 11)
    ∧ ∀ q, (s.quad q).state = maintenanceOf s.config.reclaimLevel (s.quad q).debt

/-- "The hold records of a bank are either all SHARED or a single EXCLUSIVE record" (R24), and a bank in CLOSE_WAIT has none
(R6). -/
def State.holdLaw (s : State) : Prop :=
  ∀ b, ((∀ h ∈ (s.bank b).holds, h.mode = .shared) ∨ ∃ h, (s.bank b).holds = [h])
    ∧ ((s.bank b).phase = .closeWait → (s.bank b).holds = [])

/-- Which fields of a bank record are present follows from its state (R5), and a bank has a hold record exactly in OPENING and
OPEN (R6). -/
def State.bankLaw (s : State) : Prop :=
  ∀ b,
    match (s.bank b).phase with
    | .closed | .refreshing | .clearing =>
      (s.bank b).row = none ∧ (s.bank b).dwellExpired = none ∧ (s.bank b).holds = [] ∧ (s.bank b).upgrade = none
    | .opening => (s.bank b).row ≠ none ∧ (s.bank b).dwellExpired = some false ∧ (s.bank b).holds ≠ []
    | .opened => (s.bank b).row ≠ none ∧ (s.bank b).dwellExpired ≠ none ∧ (s.bank b).holds ≠ []
    | .closeWait =>
      (s.bank b).row ≠ none ∧ (s.bank b).dwellExpired = some false ∧ (s.bank b).holds = [] ∧ (s.bank b).upgrade = none
    | .closing =>
      (s.bank b).row ≠ none ∧ (s.bank b).dwellExpired = some true ∧ (s.bank b).holds = [] ∧ (s.bank b).upgrade = none

/-- The executing burst's bank is OPEN with a record of its port, whose session has not ended, and is torn down once the burst is
cut; a queued burst is its port's, in an ATTACHED session, to a bank with a record of the port that is not marked revoke pending
(R41, R46, R57, R66 to R69, R148). -/
def State.burstLaw (s : State) : Prop :=
  (∀ e, s.bursts.executing = some e →
      (s.bank e.burst.bank).phase = .opened ∧ (∃ h ∈ (s.bank e.burst.bank).holds, h.port = e.burst.port)
        ∧ (s.session e.burst.port).state ≠ .none
        ∧ (e.cut ≠ none → (s.session e.burst.port).state = .teardown))
    ∧ ∀ p, ∀ x ∈ s.burstQueue p, x.port = p ∧ (s.session p).state = .attached
        ∧ ∃ h ∈ (s.bank x.bank).holds, h.port = p ∧ h.revokePending = false

/-- While a clear is in progress the four banks of its quad are CLEARING (R17), and while a refresh is, those of its quad are
REFRESHING (R16). -/
def State.phaseLaw (s : State) : Prop :=
  (∀ r, s.modeCtl.clearRun = some r → ∀ b, groupOf b = r.quad → (s.bank b).phase = .clearing)
    ∧ ∀ r, s.refresh = some r → ∀ b, groupOf b = r.quad → (s.bank b).phase = .refreshing

/-- "The fault unit list holds at most 16 entries ... with no two entries for the same unit" (R108), and a corrected count is
0 to 255 (R113). -/
def State.integrityLaw (s : State) : Prop :=
  s.integrity.faults.length ≤ 16
    ∧ s.integrity.faults.Pairwise (fun x y => x.names y.bank y.row y.column = false)
    ∧ ∀ b, sixteenGet s.integrity.counts b ≤ 255

/-- "A port's outbound queue holds at most one notice for each kind and subject" (R128). -/
def State.noticeLaw (s : State) : Prop :=
  ∀ p, (s.link p).queue.Pairwise (fun x y => x.sameSubject y = false)

/-! ## Requests -/

/-- Arrivals on the link are checked as they come: carrier is present, and the mode is CLEARING or ACTIVE (R117, R131,
R132). -/
abbrev State.listens (s : State) (p : Port) : Prop :=
  (s.mode = .clearing ∨ s.mode = .active) ∧ (s.link p).carrier = true

/-- A request with this header, an agreeing check word, kind and length is good (R120, R122): the link is UP, the sequence
number is the expected one, the tag is not in flight. -/
abbrev State.hears (s : State) (h : Header) : Prop :=
  s.listens h.port ∧ (s.link h.port).up = true ∧ (s.link h.port).expectedSeq = h.sequence
    ∧ s.inFlight h.port h.tag = false

/-- The state after the link unit and the session unit have taken a request other than IDLE (R120, R135): expected sequence
advanced, idle vote clear, tag BUSY; and one request more counted (log 30). -/
def State.taken (s : State) (h : Header) : State :=
  (s.countRequest.setLink h.port { s.link h.port with expectedSeq := (s.link h.port).expectedSeq + 1 }).setSession h.port
    { s.session h.port with idleVote := false, tags := sixteenSet (s.session h.port).tags h.tag .busy }

/-- What the links and sessions show of a request that is answered finally in its arrival event: expected sequence advanced, the
response at the queue's tail, the idle vote as given, every tag as before (R120, R127, R135, R138). -/
def State.replied (s : State) (h : Header) (vote : Bool) (a : Answer) : State :=
  (s.setLink h.port
    { s.link h.port with
      expectedSeq := (s.link h.port).expectedSeq + 1
      queue := (s.link h.port).queue ++ [.response h.tag a] }).setSession h.port
    { s.session h.port with idleVote := vote }

/-- The whole effect of a request that is answered finally in its arrival event and does nothing else: it is counted (log 30) and
replied to. -/
def State.answered (s : State) (h : Header) (vote : Bool) (a : Answer) : State := s.countRequest.replied h vote a

/-- The request packet that a request command stands for. -/
def requestOf : Instr → Option (Header × Request)
  | .attach h role => some (h, .attach role)
  | .detach h => some (h, .detach)
  | .idle h => some (h, .idle)
  | .openBank h bank row mode wait => some (h, .openBank bank row mode wait)
  | .upgrade h bank => some (h, .upgrade bank)
  | .closeBank h bank => some (h, .closeBank bank)
  | .read h bank column units ac => some (h, .read bank column units ac)
  | .write h bank column units ac data => some (h, .write bank column units ac data)
  | .cfgRead h item index => some (h, .cfgRead item index)
  | .cfgWriteRetentionInterval h value => some (h, .cfgWrite 0x01 0 value)
  | .cfgWriteReclaimLevel h value => some (h, .cfgWrite 0x02 0 value)
  | .cfgWritePullIn h index value => some (h, .cfgWrite 0x03 index value)
  | .cfgWriteHoldQuota h index value => some (h, .cfgWrite 0x04 index value)
  | .cfgWriteGrantPolicy h value => some (h, .cfgWrite 0x05 0 value)
  | .cfgWriteIdleEntry h value => some (h, .cfgWrite 0x06 0 value)
  | .faultClearIndex h index => some (h, .faultClear index)
  | .faultClearAll h => some (h, .faultClear allCode)
  | .lapseClear h quad => some (h, .lapseClear quad)
  | .countClear h bank => some (h, .countClear bank)
  | .inspectSelf h => some (h, .inspect 0x01 0)
  | .inspectBank h bank => some (h, .inspect 0x02 bank)
  | .inspectQuad h quad => some (h, .inspect 0x03 quad)
  | .inspectFaults h => some (h, .inspect 0x04 0)
  | .inspectCounts h => some (h, .inspect 0x05 0)
  | .inspectDevice h => some (h, .inspect 0x06 0)
  | .powerOn .. | .resetNFall | .resetNRise | .carrierLoss .. | .carrierReturn .. | .unitCorruption .. | .hello ..
  | .ignoredPacket .. | .inboundCheckFailure .. | .linkReset .. | .packetArrivalInRetention .. | .heldPacketArrival ..
  | .wakeCompletion | .burstUnitStep | .executionCompletion | .cutCompletion | .openCompletion .. | .dwellExpiry ..
  | .closeCompletion .. | .retentionTimerExpiry | .refreshCompletion | .clearCompletion | .transmission .. => none

end Sys2Proof.Machine
end

