-- ==== Sys2Proof/Certificates/Slice0/Obligations.lean ====
section
/-!
DEFINITION. The statements for the provers. Each `def` names what it states; the rules it rests on stand in OBLIGATIONS.json.
A statement about a command says that `exec` answers a next state, and which one.
-/

section

open Sys2Proof Sys2Proof.Machine

/-! ## The queue and the clock -/

/-- A step with a command at the front of the queue is that command's effect, with the queue's rest. -/
def Obligations.StepTakesFrontCommand : Prop :=
  ∀ (c : Instr) (rest : List Instr) (s : State),
    step { s with pending := c :: rest } = exec c { s with pending := rest }

/-! ## Power-on and device reset -/

/-- POWER_ON completes and puts every block into its power-on state; the array reads as the free values of a new epoch (log 9).
That it may come in every state, and that the time and the queue of waiting commands run on through it, is the model's choice,
log 23. -/
def Obligations.PowerOnSetsEveryBlock : Prop :=
  ∀ (high : Bool) (carrier : Four Bool) (s : State), ∃ t, exec (.powerOn high carrier) s = .next t
    ∧ t.mode = (if high then .clearing else .reset)
    ∧ (∀ q, t.clearState q = if high = true ∧ q = 0 then .clearing else .uncleared)
    ∧ t.modeCtl.resetDuringClearing = !high ∧ t.modeCtl.wakeEndsAt = none
    ∧ t.modeCtl.clearRun.map (fun r => (r.quad, r.startedAt)) = (if high then some (0, s.now) else none)
    ∧ (∀ b, t.bank b =
        { phase := if high = true ∧ groupOf b = 0 then .clearing else .closed
          row := none, holds := [], dwellExpired := none, waitQueue := [], upgrade := none, lastGranted := 3
          endsAt := none })
    ∧ (∀ p, t.burstQueue p = []) ∧ t.bursts.executing = none ∧ t.bursts.lastServed = 3
    ∧ (∀ q, t.quad q = { debt := 0, state := .current, lapse := false })
    ∧ t.timer = { period := 64, endsAt := s.now + 12800 } ∧ t.refresh = none
    ∧ t.integrity.faults = [] ∧ t.integrity.overflow = false ∧ (∀ b, sixteenGet t.integrity.counts b = 0)
    ∧ t.config =
        { retentionInterval := 64, reclaimLevel := 8, pullIn := Four.all false, holdQuota := Four.all 4
          grantPolicy := .arrival, idleEntry := true, maintainer := none }
    ∧ (∀ p, t.session p =
        { state := .none, role := none, tags := sixteenAll .free, idleVote := false, detachTag := none })
    ∧ (∀ p, (t.link p).up = false ∧ (t.link p).carrier = carrier.get p ∧ (t.link p).expectedSeq = 0
        ∧ (t.link p).outboundSeq = 0 ∧ (t.link p).control = none ∧ (t.link p).queue = [] ∧ (t.link p).held = []
        ∧ (t.link p).overrun = false ∧ (t.link p).lastFault = .none)
    ∧ (∀ addr, t.array.readByte addr = Config.undefinedByte s.array.epoch addr)
    ∧ t.now = s.now ∧ t.pending = s.pending

/-- The machine right after reset is the power-on state with RESET_N high and carrier on every link (logs 1, 2), its queue is
empty, and it holds every law of the state. -/
def Obligations.ResetStateHoldsEveryLaw : Prop :=
  State.reset = State.powerOn true (Four.all true) 0 0 .none [] ∧ State.reset.pending = []
    ∧ State.reset.arrayLaw ∧ State.reset.debtLaw ∧ State.reset.maintenanceLaw ∧ State.reset.holdLaw
    ∧ State.reset.placeLaw ∧ State.reset.phaseLaw ∧ State.reset.bankLaw ∧ State.reset.burstLaw
    ∧ State.reset.integrityLaw ∧ State.reset.noticeLaw

/-- RESET_N_FALL completes in every mode but RESET. The mode, its note and the links are reset. A session is TEARDOWN where work
of its port is left, else NONE. Waits, upgrades and burst queues are emptied; the executing burst is cut as logs 12 and 13 say.
Debts, lapse flags, timer, fault unit list and overflow flag are kept, every maintenance state is evaluated against level 8, counts
and configuration are reset. The array is kept unit by unit; in a quad whose clear is abandoned the units already zeroed stay zero,
with the bits that have changed since (which they are is free, log 11). In a state that holds the maintenance and the phase law, a
bank keeps its state, row and dwell: the banks of an abandoned clear are CLOSED, an OPEN bank that is left without a record goes to
CLOSE_WAIT, or after dwell expiry to CLOSING for 14 ns. A refresh in progress goes on; else the refresh arbiter chooses last. -/
def Obligations.ResetFallResetsEveryBlock : Prop :=
  ∀ s : State, s.mode ≠ .reset → ∃ t, exec .resetNFall s = .next t
    ∧ t.mode = .reset ∧ t.modeCtl.resetDuringClearing = (s.mode == .clearing)
    ∧ t.modeCtl.wakeEndsAt = none ∧ t.modeCtl.clearRun = none
    ∧ (∀ q, t.clearState q =
        if s.modeCtl.clearRun.map (fun r => r.quad) = some q then .uncleared else s.clearState q)
    ∧ (∀ p, t.link p =
        { s.link p with
          up := false, expectedSeq := 0, outboundSeq := 0, control := none, queue := [], held := [], overrun := false
          lastFault := .none })
    ∧ (∀ p, t.session p =
        { state := if (s.session p).state ≠ .none ∧ t.outstanding p = true then .teardown else .none
          role := none, tags := sixteenAll .free, idleVote := false, detachTag := none })
    ∧ (∀ b, (t.bank b).waitQueue = [] ∧ (t.bank b).upgrade = none ∧ (t.bank b).lastGranted = 3)
    ∧ (∀ p, t.burstQueue p = []) ∧ t.bursts.lastServed = 3
    ∧ (s.bursts.executing = none → t.bursts.executing = none)
    ∧ (∀ e, s.bursts.executing = some e → t.bursts.executing =
        if e.cut ≠ none then some e
        else if e.inUnit s.now = true then some { e with cut := some e.nextUnitEnds } else none)
    ∧ (∀ q, t.quad q = { s.quad q with state := maintenanceOf 8 (s.quad q).debt })
    ∧ t.timer = s.timer
    ∧ t.integrity.faults = s.integrity.faults ∧ t.integrity.overflow = s.integrity.overflow
    ∧ (∀ b, sixteenGet t.integrity.counts b = 0)
    ∧ t.config =
        { retentionInterval := 64, reclaimLevel := 8, pullIn := Four.all false, holdQuota := Four.all 4
          grantPolicy := .arrival, idleEntry := true, maintainer := none }
    ∧ (s.modeCtl.clearRun = none → t.array = s.array)
    ∧ (s.arrayLaw → ∀ v, t.array.unit v = s.unitNow v)
    ∧ (s.maintenanceLaw → s.phaseLaw → ∃ u : State, t = u.refreshChoice ∧ u.refresh = s.refresh ∧ u.now = s.now
        ∧ ∀ b, ∀ left : Bool, left = ((s.bank b).phase == .opened && (t.bank b).holds == []) →
          u.bank b =
            { s.bank b with
              waitQueue := [], upgrade := none, lastGranted := 3, holds := (t.bank b).holds
              phase :=
                if s.modeCtl.clearRun.map (fun r => r.quad) = some (groupOf b) then .closed
                else if left = true then (if (s.bank b).dwellExpired = some true then .closing else .closeWait)
                else (s.bank b).phase
              endsAt :=
                if left = true ∧ (s.bank b).dwellExpired = some true then some (s.now + 28) else (s.bank b).endsAt })
    ∧ t.now = s.now ∧ t.pending = s.pending

/-- Every hold record at RESET_N fall, in a state that holds the maintenance and the phase law: on an OPEN bank it leaves, but for the record
whose port's burst executes there; one whose burst is cut at once, no unit being in progress, leaves too; every other one stays,
marked revoke pending, or releasing if it already was (R8, R69). When a unit is in progress, and that a cut at once takes its
record away within this event, are the model's readings, logs 12 and 13. -/
def Obligations.ResetFallTreatsHoldRecords : Prop :=
  ∀ (s : State) (b : Bank), s.mode ≠ .reset → s.maintenanceLaw → s.phaseLaw →
    ∃ t, exec .resetNFall s = .next t
      ∧ (t.bank b).holds =
        ((s.bank b).holds.filter (fun h =>
          ((s.bank b).phase != .opened || s.executingOn h.port b)
            && !(s.bursts.executing.any (fun e =>
                e.burst.port == h.port && e.burst.bank == b && e.cut.isNone && !e.inUnit s.now)))).map
          (fun h => if h.releasing then h else { h with revokePending := true })

/-- The retention entry condition: ACTIVE, IDLE_ENTRY ON, no burst executing or queued, every bank CLOSED or REFRESHING, every port
quiet, every outbound queue and control slot empty. A port is quiet in NONE, and in ATTACHED with its vote set, every tag FREE, and
no hold record and no wait entry. Where it holds, the mode becomes RETENTION, and nothing else changes. RESET_N_RISE, the reset not
having come during CLEARING: ACTIVE, or RETENTION where the entry condition then holds; nothing else changes. -/
def Obligations.ResetRiseReturnsToActive : Prop :=
  ∀ s : State,
    (s.retentionEntry = true ↔
      s.mode = .active ∧ s.config.idleEntry = true
        ∧ s.bursts.executing = none ∧ (∀ p, s.burstQueue p = [])
        ∧ (∀ b, (s.bank b).phase = .closed ∨ (s.bank b).phase = .refreshing)
        ∧ (∀ p, (s.session p).state = .none
            ∨ ((s.session p).state = .attached ∧ (s.session p).idleVote = true
                ∧ (∀ i, sixteenGet (s.session p).tags i = .free)
                ∧ ∀ b, (∀ h ∈ (s.bank b).holds, h.port ≠ p) ∧ ∀ w ∈ (s.bank b).waitQueue, w.port ≠ p))
        ∧ (∀ p, (s.link p).queue = [] ∧ (s.link p).control = none))
    ∧ (s.retentionEntry = true → s.enterRetention = { s with modeCtl := { s.modeCtl with mode := .retention } })
    ∧ (s.retentionEntry = false → s.enterRetention = s)
    ∧ (s.mode = .reset → s.modeCtl.resetDuringClearing = false →
        exec .resetNRise s = .next ({ s with modeCtl := { s.modeCtl with mode := .active } } : State).enterRetention)

/-- RESET_N_RISE, the reset having come during CLEARING: CLEARING, every quad uncleared with debt 0 and CURRENT, and the clear
of quad 0 started if its banks are CLOSED; lapse flags, links, sessions, configuration, fault unit list and stored data
kept. -/
def Obligations.ResetRiseClearsAgain : Prop :=
  ∀ s : State, s.mode = .reset → s.modeCtl.resetDuringClearing = true → ∃ t, exec .resetNRise s = .next t
    ∧ t.mode = .clearing ∧ t.modeCtl.resetDuringClearing = false
    ∧ (∀ q, t.clearState q = if q = 0 ∧ s.quadClosed 0 = true then .clearing else .uncleared)
    ∧ (∀ q, t.quad q = { debt := 0, state := .current, lapse := (s.quad q).lapse })
    ∧ (∀ b, t.bank b = if groupOf b = 0 ∧ s.quadClosed 0 = true then { s.bank b with phase := .clearing } else s.bank b)
    ∧ (s.quadClosed 0 = true → t.modeCtl.clearRun.map (fun r => (r.quad, r.startedAt)) = some (0, s.now))
    ∧ t.links = s.links ∧ t.sessions = s.sessions ∧ t.config = s.config ∧ t.integrity = s.integrity
    ∧ t.bursts = s.bursts ∧ t.refresh = s.refresh ∧ t.timer = s.timer ∧ t.now = s.now ∧ t.pending = s.pending
    ∧ t.array.cells = s.array.cells ∧ t.array.upsets = s.array.upsets ∧ t.array.base = s.array.base

/-! ## Links -/

/-- CARRIER_LOSS on a DOWN link: carrier absent, the control slot and the held packets emptied, the overrun mark clear, the
last fault reason left; the part may then enter retention mode. On an UP link: a link fault with reason CARRIER. CARRIER_RETURN
sets carrier present and changes nothing else. An executing burst goes on
(R68); how R125 and R176 stand beside that is log 32. -/
def Obligations.CarrierEventsByLinkState : Prop :=
  ∀ (s : State) (p : Port),
    ((s.link p).up = false →
      exec (.carrierLoss p) s = .next
        (s.setLink p { s.link p with carrier := false, held := [], overrun := false, control := none }).enterRetention)
    ∧ ((s.link p).up = true → ∃ t, exec (.carrierLoss p) s = .next t
      ∧ State.faulted (s.setLink p { s.link p with carrier := false, held := [], overrun := false }) t p .carrier)
    ∧ exec (.carrierReturn p) s = .next (s.setLink p { s.link p with carrier := true })

/-- HELLO on a DOWN link: UP, expected sequence 1, outbound sequence 0, HELLO_ACK in the control slot; nothing else. A packet
that is no well-formed HELLO changes nothing on a DOWN link, and no packet changes anything in RESET, or where there is no
carrier. -/
def Obligations.DownLinkHearsHelloAlone : Prop :=
  ∀ (s : State) (p : Port) (bytes : List Byte),
    (s.listens p → (s.link p).up = false →
      exec (.hello p) s = .next
        (s.setLink p { s.link p with up := true, expectedSeq := 1, outboundSeq := 0, control := some .helloAck }))
    ∧ (s.mode = .clearing ∨ s.mode = .active → (s.link p).up = false →
      ¬ ((decodePacket bytes).checkAgrees = true ∧ (decodePacket bytes).content = .hello true
          ∧ (decodePacket bytes).sequence = 0) →
      exec (.ignoredPacket p bytes) s = .next s)
    ∧ (s.mode = .reset → exec (.ignoredPacket p bytes) s = .next s)
    ∧ ((s.link p).carrier = false → exec (.ignoredPacket p bytes) s = .next s)

/-- The checks of an arriving packet on an UP link, in order, each with the reason of its link fault. An executing burst goes on
(R68); how R125 and R176 stand beside that is log 32. -/
def Obligations.InboundChecksInOrder : Prop :=
  ∀ (s : State) (p : Port) (bytes : List Byte), s.listens p → (s.link p).up = true →
    ∃ t, exec (.inboundCheckFailure p bytes) s = .next t
      ∧ ((decodePacket bytes).checkAgrees = false → State.faulted s t p .check)
      ∧ ((decodePacket bytes).checkAgrees = true →
          ((decodePacket bytes).sequence ≠ (s.link p).expectedSeq → State.faulted s t p .sequence)
          ∧ ((decodePacket bytes).sequence = (s.link p).expectedSeq →
              ((decodePacket bytes).content = .notAllowed → State.faulted s t p .kind)
              ∧ (∀ l, (decodePacket bytes).content = .hello l → State.faulted s t p .kind)
              ∧ ((decodePacket bytes).content = .badLength → State.faulted s t p .length)
              ∧ (∀ r, (decodePacket bytes).content = .request r →
                  s.inFlight p (decodePacket bytes).tag = true → State.faulted s t p .tag)))

/-- A good LINK_RESET is a link fault with reason RESET; one with a wrong sequence number is one with reason SEQUENCE, one with a
bad check word one with reason CHECK; on a DOWN link it is ignored. An executing burst goes on
(R68); how R125 and R176 stand beside that is log 32. -/
def Obligations.LinkResetFaultsTheLink : Prop :=
  ∀ (s : State) (p : Port) (n : Seq), s.listens p →
    ((s.link p).up = true → (s.link p).expectedSeq = n →
      ∃ t, exec (.linkReset p n) s = .next t ∧ State.faulted s t p .reset)
    ∧ ((s.link p).up = true → (s.link p).expectedSeq ≠ n →
      ∃ t, exec (.linkReset p n) s = .next t ∧ State.faulted s t p .sequence)
    ∧ ((s.link p).up = false → exec (.linkReset p n) s = .next s)
    ∧ ((s.link p).up = true → ∀ bytes, (decodePacket bytes).content = .linkReset →
        (decodePacket bytes).checkAgrees = false →
        ∃ t, exec (.inboundCheckFailure p bytes) s = .next t ∧ State.faulted s t p .check)

/-- A link fault of any reason ends the work of its port: carrier loss on an UP link, LINK_RESET with the right or a wrong sequence
number, and any packet that fails a check. In an ATTACHED or DETACHING session the teardown ends the port's bursts, waits, upgrades and
records (`State.workEnded`); in NONE and TEARDOWN every record, wait and upgrade is left as it is. The place law (R23) is a premise. An executing burst goes on
(R68); how R125 and R176 stand beside that is log 32. -/
def Obligations.LinkFaultEndsThePortsWork : Prop :=
  ∀ (s : State) (p : Port) (c : Instr), (s.link p).up = true →
    (c = .carrierLoss p
      ∨ (s.listens p ∧ ∃ n, c = .linkReset p n)
      ∨ (s.listens p ∧ ∃ bytes, c = .inboundCheckFailure p bytes
          ∧ ∀ r, (decodePacket bytes).content = .request r → (decodePacket bytes).checkAgrees = true →
              (decodePacket bytes).sequence = (s.link p).expectedSeq → s.inFlight p (decodePacket bytes).tag = true)) →
    ∃ t, exec c s = .next t ∧ (t.link p).up = false
      ∧ ((s.session p).state = .attached ∨ (s.session p).state = .detaching → s.placeLaw → s.workEnded t p)
      ∧ ((s.session p).state = .none ∨ (s.session p).state = .teardown → s.keepsRecords t)

/-- The first packet in RETENTION, on any link with carrier, whatever it holds: mode WAKING, the wake interval of 4 µs, the
packet held unchecked. A packet in WAKING is held, up to 32 a link; beyond that it is discarded and the overrun mark is set.
The wake is not lengthened. The stamp that keeps the order of arrivals is the model's own, log 15. -/
def Obligations.ArrivalsAroundTheWakeAreHeld : Prop :=
  ∀ (s : State) (p : Port) (bytes : List Byte), (s.link p).carrier = true →
    (s.mode = .retention → (s.link p).held.length < 32 →
      exec (.packetArrivalInRetention p bytes) s = .next
        (({ s with
            modeCtl := { s.modeCtl with mode := .waking, wakeEndsAt := some (s.now + 8000) }
            stamp := s.stamp + 1 } : State).setLink p
          { s.link p with held := (s.link p).held ++ [{ stamp := s.stamp, packet := decodePacket bytes }] }))
    ∧ (s.mode = .waking → (s.link p).held.length < 32 →
      exec (.heldPacketArrival p bytes) s = .next
        (({ s with stamp := s.stamp + 1 } : State).setLink p
          { s.link p with held := (s.link p).held ++ [{ stamp := s.stamp, packet := decodePacket bytes }] }))
    ∧ (s.mode = .waking → 32 ≤ (s.link p).held.length →
      exec (.heldPacketArrival p bytes) s = .next (s.setLink p { s.link p with overrun := true }))

/-- WAKE_COMPLETION ends the wake interval and leaves no packet held and no overrun mark. The held packets of all links are taken in
the order of their arrivals, each as though it had just arrived in mode ACTIVE; the retention entry condition is last. A link with
the overrun mark, UP after its last held packet, takes a link fault with reason SEQUENCE right then, before the next packet of another
link: the model's reading, log 17; DOWN, none. Where no packet was held, nothing else changes. The stamps that keep the order are the
model's own, log 15. The time moves on to the end of the interval: the model's choice, log 3. An executing burst goes on
through a link fault (R68); how R125 and R176 stand beside that is log 32. -/
def Obligations.WakeCompletionTakesHeldPackets : Prop :=
  ∀ (s : State) (e : Nat), s.modeCtl.wakeEndsAt = some e → ∃ t, exec .wakeCompletion s = .next t
    ∧ t.modeCtl.wakeEndsAt = none ∧ (t.mode = .active ∨ t.mode = .retention)
    ∧ (∀ p, (t.link p).held = [] ∧ (t.link p).overrun = false)
    ∧ t.now = max s.now e ∧ t.array = s.array ∧ t.timer = s.timer ∧ t.pending = s.pending
    ∧ ((∀ p, (s.link p).held = [] ∧ (s.link p).overrun = false) →
        t = ({ s with now := max s.now e, modeCtl := { s.modeCtl with mode := .active, wakeEndsAt := none } }
              : State).enterRetention)
    ∧ ∀ (order : List (Port × HeldPacket)),
        order.Pairwise (fun x y => x.2.stamp < y.2.stamp) →
        (∀ p, (s.link p).held = (order.filter (fun x => x.1 == p)).map (fun x => x.2)) →
        (∀ x ∈ order, (s.link x.1).carrier = true) →
        (∀ p, (s.link p).overrun = true → (s.link p).held ≠ []) →
        ∃ trace : Nat → State,
          trace 0 =
              { s with
                now := max s.now e
                modeCtl := { s.modeCtl with mode := .active, wakeEndsAt := none }
                links := s.links.map (fun l => { l with held := [] }) }
            ∧ t = (trace order.length).enterRetention
            ∧ ∀ (i : Nat) (x : Port × HeldPacket) (taken : State), order[i]? = some x →
                taken = (trace i).receive x.1 x.2.packet →
                ((s.link x.1).overrun = false ∨ (∃ y ∈ order.drop (i + 1), y.1 = x.1) → trace (i + 1) = taken)
                ∧ ((s.link x.1).overrun = true → (∀ y ∈ order.drop (i + 1), y.1 ≠ x.1) →
                    ∀ unmarked, unmarked = taken.setLink x.1 { taken.link x.1 with overrun := false } →
                    ((taken.link x.1).up = false → trace (i + 1) = unmarked)
                    ∧ ((taken.link x.1).up = true → State.faulted unmarked (trace (i + 1)) x.1 .sequence))

/-- A held packet that is alone in its wake is taken as though it had just arrived: the state is that of its check in mode
ACTIVE, then the retention entry condition. The time moves on to the end of the interval: the model's choice, log 3. -/
def Obligations.HeldPacketIsTakenAtWake : Prop :=
  ∀ (s : State) (p : Port) (h : HeldPacket) (e : Nat), s.modeCtl.wakeEndsAt = some e →
    (s.link p).held = [h] → (∀ q, q ≠ p → (s.link q).held = []) → (∀ q, (s.link q).overrun = false) →
    (s.link p).carrier = true →
    ∃ t, exec .wakeCompletion s = .next t
      ∧ t = ((({ s with
                  now := max s.now e
                  modeCtl := { s.modeCtl with mode := .active, wakeEndsAt := none } } : State).setLink p
                { s.link p with held := [] }).receive p h.packet).enterRetention

/-- TRANSMISSION sends the control slot's packet, else on an UP link the head of the outbound queue, with the outbound sequence
number, which advances by one; nothing else changes but that the part may then enter retention mode. Where there is nothing the
link may send it stops by name: the model's stop, log 5. The field that keeps the bytes sent is the model's own, log 16. -/
def Obligations.TransmissionSendsTheFrontPacket : Prop :=
  ∀ (s : State) (p : Port),
    (∀ c, (s.link p).carrier = true → s.mode ≠ .reset → (s.link p).control = some c →
      exec (.transmission p) s = .next
        (s.setLink p
          { s.link p with
            control := none, outboundSeq := (s.link p).outboundSeq + 1
            sent := c.packet (s.link p).outboundSeq p }).enterRetention)
    ∧ (∀ e rest, (s.link p).carrier = true → s.mode ≠ .reset → (s.link p).control = none → (s.link p).up = true →
      (s.link p).queue = e :: rest →
      exec (.transmission p) s = .next
        (s.setLink p
          { s.link p with
            queue := rest, outboundSeq := (s.link p).outboundSeq + 1
            sent := e.packet (s.link p).outboundSeq }).enterRetention)
    ∧ ((s.link p).carrier = false ∨ s.mode = .reset ∨ ((s.link p).control = none ∧ (s.link p).queue = [])
        ∨ ((s.link p).control = none ∧ (s.link p).up = false) →
      exec (.transmission p) s = .fault (.nothingToSend p))

/-! ## Sessions -/

/-- Every request but ATTACH and INSPECT DEVICE is refused with NOT_ATTACHED in a session that is not ATTACHED; the vote is
cleared by every request but IDLE, and nothing else changes. -/
def Obligations.RequestWithoutSessionIsRefused : Prop :=
  ∀ (s : State) (i : Instr) (h : Header) (r : Request), i.wf = true → requestOf i = some (h, r) → s.hears h →
    (s.session h.port).state ≠ .attached → (∀ role, r ≠ .attach role) → (∀ n, r ≠ .inspect 0x06 n) →
    exec i s = .next
      (s.answered h (if r = .idle then (s.session h.port).idleVote else false) (.refused .notAttached))

/-- ATTACH in a session that is NONE: refused with RANGE where the role field names no role; else ATTACHED, with MAINTAINER if
it is asked for and free, every tag FREE, the vote clear, the table's note set, and OK with role, ROLE_TAKEN, quota, port and
mode. In any other session ALREADY_ATTACHED, whatever the role field; that such an ATTACH clears the idle vote as every request but
IDLE does is the model's reading, log 28. -/
def Obligations.AttachBeginsSession : Prop :=
  ∀ (s : State) (h : Header) (role : Byte), s.hears h →
    ((s.session h.port).state = .none →
      (role ≠ 0 → role ≠ 1 → exec (.attach h role) s = .next (s.answered h false (.refused .range)))
      ∧ (role = 0 ∨ role = 1 →
          ∀ granted : Role, granted = (if role = 1 ∧ s.config.maintainer = none then .maintainer else .user) →
          exec (.attach h role) s = .next
            (({ s.countRequest with config :=
                  if granted = .maintainer then { s.config with maintainer := some h.port } else s.config } : State).setSession
                h.port
                { state := .attached, role := some granted, tags := sixteenAll .free, idleVote := false
                  detachTag := none }
              |>.setLink h.port
                { s.link h.port with
                  expectedSeq := (s.link h.port).expectedSeq + 1
                  queue := (s.link h.port).queue ++
                    [.response h.tag (.ok (.attach granted (role = 1 && granted == .user)
                      (s.config.holdQuota.get h.port) h.port s.mode))] })))
    ∧ ((s.session h.port).state ≠ .none →
        exec (.attach h role) s = .next (s.answered h false (.refused .alreadyAttached)))

/-- IDLE in an ATTACHED session sets the vote and is answered OK; nothing else changes. -/
def Obligations.IdleSetsVote : Prop :=
  ∀ (s : State) (h : Header), s.hears h → (s.session h.port).state = .attached →
    exec (.idle h) s = .next (s.answered h true (.ok .plain))

/-- DETACH in an ATTACHED session that has no work and no other tag in use: answered OK at once, and the session is NONE; the
note is cleared if it names the port. -/
def Obligations.DetachWithoutWorkEndsSession : Prop :=
  ∀ (s : State) (h : Header), s.hears h → (s.session h.port).state = .attached → s.outstanding h.port = false →
    (∀ i, sixteenGet (s.session h.port).tags i = .free) →
    ∃ t, exec (.detach h) s = .next t
      ∧ t.session h.port =
        { state := .none, role := none, tags := sixteenAll .free, idleVote := false, detachTag := none }
      ∧ t.link h.port =
        { s.link h.port with
          expectedSeq := (s.link h.port).expectedSeq + 1
          queue := (s.link h.port).queue ++ [.response h.tag (.ok .plain)] }
      ∧ t.config =
        (if s.config.maintainer = some h.port then { s.config with maintainer := none } else s.config)
      ∧ s.KeepsStore t ∧ (∀ q, t.quad q = s.quad q)
      ∧ (∀ b, (t.bank b).holds = (s.bank b).holds ∧ (t.bank b).waitQueue = (s.bank b).waitQueue
          ∧ (t.bank b).upgrade = (s.bank b).upgrade)

/-- DETACH in an ATTACHED session, whatever its work. The role is released; no burst, wait or upgrade of the port stays. Its record
leaves at once where it is not revoke pending, the bank is OPEN and no burst of the port executes there; a revoke pending one is
unchanged, every other one stays releasing. An upgrade of another port that is left alone by a leaving completes; any other stays. The
answers, in order: CANCELLED for the queued bursts, for the waits in bank order, for
the upgrades in bank order, OK for the close tags of the records that leave, in grant order, and last, where nothing is left, OK for
the DETACH. The session is DETACHING with the DETACH's tag kept, or where nothing is left NONE. The place law (R23) is a premise; the stamps
that keep the grant order are the model's own, log 15; that bursts to an OPENING bank leave at the DETACH too is the model's choice
among R144, R67 and R71, log 31. -/
def Obligations.DetachReleasesThePortsWork : Prop :=
  ∀ (s : State) (h : Header), s.hears h → (s.session h.port).state = .attached → s.placeLaw →
    ∃ t, exec (.detach h) s = .next t
      ∧ (((t.session h.port).state = .detaching ∧ (t.session h.port).detachTag = some h.tag
            ∧ (t.outstanding h.port = true ∨ ∃ i, i ≠ h.tag ∧ sixteenGet (t.session h.port).tags i ≠ .free))
          ∨ ((t.session h.port).state = .none ∧ (t.session h.port).detachTag = none ∧ t.outstanding h.port = false
            ∧ (t.session h.port).tags = sixteenAll .free))
      ∧ (t.session h.port).role = none ∧ (t.session h.port).idleVote = false
      ∧ t.config =
        (if s.config.maintainer = some h.port then { s.config with maintainer := none } else s.config)
      ∧ t.burstQueue h.port = []
      ∧ (∀ b, (t.bank b).waitQueue = (s.bank b).waitQueue.filter (fun w => w.port != h.port))
      ∧ (∀ b, ∀ u, (t.bank b).upgrade = some u → u.port ≠ h.port)
      ∧ (∀ leaves : Bank → HoldRecord → Bool,
          (∀ b x, leaves b x =
            (x.port == h.port && !x.revokePending && (s.bank b).phase == .opened && !s.executingOn h.port b)) →
          (∀ b, (∀ u, (s.bank b).upgrade = some u → u.port = h.port) →
            (t.bank b).holds = ((s.bank b).holds.filter (fun x => !leaves b x)).map (fun x =>
              if x.port = h.port ∧ x.revokePending = false then { x with releasing := true } else x))
          ∧ (∀ b u kept, (s.bank b).upgrade = some u → u.port ≠ h.port →
            kept = ((s.bank b).holds.filter (fun x => !leaves b x)).map (fun x =>
              if x.port = h.port ∧ x.revokePending = false then { x with releasing := true } else x) →
            ((∀ x ∈ (s.bank b).holds, leaves b x = false) ∨ (kept ≠ [] ∧ kept.map (fun x => x.port) ≠ [u.port]) →
              (t.bank b).holds = kept ∧ (t.bank b).upgrade = some u)
            ∧ (∀ y, (∃ x ∈ (s.bank b).holds, leaves b x = true) → kept = [y] → y.port = u.port →
              (t.bank b).holds = [{ y with mode := .exclusive }] ∧ (t.bank b).upgrade = none
                ∧ ((s.session u.port).state = .attached → (s.link u.port).up = true →
                    .response u.tag (.granted b (s.bank b).openRow .exclusive) ∈ (t.link u.port).queue)))
          ∧ (∀ b, (∃ x ∈ (s.bank b).holds, leaves b x = true) → (s.bank b).holds.filter (fun x => !leaves b x) = [] →
              (t.bank b).phase = (if (s.bank b).dwellExpired = some true then .closing else .closeWait)
                ∧ ((s.bank b).dwellExpired = some true → (t.bank b).endsAt = some (s.now + 28)))
          ∧ (t.link h.port).queue = (s.link h.port).queue
              ++ (s.burstQueue h.port).map (fun x => .response x.tag .cancelled)
              ++ allBanks.filterMap (fun b => ((s.bank b).waitOf h.port).map (fun w => .response w.tag .cancelled))
              ++ allBanks.filterMap (fun b =>
                  ((s.bank b).upgrade.filter (fun u => u.port == h.port)).map (fun u => .response u.tag .cancelled))
              ++ (s.holdView h.port).filterMap (fun x =>
                  if leaves x.1 x.2 = true then x.2.closeTag.map (fun ct => .response ct (.ok (.close false))) else none)
              ++ (if (t.session h.port).state = .none then [.response h.tag (.ok .plain)] else []))
      ∧ s.KeepsStore t ∧ (∀ q, t.quad q = s.quad q)

/-! ## OPEN -/

/-- The checks of an OPEN, in order, each with its refusal, whatever its wait flag; a refused OPEN changes nothing else. -/
def Obligations.OpenChecksInOrder : Prop :=
  ∀ (s : State) (h : Header) (bank : Byte) (row : BitVec 16) (mode : HoldMode) (wait : Bool), s.hears h →
    ((s.session h.port).state ≠ .attached →
      exec (.openBank h bank row mode wait) s = .next (s.answered h false (.refused .notAttached)))
    ∧ ((s.session h.port).state = .attached →
    (16 ≤ bank.toNat ∨ 8192 ≤ row.toNat →
      exec (.openBank h bank row mode wait) s = .next (s.answered h false (.refused .bounds)))
    ∧ (∀ b, bankOf bank = some b → row.toNat < 8192 →
        (((s.bank b).recordOf h.port).isSome = true →
          exec (.openBank h bank row mode wait) s = .next (s.answered h false (.refused .alreadyHeld)))
        ∧ (((s.bank b).recordOf h.port).isNone = true → ((s.bank b).waitOf h.port).isSome = true →
          exec (.openBank h bank row mode wait) s = .next (s.answered h false (.refused .alreadyWaiting)))
        ∧ (((s.bank b).recordOf h.port).isNone = true → ((s.bank b).waitOf h.port).isNone = true →
          s.config.holdQuota.get h.port ≤ s.use h.port →
          exec (.openBank h bank row mode wait) s = .next (s.answered h false (.refused .quota)))))

/-- An OPEN that passed its checks on a CLOSED bank of a cleared, CURRENT quad with an empty wait queue: a fresh grant. The
bank is OPENING on the row with one record that carries the OPEN's tag; the row open interval of 14 ns runs; the tag stays BUSY
and nothing is sent; last granted port is unchanged. GRANTED follows at open completion. The stamp that keeps the order of
grants and waits is the model's own, log 15. -/
def Obligations.OpenOfClosedBankIsFreshGrant : Prop :=
  ∀ (s : State) (h : Header) (bank : Byte) (row : BitVec 16) (mode : HoldMode) (wait : Bool) (b : Bank) (r : Row)
    (t : State),
    s.hears h → (s.session h.port).state = .attached → bankOf bank = some b → rowOf row = some r →
    ((s.bank b).recordOf h.port).isNone = true → ((s.bank b).waitOf h.port).isNone = true →
    s.use h.port < s.config.holdQuota.get h.port →
    s.cleared (groupOf b) = true → (s.quad (groupOf b)).state = .current →
    (s.bank b).phase = .closed → (s.bank b).waitQueue = [] →
    t = ({ s.taken h with stamp := s.stamp + 1 } : State).setBank b
      { s.bank b with
        phase := .opening, row := some r, dwellExpired := some false, endsAt := some (s.now + 28)
        holds := [{ port := h.port, mode := mode, releasing := false, revokePending := false
                    openTag := some h.tag, closeTag := none, stamp := s.stamp }] } →
    exec (.openBank h bank row mode wait) s = .next t
    ∧ ((s.bank b).upgrade = none → ∃ u, exec (.openCompletion b) t = .next u
        ∧ (u.link h.port).queue = (t.link h.port).queue ++ [.response h.tag (.granted b r mode)])

/-- A SHARED OPEN for the row of an OPENING or OPEN bank whose records are all SHARED, with no pending upgrade and an empty
wait queue, in a cleared, CURRENT quad, joins: one SHARED record more; on an OPEN bank GRANTED at once, on an OPENING one the
record carries the tag. The stamp that keeps the order of grants and waits is the model's own, log 15. -/
def Obligations.OpenOfSharedRowJoins : Prop :=
  ∀ (s : State) (h : Header) (bank : Byte) (row : BitVec 16) (wait : Bool) (b : Bank) (r : Row),
    s.hears h → (s.session h.port).state = .attached → bankOf bank = some b → rowOf row = some r →
    ((s.bank b).recordOf h.port).isNone = true → ((s.bank b).waitOf h.port).isNone = true →
    s.use h.port < s.config.holdQuota.get h.port →
    s.cleared (groupOf b) = true → (s.quad (groupOf b)).state = .current → (s.bank b).waitQueue = [] →
    (s.bank b).row = some r → (∀ x ∈ (s.bank b).holds, x.mode = .shared) → (s.bank b).upgrade = none →
    ((s.bank b).phase = .opened →
      exec (.openBank h bank row .shared wait) s = .next
        (({ s.answered h false (.granted b r .shared) with stamp := s.stamp + 1 } : State).setBank b
          { s.bank b with holds := (s.bank b).holds ++
              [{ port := h.port, mode := .shared, releasing := false, revokePending := false, openTag := none
                 closeTag := none, stamp := s.stamp }] }))
    ∧ ((s.bank b).phase = .opening →
      exec (.openBank h bank row .shared wait) s = .next
        (({ s.taken h with stamp := s.stamp + 1 } : State).setBank b
          { s.bank b with holds := (s.bank b).holds ++
              [{ port := h.port, mode := .shared, releasing := false, revokePending := false, openTag := some h.tag
                 closeTag := none, stamp := s.stamp }] }))

/-- An OPEN, in either mode, for the row of a bank in CLOSE_WAIT with an empty wait queue in a cleared, CURRENT quad is a
rejoin: the bank is OPEN again with its dwell as it runs, one record more, GRANTED at once. The stamp that keeps the order of
grants and waits is the model's own, log 15. -/
def Obligations.OpenInCloseWaitRejoins : Prop :=
  ∀ (s : State) (h : Header) (bank : Byte) (row : BitVec 16) (mode : HoldMode) (wait : Bool) (b : Bank) (r : Row),
    s.hears h → (s.session h.port).state = .attached → bankOf bank = some b → rowOf row = some r →
    ((s.bank b).recordOf h.port).isNone = true → ((s.bank b).waitOf h.port).isNone = true →
    s.use h.port < s.config.holdQuota.get h.port →
    s.cleared (groupOf b) = true → (s.quad (groupOf b)).state = .current → (s.bank b).waitQueue = [] →
    (s.bank b).phase = .closeWait → (s.bank b).row = some r →
    exec (.openBank h bank row mode wait) s = .next
      (({ s.answered h false (.granted b r mode) with stamp := s.stamp + 1 } : State).setBank b
        { s.bank b with
          phase := .opened
          holds := (s.bank b).holds ++
            [{ port := h.port, mode := mode, releasing := false, revokePending := false, openTag := none
               closeTag := none, stamp := s.stamp }] })

/-- An OPEN that passed its checks and can be neither granted nor joined: with the wait flag it is placed at the queue's tail
and answered QUEUED, without it refused, with STARTING for an uncleared quad, MAINTENANCE for a quad that is DUE or FORCED or a
bank that is REFRESHING, BANK_BUSY for a queue that is not empty or a conflict, the first of them that applies. Where the bank is
REFRESHING by a refresh start that falls together with this OPEN, and the OPEN would take the bank, either is taken first (R92), and
which one is free (log 30): the OPEN as said, or the OPEN taken without that start, upon which the refresh arbiter chooses. The stamp
that keeps the order of grants and waits is the model's own, log 15. -/
def Obligations.OpenThatCannotBeGrantedWaitsOrIsRefused : Prop :=
  ∀ (s : State) (h : Header) (bank : Byte) (row : BitVec 16) (mode : HoldMode) (b : Bank) (r : Row) (reason : Reason),
    s.hears h → (s.session h.port).state = .attached → bankOf bank = some b → rowOf row = some r →
    ((s.bank b).recordOf h.port).isNone = true → ((s.bank b).waitOf h.port).isNone = true →
    s.use h.port < s.config.holdQuota.get h.port →
    ((s.cleared (groupOf b) = false ∧ reason = .starting)
      ∨ (s.cleared (groupOf b) = true
          ∧ ((s.quad (groupOf b)).state ≠ .current ∨ (s.bank b).phase = .refreshing) ∧ reason = .maintenance)
      ∨ (s.cleared (groupOf b) = true ∧ (s.quad (groupOf b)).state = .current ∧ (s.bank b).phase ≠ .refreshing
          ∧ ((s.bank b).waitQueue ≠ []
              ∨ (((s.bank b).phase = .opening ∨ (s.bank b).phase = .opened)
                  ∧ ((s.bank b).row ≠ some r ∨ mode = .exclusive ∨ (∃ x ∈ (s.bank b).holds, x.mode = .exclusive)
                      ∨ (s.bank b).upgrade ≠ none))
              ∨ ((s.bank b).phase = .closeWait ∧ (s.bank b).row ≠ some r)
              ∨ (s.bank b).phase = .closing) ∧ reason = .bankBusy)) →
    ∀ (refused waits : State),
      refused = s.answered h false (.refused reason) →
      waits = ((({ s.answered h false .queued with stamp := s.stamp + 1 } : State).setSession h.port
            { s.session h.port with
              idleVote := false, tags := sixteenSet (s.session h.port).tags h.tag .queued }).setBank b
          { s.bank b with waitQueue := (s.bank b).waitQueue ++
              [{ port := h.port, tag := h.tag, row := r, mode := mode, stamp := s.stamp }] }) →
      ∀ together : Prop,
      (together ↔ s.startOfThisMoment b ∧ s.cleared (groupOf b) = true ∧ (s.quad (groupOf b)).state = .current
        ∧ (s.bank b).phase = .refreshing ∧ (s.bank b).waitQueue = []) →
      (¬ together →
        exec (.openBank h bank row mode false) s = .next refused ∧ exec (.openBank h bank row mode true) s = .next waits)
      ∧ (together → ∃ free : State,
          free = { s with banks := free.banks, refresh := none }
          ∧ (∀ c, free.bank c = if groupOf c = groupOf b then { s.bank c with phase := .closed } else s.bank c)
          ∧ (exec (.openBank h bank row mode false) s = .next refused
              ∨ ∃ t, exec (.openBank h bank row mode false) free = .next t
                ∧ exec (.openBank h bank row mode false) s = .next t.refreshChoice)
          ∧ (exec (.openBank h bank row mode true) s = .next waits
              ∨ ∃ t, exec (.openBank h bank row mode true) free = .next t
                ∧ exec (.openBank h bank row mode true) s = .next t.refreshChoice))

/-! ## UPGRADE and CLOSE -/

/-- The outcomes of an UPGRADE, the first that applies: NOT_ATTACHED, BOUNDS, NOT_HELD, OK without a change, the mode
becomes EXCLUSIVE and OK, UPGRADE_CONFLICT, or recorded as the bank's pending upgrade and QUEUED. -/
def Obligations.UpgradeOutcomesInOrder : Prop :=
  ∀ (s : State) (h : Header) (bank : Byte), s.hears h →
    ((s.session h.port).state ≠ .attached →
      exec (.upgrade h bank) s = .next (s.answered h false (.refused .notAttached)))
    ∧ ((s.session h.port).state = .attached → 16 ≤ bank.toNat →
      exec (.upgrade h bank) s = .next (s.answered h false (.refused .bounds)))
    ∧ ∀ b, (s.session h.port).state = .attached → bankOf bank = some b →
      ((s.bank b).recordOf h.port = none → exec (.upgrade h bank) s = .next (s.answered h false (.refused .notHeld)))
      ∧ ∀ x, (s.bank b).recordOf h.port = some x →
        (x.releasing = true ∨ x.revokePending = true →
          exec (.upgrade h bank) s = .next (s.answered h false (.refused .notHeld)))
        ∧ (x.releasing = false → x.revokePending = false →
            (x.mode = .exclusive → exec (.upgrade h bank) s = .next (s.answered h false (.ok .plain)))
            ∧ (x.mode = .shared → (s.bank b).holds = [x] →
                exec (.upgrade h bank) s = .next
                  ((s.answered h false (.ok .plain)).setBank b
                    { s.bank b with holds := [{ x with mode := .exclusive }] }))
            ∧ (x.mode = .shared → (s.bank b).holds.length ≠ 1 → (s.bank b).upgrade ≠ none →
                exec (.upgrade h bank) s = .next (s.answered h false (.refused .upgradeConflict)))
            ∧ (x.mode = .shared → (s.bank b).holds.length ≠ 1 → (s.bank b).upgrade = none →
                exec (.upgrade h bank) s = .next
                  (((s.answered h false .queued).setSession h.port
                      { s.session h.port with
                        idleVote := false, tags := sixteenSet (s.session h.port).tags h.tag .queued }).setBank b
                    { s.bank b with upgrade := some { port := h.port, tag := h.tag } })))

/-- A CLOSE that finds no wait entry of the port and no record of it that may be marked is answered OK with NOT_HELD at once and
changes nothing else (R39). A bank above 15 is refused with BOUNDS (R36). The earlier CLOSE of a releasing record is still answered when
the record leaves, at open completion (R11) or at the completion of the port's last burst to the bank (R38); what becomes of it at a
FORCED entry or a DETACH is in ForcedEntryRevokesTheQuad and DetachReleasesThePortsWork. The place law (R23) is a premise of the open
completion. -/
def Obligations.CloseOfNothingHeldAnswersNotHeld : Prop :=
  ∀ (s : State) (h : Header) (bank : Byte) (t : State), s.hears h → (s.session h.port).state = .attached →
    t = s.answered h false (.ok (.close true)) →
    (16 ≤ bank.toNat → exec (.closeBank h bank) s = .next (s.answered h false (.refused .bounds)))
    ∧ (∀ b, bankOf bank = some b → ((s.bank b).waitOf h.port).isNone = true →
        (∀ x, (s.bank b).recordOf h.port = some x → x.releasing = true ∨ x.revokePending = true) →
        exec (.closeBank h bank) s = .next t)
    ∧ (∀ b x earlier, s.placeLaw → (s.bank b).phase = .opening → x ∈ (s.bank b).holds → x.port = h.port → x.releasing = true →
        x.closeTag = some earlier →
        ∃ u before, exec (.openCompletion b) t = .next u
          ∧ (u.link h.port).queue = before ++ [.response earlier (.ok (.close false))])
    ∧ (∀ b x earlier e, s.bursts.executing = some e → e.cut = none → e.results.length = e.burst.units → e.burst.port = h.port →
        e.burst.bank = b → (s.bank b).recordOf h.port = some x → x.releasing = true → x.closeTag = some earlier →
        s.queuedOn h.port b = false →
        ∃ u before, exec .executionCompletion t = .next u
          ∧ (u.link h.port).queue = before ++ [.response earlier (.ok (.close false))])

/-- A CLOSE from a port that waits for the bank withdraws the entry: the waiting OPEN is answered CANCELLED, then the CLOSE OK. -/
def Obligations.CloseWithdrawsWait : Prop :=
  ∀ (s : State) (h : Header) (bank : Byte) (b : Bank) (w : WaitEntry), s.hears h →
    (s.session h.port).state = .attached → bankOf bank = some b → (s.bank b).waitOf h.port = some w → w.tag ≠ h.tag →
    exec (.closeBank h bank) s = .next
      ((((s.countRequest.setLink h.port
          { s.link h.port with
            expectedSeq := (s.link h.port).expectedSeq + 1
            queue := (s.link h.port).queue ++ [.response w.tag .cancelled, .response h.tag (.ok (.close false))] }).setSession
        h.port
          { s.session h.port with idleVote := false, tags := sixteenSet (s.session h.port).tags w.tag .free }).setBank b
        { s.bank b with waitQueue := (s.bank b).waitQueue.filter (fun x => x.port != h.port) })).refreshChoice

/-- A CLOSE on an unmarked record of an OPEN bank, with no burst of the port to it: the record leaves at once and the CLOSE is
answered OK. The last record's leaving takes the bank to CLOSE_WAIT, or after dwell expiry to CLOSING for 14 ns; with other records
left the bank stays OPEN with them. Where the one record left is that of the pending upgrade's port, the upgrade completes: the
record is EXCLUSIVE, and GRANTED is sent for the UPGRADE's tag. -/
def Obligations.CloseOfIdleHoldLeavesAtOnce : Prop :=
  ∀ (s : State) (h : Header) (bank : Byte) (b : Bank) (x : HoldRecord), s.hears h →
    (s.session h.port).state = .attached → bankOf bank = some b → ((s.bank b).waitOf h.port).isNone = true →
    (s.bank b).recordOf h.port = some x → x.releasing = false → x.revokePending = false →
    (s.bank b).phase = .opened → s.upgradeOn h.port b = false →
    s.queuedOn h.port b = false → s.executingOn h.port b = false →
    ∃ t, exec (.closeBank h bank) s = .next t
      ∧ ∀ others, others = (s.bank b).holds.filter (fun y => y.port != h.port) →
      (others = [] →
        t.bank b =
          (if (s.bank b).dwellExpired = some true then
            { s.bank b with holds := [], upgrade := none, phase := .closing, endsAt := some (s.now + 28) }
          else { s.bank b with holds := [], upgrade := none, phase := .closeWait }))
      ∧ (others ≠ [] → (∀ u, (s.bank b).upgrade = some u → others.map (fun y => y.port) ≠ [u.port]) →
        t.bank b = { s.bank b with holds := others })
      ∧ (∀ u y, (s.bank b).upgrade = some u → others = [y] → y.port = u.port →
        t.bank b = { s.bank b with holds := [{ y with mode := .exclusive }], upgrade := none }
          ∧ ((s.session u.port).state = .attached → (s.link u.port).up = true →
              (t.link u.port).queue =
                  (s.link u.port).queue ++ [.response u.tag (.granted b (s.bank b).openRow .exclusive)]
                ∧ (t.session u.port).tags = sixteenSet (s.session u.port).tags u.tag .free))
      ∧ t.link h.port =
        { s.link h.port with
          expectedSeq := (s.link h.port).expectedSeq + 1
          queue := (s.link h.port).queue ++ [.response h.tag (.ok (.close false))] }
      ∧ t.session h.port = { s.session h.port with idleVote := false }
      ∧ s.KeepsStore t ∧ t.quads = s.quads ∧ t.config = s.config ∧ t.bursts = s.bursts
      ∧ (∀ c, c ≠ b → t.bank c = s.bank c)
      ∧ (∀ p, p ≠ h.port → (∀ u, (s.bank b).upgrade = some u → u.port ≠ p) →
          t.link p = s.link p ∧ t.session p = s.session p)

/-- A CLOSE on an unmarked record of a bank that is OPENING, or OPEN with bursts of the port to it, marks the record releasing and
keeps the CLOSE's tag; the CLOSE's tag stays BUSY. -/
def Obligations.CloseOfBusyHoldMarksReleasing : Prop :=
  ∀ (s : State) (h : Header) (bank : Byte) (b : Bank) (x : HoldRecord), s.hears h →
    (s.session h.port).state = .attached → bankOf bank = some b → ((s.bank b).waitOf h.port).isNone = true →
    (s.bank b).recordOf h.port = some x → x.releasing = false → x.revokePending = false →
    s.upgradeOn h.port b = false →
    ((s.bank b).phase = .opening
      ∨ ((s.bank b).phase = .opened ∧ (s.queuedOn h.port b = true ∨ s.executingOn h.port b = true))) →
    exec (.closeBank h bank) s = .next
      ((s.taken h).setBank b
        { s.bank b with holds := (s.bank b).holds.map (fun y =>
            if y.port = h.port then { y with releasing := true, closeTag := some h.tag } else y) })

/-- A CLOSE of the upgrader, whose record is unmarked, cancels its pending upgrade first (R45): CANCELLED for the UPGRADE's tag. On an
OPEN bank with no burst of the port to it the record then leaves at once, and the CLOSE is answered OK: the bank goes to CLOSE_WAIT,
or after dwell expiry to CLOSING for 14 ns, or stays OPEN with the other records. On a bank that is OPENING, or OPEN with bursts of
the port to it, the record is marked releasing and keeps the CLOSE's tag, which stays BUSY. -/
def Obligations.CloseCancelsThePortsUpgrade : Prop :=
  ∀ (s : State) (h : Header) (bank : Byte) (b : Bank) (x : HoldRecord) (u : PendingUpgrade), s.hears h →
    (s.session h.port).state = .attached → bankOf bank = some b → ((s.bank b).waitOf h.port).isNone = true →
    (s.bank b).recordOf h.port = some x → x.releasing = false → x.revokePending = false →
    (s.bank b).upgrade = some u → u.port = h.port → u.tag ≠ h.tag →
    ((s.bank b).phase = .opened → s.queuedOn h.port b = false → s.executingOn h.port b = false →
      ∀ others, others = (s.bank b).holds.filter (fun y => y.port != h.port) →
      exec (.closeBank h bank) s = .next
        (((s.countRequest.setBank b
            (if others ≠ [] then { s.bank b with holds := others, upgrade := none }
            else if (s.bank b).dwellExpired = some true then
              { s.bank b with holds := [], upgrade := none, phase := .closing, endsAt := some (s.now + 28) }
            else { s.bank b with holds := [], upgrade := none, phase := .closeWait })).setLink h.port
          { s.link h.port with
            expectedSeq := (s.link h.port).expectedSeq + 1
            queue := (s.link h.port).queue ++ [.response u.tag .cancelled, .response h.tag (.ok (.close false))] }).setSession
          h.port
          { s.session h.port with idleVote := false, tags := sixteenSet (s.session h.port).tags u.tag .free }))
    ∧ ((s.bank b).phase = .opening
        ∨ ((s.bank b).phase = .opened ∧ (s.queuedOn h.port b = true ∨ s.executingOn h.port b = true)) →
      exec (.closeBank h bank) s = .next
        (((s.countRequest.setBank b
            { s.bank b with
              upgrade := none
              holds := (s.bank b).holds.map (fun y =>
                if y.port = h.port then { y with releasing := true, closeTag := some h.tag } else y) }).setLink h.port
          { s.link h.port with
            expectedSeq := (s.link h.port).expectedSeq + 1
            queue := (s.link h.port).queue ++ [.response u.tag .cancelled] }).setSession
          h.port
          { s.session h.port with
            idleVote := false
            tags := sixteenSet (sixteenSet (s.session h.port).tags h.tag .busy) u.tag .free }))

/-! ## READ and WRITE -/

/-- The checks of a READ or WRITE in an ATTACHED session, in order, each with its refusal; a refused burst changes nothing
else. -/
def Obligations.BurstChecksInOrder : Prop :=
  ∀ (s : State) (h : Header) (bank column units : Byte) (ac : Bool) (data : List WriteUnit) (c : Instr),
    s.hears h → (s.session h.port).state = .attached → c.wf = true →
    (c = .read h bank column units ac ∨ c = .write h bank column units ac data) →
    (16 ≤ bank.toNat ∨ units.toNat = 0 ∨ 8 < units.toNat ∨ 128 < column.toNat + units.toNat →
      exec c s = .next (s.answered h false (.refused .bounds)))
    ∧ ∀ b, bankOf bank = some b → 1 ≤ units.toNat → units.toNat ≤ 8 → column.toNat + units.toNat ≤ 128 →
      ((s.bank b).recordOf h.port = none → exec c s = .next (s.answered h false (.refused .notHeld)))
      ∧ ∀ x, (s.bank b).recordOf h.port = some x →
        (x.releasing = true ∨ x.revokePending = true → exec c s = .next (s.answered h false (.refused .notHeld)))
        ∧ (x.releasing = false → x.revokePending = false →
            (c = .write h bank column units ac data → x.mode = .shared →
              exec c s = .next (s.answered h false (.refused .notExclusive)))
            ∧ (c = .read h bank column units ac ∨ x.mode = .exclusive → 8 ≤ (s.burstQueue h.port).length →
              exec c s = .next (s.answered h false (.refused .burstFull))))

/-- An accepted burst: at the tail of the port's queue with the row of its record's bank, its tag BUSY, nothing sent; with
auto-close the record is marked releasing, without a close tag, and the port's pending upgrade on the bank is removed and answered
CANCELLED. Then the data-path arbiter chooses: on an idle engine with the bank OPEN the burst begins at once. -/
def Obligations.AcceptedBurstJoinsItsQueue : Prop :=
  ∀ (s : State) (h : Header) (bank column units : Byte) (ac : Bool) (data : List WriteUnit) (c : Instr) (kind : BurstKind)
    (b : Bank) (r : Row) (x : HoldRecord) (burst : QueuedBurst),
    s.hears h → (s.session h.port).state = .attached → c.wf = true →
    ((c = .read h bank column units ac ∧ kind = .read ∧ data = [])
      ∨ (c = .write h bank column units ac data ∧ kind = .write ∧ x.mode = .exclusive)) →
    bankOf bank = some b → (s.bank b).row = some r → 1 ≤ units.toNat → units.toNat ≤ 8 →
    column.toNat + units.toNat ≤ 128 → (s.bank b).recordOf h.port = some x → x.releasing = false →
    x.revokePending = false → (s.burstQueue h.port).length < 8 →
    burst = { port := h.port, tag := h.tag, kind := kind, bank := b, row := r, column := column.toNat
              units := units.toNat, autoClose := ac, data := data } →
    (ac = false →
      exec c s = .next ((s.taken h).setBurstQueue h.port (s.burstQueue h.port ++ [burst])).arbiterChoice)
    ∧ (ac = true → s.upgradeOn h.port b = false →
      exec c s = .next
        (((s.taken h).setBurstQueue h.port (s.burstQueue h.port ++ [burst])).setBank b
          { s.bank b with holds := (s.bank b).holds.map (fun y =>
              if y.port = h.port then { y with releasing := true } else y) }).arbiterChoice)
    ∧ (∀ u, ac = true → (s.bank b).upgrade = some u → u.port = h.port →
      exec c s = .next
        (((((s.taken h).setBurstQueue h.port (s.burstQueue h.port ++ [burst])).setBank b
          { s.bank b with
            upgrade := none
            holds := (s.bank b).holds.map (fun y => if y.port = h.port then { y with releasing := true } else y) }).setLink
          h.port
          { s.link h.port with
            expectedSeq := (s.link h.port).expectedSeq + 1
            queue := (s.link h.port).queue ++ [.response u.tag .cancelled] }).setSession
          h.port
          { s.session h.port with
            idleVote := false
            tags := sixteenSet (sixteenSet (s.session h.port).tags h.tag .busy) u.tag .free }).arbiterChoice)
    ∧ (ac = false → s.bursts.executing = none → (∀ p, s.burstQueue p = []) → (s.bank b).phase = .opened →
      exec c s = .next
        { s.taken h with bursts :=
            { queues := s.bursts.queues
              executing := some { burst := burst, startedAt := s.now, results := [], cut := none }
              lastServed := h.port } })

/-- The data-path arbiter: a port is a candidate with the burst at the head of its queue, where that burst's bank is OPEN. There is no
choice while a burst executes or where no port is a candidate; else the first candidate port in the cycle after the last served port is
chosen, whose head burst leaves its queue and begins execution. -/
def Obligations.DataPathArbiterChoosesRoundRobin : Prop :=
  ∀ s : State,
    (∀ p b, s.candidate p = some b ↔ ∃ rest, s.burstQueue p = b :: rest ∧ (s.bank b.bank).phase = .opened)
    ∧ (s.bursts.executing ≠ none → s.arbiterChoice = s)
    ∧ ((∀ p, s.candidate p = none) → s.arbiterChoice = s)
    ∧ ∀ (n : Nat) (p : Port) (b : QueuedBurst) (rest : List QueuedBurst), s.bursts.executing = none → n < 4 →
        p.val = (s.bursts.lastServed.val + 1 + n) % 4 →
        (∀ (k : Nat) (q : Port), k < n → q.val = (s.bursts.lastServed.val + 1 + k) % 4 → s.candidate q = none) →
        s.burstQueue p = b :: rest → (s.bank b.bank).phase = .opened →
        s.arbiterChoice =
          { s with bursts :=
              { queues := s.bursts.queues.set p rest
                executing := some { burst := b, startedAt := s.now, results := [], cut := none }
                lastServed := p } }

/-! ## Steps and completion of bursts -/

/-- The step of a READ's next unit: a clean unit gives its stored bytes and OK; a correctable one is rewritten corrected, gives
the corrected bytes and CORRECTED, and counts; an uncorrectable one gives its stored bytes and POISONED, and is listed. Nothing
else changes. The step is taken at its end, to which the time moves on: the model's choice, logs 3 and 12. The mark of a rewrite,
unit and time, is the model's own, log 33. -/
def Obligations.ReadUnitStepByClassification : Prop :=
  ∀ (s : State) (e : Execution) (c u : Nat), s.arrayLaw → s.bursts.executing = some e → e.cut = none →
    e.burst.kind = .read → e.results.length < e.burst.units →
    c = e.burst.column + e.results.length → u = unitIndex e.burst.bank e.burst.row c →
    ∃ t result, exec .burstUnitStep s = .next t
      ∧ t = { s with
          now := max s.now (e.startedAt + 16 + 5 * (e.results.length + 1))
          array := t.array, integrity := t.integrity, marks := t.marks
          bursts := { s.bursts with executing := some { e with results := e.results ++ [result] } } }
      ∧ t.marks =
          (match s.array.classify u with
          | .correctable _ => { s.marks with rewritten := some (u, t.now) }
          | .clean | .uncorrectable => s.marks)
      ∧ (s.array.classify u = .clean →
          result = { data := s.array.storedData u, status := .ok } ∧ t.array = s.array ∧ t.integrity = s.integrity)
      ∧ (∀ d, s.array.classify u = .correctable d →
          result = { data := d, status := .corrected } ∧ s.array.wroteUnit t.array u d
            ∧ countedUp s.integrity t.integrity e.burst.bank)
      ∧ (s.array.classify u = .uncorrectable →
          result = { data := s.array.storedData u, status := .poisoned } ∧ t.array = s.array
            ∧ t.integrity = detectedIn s.integrity
                { bank := e.burst.bank, row := e.burst.row, column := c, port := e.burst.port, kind := .read })

/-- The step of a WRITE's next unit. A full mask writes the bytes sent and takes the unit's entry off the list. An empty one
does nothing. A partial one leaves a listed unit POISONED; else its merge read decides: clean and correctable units are written
merged, a correctable one counts, an uncorrectable one is left unwritten, POISONED, and listed. Nothing else changes. The step
is taken at its end, to which the time moves on: the model's choice, logs 3 and 12. The mark of a merge write after a correctable
read, unit and time, is the model's own, log 33. -/
def Obligations.WriteUnitStepByMask : Prop :=
  ∀ (s : State) (e : Execution) (w : WriteUnit) (c u : Nat), s.arrayLaw → s.bursts.executing = some e → e.cut = none →
    e.burst.kind = .write → e.results.length < e.burst.units → e.burst.data[e.results.length]? = some w →
    c = e.burst.column + e.results.length → u = unitIndex e.burst.bank e.burst.row c →
    ∃ t status, exec .burstUnitStep s = .next t
      ∧ t = { s with
          now := max s.now (e.startedAt + 16 + 5 * (e.results.length + 1))
          array := t.array, integrity := t.integrity, marks := t.marks
          bursts := { s.bursts with executing := some { e with results := e.results ++ [{ data := 0, status := status }] } } }
      ∧ (t.marks = s.marks ∨ t.marks = { s.marks with rewritten := some (u, t.now) })
      ∧ (w.mask = 0xFF → status = .written ∧ s.array.wroteUnit t.array u w.data
          ∧ t.integrity =
              { s.integrity with faults := s.integrity.faults.filter (fun x => !x.names e.burst.bank e.burst.row c) })
      ∧ (w.mask = 0 → status = .unchanged ∧ t.array = s.array ∧ t.integrity = s.integrity)
      ∧ (w.mask ≠ 0xFF → w.mask ≠ 0 →
          (s.listed e.burst.bank e.burst.row c = true →
            status = .poisoned ∧ t.array = s.array ∧ t.integrity = s.integrity)
          ∧ (s.listed e.burst.bank e.burst.row c = false →
              (s.array.classify u = .clean → status = .written ∧ t.integrity = s.integrity
                ∧ ∃ d, merged w.mask w.data (s.array.storedData u) d ∧ s.array.wroteUnit t.array u d)
              ∧ (∀ fixed, s.array.classify u = .correctable fixed →
                  status = .written ∧ countedUp s.integrity t.integrity e.burst.bank
                    ∧ t.marks = { s.marks with rewritten := some (u, t.now) }
                    ∧ ∃ d, merged w.mask w.data fixed d ∧ s.array.wroteUnit t.array u d)
              ∧ (s.array.classify u = .uncorrectable → status = .poisoned ∧ t.array = s.array
                ∧ t.integrity = detectedIn s.integrity
                    { bank := e.burst.bank, row := e.burst.row, column := c, port := e.burst.port, kind := .merge })))

/-- EXECUTION_COMPLETION of a burst whose units are all stepped: its response first, then what becomes of its port's record,
then the data path is free, and the first candidate in the cycle after the last served port begins. For a torn-down session the response is discarded. A pending upgrade whose port is
left alone by the leaving completes; any other stays. The leaving of the last record takes an OPEN bank to CLOSE_WAIT, or after dwell
expiry to CLOSING for 14 ns. A DETACHING session that is left without work and without another tag in use ends: OK for the detach tag is
its last answer, and it is NONE; one in TEARDOWN that is left without work is NONE. The time moves on to the end of the interval: the
model's choice, log 3. -/
def Obligations.ExecutionCompletionAnswersInOrder : Prop :=
  ∀ (s : State) (e : Execution) (b : Bank) (p : Port) (x : HoldRecord) (response : OutEntry),
    s.bursts.executing = some e → e.cut = none → e.results.length = e.burst.units → e.burst.bank = b → e.burst.port = p →
    (s.bank b).recordOf p = some x →
    response = .response e.burst.tag
      (match e.burst.kind with
      | .read => .data (.read b e.burst.row e.burst.column e.burst.units (s.quad (groupOf b)).lapse e.results)
      | .write => .ok (.write b e.burst.row e.burst.column e.burst.units (e.results.map (fun r => r.status)))) →
    ∃ t, exec .executionCompletion s = .next t
      ∧ t.now = max s.now (e.startedAt + 16 + 5 * e.burst.units)
      ∧ t.choseFrom s.bursts.queues s.bursts.lastServed
      ∧ t.array = s.array ∧ t.integrity = s.integrity ∧ t.quads = s.quads ∧ t.config = s.config ∧ t.timer = s.timer
      ∧ t.pending = s.pending
      ∧ ((x.releasing = false ∧ x.revokePending = false) ∨ (x.releasing = true ∧ s.queuedOn p b = true) →
          (t.bank b).holds = (s.bank b).holds)
      ∧ ((x.releasing = true ∧ s.queuedOn p b = false) ∨ (x.releasing = false ∧ x.revokePending = true) →
          (s.bank b).upgrade = none →
          (t.bank b).holds = (s.bank b).holds.filter (fun h => h.port != p))
      ∧ (∀ others, (x.releasing = true ∧ s.queuedOn p b = false) ∨ (x.releasing = false ∧ x.revokePending = true) →
          (s.bank b).phase = .opened → others = (s.bank b).holds.filter (fun h => h.port != p) →
          (others = [] → t.bank b =
            (if (s.bank b).dwellExpired = some true then
              { s.bank b with holds := [], upgrade := none, phase := .closing, endsAt := some (t.now + 28) }
            else { s.bank b with holds := [], upgrade := none, phase := .closeWait }))
          ∧ (∀ u, (s.bank b).upgrade = some u → others ≠ [] → others.map (fun h => h.port) ≠ [u.port] →
              t.bank b = { s.bank b with holds := others }))
      ∧ (∀ u y, (x.releasing = true ∧ s.queuedOn p b = false) ∨ (x.releasing = false ∧ x.revokePending = true) →
          (s.bank b).upgrade = some u → (s.bank b).holds.filter (fun h => h.port != p) = [y] → y.port = u.port →
          (t.bank b).holds = [{ y with mode := .exclusive }] ∧ (t.bank b).upgrade = none
            ∧ ((s.session u.port).state = .attached → (s.link u.port).up = true →
                (t.link u.port).queue =
                  (s.link u.port).queue ++ [.response u.tag (.granted b (s.bank b).openRow .exclusive)]))
      ∧ ((s.session p).state = .none ∨ (s.session p).state = .teardown → t.link p = s.link p)
      ∧ ((s.session p).state = .teardown →
          t.session p = { s.session p with state := if t.outstanding p = true then .teardown else .none })
      ∧ (∀ d, (s.session p).state = .detaching → (s.session p).detachTag = some d → (s.link p).up = true →
          (x.releasing = true ∧ s.queuedOn p b = false) ∨ (x.releasing = false ∧ x.revokePending = true) →
          ∀ answers, answers =
            (if x.releasing = true then
              (s.link p).queue ++ response ::
                (match x.closeTag with
                | some ct => [.response ct (.ok (.close false))]
                | none => [])
            else placeEntry ((s.link p).queue ++ [response]) (.revoked b (s.bank b).openRow 1)) →
          (t.outstanding p = true → (t.session p).state = .detaching ∧ (t.link p).queue = answers)
            ∧ (t.outstanding p = false →
                (∀ i, i ≠ d → i ≠ e.burst.tag → (x.releasing = true → x.closeTag ≠ some i) →
                  sixteenGet (s.session p).tags i = .free) →
                (t.link p).queue = answers ++ [.response d (.ok .plain)]
                  ∧ t.session p =
                    { state := .none, role := none, tags := sixteenAll .free, idleVote := false, detachTag := none }))
      ∧ ((s.session p).state = .attached → (s.link p).up = true →
          (x.releasing = false → x.revokePending = false →
            (t.link p).queue = (s.link p).queue ++ [response]
              ∧ (t.session p).tags = sixteenSet (s.session p).tags e.burst.tag .free)
          ∧ (x.releasing = true → s.queuedOn p b = true → (t.link p).queue = (s.link p).queue ++ [response])
          ∧ (x.releasing = true → s.queuedOn p b = false →
              (t.link p).queue = (s.link p).queue ++ response ::
                (match x.closeTag with
                | some ct => [.response ct (.ok (.close false))]
                | none => []))
          ∧ (x.releasing = false → x.revokePending = true →
              (t.link p).queue =
                placeEntry ((s.link p).queue ++ [response]) (.revoked b (s.bank b).openRow 1)))

/-- CUT_COMPLETION: the unit in progress has the effect of its step, the burst ends without a response, its port's record
leaves its bank, and the data path is free: the first candidate in the cycle after the last served port begins. The last record's leaving takes an OPEN bank to CLOSE_WAIT, or after
dwell expiry to CLOSING for 14 ns; a pending upgrade whose port is left alone completes, any other stays. The time moves on to the end of
that unit: the model's choice, logs 3 and 13. -/
def Obligations.CutCompletionEndsTheBurst : Prop :=
  ∀ (s : State) (e : Execution) (cutAt : Nat), s.bursts.executing = some e → e.cut = some cutAt →
    (s.session e.burst.port).state = .none ∨ (s.session e.burst.port).state = .teardown →
    ∃ t, exec .cutCompletion s = .next t ∧ t.now = max s.now cutAt
      ∧ t.choseFrom s.bursts.queues s.bursts.lastServed
      ∧ t.link e.burst.port = s.link e.burst.port
      ∧ ((s.bank e.burst.bank).upgrade = none →
          (t.bank e.burst.bank).holds = (s.bank e.burst.bank).holds.filter (fun h => h.port != e.burst.port))
      ∧ (∀ b x others, b = e.burst.bank → (s.bank b).recordOf e.burst.port = some x → (s.bank b).phase = .opened →
          others = (s.bank b).holds.filter (fun h => h.port != e.burst.port) →
          (others = [] → t.bank b =
            (if (s.bank b).dwellExpired = some true then
              { s.bank b with holds := [], upgrade := none, phase := .closing, endsAt := some (t.now + 28) }
            else { s.bank b with holds := [], upgrade := none, phase := .closeWait }))
          ∧ (∀ u, (s.bank b).upgrade = some u → others ≠ [] → others.map (fun h => h.port) ≠ [u.port] →
              t.bank b = { s.bank b with holds := others })
          ∧ (∀ u y, (s.bank b).upgrade = some u → others = [y] → y.port = u.port →
              t.bank b = { s.bank b with holds := [{ y with mode := .exclusive }], upgrade := none }
                ∧ ((s.session u.port).state = .attached → (s.link u.port).up = true →
                    (t.link u.port).queue =
                      (s.link u.port).queue ++ [.response u.tag (.granted b (s.bank b).openRow .exclusive)])))
      ∧ (0 < e.unitsLeft → ∃ u,
          exec .burstUnitStep { s with bursts := { s.bursts with executing := some { e with cut := none } } } = .next u
            ∧ t.array = u.array ∧ t.integrity = u.integrity)
      ∧ t.quads = s.quads ∧ t.config = s.config ∧ t.timer = s.timer ∧ t.pending = s.pending

/-! ## Timed events of a bank -/

/-- OPEN_COMPLETION: the unmarked records stay, without their open tags; the bank is OPEN, or CLOSE_WAIT where none stays; the
dwell of 36 ns begins. A pending upgrade of the only record that stays completes; any other stays with its port's record, or goes with
it. The answers for every record with an open tag, by its marks: GRANTED where it is unmarked; where it is revoke pending REVOKED and,
by the model's reading, log 24, no notice; where it is releasing CANCELLED, then CANCELLED for the port's queued bursts to the bank,
which leave their queue, then OK for the close tag if there is one. Each goes to its own port's link, so that grant order shows on none. The place law (R23) is a premise. A
DETACHING session that is left without work and without another tag in use ends: OK for the detach tag is its last answer, and it is
NONE; one in TEARDOWN that is left without work is NONE. Where the completion completes the upgrade of a record with an open tag, its
GRANTED for the open tag comes first and reports the mode as it was, SHARED, then the one for the UPGRADE: that the first does so is the
model's choice, log 34. On a free data path the first candidate in the cycle after the last served port begins: that the
arbiter chooses once, when all that becomes ready at the event is, is the model's choice, log 36. The time moves on to the end of the
interval: the model's choice, log 3. -/
def Obligations.OpenCompletionByMarks : Prop :=
  ∀ (s : State) (b : Bank) (kept : List HoldRecord), (s.bank b).phase = .opening →
    kept = ((s.bank b).holds.filter (fun h => !h.releasing && !h.revokePending)).map (fun h => { h with openTag := none }) →
    ∃ t, exec (.openCompletion b) s = .next t
      ∧ t.now = max s.now ((s.bank b).endsAt.getD s.now)
      ∧ ((s.bank b).upgrade = none →
          t.bank b =
            { s.bank b with
              phase := if kept = [] then .closeWait else .opened
              holds := kept, dwellExpired := some false, endsAt := some (t.now + 72) })
      ∧ (∀ u x, (s.bank b).upgrade = some u → kept = [x] → x.port = u.port →
          t.bank b =
            { s.bank b with
              phase := .opened, holds := [{ x with mode := .exclusive }], dwellExpired := some false
              upgrade := none, endsAt := some (t.now + 72) })
      ∧ (∀ u, (s.bank b).upgrade = some u → kept.map (fun x => x.port) ≠ [u.port] →
          t.bank b =
            { s.bank b with
              phase := if kept = [] then .closeWait else .opened
              holds := kept, dwellExpired := some false, endsAt := some (t.now + 72)
              upgrade := if kept.any (fun x => x.port == u.port) = true then some u else none })
      ∧ (∀ x ot, s.placeLaw → x ∈ (s.bank b).holds → x.openTag = some ot →
          (∀ u, (s.bank b).upgrade = some u → u.port = x.port → kept.map (fun y => y.port) ≠ [u.port]) →
          (s.session x.port).state = .attached → (s.link x.port).up = true →
          (t.link x.port).queue = (s.link x.port).queue ++
            (if x.releasing = true then
              .response ot .cancelled ::
                (((s.burstQueue x.port).filter (fun y => y.bank == b)).map (fun y => .response y.tag .cancelled)
                  ++ (match x.closeTag with
                    | some ct => [.response ct (.ok (.close false))]
                    | none => []))
            else if x.revokePending = true then [.response ot .revoked]
            else [.response ot (.granted b (s.bank b).openRow x.mode)]))
      ∧ (∀ u x ot, s.placeLaw → (s.bank b).upgrade = some u → kept = [{ x with openTag := none }] → x ∈ (s.bank b).holds →
          x.port = u.port → x.openTag = some ot → (s.session x.port).state = .attached → (s.link x.port).up = true →
          (t.link x.port).queue = (s.link x.port).queue ++
            [.response ot (.granted b (s.bank b).openRow x.mode), .response u.tag (.granted b (s.bank b).openRow .exclusive)])
      ∧ (∀ queues : Four (List QueuedBurst),
          (∀ p, queues.get p =
            if (s.bank b).holds.any (fun x => x.port == p && x.releasing) = true then
              (s.burstQueue p).filter (fun y => y.bank != b)
            else s.burstQueue p) →
          s.engineGoesOn t queues)
      ∧ (∀ p, (s.session p).state = .teardown →
          t.link p = s.link p
            ∧ t.session p = { s.session p with state := if t.outstanding p = true then .teardown else .none })
      ∧ (∀ x ot d, s.placeLaw → x ∈ (s.bank b).holds → x.openTag = some ot → x.releasing = true ∨ x.revokePending = true →
          (s.session x.port).state = .detaching → (s.session x.port).detachTag = some d →
          (s.link x.port).up = true →
          ∀ answers, answers =
            (if x.releasing = true then
              .response ot .cancelled ::
                (((s.burstQueue x.port).filter (fun y => y.bank == b)).map (fun y => .response y.tag .cancelled)
                  ++ (match x.closeTag with
                    | some ct => [.response ct (.ok (.close false))]
                    | none => []))
            else [.response ot .revoked]) →
          (t.outstanding x.port = true →
              (t.session x.port).state = .detaching ∧ (t.link x.port).queue = (s.link x.port).queue ++ answers)
            ∧ (t.outstanding x.port = false →
                (∀ i, i ≠ d → (∀ y ∈ answers, y.carriesTag i = false) → sixteenGet (s.session x.port).tags i = .free) →
                (t.link x.port).queue = (s.link x.port).queue ++ answers ++ [.response d (.ok .plain)]
                  ∧ t.session x.port =
                    { state := .none, role := none, tags := sixteenAll .free, idleVote := false, detachTag := none }))
      ∧ s.KeepsStore { t with now := s.now } ∧ t.quads = s.quads ∧ t.config = s.config

/-- DWELL_EXPIRY: dwell expired becomes yes; an OPEN bank stays OPEN, a bank in CLOSE_WAIT goes to CLOSING for 14 ns; nothing
else changes. The time moves on to the end of the interval: the model's choice, log 3. -/
def Obligations.DwellExpiryByPhase : Prop :=
  ∀ (s : State) (b : Bank) (now : Nat), now = max s.now ((s.bank b).endsAt.getD s.now) →
    (s.bank b).dwellExpired = some false →
    ((s.bank b).phase = .opened →
      exec (.dwellExpiry b) s = .next
        (({ s with now := now } : State).setBank b { s.bank b with dwellExpired := some true, endsAt := none }))
    ∧ ((s.bank b).phase = .closeWait →
      exec (.dwellExpiry b) s = .next
        (({ s with now := now } : State).setBank b
          { s.bank b with phase := .closing, dwellExpired := some true, endsAt := some (now + 28) }))

/-- CLOSE_COMPLETION: the bank is CLOSED, row and dwell expired absent, and is offered for queue service. Unserved, the clear that is
then due in CLEARING starts, and nothing else follows but the refresh arbiter's choice and the retention entry condition. Served, the chosen
entry by the policy and every SHARED entry for its row with it are granted: the bank is OPENING on the row, and last granted
port is the chosen one's. The time moves on to the end of the interval: the model's choice, log 3. -/
def Obligations.CloseCompletionServesTheQueue : Prop :=
  ∀ (s : State) (b : Bank) (now : Nat), (s.bank b).phase = .closing →
    now = max s.now ((s.bank b).endsAt.getD s.now) →
    ((s.bank b).waitQueue = [] ∨ s.cleared (groupOf b) = false ∨ (s.quad (groupOf b)).state ≠ .current →
      ∃ evaluated : State, exec (.closeCompletion b) s = .next evaluated.refreshChoice.enterRetention
        ∧ (({ s with now := now } : State).setBank b
            { s.bank b with phase := .closed, row := none, dwellExpired := none, endsAt := none }).clearEvaluated evaluated)
    ∧ (∀ (w : WaitEntry) (joins : WaitEntry → Bool), s.cleared (groupOf b) = true → (s.quad (groupOf b)).state = .current →
      ((s.config.grantPolicy = .arrival ∧ (s.bank b).waitQueue.head? = some w)
        ∨ (s.config.grantPolicy = .rotating
            ∧ ∃ n : Nat, n < 4 ∧ w.port.val = ((s.bank b).lastGranted.val + 1 + n) % 4
              ∧ (s.bank b).waitQueue.find? (fun y => y.port == w.port) = some w
              ∧ ∀ k : Nat, k < n → ∀ y ∈ (s.bank b).waitQueue,
                  y.port.val ≠ ((s.bank b).lastGranted.val + 1 + k) % 4)) →
      (∀ y, joins y = (y.port != w.port && w.mode == .shared && y.mode == .shared && y.row == w.row)) →
      ∃ t, exec (.closeCompletion b) s = .next t ∧ t.now = now
        ∧ (t.bank b).phase = .opening ∧ (t.bank b).row = some w.row ∧ (t.bank b).dwellExpired = some false
        ∧ (t.bank b).endsAt = some (now + 28) ∧ (t.bank b).lastGranted = w.port
        ∧ (t.bank b).waitQueue = (s.bank b).waitQueue.filter (fun y => y.port != w.port && !joins y)
        ∧ (t.bank b).holds.map (fun h => (h.port, h.mode, h.openTag)) =
            (w :: (s.bank b).waitQueue.filter joins).map (fun y => (y.port, y.mode, some y.tag))
        ∧ (∀ h ∈ (t.bank b).holds, h.releasing = false ∧ h.revokePending = false ∧ h.closeTag = none)
        ∧ t.links = s.links ∧ t.sessions = s.sessions ∧ t.array = { s.array with epoch := t.array.epoch }
        ∧ t.quads = s.quads ∧ t.config = s.config)

/-! ## Retention timer and refresh -/

/-- RETENTION_TIMER_EXPIRY: the debt of every cleared quad below 12 rises by 1 and its maintenance state follows; at 12 the
debt stays, the lapse flag is set and every ATTACHED session is sent LAPSE; an uncleared quad is left alone. The next period
has the length of RETENTION_INTERVAL. A quad that enters DUE sends RECLAIM for every record not marked revoke pending. A notice
enters its queue at the tail with count 1; where one of its kind and subject still waits there, that one is updated in its place: row
and debt are the new ones, and the count is raised by 1, up to 255 for RECLAIM and LAPSE. The time moves on to the end of the
interval: the model's choice, log 3. In a state that holds the maintenance law, the queued bursts to the quads that enter FORCED leave
their queues, and no others; on a free data path the first candidate in the cycle after the last served port then begins: that the
arbiter chooses once, at the end, is the model's choice, log 36. -/
def Obligations.RetentionTimerExpiryByDebt : Prop :=
  (∀ (before after : List OutEntry) (e : OutEntry), (∀ x ∈ before ++ after, x.sameSubject e = false) →
    placeEntry (before ++ after) e = before ++ after ++ [e]
      ∧ ∀ (b : Bank) (q : Quad) (row row' : Row) (debt debt' : Int) (n : Nat),
        (e = .reclaim b row' debt' 1 →
          placeEntry (before ++ .reclaim b row debt n :: after) e =
            before ++ .reclaim b row' debt' (min (n + 1) 255) :: after)
        ∧ (e = .revoked b row' 1 →
          placeEntry (before ++ .revoked b row n :: after) e = before ++ .revoked b row' (n + 1) :: after)
        ∧ (e = .lapse q 1 → placeEntry (before ++ .lapse q n :: after) e = before ++ .lapse q (min (n + 1) 255) :: after))
  ∧ (∀ (x : OutEntry) (b : Bank) (q : Quad) (row : Row) (debt : Int) (n : Nat) (tag : Tag) (a : Answer),
      (x.sameSubject (.reclaim b row debt n) = true ↔ ∃ row' debt' n', x = .reclaim b row' debt' n')
        ∧ (x.sameSubject (.revoked b row n) = true ↔ ∃ row' n', x = .revoked b row' n')
        ∧ (x.sameSubject (.lapse q n) = true ↔ ∃ n', x = .lapse q n')
        ∧ x.sameSubject (.response tag a) = false)
  ∧ ∀ s : State, ∃ t, exec .retentionTimerExpiry s = .next t
    ∧ t.now = max s.now s.timer.endsAt
    ∧ t.timer = { period := s.config.retentionInterval, endsAt := t.now + 200 * s.config.retentionInterval }
    ∧ (∀ q, s.cleared q = false → t.quad q = s.quad q)
    ∧ (∀ q, s.cleared q = true → (s.quad q).debt < 12 →
        t.quad q =
          { s.quad q with
            debt := (s.quad q).debt + 1
            state := maintenanceOf s.config.reclaimLevel ((s.quad q).debt + 1) })
    ∧ (∀ q, s.cleared q = true → 12 ≤ (s.quad q).debt →
        t.quad q = { s.quad q with lapse := true }
          ∧ ∀ p, (s.session p).state = .attached → (s.link p).up = true →
              (∃ n, OutEntry.lapse q n ∈ (t.link p).queue)
              ∧ ∀ before n after, (s.link p).queue = before ++ .lapse q n :: after →
                  (∀ x ∈ before ++ after, x.sameSubject (.lapse q 1) = false) →
                  ∃ before' after', (t.link p).queue = before' ++ .lapse q (min (n + 1) 255) :: after'
                    ∧ before'.length = before.length)
    ∧ (∀ (b : Bank) (h : HoldRecord), s.cleared (groupOf b) = true → (s.quad (groupOf b)).state = .current →
        (s.quad (groupOf b)).debt + 1 = s.config.reclaimLevel → s.config.reclaimLevel < 12 → h ∈ (s.bank b).holds →
        h.revokePending = false → (s.session h.port).state = .attached ∨ (s.session h.port).state = .detaching →
        (s.link h.port).up = true →
        ∃ n, OutEntry.reclaim b (s.bank b).openRow ((s.quad (groupOf b)).debt + 1) n ∈ (t.link h.port).queue)
    ∧ (s.maintenanceLaw → ∀ queues : Four (List QueuedBurst),
        (∀ p, queues.get p = (s.burstQueue p).filter (fun x =>
          !(s.cleared (groupOf x.bank) && decide ((s.quad (groupOf x.bank)).debt = 11)))) →
        s.engineGoesOn t queues)
    ∧ t.array = s.array ∧ t.integrity = s.integrity ∧ t.config = s.config ∧ t.pending = s.pending

/-- Entry to FORCED at an expiry, in a state that holds the maintenance law: on every bank of the quad no burst stays queued, no
upgrade stays, the waits stay, and every record that stays is marked. On an OPEN bank only the record stays whose port's burst
executes there, or that was marked revoke pending already; on a bank in any other state, of which the manual says that there is none
with a record, every record stays, marked: the model's choice, log 19. An OPEN bank whose last record leaves goes to CLOSE_WAIT, or after
dwell expiry to CLOSING for 14 ns. Every removed burst and upgrade is answered REVOKED, a
releasing record that leaves has its close tag answered OK, any other that leaves sends a REVOKED notice; to sessions that are
ATTACHED or DETACHING. Where no other quad is cleared, the entries that an ATTACHED port is sent are these: bank by bank, REVOKED for
its bursts in queue order, then for its upgrade, then what its record gives. -/
def Obligations.ForcedEntryRevokesTheQuad : Prop :=
  ∀ (s : State) (q : Quad), s.maintenanceLaw → s.cleared q = true → (s.quad q).debt = 11 →
    ∃ t, exec .retentionTimerExpiry s = .next t
      ∧ (∀ (b : Bank) (p : Port), groupOf b = q → (s.session p).state = .attached ∨ (s.session p).state = .detaching →
          (s.link p).up = true →
          (∀ x ∈ s.burstQueue p, x.bank = b → OutEntry.response x.tag .revoked ∈ (t.link p).queue)
          ∧ (∀ u, (s.bank b).upgrade = some u → u.port = p → OutEntry.response u.tag .revoked ∈ (t.link p).queue)
          ∧ (∀ h ∈ (s.bank b).holds, h.port = p → (s.bank b).phase = .opened → h.revokePending = false →
              s.executingOn p b = false →
              (h.releasing = false → ∃ n, OutEntry.revoked b (s.bank b).openRow n ∈ (t.link p).queue)
              ∧ (∀ ct, h.releasing = true → h.closeTag = some ct →
                  OutEntry.response ct (.ok (.close false)) ∈ (t.link p).queue)))
      ∧ (∀ p, (∀ r, r ≠ q → s.cleared r = false) → (s.session p).state = .attached → (s.link p).up = true →
          (t.link p).queue =
            ((quadBanks q).flatMap (fun b =>
              ((s.burstQueue p).filter (fun x => x.bank == b)).map (fun x => .response x.tag .revoked)
                ++ ((s.bank b).upgrade.filter (fun u => u.port == p)).toList.map (fun u => .response u.tag .revoked)
                ++ ((s.bank b).holds.filter (fun h => h.port == p)).flatMap (fun h =>
                    if (s.bank b).phase = .opened ∧ h.revokePending = false ∧ s.executingOn p b = false then
                      if h.releasing = true then h.closeTag.toList.map (fun ct => .response ct (.ok (.close false)))
                      else [.revoked b (s.bank b).openRow 1]
                    else []))).foldl placeEntry (s.link p).queue)
      ∧ ∀ b, groupOf b = q →
        (t.bank b).waitQueue = (s.bank b).waitQueue ∧ (t.bank b).upgrade = none
          ∧ (∀ p, ∀ x ∈ t.burstQueue p, x.bank ≠ b)
          ∧ (∀ h ∈ (t.bank b).holds, h.releasing = true ∨ h.revokePending = true)
          ∧ (∀ stays : HoldRecord → Bool,
              (∀ h, stays h = ((s.bank b).phase != .opened || h.revokePending || s.executingOn h.port b)) →
              (t.bank b).holds =
                  ((s.bank b).holds.filter stays).map (fun h => if h.releasing then h else { h with revokePending := true })
                ∧ ((s.bank b).phase = .opened → (s.bank b).holds ≠ [] → (s.bank b).holds.filter stays = [] →
                    t.bank b =
                      (if (s.bank b).dwellExpired = some true then
                        { s.bank b with holds := [], upgrade := none, phase := .closing, endsAt := some (t.now + 28) }
                      else { s.bank b with holds := [], upgrade := none, phase := .closeWait })))

/-- REFRESH_COMPLETION: a cleared quad's debt falls by 1 and its maintenance state follows; no other account changes. In a state that
holds the maintenance and the phase law, the quad's banks are CLOSED again, and where it is cleared and then CURRENT, the entries that
the policy chooses are granted on them; other banks are as before. Then the clear that is due in CLEARING starts, and the unit is
idle, or refreshes the next quad for 280 ns; last comes the retention entry condition. The time moves on to the end of the interval:
the model's choice, log 3. -/
def Obligations.RefreshCompletionPaysDebt : Prop :=
  ∀ (s : State) (r : RefreshRun), s.refresh = some r → ∃ t offered evaluated : State,
    exec .refreshCompletion s = .next t ∧ t = evaluated.refreshChoice.enterRetention
    ∧ offered.clearEvaluated evaluated ∧ offered.refresh = none
    ∧ t.now = max s.now r.endsAt
    ∧ (s.cleared r.quad = true →
        t.quad r.quad =
          { s.quad r.quad with
            debt := (s.quad r.quad).debt - 1
            state := maintenanceOf s.config.reclaimLevel ((s.quad r.quad).debt - 1) })
    ∧ (s.cleared r.quad = false → t.quad r.quad = s.quad r.quad)
    ∧ (∀ q, q ≠ r.quad → t.quad q = s.quad q)
    ∧ (t.refresh = none ∨ ∃ q, t.refresh = some { quad := q, endsAt := t.now + 560 })
    ∧ (s.maintenanceLaw → s.phaseLaw →
        offered = { s with
          now := t.now, quads := t.quads, banks := offered.banks, stamp := offered.stamp, refresh := none }
        ∧ (∀ b, groupOf b ≠ r.quad → offered.bank b = s.bank b)
        ∧ (∀ b, groupOf b = r.quad →
            (s.bank b).waitQueue = [] ∨ s.cleared r.quad = false ∨ (t.quad r.quad).state ≠ .current →
            offered.bank b = { s.bank b with phase := .closed })
        ∧ (∀ b w, groupOf b = r.quad → s.cleared r.quad = true → (t.quad r.quad).state = .current → s.servedFirst b w →
            (s.bank b).grantedTo (offered.bank b) w t.now ∧ t.bank b = offered.bank b))
    ∧ t.array = { s.array with epoch := t.array.epoch } ∧ t.integrity = s.integrity ∧ t.config = s.config
    ∧ t.timer = s.timer ∧ t.pending = s.pending

/-- A quad is eligible for refresh when it is cleared, its four banks are CLOSED and its debt is above its target: RECLAIM_LEVEL − 1
with a wait entry on one of its banks, else −4 with pull-in, else 0. The refresh arbiter, with its unit idle, starts the first
eligible quad: FORCED quads by number, then DUE by debt, then CURRENT with debt above 0, then the others, ties by number. The
start makes its four banks REFRESHING for 280 ns and changes nothing else. The count of requests that is noted with it is the model's
own, log 30. -/
def Obligations.RefreshArbiterStartsTheFirstEligibleQuad : Prop :=
  ∀ (s : State) (rank : Quad → Nat),
    (∀ q, rank q =
      match (s.quad q).state with
      | .forced => 1
      | .due => 2
      | .current => if 0 < (s.quad q).debt then 3 else 4) →
    (∀ q, s.eligible q = true ↔
      s.cleared q = true ∧ (∀ b, groupOf b = q → (s.bank b).phase = .closed)
        ∧ ((∃ b, groupOf b = q ∧ (s.bank b).waitQueue ≠ []) → (s.config.reclaimLevel : Int) - 1 < (s.quad q).debt)
        ∧ ((∀ b, groupOf b = q → (s.bank b).waitQueue = []) →
            (if s.config.pullIn.get q then (-4 : Int) else 0) < (s.quad q).debt))
    ∧ (s.refresh ≠ none ∨ (∀ q, s.eligible q = false) → s.refreshChoice = s)
    ∧ (∀ q, s.refresh = none → s.eligible q = true →
        (∀ r, r ≠ q → s.eligible r = true →
          rank q < rank r
            ∨ (rank q = rank r
                ∧ (((s.quad q).state = .forced ∧ q < r)
                  ∨ ((s.quad q).state ≠ .forced
                      ∧ ((s.quad r).debt < (s.quad q).debt ∨ ((s.quad r).debt = (s.quad q).debt ∧ q < r)))))) →
        ∃ t, s.refreshChoice = t
          ∧ t = { s with
              banks := t.banks, refresh := some { quad := q, endsAt := s.now + 560 }
              marks := { s.marks with startedAfter := s.marks.requests } }
          ∧ ∀ b, t.bank b = if groupOf b = q then { s.bank b with phase := .refreshing } else s.bank b)

/-! ## Clears and corruption -/

/-- CLEAR_COMPLETION: the quad is CLEARED, its debt 0, CURRENT, its lapse flag kept. Every unit of it is eight zero bytes with valid
check bits, but for the bits that have changed since the clear wrote it, which stand in it; a unit with none is clean. Every other
quad's units are as before. Its banks are CLOSED and offered: the entry that the policy chooses is granted. Then the refresh arbiter
chooses. After quad 3 the mode is then ACTIVE; before that the next quad's clear starts where it is due. Last comes the retention
entry condition, upon which alone the mode becomes RETENTION. Sessions, links, bursts and every other bank are otherwise as before. The
time moves on to the end of the interval: the model's choice, log 3. The stamps that keep the order of grants are the model's own,
log 15. -/
def Obligations.ClearCompletionZeroesTheQuad : Prop :=
  ∀ (s : State) (r : ClearRun), s.modeCtl.clearRun = some r → s.mode = .clearing → s.arrayLaw →
    ∃ t offered evaluated : State, exec .clearCompletion s = .next t
      ∧ t = evaluated.enterRetention
      ∧ (r.quad = 3 → evaluated = { offered.refreshChoice with modeCtl := { offered.modeCtl with mode := .active } })
      ∧ (r.quad ≠ 3 → offered.refreshChoice.clearEvaluated evaluated)
      ∧ offered = { s with
          now := max s.now (r.startedAt + 2600000)
          modeCtl := { s.modeCtl with
            clearStates := s.modeCtl.clearStates.set r.quad .cleared, clearRun := none }
          quads := s.quads.set r.quad { debt := 0, state := .current, lapse := (s.quad r.quad).lapse }
          array := offered.array, banks := offered.banks, stamp := offered.stamp }
      ∧ (∀ b, groupOf b ≠ r.quad → offered.bank b = s.bank b)
      ∧ (∀ b, groupOf b = r.quad → (s.bank b).waitQueue = [] → offered.bank b = { s.bank b with phase := .closed })
      ∧ (∀ b w, groupOf b = r.quad → s.servedFirst b w →
          (s.bank b).grantedTo (offered.bank b) w t.now ∧ t.bank b = offered.bank b)
      ∧ t.now = offered.now ∧ t.clearState r.quad = .cleared
      ∧ (r.quad = 3 → t.mode = .active ∨ t.mode = .retention) ∧ (r.quad ≠ 3 → t = evaluated ∧ t.mode = .clearing)
      ∧ (∀ u, quadOfUnit u = r.quad →
          t.array.unit u = { written := 0, changedData := s.array.lateData u, changedCheck := s.array.lateCheck u }
            ∧ (s.array.lateData u = 0 → s.array.lateCheck u = 0 →
                t.array.storedData u = 0 ∧ t.array.classify u = .clean))
      ∧ (∀ u, quadOfUnit u ≠ r.quad → t.array.unit u = s.array.unit u)
      ∧ t.array.lateUpsets = []
      ∧ (∀ q : Quad, q.val = r.quad.val + 1 → (∀ q' : Quad, q' < r.quad → s.cleared q' = true) →
          s.clearState q = .uncleared → s.quadClosed q = true →
          t.clearState q = .clearing ∧ (∀ b, groupOf b = q → (t.bank b).phase = .clearing)
            ∧ t.modeCtl.clearRun.map (fun x => (x.quad, x.startedAt)) = some (q, t.now))
      ∧ t.sessions = s.sessions ∧ t.links = s.links ∧ t.bursts = s.bursts
      ∧ t.integrity = s.integrity ∧ t.config = s.config ∧ t.timer = s.timer ∧ t.pending = s.pending

/-- UNIT_CORRUPTION changes the stored bits it names and nothing else: in the unit struck as it stands now, which is eight zero bytes
where the clear in progress has written it (at a moment that is free, log 11), the bits named are changed, and changes of the same
bit add up by cancelling; every other unit is as before. A change after the clear's write is kept apart until the clear ends and then
stands in the zeroed unit (ClearCompletionZeroesTheQuad); one before it does not. One bit changed since the unit was written makes it
correctable, to what was written; two make it uncorrectable. A corruption that falls together with the rewrite of the unit after a
correctable read may instead be replaced by that rewrite: then no stored bit is changed (R106); which of the two is free, log 33. Units
with the same stored data and check bits are classified alike. The eight check bits, which the command names beside the data bits, are the model's, log 10. -/
def Obligations.UnitCorruptionChangesTheNamedBits : Prop :=
  ∀ (s : State) (bank : Bank) (row : Row) (column : Fin 128) (data : UnitData) (check : BitVec 8) (u : Nat), s.arrayLaw →
    u = unitIndex bank row column.val →
    ∃ t struck, exec (.unitCorruption bank row column data check) s = .next t
      ∧ (t = struck ∨ (s.marks.rewritten = some (u, s.now) ∧ t = { s with marks := struck.marks }))
      ∧ struck = { s with
          array := struck.array, marks := { s.marks with corruptions := s.marks.corruptions + 1 } }
      ∧ (∀ v, struck.unitNow v =
          if v = u then
            { s.unitNow u with
              changedData := (s.unitNow u).changedData ^^^ data, changedCheck := (s.unitNow u).changedCheck ^^^ check }
          else s.unitNow v)
      ∧ (struck.unitNow u).data = (s.unitNow u).data ^^^ data ∧ (struck.unitNow u).check = (s.unitNow u).check ^^^ check
      ∧ (clearHasWritten s.modeCtl.clearRun s.now u = true →
          struck.array = { s.array with lateUpsets := struck.array.lateUpsets }
            ∧ struck.array.lateData u = s.array.lateData u ^^^ data ∧ struck.array.lateCheck u = s.array.lateCheck u ^^^ check)
      ∧ (clearHasWritten s.modeCtl.clearRun s.now u = false → struck.array = { s.array with upsets := struck.array.upsets })
      ∧ ((s.unitNow u).changed = 0 → countBits data 64 + countBits check 8 = 1 →
          (struck.unitNow u).verdict = .correctable (s.unitNow u).data)
      ∧ ((s.unitNow u).changed = 0 → countBits data 64 + countBits check 8 = 2 →
          (struck.unitNow u).verdict = .uncorrectable)
      ∧ ∀ x y : UnitBits, x.data = y.data → x.check = y.check → x.verdict = y.verdict

/-! ## Configuration, clear requests, inspection -/

/-- CFG_READ in an ATTACHED session: the item's value and the maintainer, the whole table for ALL, or RANGE; the index byte is
looked at for PULL_IN and HOLD_QUOTA alone. -/
def Obligations.CfgReadAnswersItems : Prop :=
  ∀ (s : State) (h : Header) (item index : Byte) (answer : DataBody → Prop), s.hears h →
    (s.session h.port).state = .attached →
    (∀ body, answer body ↔ exec (.cfgRead h item index) s = .next (s.answered h false (.data body))) →
    (item = 0x01 → answer (.cfgOne 0x01 0 s.config.retentionInterval s.config.maintainer))
    ∧ (item = 0x02 → answer (.cfgOne 0x02 0 s.config.reclaimLevel s.config.maintainer))
    ∧ (∀ q : Quad, item = 0x03 → index = BitVec.ofNat 8 q.val →
        answer (.cfgOne 0x03 index (if s.config.pullIn.get q then 1 else 0) s.config.maintainer))
    ∧ (∀ p : Port, item = 0x04 → index = BitVec.ofNat 8 p.val →
        answer (.cfgOne 0x04 index (s.config.holdQuota.get p) s.config.maintainer))
    ∧ (item = 0x05 →
        answer (.cfgOne 0x05 0 (if s.config.grantPolicy = .rotating then 1 else 0) s.config.maintainer))
    ∧ (item = 0x06 → answer (.cfgOne 0x06 0 (if s.config.idleEntry then 1 else 0) s.config.maintainer))
    ∧ (item = 0xFF → answer (.cfgAll s.config))
    ∧ (item = 0 ∨ (6 < item.toNat ∧ item.toNat < 255) ∨ ((item = 0x03 ∨ item = 0x04) ∧ 4 ≤ index.toNat) →
        exec (.cfgRead h item index) s = .next (s.answered h false (.refused .range)))

/-- The checks of a CFG_WRITE in an ATTACHED session, in order: DENIED without MAINTAINER, RANGE for an index or a value that is
out of range, IN_USE for a quota below the port's use; a refused write changes nothing else. That IN_USE comes also where the value
is the quota already in force (a port in TEARDOWN after a reset) is the model's choice, log 29. -/
def Obligations.CfgWriteChecksInOrder : Prop :=
  ∀ (s : State) (h : Header) (code index value : Byte) (c : Instr), s.hears h → (s.session h.port).state = .attached →
    requestOf c = some (h, .cfgWrite code index value) →
    (s.config.maintainer ≠ some h.port → exec c s = .next (s.answered h false (.refused .denied)))
    ∧ (s.config.maintainer = some h.port →
        ((c = .cfgWriteRetentionInterval h value ∧ (value.toNat < 16 ∨ 128 < value.toNat))
          ∨ (c = .cfgWriteReclaimLevel h value ∧ (value.toNat < 1 ∨ 11 < value.toNat))
          ∨ (c = .cfgWritePullIn h index value ∧ (3 < index.toNat ∨ 1 < value.toNat))
          ∨ (c = .cfgWriteHoldQuota h index value ∧ (3 < index.toNat ∨ value.toNat < 1 ∨ 8 < value.toNat))
          ∨ (c = .cfgWriteGrantPolicy h value ∧ 1 < value.toNat)
          ∨ (c = .cfgWriteIdleEntry h value ∧ 1 < value.toNat)) →
        exec c s = .next (s.answered h false (.refused .range)))
    ∧ (∀ p : Port, s.config.maintainer = some h.port → c = .cfgWriteHoldQuota h index value →
        index = BitVec.ofNat 8 p.val → 1 ≤ value.toNat → value.toNat ≤ 8 → value.toNat < s.use p →
        exec c s = .next (s.answered h false (.refused .inUse)))

/-- A CFG_WRITE that passed its checks puts the value in force and is answered OK with it, after the effects of the write: none
for RETENTION_INTERVAL, HOLD_QUOTA, GRANT_POLICY and IDLE_ENTRY; the refresh arbiter's choice for PULL_IN; every quad's maintenance
state evaluated against a new RECLAIM_LEVEL. In a state that holds the maintenance law that is all of the following: a quad that
enters DUE sends RECLAIM for its records not marked revoke pending, bank by bank; a quad that returns from DUE to CURRENT is offered,
and on its CLOSED banks the entries that the policy chooses are granted; then the refresh arbiter chooses; then comes the OK. A value
already in force changes nothing. -/
def Obligations.CfgWriteTakesEffect : Prop :=
  ∀ (s : State) (h : Header) (value : Byte) (v : Nat), s.hears h → (s.session h.port).state = .attached →
    s.config.maintainer = some h.port → v = value.toNat →
    (16 ≤ v → v ≤ 128 →
      exec (.cfgWriteRetentionInterval h value) s = .next
        (({ s with config := { s.config with retentionInterval := v } } : State).answered h false
          (.ok (.cfgWrite 0x01 0 v))))
    ∧ (∀ p : Port, 1 ≤ v → v ≤ 8 → s.use p ≤ v →
      exec (.cfgWriteHoldQuota h (BitVec.ofNat 8 p.val) value) s = .next
        (({ s with config := { s.config with holdQuota := s.config.holdQuota.set p v } } : State).answered h false
          (.ok (.cfgWrite 0x04 (BitVec.ofNat 8 p.val) v))))
    ∧ (v ≤ 1 →
      exec (.cfgWriteGrantPolicy h value) s = .next
        (({ s with config := { s.config with grantPolicy := if v = 1 then .rotating else .arrival } } : State).answered h
          false (.ok (.cfgWrite 0x05 0 v))))
    ∧ (v ≤ 1 →
      exec (.cfgWriteIdleEntry h value) s = .next
        (({ s with config := { s.config with idleEntry := v == 1 } } : State).answered h false
          (.ok (.cfgWrite 0x06 0 v))))
    ∧ (∀ q : Quad, v ≤ 1 →
      exec (.cfgWritePullIn h (BitVec.ofNat 8 q.val) value) s = .next
        (((if s.config.pullIn.get q = (v == 1) then s.countRequest
          else ({ s.countRequest with config := { s.config with pullIn := s.config.pullIn.set q (v == 1) } }
            : State).refreshChoice) : State).replied h false (.ok (.cfgWrite 0x03 (BitVec.ofNat 8 q.val) v))))
    ∧ (s.config.reclaimLevel = v → 1 ≤ v → v ≤ 11 →
      exec (.cfgWriteReclaimLevel h value) s = .next (s.answered h false (.ok (.cfgWrite 0x02 0 v))))
    ∧ (s.config.reclaimLevel ≠ v → 1 ≤ v → v ≤ 11 →
      ∃ t, exec (.cfgWriteReclaimLevel h value) s = .next t
        ∧ t.config = { s.config with reclaimLevel := v }
        ∧ (∀ q, t.quad q = { s.quad q with state := maintenanceOf v (s.quad q).debt })
        ∧ (∃ before, (t.link h.port).queue = before ++ [.response h.tag (.ok (.cfgWrite 0x02 0 v))])
        ∧ s.KeepsStore t ∧ t.modeCtl = s.modeCtl
        ∧ (s.maintenanceLaw → ∃ u : State, t = u.refreshChoice.replied h false (.ok (.cfgWrite 0x02 0 v))
            ∧ u = { s.countRequest with
                config := { s.config with reclaimLevel := v }
                quads := u.quads, banks := u.banks, links := u.links, stamp := u.stamp }
            ∧ (∀ p, u.link p = { s.link p with queue := (u.link p).queue })
            ∧ (∀ p, (u.link p).queue =
                ((if ((s.session p).state = .attached ∨ (s.session p).state = .detaching) ∧ (s.link p).up = true then allBanks
                  else []).flatMap (fun b =>
                    if (s.quad (groupOf b)).state = .current ∧ maintenanceOf v (s.quad (groupOf b)).debt = .due then
                      ((s.bank b).holds.filter (fun x => x.port == p && !x.revokePending)).map (fun _ =>
                        .reclaim b (s.bank b).openRow (s.quad (groupOf b)).debt 1)
                    else [])).foldl placeEntry (s.link p).queue)
            ∧ ∀ b,
                ((s.quad (groupOf b)).state = .due → maintenanceOf v (s.quad (groupOf b)).debt = .current →
                  s.cleared (groupOf b) = true → (s.bank b).phase = .closed →
                  ∀ w, s.servedFirst b w → (s.bank b).grantedTo (u.bank b) w s.now)
                ∧ ((s.quad (groupOf b)).state ≠ .due ∨ maintenanceOf v (s.quad (groupOf b)).debt ≠ .current
                    ∨ s.cleared (groupOf b) = false ∨ (s.bank b).phase ≠ .closed ∨ (s.bank b).waitQueue = [] →
                  u.bank b = s.bank b)))

/-- The clear requests: DENIED without MAINTAINER; else the entry, the list with the overflow flag, the lapse flags or the corrected
counts named are cleared, or the argument is out of RANGE. Nothing else changes. -/
def Obligations.ClearRequestsClearWhatTheyName : Prop :=
  ∀ (s : State) (h : Header), s.hears h → (s.session h.port).state = .attached →
    (∀ c r, requestOf c = some (h, r) →
      ((∃ n, c = .faultClearIndex h n) ∨ c = .faultClearAll h ∨ (∃ n, c = .lapseClear h n) ∨ (∃ n, c = .countClear h n)) →
      s.config.maintainer ≠ some h.port → exec c s = .next (s.answered h false (.refused .denied)))
    ∧ (s.config.maintainer = some h.port →
        (∀ (n : Byte) (x : FaultEntry), n.toNat < 16 → s.integrity.faults[n.toNat]? = some x →
          exec (.faultClearIndex h n) s = .next
            (({ s with integrity := { s.integrity with faults := s.integrity.faults.eraseIdx n.toNat } } : State).answered h
              false (.ok (.faultCleared x.bank x.row x.column))))
        ∧ (∀ n : Byte, n ≠ 0xFF → 16 ≤ n.toNat ∨ s.integrity.faults.length ≤ n.toNat →
          exec (.faultClearIndex h n) s = .next (s.answered h false (.refused .range)))
        ∧ exec (.faultClearAll h) s = .next
            (({ s with integrity := { s.integrity with faults := [], overflow := false } } : State).answered h false
              (.ok .plain))
        ∧ (∀ q : Quad, exec (.lapseClear h (BitVec.ofNat 8 q.val)) s = .next
            ((s.setQuad q { s.quad q with lapse := false }).answered h false (.ok .plain)))
        ∧ exec (.lapseClear h 0xFF) s = .next
            (({ s with quads := s.quads.map (fun a => { a with lapse := false }) } : State).answered h false (.ok .plain))
        ∧ (∀ n : Byte, 4 ≤ n.toNat → n ≠ 0xFF →
            exec (.lapseClear h n) s = .next (s.answered h false (.refused .range)))
        ∧ (∀ b : Bank, exec (.countClear h (BitVec.ofNat 8 b.val)) s = .next
            (({ s with integrity := { s.integrity with counts := sixteenSet s.integrity.counts b 0 } } : State).answered h
              false (.ok .plain)))
        ∧ exec (.countClear h 0xFF) s = .next
            (({ s with integrity := { s.integrity with counts := sixteenAll 0 } } : State).answered h false (.ok .plain))
        ∧ (∀ n : Byte, 16 ≤ n.toNat → n ≠ 0xFF →
            exec (.countClear h n) s = .next (s.answered h false (.refused .range))))

/-- The INSPECTs: answered with the record of the target as it stands, the INSPECT's own tag BUSY, or with RANGE; nothing but the
answer and the idle vote changes. DEVICE is answered in a session of any state. The records of SELF, BANK, QUAD, FAULTS, COUNTS and
DEVICE, field by field, with the codes of 11.4. In SELF the port's records stand in grant order and its waits in the order of their
joining, which the model keeps as stamps, log 15. That COUNTS is the 16 counts alone, without a count before them, is the model's
choice, log 37. -/
def Obligations.InspectReportsAndChangesNothing : Prop :=
  ∀ (s : State) (h : Header), s.hears h →
    ((s.session h.port).state = .attached →
      exec (.inspectSelf h) s = .next
          (s.answered h false (.data (.inspect 0x01 ((s.taken h).selfRecord h.port))))
      ∧ (∀ b : Bank, exec (.inspectBank h (BitVec.ofNat 8 b.val)) s = .next
          (s.answered h false (.data (.inspect 0x02 (s.bankRecordBytes b)))))
      ∧ (∀ n : Byte, 16 ≤ n.toNat → exec (.inspectBank h n) s = .next (s.answered h false (.refused .range)))
      ∧ (∀ q : Quad, exec (.inspectQuad h (BitVec.ofNat 8 q.val)) s = .next
          (s.answered h false (.data (.inspect 0x03 (s.quadRecord q)))))
      ∧ (∀ n : Byte, 4 ≤ n.toNat → exec (.inspectQuad h n) s = .next (s.answered h false (.refused .range)))
      ∧ exec (.inspectFaults h) s = .next (s.answered h false (.data (.inspect 0x04 s.faultsRecord)))
      ∧ exec (.inspectCounts h) s = .next (s.answered h false (.data (.inspect 0x05 s.countsRecord))))
    ∧ exec (.inspectDevice h) s = .next (s.answered h false (.data (.inspect 0x06 s.deviceRecord)))
    ∧ [BankPhase.closed, .opening, .opened, .closeWait, .closing, .refreshing, .clearing].map BankPhase.code =
        [0, 1, 2, 3, 4, 5, 6]
    ∧ [SessionState.none, .attached, .detaching, .teardown].map SessionState.code = [0, 1, 2, 3]
    ∧ [none, some Role.user, some .maintainer].map roleOptByte = [0xFF, 0, 1]
    ∧ [TagState.free, .busy, .queued].map TagState.code = [0, 1, 2]
    ∧ [Maintenance.current, .due, .forced].map Maintenance.code = [0, 1, 2]
    ∧ [ClearState.uncleared, .clearing, .cleared].map ClearState.code = [0, 1, 2]
    ∧ [FaultReason.none, .check, .sequence, .kind, .length, .tag, .reset, .carrier].map FaultReason.code =
        [0, 1, 2, 3, 4, 5, 6, 7]
    ∧ (∀ (u : State) (p : Port) (holds : List (Bank × HoldRecord)) (waits : List (Bank × WaitEntry)),
        holds.Perm (allBanks.flatMap (fun b =>
          ((u.bank b).holds.filter (fun x => x.port == p)).map (fun x => (b, x)))) →
        holds.Pairwise (fun x y => x.2.stamp < y.2.stamp) →
        waits.Perm (allBanks.flatMap (fun b =>
          ((u.bank b).waitQueue.filter (fun w => w.port == p)).map (fun w => (b, w)))) →
        waits.Pairwise (fun x y => x.2.stamp < y.2.stamp) →
        u.selfRecord p =
          [(u.session p).state.code, roleOptByte (u.session p).role, if (u.session p).idleVote = true then (1 : Byte) else 0]
          ++ allFour.map (fun i => BitVec.ofNat 8 ((allFour.map (fun j =>
              (sixteenGet (u.session p).tags (quadBank i j)).code * 4 ^ j.val)).sum))
          ++ [BitVec.ofNat 8 (holds.length + waits.length), BitVec.ofNat 8 (u.config.holdQuota.get p)]
          ++ BitVec.ofNat 8 holds.length
          :: holds.flatMap (fun x => BitVec.ofNat 8 x.1.val
              :: (match (u.bank x.1).row with
                | some r => [BitVec.ofNat 8 (r.val / 256), BitVec.ofNat 8 r.val]
                | none => [0xFF, 0xFF])
              ++ [BitVec.ofNat 8 ((if x.2.mode = .exclusive then 1 else 0) + (if x.2.releasing = true then 2 else 0)
                + (if x.2.revokePending = true then 4 else 0) + (if x.2.openTag ≠ none then 8 else 0)
                + (if (u.bank x.1).upgrade.map (fun y => y.port) = some p then 16 else 0))])
          ++ BitVec.ofNat 8 waits.length
          :: waits.flatMap (fun x => [BitVec.ofNat 8 x.1.val, BitVec.ofNat 8 (x.2.row.val / 256), BitVec.ofNat 8 x.2.row.val,
              BitVec.ofNat 8 (x.2.tag.val + (if x.2.mode = .exclusive then 16 else 0))])
          ++ BitVec.ofNat 8 (u.burstQueue p).length
          :: (u.burstQueue p).flatMap (fun x => [BitVec.ofNat 8 (x.tag.val + (if x.kind = .write then 16 else 0)),
              BitVec.ofNat 8 x.bank.val, BitVec.ofNat 8 x.column,
              BitVec.ofNat 8 (x.units + (if (u.bank x.bank).phase = .opened then 128 else 0))])
          ++ [match u.bursts.executing with
            | some e => if e.burst.port = p then BitVec.ofNat 8 e.burst.tag.val else 0xFF
            | none => (0xFF : Byte)])
    ∧ s.faultsRecord =
        BitVec.ofNat 8 s.integrity.faults.length :: (if s.integrity.overflow = true then (1 : Byte) else 0)
          :: s.integrity.faults.zipIdx.flatMap (fun x =>
            [BitVec.ofNat 8 x.2, BitVec.ofNat 8 x.1.bank.val, BitVec.ofNat 8 (x.1.row.val / 256),
              BitVec.ofNat 8 x.1.row.val, BitVec.ofNat 8 x.1.column,
              BitVec.ofNat 8 (x.1.port.val + (if x.1.kind = .merge then 16 else 0))])
    ∧ (∀ b, s.bankRecordBytes b =
        (s.bank b).phase.code
          :: (match (s.bank b).row with
            | some r => [BitVec.ofNat 8 (r.val / 256), BitVec.ofNat 8 r.val]
            | none => [0xFF, 0xFF])
          ++ [match (s.bank b).dwellExpired with
            | some d => if d = true then (1 : Byte) else 0
            | none => (0xFF : Byte)]
          ++ BitVec.ofNat 8 (s.bank b).holds.length
          :: (s.bank b).holds.map (fun x => BitVec.ofNat 8 (x.port.val + (if x.mode = .exclusive then 4 else 0)
              + (if x.releasing = true then 8 else 0) + (if x.revokePending = true then 16 else 0)
              + (if x.openTag ≠ none then 32 else 0)))
          ++ BitVec.ofNat 8 (s.bank b).waitQueue.length
          :: (s.bank b).waitQueue.flatMap (fun w => [BitVec.ofNat 8 w.port.val, BitVec.ofNat 8 (w.row.val / 256),
              BitVec.ofNat 8 w.row.val, if w.mode = .exclusive then (1 : Byte) else 0])
          ++ [match (s.bank b).upgrade with
              | some u => BitVec.ofNat 8 u.port.val
              | none => (0xFF : Byte),
            BitVec.ofNat 8 (s.bank b).lastGranted.val,
            BitVec.ofNat 8 (((s.burstQueue 0 ++ s.burstQueue 1 ++ s.burstQueue 2 ++ s.burstQueue 3).filter (fun x =>
              x.bank == b)).length),
            match s.bursts.executing with
              | some e => if e.burst.bank = b then BitVec.ofNat 8 e.burst.port.val else 0xFF
              | none => (0xFF : Byte),
            (s.quad (groupOf b)).state.code, (s.clearState (groupOf b)).code,
            BitVec.ofNat 8 (sixteenGet s.integrity.counts b)])
    ∧ (∀ q, s.quadRecord q =
        [(s.clearState q).code, BitVec.ofInt 8 (s.quad q).debt, (s.quad q).state.code,
          if (s.quad q).lapse = true then (1 : Byte) else 0, if s.config.pullIn.get q = true then (1 : Byte) else 0,
          if s.cleared q = true then
            BitVec.ofInt 8
              (if ∃ b, groupOf b = q ∧ (s.bank b).waitQueue ≠ [] then (s.config.reclaimLevel : Int) - 1
              else if s.config.pullIn.get q = true then -4 else 0)
          else 0x80,
          if s.refresh.map (fun r => r.quad) = some q then (1 : Byte) else 0, if s.eligible q = true then (1 : Byte) else 0,
          BitVec.ofNat 8 ((quadBanks q).flatMap (fun b => (s.bank b).holds)).length,
          BitVec.ofNat 8 ((quadBanks q).flatMap (fun b => (s.bank b).waitQueue)).length])
    ∧ s.countsRecord = allBanks.map (fun b => BitVec.ofNat 8 (sixteenGet s.integrity.counts b))
    ∧ s.deviceRecord =
        (if s.mode = .active then (1 : Byte) else 0)
          :: allFour.map (fun q => (s.clearState q).code)
          ++ allFour.flatMap (fun p => [if (s.link p).up = true then (1 : Byte) else 0, (s.link p).lastFault.code,
              (s.session p).state.code, roleOptByte (s.session p).role])
          ++ [match s.config.maintainer with
              | some p => BitVec.ofNat 8 p.val
              | none => (0xFF : Byte),
            BitVec.ofNat 8 ((if s.bursts.executing = none ∧ ∀ p, s.burstQueue p = [] then 0 else 1)
              + 16 * s.bursts.lastServed.val),
            match s.refresh with
              | some r => BitVec.ofNat 8 r.quad.val
              | none => (0xFF : Byte),
            BitVec.ofNat 8 s.timer.period,
            BitVec.ofNat 8 (((allFour.filter (fun q => (s.quad q).lapse)).map (fun q => 2 ^ q.val)).sum)]

/-! ## Headlines -/

/-- Every step keeps the canonical form of the array's memories. -/
def Obligations.StepKeepsArrayLaw : Prop :=
  ∀ s t : State, s.arrayLaw → step s = .next t → t.arrayLaw

/-- Every step keeps every debt between −4 and +12, and every maintenance state at what debt and RECLAIM_LEVEL give. -/
def Obligations.StepKeepsDebtAndMaintenanceLaws : Prop :=
  ∀ s t : State, s.debtLaw → s.maintenanceLaw → step s = .next t → t.debtLaw ∧ t.maintenanceLaw

/-- Every step keeps: the records of a bank all SHARED or a single EXCLUSIVE one, none in CLOSE_WAIT, and on any one bank at most
one record or wait entry a port. And with these and the phase law: which of row, dwell expired and pending upgrade a bank's state
lets be present, a record on every OPENING and OPEN bank and on no other, the executing burst on an OPEN bank with a record of its
port, and every queued burst on a bank with one. -/
def Obligations.StepKeepsHoldAndPlaceLaws : Prop :=
  ∀ s t : State, s.holdLaw → s.placeLaw → step s = .next t →
    t.holdLaw ∧ t.placeLaw ∧ (s.phaseLaw → s.bankLaw → s.burstLaw → t.bankLaw ∧ t.burstLaw)

/-- Every step keeps the banks of the quad being cleared in CLEARING and those of the quad being refreshed in REFRESHING. -/
def Obligations.StepKeepsPhaseLaw : Prop :=
  ∀ s t : State, s.phaseLaw → step s = .next t → t.phaseLaw

/-- Every step keeps the fault unit list at 16 entries or fewer, no two for one unit, and every corrected count at 255 or less. -/
def Obligations.StepKeepsIntegrityLaw : Prop :=
  ∀ s t : State, s.integrityLaw → step s = .next t → t.integrityLaw

/-- Every step keeps every outbound queue at no more than one notice of a kind and subject. -/
def Obligations.StepKeepsNoticeLaw : Prop :=
  ∀ s t : State, s.noticeLaw → step s = .next t → t.noticeLaw

/-- Every request, with every field at every value, is read back from its packet: check word, sequence number, tag and body. -/
def Obligations.RequestPacketsDecodeToTheirRequests : Prop :=
  ∀ (n : Seq) (tag : Tag) (r : Request), r.encodable = true → decodePacket (encodeRequest n tag r) = goodArrival n tag r

end
end

