-- ==== Sys2Proof/Laws/Tables.lean ====
section
/-!
SUPPORT. Reading and setting of the two tables `Four` and `Sixteen`: what a set place reads as, what every other place reads
as, and that equal readings make equal tables.
-/

namespace Sys2Proof

theorem four_ext {α : Type} {t u : Four α} (h : ∀ i, t.get i = u.get i) : t = u := by
  obtain ⟨a, b, c, d⟩ := t
  obtain ⟨a', b', c', d'⟩ := u
  have h0 := h 0
  have h1 := h 1
  have h2 := h 2
  have h3 := h 3
  simp only [Four.get] at h0 h1 h2 h3
  simp_all

@[simp] theorem four_get_set_same {α : Type} (t : Four α) (i : Fin 4) (a : α) : (t.set i a).get i = a := by
  fin_cases i <;> rfl

@[simp] theorem four_get_set_ne {α : Type} (t : Four α) {i j : Fin 4} (a : α) (h : j ≠ i) :
    (t.set i a).get j = t.get j := by
  revert h
  fin_cases i <;> fin_cases j <;> intro h <;> first | rfl | exact absurd rfl h

theorem four_get_set {α : Type} (t : Four α) (i j : Fin 4) (a : α) :
    (t.set i a).get j = if j = i then a else t.get j := by
  by_cases h : j = i
  · subst h; simp
  · simp [h]

@[simp] theorem four_set_set {α : Type} (t : Four α) (i : Fin 4) (a b : α) : (t.set i a).set i b = t.set i b := by
  fin_cases i <;> rfl

@[simp] theorem four_set_get {α : Type} (t : Four α) (i : Fin 4) : t.set i (t.get i) = t := by
  fin_cases i <;> rfl

@[simp] theorem four_get_all {α : Type} (a : α) (i : Fin 4) : (Four.all a).get i = a := by
  fin_cases i <;> rfl

@[simp] theorem four_get_map {α β : Type} (f : α → β) (t : Four α) (i : Fin 4) : (t.map f).get i = f (t.get i) := by
  fin_cases i <;> rfl

/-- A bank, or a tag, is its group and its place in the group. -/
theorem group_lane_ext {i j : Fin 16} (hg : groupOf i = groupOf j) (hl : laneOf i = laneOf j) : i = j := by
  simp only [groupOf, laneOf, Fin.mk.injEq] at hg hl
  exact Fin.ext (by omega)

@[simp] theorem sixteen_get_set_same {α : Type} (t : Sixteen α) (i : Fin 16) (a : α) :
    sixteenGet (sixteenSet t i a) i = a := by
  simp [sixteenGet, sixteenSet]

@[simp] theorem sixteen_get_set_ne {α : Type} (t : Sixteen α) {i j : Fin 16} (a : α) (h : j ≠ i) :
    sixteenGet (sixteenSet t i a) j = sixteenGet t j := by
  simp only [sixteenGet, sixteenSet]
  by_cases hg : groupOf j = groupOf i
  · rw [hg, four_get_set_same, four_get_set_ne]
    exact fun hl => h (group_lane_ext hg hl)
  · rw [four_get_set_ne _ _ hg]

theorem sixteen_get_set {α : Type} (t : Sixteen α) (i j : Fin 16) (a : α) :
    sixteenGet (sixteenSet t i a) j = if j = i then a else sixteenGet t j := by
  by_cases h : j = i
  · subst h; simp
  · simp [h]

@[simp] theorem sixteen_set_set {α : Type} (t : Sixteen α) (i : Fin 16) (a b : α) :
    sixteenSet (sixteenSet t i a) i b = sixteenSet t i b := by
  simp [sixteenSet]

@[simp] theorem sixteen_set_get {α : Type} (t : Sixteen α) (i : Fin 16) : sixteenSet t i (sixteenGet t i) = t := by
  simp [sixteenSet, sixteenGet]

@[simp] theorem sixteen_get_all {α : Type} (a : α) (i : Fin 16) : sixteenGet (sixteenAll a) i = a := by
  simp [sixteenGet, sixteenAll]

/-- The place of a group and a lane. -/
theorem lane_cover (q l : Fin 4) : ∃ i : Fin 16, groupOf i = q ∧ laneOf i = l := by
  refine ⟨⟨4 * q.val + l.val, by omega⟩, ?_, ?_⟩ <;> simp only [groupOf, laneOf] <;> ext <;> simp <;> omega

theorem sixteen_ext {α : Type} {t u : Sixteen α} (h : ∀ i, sixteenGet t i = sixteenGet u i) : t = u := by
  refine four_ext fun q => four_ext fun l => ?_
  obtain ⟨i, hq, hl⟩ := lane_cover q l
  have := h i
  simpa only [sixteenGet, hq, hl] using this

end Sys2Proof
end

