-- ==== Sys2Proof/Laws/State.lean ====
section
/-!
SUPPORT. The fields of the state under each named update: one lemma for each field and each update, true by definition, so that
no later proof unfolds a record update; and what the accessors read after the updates of their own tables.
-/

namespace Sys2Proof.Machine

open Sys2Proof

/-! ## Fields that an update leaves alone -/

@[simp] theorem setBank_now (s : State) (b : Bank) (r : BankRecord) : (s.setBank b r).now = s.now := rfl
@[simp] theorem setBank_stamp (s : State) (b : Bank) (r : BankRecord) : (s.setBank b r).stamp = s.stamp := rfl
@[simp] theorem setBank_marks (s : State) (b : Bank) (r : BankRecord) : (s.setBank b r).marks = s.marks := rfl
@[simp] theorem setBank_modeCtl (s : State) (b : Bank) (r : BankRecord) : (s.setBank b r).modeCtl = s.modeCtl := rfl
@[simp] theorem setBank_array (s : State) (b : Bank) (r : BankRecord) : (s.setBank b r).array = s.array := rfl
@[simp] theorem setBank_bursts (s : State) (b : Bank) (r : BankRecord) : (s.setBank b r).bursts = s.bursts := rfl
@[simp] theorem setBank_quads (s : State) (b : Bank) (r : BankRecord) : (s.setBank b r).quads = s.quads := rfl
@[simp] theorem setBank_timer (s : State) (b : Bank) (r : BankRecord) : (s.setBank b r).timer = s.timer := rfl
@[simp] theorem setBank_refresh (s : State) (b : Bank) (r : BankRecord) : (s.setBank b r).refresh = s.refresh := rfl
@[simp] theorem setBank_integrity (s : State) (b : Bank) (r : BankRecord) : (s.setBank b r).integrity = s.integrity := rfl
@[simp] theorem setBank_config (s : State) (b : Bank) (r : BankRecord) : (s.setBank b r).config = s.config := rfl
@[simp] theorem setBank_sessions (s : State) (b : Bank) (r : BankRecord) : (s.setBank b r).sessions = s.sessions := rfl
@[simp] theorem setBank_links (s : State) (b : Bank) (r : BankRecord) : (s.setBank b r).links = s.links := rfl
@[simp] theorem setBank_pending (s : State) (b : Bank) (r : BankRecord) : (s.setBank b r).pending = s.pending := rfl

@[simp] theorem setLink_now (s : State) (p : Port) (l : Link) : (s.setLink p l).now = s.now := rfl
@[simp] theorem setLink_stamp (s : State) (p : Port) (l : Link) : (s.setLink p l).stamp = s.stamp := rfl
@[simp] theorem setLink_marks (s : State) (p : Port) (l : Link) : (s.setLink p l).marks = s.marks := rfl
@[simp] theorem setLink_modeCtl (s : State) (p : Port) (l : Link) : (s.setLink p l).modeCtl = s.modeCtl := rfl
@[simp] theorem setLink_array (s : State) (p : Port) (l : Link) : (s.setLink p l).array = s.array := rfl
@[simp] theorem setLink_banks (s : State) (p : Port) (l : Link) : (s.setLink p l).banks = s.banks := rfl
@[simp] theorem setLink_bursts (s : State) (p : Port) (l : Link) : (s.setLink p l).bursts = s.bursts := rfl
@[simp] theorem setLink_quads (s : State) (p : Port) (l : Link) : (s.setLink p l).quads = s.quads := rfl
@[simp] theorem setLink_timer (s : State) (p : Port) (l : Link) : (s.setLink p l).timer = s.timer := rfl
@[simp] theorem setLink_refresh (s : State) (p : Port) (l : Link) : (s.setLink p l).refresh = s.refresh := rfl
@[simp] theorem setLink_integrity (s : State) (p : Port) (l : Link) : (s.setLink p l).integrity = s.integrity := rfl
@[simp] theorem setLink_config (s : State) (p : Port) (l : Link) : (s.setLink p l).config = s.config := rfl
@[simp] theorem setLink_sessions (s : State) (p : Port) (l : Link) : (s.setLink p l).sessions = s.sessions := rfl
@[simp] theorem setLink_pending (s : State) (p : Port) (l : Link) : (s.setLink p l).pending = s.pending := rfl

@[simp] theorem setSession_now (s : State) (p : Port) (x : Session) : (s.setSession p x).now = s.now := rfl
@[simp] theorem setSession_stamp (s : State) (p : Port) (x : Session) : (s.setSession p x).stamp = s.stamp := rfl
@[simp] theorem setSession_marks (s : State) (p : Port) (x : Session) : (s.setSession p x).marks = s.marks := rfl
@[simp] theorem setSession_modeCtl (s : State) (p : Port) (x : Session) : (s.setSession p x).modeCtl = s.modeCtl := rfl
@[simp] theorem setSession_array (s : State) (p : Port) (x : Session) : (s.setSession p x).array = s.array := rfl
@[simp] theorem setSession_banks (s : State) (p : Port) (x : Session) : (s.setSession p x).banks = s.banks := rfl
@[simp] theorem setSession_bursts (s : State) (p : Port) (x : Session) : (s.setSession p x).bursts = s.bursts := rfl
@[simp] theorem setSession_quads (s : State) (p : Port) (x : Session) : (s.setSession p x).quads = s.quads := rfl
@[simp] theorem setSession_timer (s : State) (p : Port) (x : Session) : (s.setSession p x).timer = s.timer := rfl
@[simp] theorem setSession_refresh (s : State) (p : Port) (x : Session) : (s.setSession p x).refresh = s.refresh := rfl
@[simp] theorem setSession_integrity (s : State) (p : Port) (x : Session) : (s.setSession p x).integrity = s.integrity := rfl
@[simp] theorem setSession_config (s : State) (p : Port) (x : Session) : (s.setSession p x).config = s.config := rfl
@[simp] theorem setSession_links (s : State) (p : Port) (x : Session) : (s.setSession p x).links = s.links := rfl
@[simp] theorem setSession_pending (s : State) (p : Port) (x : Session) : (s.setSession p x).pending = s.pending := rfl

@[simp] theorem setTag_now (s : State) (p : Port) (t : Tag) (x : TagState) : (s.setTag p t x).now = s.now := rfl
@[simp] theorem setTag_stamp (s : State) (p : Port) (t : Tag) (x : TagState) : (s.setTag p t x).stamp = s.stamp := rfl
@[simp] theorem setTag_marks (s : State) (p : Port) (t : Tag) (x : TagState) : (s.setTag p t x).marks = s.marks := rfl
@[simp] theorem setTag_modeCtl (s : State) (p : Port) (t : Tag) (x : TagState) : (s.setTag p t x).modeCtl = s.modeCtl := rfl
@[simp] theorem setTag_array (s : State) (p : Port) (t : Tag) (x : TagState) : (s.setTag p t x).array = s.array := rfl
@[simp] theorem setTag_banks (s : State) (p : Port) (t : Tag) (x : TagState) : (s.setTag p t x).banks = s.banks := rfl
@[simp] theorem setTag_bursts (s : State) (p : Port) (t : Tag) (x : TagState) : (s.setTag p t x).bursts = s.bursts := rfl
@[simp] theorem setTag_quads (s : State) (p : Port) (t : Tag) (x : TagState) : (s.setTag p t x).quads = s.quads := rfl
@[simp] theorem setTag_timer (s : State) (p : Port) (t : Tag) (x : TagState) : (s.setTag p t x).timer = s.timer := rfl
@[simp] theorem setTag_refresh (s : State) (p : Port) (t : Tag) (x : TagState) : (s.setTag p t x).refresh = s.refresh := rfl
@[simp] theorem setTag_integrity (s : State) (p : Port) (t : Tag) (x : TagState) : (s.setTag p t x).integrity = s.integrity := rfl
@[simp] theorem setTag_config (s : State) (p : Port) (t : Tag) (x : TagState) : (s.setTag p t x).config = s.config := rfl
@[simp] theorem setTag_links (s : State) (p : Port) (t : Tag) (x : TagState) : (s.setTag p t x).links = s.links := rfl
@[simp] theorem setTag_pending (s : State) (p : Port) (t : Tag) (x : TagState) : (s.setTag p t x).pending = s.pending := rfl

@[simp] theorem setVote_now (s : State) (p : Port) (v : Bool) : (s.setVote p v).now = s.now := rfl
@[simp] theorem setVote_stamp (s : State) (p : Port) (v : Bool) : (s.setVote p v).stamp = s.stamp := rfl
@[simp] theorem setVote_marks (s : State) (p : Port) (v : Bool) : (s.setVote p v).marks = s.marks := rfl
@[simp] theorem setVote_modeCtl (s : State) (p : Port) (v : Bool) : (s.setVote p v).modeCtl = s.modeCtl := rfl
@[simp] theorem setVote_array (s : State) (p : Port) (v : Bool) : (s.setVote p v).array = s.array := rfl
@[simp] theorem setVote_banks (s : State) (p : Port) (v : Bool) : (s.setVote p v).banks = s.banks := rfl
@[simp] theorem setVote_bursts (s : State) (p : Port) (v : Bool) : (s.setVote p v).bursts = s.bursts := rfl
@[simp] theorem setVote_quads (s : State) (p : Port) (v : Bool) : (s.setVote p v).quads = s.quads := rfl
@[simp] theorem setVote_timer (s : State) (p : Port) (v : Bool) : (s.setVote p v).timer = s.timer := rfl
@[simp] theorem setVote_refresh (s : State) (p : Port) (v : Bool) : (s.setVote p v).refresh = s.refresh := rfl
@[simp] theorem setVote_integrity (s : State) (p : Port) (v : Bool) : (s.setVote p v).integrity = s.integrity := rfl
@[simp] theorem setVote_config (s : State) (p : Port) (v : Bool) : (s.setVote p v).config = s.config := rfl
@[simp] theorem setVote_links (s : State) (p : Port) (v : Bool) : (s.setVote p v).links = s.links := rfl
@[simp] theorem setVote_pending (s : State) (p : Port) (v : Bool) : (s.setVote p v).pending = s.pending := rfl

@[simp] theorem setQuad_now (s : State) (q : Quad) (x : QuadAccount) : (s.setQuad q x).now = s.now := rfl
@[simp] theorem setQuad_stamp (s : State) (q : Quad) (x : QuadAccount) : (s.setQuad q x).stamp = s.stamp := rfl
@[simp] theorem setQuad_marks (s : State) (q : Quad) (x : QuadAccount) : (s.setQuad q x).marks = s.marks := rfl
@[simp] theorem setQuad_modeCtl (s : State) (q : Quad) (x : QuadAccount) : (s.setQuad q x).modeCtl = s.modeCtl := rfl
@[simp] theorem setQuad_array (s : State) (q : Quad) (x : QuadAccount) : (s.setQuad q x).array = s.array := rfl
@[simp] theorem setQuad_banks (s : State) (q : Quad) (x : QuadAccount) : (s.setQuad q x).banks = s.banks := rfl
@[simp] theorem setQuad_bursts (s : State) (q : Quad) (x : QuadAccount) : (s.setQuad q x).bursts = s.bursts := rfl
@[simp] theorem setQuad_timer (s : State) (q : Quad) (x : QuadAccount) : (s.setQuad q x).timer = s.timer := rfl
@[simp] theorem setQuad_refresh (s : State) (q : Quad) (x : QuadAccount) : (s.setQuad q x).refresh = s.refresh := rfl
@[simp] theorem setQuad_integrity (s : State) (q : Quad) (x : QuadAccount) : (s.setQuad q x).integrity = s.integrity := rfl
@[simp] theorem setQuad_config (s : State) (q : Quad) (x : QuadAccount) : (s.setQuad q x).config = s.config := rfl
@[simp] theorem setQuad_sessions (s : State) (q : Quad) (x : QuadAccount) : (s.setQuad q x).sessions = s.sessions := rfl
@[simp] theorem setQuad_links (s : State) (q : Quad) (x : QuadAccount) : (s.setQuad q x).links = s.links := rfl
@[simp] theorem setQuad_pending (s : State) (q : Quad) (x : QuadAccount) : (s.setQuad q x).pending = s.pending := rfl

@[simp] theorem setDebt_now (s : State) (q : Quad) (d : Int) : (s.setDebt q d).now = s.now := rfl
@[simp] theorem setDebt_stamp (s : State) (q : Quad) (d : Int) : (s.setDebt q d).stamp = s.stamp := rfl
@[simp] theorem setDebt_marks (s : State) (q : Quad) (d : Int) : (s.setDebt q d).marks = s.marks := rfl
@[simp] theorem setDebt_modeCtl (s : State) (q : Quad) (d : Int) : (s.setDebt q d).modeCtl = s.modeCtl := rfl
@[simp] theorem setDebt_array (s : State) (q : Quad) (d : Int) : (s.setDebt q d).array = s.array := rfl
@[simp] theorem setDebt_banks (s : State) (q : Quad) (d : Int) : (s.setDebt q d).banks = s.banks := rfl
@[simp] theorem setDebt_bursts (s : State) (q : Quad) (d : Int) : (s.setDebt q d).bursts = s.bursts := rfl
@[simp] theorem setDebt_timer (s : State) (q : Quad) (d : Int) : (s.setDebt q d).timer = s.timer := rfl
@[simp] theorem setDebt_refresh (s : State) (q : Quad) (d : Int) : (s.setDebt q d).refresh = s.refresh := rfl
@[simp] theorem setDebt_integrity (s : State) (q : Quad) (d : Int) : (s.setDebt q d).integrity = s.integrity := rfl
@[simp] theorem setDebt_config (s : State) (q : Quad) (d : Int) : (s.setDebt q d).config = s.config := rfl
@[simp] theorem setDebt_sessions (s : State) (q : Quad) (d : Int) : (s.setDebt q d).sessions = s.sessions := rfl
@[simp] theorem setDebt_links (s : State) (q : Quad) (d : Int) : (s.setDebt q d).links = s.links := rfl
@[simp] theorem setDebt_pending (s : State) (q : Quad) (d : Int) : (s.setDebt q d).pending = s.pending := rfl

@[simp] theorem setMaintenance_now (s : State) (q : Quad) (m : Maintenance) : (s.setMaintenance q m).now = s.now := rfl
@[simp] theorem setMaintenance_stamp (s : State) (q : Quad) (m : Maintenance) : (s.setMaintenance q m).stamp = s.stamp := rfl
@[simp] theorem setMaintenance_marks (s : State) (q : Quad) (m : Maintenance) : (s.setMaintenance q m).marks = s.marks := rfl
@[simp] theorem setMaintenance_modeCtl (s : State) (q : Quad) (m : Maintenance) : (s.setMaintenance q m).modeCtl = s.modeCtl := rfl
@[simp] theorem setMaintenance_array (s : State) (q : Quad) (m : Maintenance) : (s.setMaintenance q m).array = s.array := rfl
@[simp] theorem setMaintenance_banks (s : State) (q : Quad) (m : Maintenance) : (s.setMaintenance q m).banks = s.banks := rfl
@[simp] theorem setMaintenance_bursts (s : State) (q : Quad) (m : Maintenance) : (s.setMaintenance q m).bursts = s.bursts := rfl
@[simp] theorem setMaintenance_timer (s : State) (q : Quad) (m : Maintenance) : (s.setMaintenance q m).timer = s.timer := rfl
@[simp] theorem setMaintenance_refresh (s : State) (q : Quad) (m : Maintenance) : (s.setMaintenance q m).refresh = s.refresh := rfl
@[simp] theorem setMaintenance_integrity (s : State) (q : Quad) (m : Maintenance) : (s.setMaintenance q m).integrity = s.integrity := rfl
@[simp] theorem setMaintenance_config (s : State) (q : Quad) (m : Maintenance) : (s.setMaintenance q m).config = s.config := rfl
@[simp] theorem setMaintenance_sessions (s : State) (q : Quad) (m : Maintenance) : (s.setMaintenance q m).sessions = s.sessions := rfl
@[simp] theorem setMaintenance_links (s : State) (q : Quad) (m : Maintenance) : (s.setMaintenance q m).links = s.links := rfl
@[simp] theorem setMaintenance_pending (s : State) (q : Quad) (m : Maintenance) : (s.setMaintenance q m).pending = s.pending := rfl

@[simp] theorem setBurstQueue_now (s : State) (p : Port) (l : List QueuedBurst) : (s.setBurstQueue p l).now = s.now := rfl
@[simp] theorem setBurstQueue_stamp (s : State) (p : Port) (l : List QueuedBurst) : (s.setBurstQueue p l).stamp = s.stamp := rfl
@[simp] theorem setBurstQueue_marks (s : State) (p : Port) (l : List QueuedBurst) : (s.setBurstQueue p l).marks = s.marks := rfl
@[simp] theorem setBurstQueue_modeCtl (s : State) (p : Port) (l : List QueuedBurst) : (s.setBurstQueue p l).modeCtl = s.modeCtl := rfl
@[simp] theorem setBurstQueue_array (s : State) (p : Port) (l : List QueuedBurst) : (s.setBurstQueue p l).array = s.array := rfl
@[simp] theorem setBurstQueue_banks (s : State) (p : Port) (l : List QueuedBurst) : (s.setBurstQueue p l).banks = s.banks := rfl
@[simp] theorem setBurstQueue_quads (s : State) (p : Port) (l : List QueuedBurst) : (s.setBurstQueue p l).quads = s.quads := rfl
@[simp] theorem setBurstQueue_timer (s : State) (p : Port) (l : List QueuedBurst) : (s.setBurstQueue p l).timer = s.timer := rfl
@[simp] theorem setBurstQueue_refresh (s : State) (p : Port) (l : List QueuedBurst) : (s.setBurstQueue p l).refresh = s.refresh := rfl
@[simp] theorem setBurstQueue_integrity (s : State) (p : Port) (l : List QueuedBurst) : (s.setBurstQueue p l).integrity = s.integrity := rfl
@[simp] theorem setBurstQueue_config (s : State) (p : Port) (l : List QueuedBurst) : (s.setBurstQueue p l).config = s.config := rfl
@[simp] theorem setBurstQueue_sessions (s : State) (p : Port) (l : List QueuedBurst) : (s.setBurstQueue p l).sessions = s.sessions := rfl
@[simp] theorem setBurstQueue_links (s : State) (p : Port) (l : List QueuedBurst) : (s.setBurstQueue p l).links = s.links := rfl
@[simp] theorem setBurstQueue_pending (s : State) (p : Port) (l : List QueuedBurst) : (s.setBurstQueue p l).pending = s.pending := rfl

@[simp] theorem queueBurst_now (s : State) (b : QueuedBurst) : (s.queueBurst b).now = s.now := rfl
@[simp] theorem queueBurst_stamp (s : State) (b : QueuedBurst) : (s.queueBurst b).stamp = s.stamp := rfl
@[simp] theorem queueBurst_marks (s : State) (b : QueuedBurst) : (s.queueBurst b).marks = s.marks := rfl
@[simp] theorem queueBurst_modeCtl (s : State) (b : QueuedBurst) : (s.queueBurst b).modeCtl = s.modeCtl := rfl
@[simp] theorem queueBurst_array (s : State) (b : QueuedBurst) : (s.queueBurst b).array = s.array := rfl
@[simp] theorem queueBurst_banks (s : State) (b : QueuedBurst) : (s.queueBurst b).banks = s.banks := rfl
@[simp] theorem queueBurst_quads (s : State) (b : QueuedBurst) : (s.queueBurst b).quads = s.quads := rfl
@[simp] theorem queueBurst_timer (s : State) (b : QueuedBurst) : (s.queueBurst b).timer = s.timer := rfl
@[simp] theorem queueBurst_refresh (s : State) (b : QueuedBurst) : (s.queueBurst b).refresh = s.refresh := rfl
@[simp] theorem queueBurst_integrity (s : State) (b : QueuedBurst) : (s.queueBurst b).integrity = s.integrity := rfl
@[simp] theorem queueBurst_config (s : State) (b : QueuedBurst) : (s.queueBurst b).config = s.config := rfl
@[simp] theorem queueBurst_sessions (s : State) (b : QueuedBurst) : (s.queueBurst b).sessions = s.sessions := rfl
@[simp] theorem queueBurst_links (s : State) (b : QueuedBurst) : (s.queueBurst b).links = s.links := rfl
@[simp] theorem queueBurst_pending (s : State) (b : QueuedBurst) : (s.queueBurst b).pending = s.pending := rfl

@[simp] theorem setExecuting_now (s : State) (e : Option Execution) : (s.setExecuting e).now = s.now := rfl
@[simp] theorem setExecuting_stamp (s : State) (e : Option Execution) : (s.setExecuting e).stamp = s.stamp := rfl
@[simp] theorem setExecuting_marks (s : State) (e : Option Execution) : (s.setExecuting e).marks = s.marks := rfl
@[simp] theorem setExecuting_modeCtl (s : State) (e : Option Execution) : (s.setExecuting e).modeCtl = s.modeCtl := rfl
@[simp] theorem setExecuting_array (s : State) (e : Option Execution) : (s.setExecuting e).array = s.array := rfl
@[simp] theorem setExecuting_banks (s : State) (e : Option Execution) : (s.setExecuting e).banks = s.banks := rfl
@[simp] theorem setExecuting_quads (s : State) (e : Option Execution) : (s.setExecuting e).quads = s.quads := rfl
@[simp] theorem setExecuting_timer (s : State) (e : Option Execution) : (s.setExecuting e).timer = s.timer := rfl
@[simp] theorem setExecuting_refresh (s : State) (e : Option Execution) : (s.setExecuting e).refresh = s.refresh := rfl
@[simp] theorem setExecuting_integrity (s : State) (e : Option Execution) : (s.setExecuting e).integrity = s.integrity := rfl
@[simp] theorem setExecuting_config (s : State) (e : Option Execution) : (s.setExecuting e).config = s.config := rfl
@[simp] theorem setExecuting_sessions (s : State) (e : Option Execution) : (s.setExecuting e).sessions = s.sessions := rfl
@[simp] theorem setExecuting_links (s : State) (e : Option Execution) : (s.setExecuting e).links = s.links := rfl
@[simp] theorem setExecuting_pending (s : State) (e : Option Execution) : (s.setExecuting e).pending = s.pending := rfl

@[simp] theorem startBurst_now (s : State) (p : Port) (b : QueuedBurst) : (s.startBurst p b).now = s.now := rfl
@[simp] theorem startBurst_stamp (s : State) (p : Port) (b : QueuedBurst) : (s.startBurst p b).stamp = s.stamp := rfl
@[simp] theorem startBurst_marks (s : State) (p : Port) (b : QueuedBurst) : (s.startBurst p b).marks = s.marks := rfl
@[simp] theorem startBurst_modeCtl (s : State) (p : Port) (b : QueuedBurst) : (s.startBurst p b).modeCtl = s.modeCtl := rfl
@[simp] theorem startBurst_array (s : State) (p : Port) (b : QueuedBurst) : (s.startBurst p b).array = s.array := rfl
@[simp] theorem startBurst_banks (s : State) (p : Port) (b : QueuedBurst) : (s.startBurst p b).banks = s.banks := rfl
@[simp] theorem startBurst_quads (s : State) (p : Port) (b : QueuedBurst) : (s.startBurst p b).quads = s.quads := rfl
@[simp] theorem startBurst_timer (s : State) (p : Port) (b : QueuedBurst) : (s.startBurst p b).timer = s.timer := rfl
@[simp] theorem startBurst_refresh (s : State) (p : Port) (b : QueuedBurst) : (s.startBurst p b).refresh = s.refresh := rfl
@[simp] theorem startBurst_integrity (s : State) (p : Port) (b : QueuedBurst) : (s.startBurst p b).integrity = s.integrity := rfl
@[simp] theorem startBurst_config (s : State) (p : Port) (b : QueuedBurst) : (s.startBurst p b).config = s.config := rfl
@[simp] theorem startBurst_sessions (s : State) (p : Port) (b : QueuedBurst) : (s.startBurst p b).sessions = s.sessions := rfl
@[simp] theorem startBurst_links (s : State) (p : Port) (b : QueuedBurst) : (s.startBurst p b).links = s.links := rfl
@[simp] theorem startBurst_pending (s : State) (p : Port) (b : QueuedBurst) : (s.startBurst p b).pending = s.pending := rfl

@[simp] theorem setMode_now (s : State) (m : DeviceMode) : (s.setMode m).now = s.now := rfl
@[simp] theorem setMode_stamp (s : State) (m : DeviceMode) : (s.setMode m).stamp = s.stamp := rfl
@[simp] theorem setMode_marks (s : State) (m : DeviceMode) : (s.setMode m).marks = s.marks := rfl
@[simp] theorem setMode_array (s : State) (m : DeviceMode) : (s.setMode m).array = s.array := rfl
@[simp] theorem setMode_banks (s : State) (m : DeviceMode) : (s.setMode m).banks = s.banks := rfl
@[simp] theorem setMode_bursts (s : State) (m : DeviceMode) : (s.setMode m).bursts = s.bursts := rfl
@[simp] theorem setMode_quads (s : State) (m : DeviceMode) : (s.setMode m).quads = s.quads := rfl
@[simp] theorem setMode_timer (s : State) (m : DeviceMode) : (s.setMode m).timer = s.timer := rfl
@[simp] theorem setMode_refresh (s : State) (m : DeviceMode) : (s.setMode m).refresh = s.refresh := rfl
@[simp] theorem setMode_integrity (s : State) (m : DeviceMode) : (s.setMode m).integrity = s.integrity := rfl
@[simp] theorem setMode_config (s : State) (m : DeviceMode) : (s.setMode m).config = s.config := rfl
@[simp] theorem setMode_sessions (s : State) (m : DeviceMode) : (s.setMode m).sessions = s.sessions := rfl
@[simp] theorem setMode_links (s : State) (m : DeviceMode) : (s.setMode m).links = s.links := rfl
@[simp] theorem setMode_pending (s : State) (m : DeviceMode) : (s.setMode m).pending = s.pending := rfl

@[simp] theorem setClearState_now (s : State) (q : Quad) (c : ClearState) : (s.setClearState q c).now = s.now := rfl
@[simp] theorem setClearState_stamp (s : State) (q : Quad) (c : ClearState) : (s.setClearState q c).stamp = s.stamp := rfl
@[simp] theorem setClearState_marks (s : State) (q : Quad) (c : ClearState) : (s.setClearState q c).marks = s.marks := rfl
@[simp] theorem setClearState_array (s : State) (q : Quad) (c : ClearState) : (s.setClearState q c).array = s.array := rfl
@[simp] theorem setClearState_banks (s : State) (q : Quad) (c : ClearState) : (s.setClearState q c).banks = s.banks := rfl
@[simp] theorem setClearState_bursts (s : State) (q : Quad) (c : ClearState) : (s.setClearState q c).bursts = s.bursts := rfl
@[simp] theorem setClearState_quads (s : State) (q : Quad) (c : ClearState) : (s.setClearState q c).quads = s.quads := rfl
@[simp] theorem setClearState_timer (s : State) (q : Quad) (c : ClearState) : (s.setClearState q c).timer = s.timer := rfl
@[simp] theorem setClearState_refresh (s : State) (q : Quad) (c : ClearState) : (s.setClearState q c).refresh = s.refresh := rfl
@[simp] theorem setClearState_integrity (s : State) (q : Quad) (c : ClearState) : (s.setClearState q c).integrity = s.integrity := rfl
@[simp] theorem setClearState_config (s : State) (q : Quad) (c : ClearState) : (s.setClearState q c).config = s.config := rfl
@[simp] theorem setClearState_sessions (s : State) (q : Quad) (c : ClearState) : (s.setClearState q c).sessions = s.sessions := rfl
@[simp] theorem setClearState_links (s : State) (q : Quad) (c : ClearState) : (s.setClearState q c).links = s.links := rfl
@[simp] theorem setClearState_pending (s : State) (q : Quad) (c : ClearState) : (s.setClearState q c).pending = s.pending := rfl

@[simp] theorem reach_stamp (s : State) (t : Nat) : (s.reach t).stamp = s.stamp := rfl
@[simp] theorem reach_marks (s : State) (t : Nat) : (s.reach t).marks = s.marks := rfl
@[simp] theorem reach_modeCtl (s : State) (t : Nat) : (s.reach t).modeCtl = s.modeCtl := rfl
@[simp] theorem reach_array (s : State) (t : Nat) : (s.reach t).array = s.array := rfl
@[simp] theorem reach_banks (s : State) (t : Nat) : (s.reach t).banks = s.banks := rfl
@[simp] theorem reach_bursts (s : State) (t : Nat) : (s.reach t).bursts = s.bursts := rfl
@[simp] theorem reach_quads (s : State) (t : Nat) : (s.reach t).quads = s.quads := rfl
@[simp] theorem reach_timer (s : State) (t : Nat) : (s.reach t).timer = s.timer := rfl
@[simp] theorem reach_refresh (s : State) (t : Nat) : (s.reach t).refresh = s.refresh := rfl
@[simp] theorem reach_integrity (s : State) (t : Nat) : (s.reach t).integrity = s.integrity := rfl
@[simp] theorem reach_config (s : State) (t : Nat) : (s.reach t).config = s.config := rfl
@[simp] theorem reach_sessions (s : State) (t : Nat) : (s.reach t).sessions = s.sessions := rfl
@[simp] theorem reach_links (s : State) (t : Nat) : (s.reach t).links = s.links := rfl
@[simp] theorem reach_pending (s : State) (t : Nat) : (s.reach t).pending = s.pending := rfl

@[simp] theorem setQuadPhase_now (s : State) (q : Quad) (ph : BankPhase) : (s.setQuadPhase q ph).now = s.now := rfl
@[simp] theorem setQuadPhase_stamp (s : State) (q : Quad) (ph : BankPhase) : (s.setQuadPhase q ph).stamp = s.stamp := rfl
@[simp] theorem setQuadPhase_marks (s : State) (q : Quad) (ph : BankPhase) : (s.setQuadPhase q ph).marks = s.marks := rfl
@[simp] theorem setQuadPhase_modeCtl (s : State) (q : Quad) (ph : BankPhase) : (s.setQuadPhase q ph).modeCtl = s.modeCtl := rfl
@[simp] theorem setQuadPhase_array (s : State) (q : Quad) (ph : BankPhase) : (s.setQuadPhase q ph).array = s.array := rfl
@[simp] theorem setQuadPhase_bursts (s : State) (q : Quad) (ph : BankPhase) : (s.setQuadPhase q ph).bursts = s.bursts := rfl
@[simp] theorem setQuadPhase_quads (s : State) (q : Quad) (ph : BankPhase) : (s.setQuadPhase q ph).quads = s.quads := rfl
@[simp] theorem setQuadPhase_timer (s : State) (q : Quad) (ph : BankPhase) : (s.setQuadPhase q ph).timer = s.timer := rfl
@[simp] theorem setQuadPhase_refresh (s : State) (q : Quad) (ph : BankPhase) : (s.setQuadPhase q ph).refresh = s.refresh := rfl
@[simp] theorem setQuadPhase_integrity (s : State) (q : Quad) (ph : BankPhase) : (s.setQuadPhase q ph).integrity = s.integrity := rfl
@[simp] theorem setQuadPhase_config (s : State) (q : Quad) (ph : BankPhase) : (s.setQuadPhase q ph).config = s.config := rfl
@[simp] theorem setQuadPhase_sessions (s : State) (q : Quad) (ph : BankPhase) : (s.setQuadPhase q ph).sessions = s.sessions := rfl
@[simp] theorem setQuadPhase_links (s : State) (q : Quad) (ph : BankPhase) : (s.setQuadPhase q ph).links = s.links := rfl
@[simp] theorem setQuadPhase_pending (s : State) (q : Quad) (ph : BankPhase) : (s.setQuadPhase q ph).pending = s.pending := rfl

@[simp] theorem tickStamp_now (s : State) (n : Nat) : (s.tickStamp n).now = s.now := rfl
@[simp] theorem tickStamp_modeCtl (s : State) (n : Nat) : (s.tickStamp n).modeCtl = s.modeCtl := rfl
@[simp] theorem tickStamp_array (s : State) (n : Nat) : (s.tickStamp n).array = s.array := rfl
@[simp] theorem tickStamp_banks (s : State) (n : Nat) : (s.tickStamp n).banks = s.banks := rfl
@[simp] theorem tickStamp_bursts (s : State) (n : Nat) : (s.tickStamp n).bursts = s.bursts := rfl
@[simp] theorem tickStamp_quads (s : State) (n : Nat) : (s.tickStamp n).quads = s.quads := rfl
@[simp] theorem tickStamp_timer (s : State) (n : Nat) : (s.tickStamp n).timer = s.timer := rfl
@[simp] theorem tickStamp_refresh (s : State) (n : Nat) : (s.tickStamp n).refresh = s.refresh := rfl
@[simp] theorem tickStamp_integrity (s : State) (n : Nat) : (s.tickStamp n).integrity = s.integrity := rfl
@[simp] theorem tickStamp_config (s : State) (n : Nat) : (s.tickStamp n).config = s.config := rfl
@[simp] theorem tickStamp_sessions (s : State) (n : Nat) : (s.tickStamp n).sessions = s.sessions := rfl
@[simp] theorem tickStamp_links (s : State) (n : Nat) : (s.tickStamp n).links = s.links := rfl
@[simp] theorem tickStamp_pending (s : State) (n : Nat) : (s.tickStamp n).pending = s.pending := rfl

@[simp] theorem openOn_now (s : State) (b : Bank) (row : Row) (hs : List HoldRecord) : (s.openOn b row hs).now = s.now := rfl
@[simp] theorem openOn_stamp (s : State) (b : Bank) (row : Row) (hs : List HoldRecord) : (s.openOn b row hs).stamp = s.stamp := rfl
@[simp] theorem openOn_marks (s : State) (b : Bank) (row : Row) (hs : List HoldRecord) : (s.openOn b row hs).marks = s.marks := rfl
@[simp] theorem openOn_modeCtl (s : State) (b : Bank) (row : Row) (hs : List HoldRecord) : (s.openOn b row hs).modeCtl = s.modeCtl := rfl
@[simp] theorem openOn_array (s : State) (b : Bank) (row : Row) (hs : List HoldRecord) : (s.openOn b row hs).array = s.array := rfl
@[simp] theorem openOn_bursts (s : State) (b : Bank) (row : Row) (hs : List HoldRecord) : (s.openOn b row hs).bursts = s.bursts := rfl
@[simp] theorem openOn_quads (s : State) (b : Bank) (row : Row) (hs : List HoldRecord) : (s.openOn b row hs).quads = s.quads := rfl
@[simp] theorem openOn_timer (s : State) (b : Bank) (row : Row) (hs : List HoldRecord) : (s.openOn b row hs).timer = s.timer := rfl
@[simp] theorem openOn_refresh (s : State) (b : Bank) (row : Row) (hs : List HoldRecord) : (s.openOn b row hs).refresh = s.refresh := rfl
@[simp] theorem openOn_integrity (s : State) (b : Bank) (row : Row) (hs : List HoldRecord) : (s.openOn b row hs).integrity = s.integrity := rfl
@[simp] theorem openOn_config (s : State) (b : Bank) (row : Row) (hs : List HoldRecord) : (s.openOn b row hs).config = s.config := rfl
@[simp] theorem openOn_sessions (s : State) (b : Bank) (row : Row) (hs : List HoldRecord) : (s.openOn b row hs).sessions = s.sessions := rfl
@[simp] theorem openOn_links (s : State) (b : Bank) (row : Row) (hs : List HoldRecord) : (s.openOn b row hs).links = s.links := rfl
@[simp] theorem openOn_pending (s : State) (b : Bank) (row : Row) (hs : List HoldRecord) : (s.openOn b row hs).pending = s.pending := rfl

@[simp] theorem markRecord_now (s : State) (b : Bank) (p : Port) (f : HoldRecord → HoldRecord) : (s.markRecord b p f).now = s.now := rfl
@[simp] theorem markRecord_stamp (s : State) (b : Bank) (p : Port) (f : HoldRecord → HoldRecord) : (s.markRecord b p f).stamp = s.stamp := rfl
@[simp] theorem markRecord_marks (s : State) (b : Bank) (p : Port) (f : HoldRecord → HoldRecord) : (s.markRecord b p f).marks = s.marks := rfl
@[simp] theorem markRecord_modeCtl (s : State) (b : Bank) (p : Port) (f : HoldRecord → HoldRecord) : (s.markRecord b p f).modeCtl = s.modeCtl := rfl
@[simp] theorem markRecord_array (s : State) (b : Bank) (p : Port) (f : HoldRecord → HoldRecord) : (s.markRecord b p f).array = s.array := rfl
@[simp] theorem markRecord_bursts (s : State) (b : Bank) (p : Port) (f : HoldRecord → HoldRecord) : (s.markRecord b p f).bursts = s.bursts := rfl
@[simp] theorem markRecord_quads (s : State) (b : Bank) (p : Port) (f : HoldRecord → HoldRecord) : (s.markRecord b p f).quads = s.quads := rfl
@[simp] theorem markRecord_timer (s : State) (b : Bank) (p : Port) (f : HoldRecord → HoldRecord) : (s.markRecord b p f).timer = s.timer := rfl
@[simp] theorem markRecord_refresh (s : State) (b : Bank) (p : Port) (f : HoldRecord → HoldRecord) : (s.markRecord b p f).refresh = s.refresh := rfl
@[simp] theorem markRecord_integrity (s : State) (b : Bank) (p : Port) (f : HoldRecord → HoldRecord) : (s.markRecord b p f).integrity = s.integrity := rfl
@[simp] theorem markRecord_config (s : State) (b : Bank) (p : Port) (f : HoldRecord → HoldRecord) : (s.markRecord b p f).config = s.config := rfl
@[simp] theorem markRecord_sessions (s : State) (b : Bank) (p : Port) (f : HoldRecord → HoldRecord) : (s.markRecord b p f).sessions = s.sessions := rfl
@[simp] theorem markRecord_links (s : State) (b : Bank) (p : Port) (f : HoldRecord → HoldRecord) : (s.markRecord b p f).links = s.links := rfl
@[simp] theorem markRecord_pending (s : State) (b : Bank) (p : Port) (f : HoldRecord → HoldRecord) : (s.markRecord b p f).pending = s.pending := rfl

@[simp] theorem writeUnit_now (s : State) (u : Nat) (d : UnitData) : (s.writeUnit u d).now = s.now := rfl
@[simp] theorem writeUnit_stamp (s : State) (u : Nat) (d : UnitData) : (s.writeUnit u d).stamp = s.stamp := rfl
@[simp] theorem writeUnit_marks (s : State) (u : Nat) (d : UnitData) : (s.writeUnit u d).marks = s.marks := rfl
@[simp] theorem writeUnit_modeCtl (s : State) (u : Nat) (d : UnitData) : (s.writeUnit u d).modeCtl = s.modeCtl := rfl
@[simp] theorem writeUnit_banks (s : State) (u : Nat) (d : UnitData) : (s.writeUnit u d).banks = s.banks := rfl
@[simp] theorem writeUnit_bursts (s : State) (u : Nat) (d : UnitData) : (s.writeUnit u d).bursts = s.bursts := rfl
@[simp] theorem writeUnit_quads (s : State) (u : Nat) (d : UnitData) : (s.writeUnit u d).quads = s.quads := rfl
@[simp] theorem writeUnit_timer (s : State) (u : Nat) (d : UnitData) : (s.writeUnit u d).timer = s.timer := rfl
@[simp] theorem writeUnit_refresh (s : State) (u : Nat) (d : UnitData) : (s.writeUnit u d).refresh = s.refresh := rfl
@[simp] theorem writeUnit_integrity (s : State) (u : Nat) (d : UnitData) : (s.writeUnit u d).integrity = s.integrity := rfl
@[simp] theorem writeUnit_config (s : State) (u : Nat) (d : UnitData) : (s.writeUnit u d).config = s.config := rfl
@[simp] theorem writeUnit_sessions (s : State) (u : Nat) (d : UnitData) : (s.writeUnit u d).sessions = s.sessions := rfl
@[simp] theorem writeUnit_links (s : State) (u : Nat) (d : UnitData) : (s.writeUnit u d).links = s.links := rfl
@[simp] theorem writeUnit_pending (s : State) (u : Nat) (d : UnitData) : (s.writeUnit u d).pending = s.pending := rfl

@[simp] theorem rewriteUnit_now (s : State) (u : Nat) (d : UnitData) : (s.rewriteUnit u d).now = s.now := rfl
@[simp] theorem rewriteUnit_stamp (s : State) (u : Nat) (d : UnitData) : (s.rewriteUnit u d).stamp = s.stamp := rfl
@[simp] theorem rewriteUnit_modeCtl (s : State) (u : Nat) (d : UnitData) : (s.rewriteUnit u d).modeCtl = s.modeCtl := rfl
@[simp] theorem rewriteUnit_banks (s : State) (u : Nat) (d : UnitData) : (s.rewriteUnit u d).banks = s.banks := rfl
@[simp] theorem rewriteUnit_bursts (s : State) (u : Nat) (d : UnitData) : (s.rewriteUnit u d).bursts = s.bursts := rfl
@[simp] theorem rewriteUnit_quads (s : State) (u : Nat) (d : UnitData) : (s.rewriteUnit u d).quads = s.quads := rfl
@[simp] theorem rewriteUnit_timer (s : State) (u : Nat) (d : UnitData) : (s.rewriteUnit u d).timer = s.timer := rfl
@[simp] theorem rewriteUnit_refresh (s : State) (u : Nat) (d : UnitData) : (s.rewriteUnit u d).refresh = s.refresh := rfl
@[simp] theorem rewriteUnit_integrity (s : State) (u : Nat) (d : UnitData) : (s.rewriteUnit u d).integrity = s.integrity := rfl
@[simp] theorem rewriteUnit_config (s : State) (u : Nat) (d : UnitData) : (s.rewriteUnit u d).config = s.config := rfl
@[simp] theorem rewriteUnit_sessions (s : State) (u : Nat) (d : UnitData) : (s.rewriteUnit u d).sessions = s.sessions := rfl
@[simp] theorem rewriteUnit_links (s : State) (u : Nat) (d : UnitData) : (s.rewriteUnit u d).links = s.links := rfl
@[simp] theorem rewriteUnit_pending (s : State) (u : Nat) (d : UnitData) : (s.rewriteUnit u d).pending = s.pending := rfl
@[simp] theorem rewriteUnit_array (s : State) (u : Nat) (d : UnitData) : (s.rewriteUnit u d).array = s.array.writeUnit u d := rfl
@[simp] theorem rewriteUnit_marks (s : State) (u : Nat) (d : UnitData) :
    (s.rewriteUnit u d).marks = { s.marks with rewritten := some (u, s.now) } := rfl

@[simp] theorem countCorrected_now (s : State) (b : Bank) : (s.countCorrected b).now = s.now := rfl
@[simp] theorem countCorrected_stamp (s : State) (b : Bank) : (s.countCorrected b).stamp = s.stamp := rfl
@[simp] theorem countCorrected_marks (s : State) (b : Bank) : (s.countCorrected b).marks = s.marks := rfl
@[simp] theorem countCorrected_modeCtl (s : State) (b : Bank) : (s.countCorrected b).modeCtl = s.modeCtl := rfl
@[simp] theorem countCorrected_array (s : State) (b : Bank) : (s.countCorrected b).array = s.array := rfl
@[simp] theorem countCorrected_banks (s : State) (b : Bank) : (s.countCorrected b).banks = s.banks := rfl
@[simp] theorem countCorrected_bursts (s : State) (b : Bank) : (s.countCorrected b).bursts = s.bursts := rfl
@[simp] theorem countCorrected_quads (s : State) (b : Bank) : (s.countCorrected b).quads = s.quads := rfl
@[simp] theorem countCorrected_timer (s : State) (b : Bank) : (s.countCorrected b).timer = s.timer := rfl
@[simp] theorem countCorrected_refresh (s : State) (b : Bank) : (s.countCorrected b).refresh = s.refresh := rfl
@[simp] theorem countCorrected_config (s : State) (b : Bank) : (s.countCorrected b).config = s.config := rfl
@[simp] theorem countCorrected_sessions (s : State) (b : Bank) : (s.countCorrected b).sessions = s.sessions := rfl
@[simp] theorem countCorrected_links (s : State) (b : Bank) : (s.countCorrected b).links = s.links := rfl
@[simp] theorem countCorrected_pending (s : State) (b : Bank) : (s.countCorrected b).pending = s.pending := rfl

@[simp] theorem unlist_now (s : State) (b : Bank) (r : Row) (c : Nat) : (s.unlist b r c).now = s.now := rfl
@[simp] theorem unlist_stamp (s : State) (b : Bank) (r : Row) (c : Nat) : (s.unlist b r c).stamp = s.stamp := rfl
@[simp] theorem unlist_marks (s : State) (b : Bank) (r : Row) (c : Nat) : (s.unlist b r c).marks = s.marks := rfl
@[simp] theorem unlist_modeCtl (s : State) (b : Bank) (r : Row) (c : Nat) : (s.unlist b r c).modeCtl = s.modeCtl := rfl
@[simp] theorem unlist_array (s : State) (b : Bank) (r : Row) (c : Nat) : (s.unlist b r c).array = s.array := rfl
@[simp] theorem unlist_banks (s : State) (b : Bank) (r : Row) (c : Nat) : (s.unlist b r c).banks = s.banks := rfl
@[simp] theorem unlist_bursts (s : State) (b : Bank) (r : Row) (c : Nat) : (s.unlist b r c).bursts = s.bursts := rfl
@[simp] theorem unlist_quads (s : State) (b : Bank) (r : Row) (c : Nat) : (s.unlist b r c).quads = s.quads := rfl
@[simp] theorem unlist_timer (s : State) (b : Bank) (r : Row) (c : Nat) : (s.unlist b r c).timer = s.timer := rfl
@[simp] theorem unlist_refresh (s : State) (b : Bank) (r : Row) (c : Nat) : (s.unlist b r c).refresh = s.refresh := rfl
@[simp] theorem unlist_config (s : State) (b : Bank) (r : Row) (c : Nat) : (s.unlist b r c).config = s.config := rfl
@[simp] theorem unlist_sessions (s : State) (b : Bank) (r : Row) (c : Nat) : (s.unlist b r c).sessions = s.sessions := rfl
@[simp] theorem unlist_links (s : State) (b : Bank) (r : Row) (c : Nat) : (s.unlist b r c).links = s.links := rfl
@[simp] theorem unlist_pending (s : State) (b : Bank) (r : Row) (c : Nat) : (s.unlist b r c).pending = s.pending := rfl

@[simp] theorem removeFault_now (s : State) (i : Nat) : (s.removeFault i).now = s.now := rfl
@[simp] theorem removeFault_stamp (s : State) (i : Nat) : (s.removeFault i).stamp = s.stamp := rfl
@[simp] theorem removeFault_marks (s : State) (i : Nat) : (s.removeFault i).marks = s.marks := rfl
@[simp] theorem removeFault_modeCtl (s : State) (i : Nat) : (s.removeFault i).modeCtl = s.modeCtl := rfl
@[simp] theorem removeFault_array (s : State) (i : Nat) : (s.removeFault i).array = s.array := rfl
@[simp] theorem removeFault_banks (s : State) (i : Nat) : (s.removeFault i).banks = s.banks := rfl
@[simp] theorem removeFault_bursts (s : State) (i : Nat) : (s.removeFault i).bursts = s.bursts := rfl
@[simp] theorem removeFault_quads (s : State) (i : Nat) : (s.removeFault i).quads = s.quads := rfl
@[simp] theorem removeFault_timer (s : State) (i : Nat) : (s.removeFault i).timer = s.timer := rfl
@[simp] theorem removeFault_refresh (s : State) (i : Nat) : (s.removeFault i).refresh = s.refresh := rfl
@[simp] theorem removeFault_config (s : State) (i : Nat) : (s.removeFault i).config = s.config := rfl
@[simp] theorem removeFault_sessions (s : State) (i : Nat) : (s.removeFault i).sessions = s.sessions := rfl
@[simp] theorem removeFault_links (s : State) (i : Nat) : (s.removeFault i).links = s.links := rfl
@[simp] theorem removeFault_pending (s : State) (i : Nat) : (s.removeFault i).pending = s.pending := rfl

@[simp] theorem clearFaults_now (s : State) : s.clearFaults.now = s.now := rfl
@[simp] theorem clearFaults_stamp (s : State) : s.clearFaults.stamp = s.stamp := rfl
@[simp] theorem clearFaults_marks (s : State) : s.clearFaults.marks = s.marks := rfl
@[simp] theorem clearFaults_modeCtl (s : State) : s.clearFaults.modeCtl = s.modeCtl := rfl
@[simp] theorem clearFaults_array (s : State) : s.clearFaults.array = s.array := rfl
@[simp] theorem clearFaults_banks (s : State) : s.clearFaults.banks = s.banks := rfl
@[simp] theorem clearFaults_bursts (s : State) : s.clearFaults.bursts = s.bursts := rfl
@[simp] theorem clearFaults_quads (s : State) : s.clearFaults.quads = s.quads := rfl
@[simp] theorem clearFaults_timer (s : State) : s.clearFaults.timer = s.timer := rfl
@[simp] theorem clearFaults_refresh (s : State) : s.clearFaults.refresh = s.refresh := rfl
@[simp] theorem clearFaults_config (s : State) : s.clearFaults.config = s.config := rfl
@[simp] theorem clearFaults_sessions (s : State) : s.clearFaults.sessions = s.sessions := rfl
@[simp] theorem clearFaults_links (s : State) : s.clearFaults.links = s.links := rfl
@[simp] theorem clearFaults_pending (s : State) : s.clearFaults.pending = s.pending := rfl

@[simp] theorem clearCount_now (s : State) (b : Bank) : (s.clearCount b).now = s.now := rfl
@[simp] theorem clearCount_stamp (s : State) (b : Bank) : (s.clearCount b).stamp = s.stamp := rfl
@[simp] theorem clearCount_marks (s : State) (b : Bank) : (s.clearCount b).marks = s.marks := rfl
@[simp] theorem clearCount_modeCtl (s : State) (b : Bank) : (s.clearCount b).modeCtl = s.modeCtl := rfl
@[simp] theorem clearCount_array (s : State) (b : Bank) : (s.clearCount b).array = s.array := rfl
@[simp] theorem clearCount_banks (s : State) (b : Bank) : (s.clearCount b).banks = s.banks := rfl
@[simp] theorem clearCount_bursts (s : State) (b : Bank) : (s.clearCount b).bursts = s.bursts := rfl
@[simp] theorem clearCount_quads (s : State) (b : Bank) : (s.clearCount b).quads = s.quads := rfl
@[simp] theorem clearCount_timer (s : State) (b : Bank) : (s.clearCount b).timer = s.timer := rfl
@[simp] theorem clearCount_refresh (s : State) (b : Bank) : (s.clearCount b).refresh = s.refresh := rfl
@[simp] theorem clearCount_config (s : State) (b : Bank) : (s.clearCount b).config = s.config := rfl
@[simp] theorem clearCount_sessions (s : State) (b : Bank) : (s.clearCount b).sessions = s.sessions := rfl
@[simp] theorem clearCount_links (s : State) (b : Bank) : (s.clearCount b).links = s.links := rfl
@[simp] theorem clearCount_pending (s : State) (b : Bank) : (s.clearCount b).pending = s.pending := rfl

@[simp] theorem clearAllCounts_now (s : State) : s.clearAllCounts.now = s.now := rfl
@[simp] theorem clearAllCounts_stamp (s : State) : s.clearAllCounts.stamp = s.stamp := rfl
@[simp] theorem clearAllCounts_marks (s : State) : s.clearAllCounts.marks = s.marks := rfl
@[simp] theorem clearAllCounts_modeCtl (s : State) : s.clearAllCounts.modeCtl = s.modeCtl := rfl
@[simp] theorem clearAllCounts_array (s : State) : s.clearAllCounts.array = s.array := rfl
@[simp] theorem clearAllCounts_banks (s : State) : s.clearAllCounts.banks = s.banks := rfl
@[simp] theorem clearAllCounts_bursts (s : State) : s.clearAllCounts.bursts = s.bursts := rfl
@[simp] theorem clearAllCounts_quads (s : State) : s.clearAllCounts.quads = s.quads := rfl
@[simp] theorem clearAllCounts_timer (s : State) : s.clearAllCounts.timer = s.timer := rfl
@[simp] theorem clearAllCounts_refresh (s : State) : s.clearAllCounts.refresh = s.refresh := rfl
@[simp] theorem clearAllCounts_config (s : State) : s.clearAllCounts.config = s.config := rfl
@[simp] theorem clearAllCounts_sessions (s : State) : s.clearAllCounts.sessions = s.sessions := rfl
@[simp] theorem clearAllCounts_links (s : State) : s.clearAllCounts.links = s.links := rfl
@[simp] theorem clearAllCounts_pending (s : State) : s.clearAllCounts.pending = s.pending := rfl

@[simp] theorem clearLapse_now (s : State) (q : Quad) : (s.clearLapse q).now = s.now := rfl
@[simp] theorem clearLapse_stamp (s : State) (q : Quad) : (s.clearLapse q).stamp = s.stamp := rfl
@[simp] theorem clearLapse_marks (s : State) (q : Quad) : (s.clearLapse q).marks = s.marks := rfl
@[simp] theorem clearLapse_modeCtl (s : State) (q : Quad) : (s.clearLapse q).modeCtl = s.modeCtl := rfl
@[simp] theorem clearLapse_array (s : State) (q : Quad) : (s.clearLapse q).array = s.array := rfl
@[simp] theorem clearLapse_banks (s : State) (q : Quad) : (s.clearLapse q).banks = s.banks := rfl
@[simp] theorem clearLapse_bursts (s : State) (q : Quad) : (s.clearLapse q).bursts = s.bursts := rfl
@[simp] theorem clearLapse_timer (s : State) (q : Quad) : (s.clearLapse q).timer = s.timer := rfl
@[simp] theorem clearLapse_refresh (s : State) (q : Quad) : (s.clearLapse q).refresh = s.refresh := rfl
@[simp] theorem clearLapse_integrity (s : State) (q : Quad) : (s.clearLapse q).integrity = s.integrity := rfl
@[simp] theorem clearLapse_config (s : State) (q : Quad) : (s.clearLapse q).config = s.config := rfl
@[simp] theorem clearLapse_sessions (s : State) (q : Quad) : (s.clearLapse q).sessions = s.sessions := rfl
@[simp] theorem clearLapse_links (s : State) (q : Quad) : (s.clearLapse q).links = s.links := rfl
@[simp] theorem clearLapse_pending (s : State) (q : Quad) : (s.clearLapse q).pending = s.pending := rfl

@[simp] theorem setItem_now (s : State) (i : Item) (v : Nat) : (s.setItem i v).now = s.now := rfl
@[simp] theorem setItem_stamp (s : State) (i : Item) (v : Nat) : (s.setItem i v).stamp = s.stamp := rfl
@[simp] theorem setItem_marks (s : State) (i : Item) (v : Nat) : (s.setItem i v).marks = s.marks := rfl
@[simp] theorem setItem_modeCtl (s : State) (i : Item) (v : Nat) : (s.setItem i v).modeCtl = s.modeCtl := rfl
@[simp] theorem setItem_array (s : State) (i : Item) (v : Nat) : (s.setItem i v).array = s.array := rfl
@[simp] theorem setItem_banks (s : State) (i : Item) (v : Nat) : (s.setItem i v).banks = s.banks := rfl
@[simp] theorem setItem_bursts (s : State) (i : Item) (v : Nat) : (s.setItem i v).bursts = s.bursts := rfl
@[simp] theorem setItem_quads (s : State) (i : Item) (v : Nat) : (s.setItem i v).quads = s.quads := rfl
@[simp] theorem setItem_timer (s : State) (i : Item) (v : Nat) : (s.setItem i v).timer = s.timer := rfl
@[simp] theorem setItem_refresh (s : State) (i : Item) (v : Nat) : (s.setItem i v).refresh = s.refresh := rfl
@[simp] theorem setItem_integrity (s : State) (i : Item) (v : Nat) : (s.setItem i v).integrity = s.integrity := rfl
@[simp] theorem setItem_sessions (s : State) (i : Item) (v : Nat) : (s.setItem i v).sessions = s.sessions := rfl
@[simp] theorem setItem_links (s : State) (i : Item) (v : Nat) : (s.setItem i v).links = s.links := rfl
@[simp] theorem setItem_pending (s : State) (i : Item) (v : Nat) : (s.setItem i v).pending = s.pending := rfl

@[simp] theorem nextPeriod_now (s : State) : s.nextPeriod.now = s.now := rfl
@[simp] theorem nextPeriod_stamp (s : State) : s.nextPeriod.stamp = s.stamp := rfl
@[simp] theorem nextPeriod_marks (s : State) : s.nextPeriod.marks = s.marks := rfl
@[simp] theorem nextPeriod_modeCtl (s : State) : s.nextPeriod.modeCtl = s.modeCtl := rfl
@[simp] theorem nextPeriod_array (s : State) : s.nextPeriod.array = s.array := rfl
@[simp] theorem nextPeriod_banks (s : State) : s.nextPeriod.banks = s.banks := rfl
@[simp] theorem nextPeriod_bursts (s : State) : s.nextPeriod.bursts = s.bursts := rfl
@[simp] theorem nextPeriod_quads (s : State) : s.nextPeriod.quads = s.quads := rfl
@[simp] theorem nextPeriod_refresh (s : State) : s.nextPeriod.refresh = s.refresh := rfl
@[simp] theorem nextPeriod_integrity (s : State) : s.nextPeriod.integrity = s.integrity := rfl
@[simp] theorem nextPeriod_config (s : State) : s.nextPeriod.config = s.config := rfl
@[simp] theorem nextPeriod_sessions (s : State) : s.nextPeriod.sessions = s.sessions := rfl
@[simp] theorem nextPeriod_links (s : State) : s.nextPeriod.links = s.links := rfl
@[simp] theorem nextPeriod_pending (s : State) : s.nextPeriod.pending = s.pending := rfl

@[simp] theorem startRefresh_now (s : State) (q : Quad) : (s.startRefresh q).now = s.now := rfl
@[simp] theorem startRefresh_stamp (s : State) (q : Quad) : (s.startRefresh q).stamp = s.stamp := rfl
@[simp] theorem startRefresh_marks (s : State) (q : Quad) :
    (s.startRefresh q).marks = { s.marks with startedAfter := s.marks.requests } := rfl
@[simp] theorem startRefresh_modeCtl (s : State) (q : Quad) : (s.startRefresh q).modeCtl = s.modeCtl := rfl
@[simp] theorem startRefresh_array (s : State) (q : Quad) : (s.startRefresh q).array = s.array := rfl
@[simp] theorem startRefresh_bursts (s : State) (q : Quad) : (s.startRefresh q).bursts = s.bursts := rfl
@[simp] theorem startRefresh_quads (s : State) (q : Quad) : (s.startRefresh q).quads = s.quads := rfl
@[simp] theorem startRefresh_timer (s : State) (q : Quad) : (s.startRefresh q).timer = s.timer := rfl
@[simp] theorem startRefresh_integrity (s : State) (q : Quad) : (s.startRefresh q).integrity = s.integrity := rfl
@[simp] theorem startRefresh_config (s : State) (q : Quad) : (s.startRefresh q).config = s.config := rfl
@[simp] theorem startRefresh_sessions (s : State) (q : Quad) : (s.startRefresh q).sessions = s.sessions := rfl
@[simp] theorem startRefresh_links (s : State) (q : Quad) : (s.startRefresh q).links = s.links := rfl
@[simp] theorem startRefresh_pending (s : State) (q : Quad) : (s.startRefresh q).pending = s.pending := rfl

@[simp] theorem withoutStart_now (s : State) (q : Quad) : (s.withoutStart q).now = s.now := rfl
@[simp] theorem withoutStart_stamp (s : State) (q : Quad) : (s.withoutStart q).stamp = s.stamp := rfl
@[simp] theorem withoutStart_marks (s : State) (q : Quad) : (s.withoutStart q).marks = s.marks := rfl
@[simp] theorem withoutStart_modeCtl (s : State) (q : Quad) : (s.withoutStart q).modeCtl = s.modeCtl := rfl
@[simp] theorem withoutStart_array (s : State) (q : Quad) : (s.withoutStart q).array = s.array := rfl
@[simp] theorem withoutStart_bursts (s : State) (q : Quad) : (s.withoutStart q).bursts = s.bursts := rfl
@[simp] theorem withoutStart_quads (s : State) (q : Quad) : (s.withoutStart q).quads = s.quads := rfl
@[simp] theorem withoutStart_timer (s : State) (q : Quad) : (s.withoutStart q).timer = s.timer := rfl
@[simp] theorem withoutStart_integrity (s : State) (q : Quad) : (s.withoutStart q).integrity = s.integrity := rfl
@[simp] theorem withoutStart_config (s : State) (q : Quad) : (s.withoutStart q).config = s.config := rfl
@[simp] theorem withoutStart_sessions (s : State) (q : Quad) : (s.withoutStart q).sessions = s.sessions := rfl
@[simp] theorem withoutStart_links (s : State) (q : Quad) : (s.withoutStart q).links = s.links := rfl
@[simp] theorem withoutStart_pending (s : State) (q : Quad) : (s.withoutStart q).pending = s.pending := rfl
@[simp] theorem withoutStart_refresh (s : State) (q : Quad) : (s.withoutStart q).refresh = none := rfl

@[simp] theorem countRequest_now (s : State) : s.countRequest.now = s.now := rfl
@[simp] theorem countRequest_stamp (s : State) : s.countRequest.stamp = s.stamp := rfl
@[simp] theorem countRequest_modeCtl (s : State) : s.countRequest.modeCtl = s.modeCtl := rfl
@[simp] theorem countRequest_array (s : State) : s.countRequest.array = s.array := rfl
@[simp] theorem countRequest_banks (s : State) : s.countRequest.banks = s.banks := rfl
@[simp] theorem countRequest_bursts (s : State) : s.countRequest.bursts = s.bursts := rfl
@[simp] theorem countRequest_quads (s : State) : s.countRequest.quads = s.quads := rfl
@[simp] theorem countRequest_timer (s : State) : s.countRequest.timer = s.timer := rfl
@[simp] theorem countRequest_refresh (s : State) : s.countRequest.refresh = s.refresh := rfl
@[simp] theorem countRequest_integrity (s : State) : s.countRequest.integrity = s.integrity := rfl
@[simp] theorem countRequest_config (s : State) : s.countRequest.config = s.config := rfl
@[simp] theorem countRequest_sessions (s : State) : s.countRequest.sessions = s.sessions := rfl
@[simp] theorem countRequest_links (s : State) : s.countRequest.links = s.links := rfl
@[simp] theorem countRequest_pending (s : State) : s.countRequest.pending = s.pending := rfl
@[simp] theorem countRequest_marks (s : State) :
    s.countRequest.marks = { s.marks with requests := s.marks.requests + 1 } := rfl

@[simp] theorem advanceSeq_now (s : State) (p : Port) : (s.advanceSeq p).now = s.now := rfl
@[simp] theorem advanceSeq_stamp (s : State) (p : Port) : (s.advanceSeq p).stamp = s.stamp := rfl
@[simp] theorem advanceSeq_marks (s : State) (p : Port) : (s.advanceSeq p).marks = s.marks := rfl
@[simp] theorem advanceSeq_modeCtl (s : State) (p : Port) : (s.advanceSeq p).modeCtl = s.modeCtl := rfl
@[simp] theorem advanceSeq_array (s : State) (p : Port) : (s.advanceSeq p).array = s.array := rfl
@[simp] theorem advanceSeq_banks (s : State) (p : Port) : (s.advanceSeq p).banks = s.banks := rfl
@[simp] theorem advanceSeq_bursts (s : State) (p : Port) : (s.advanceSeq p).bursts = s.bursts := rfl
@[simp] theorem advanceSeq_quads (s : State) (p : Port) : (s.advanceSeq p).quads = s.quads := rfl
@[simp] theorem advanceSeq_timer (s : State) (p : Port) : (s.advanceSeq p).timer = s.timer := rfl
@[simp] theorem advanceSeq_refresh (s : State) (p : Port) : (s.advanceSeq p).refresh = s.refresh := rfl
@[simp] theorem advanceSeq_integrity (s : State) (p : Port) : (s.advanceSeq p).integrity = s.integrity := rfl
@[simp] theorem advanceSeq_config (s : State) (p : Port) : (s.advanceSeq p).config = s.config := rfl
@[simp] theorem advanceSeq_sessions (s : State) (p : Port) : (s.advanceSeq p).sessions = s.sessions := rfl
@[simp] theorem advanceSeq_pending (s : State) (p : Port) : (s.advanceSeq p).pending = s.pending := rfl

/-! ## Accessors after the update of their own table -/

@[simp] theorem bank_setBank_same (s : State) (b : Bank) (r : BankRecord) : (s.setBank b r).bank b = r := by
  simp [State.bank, State.setBank]

@[simp] theorem bank_setBank_ne (s : State) {b c : Bank} (r : BankRecord) (h : c ≠ b) :
    (s.setBank b r).bank c = s.bank c := by
  simp [State.bank, State.setBank, h]

theorem bank_setBank (s : State) (b c : Bank) (r : BankRecord) :
    (s.setBank b r).bank c = if c = b then r else s.bank c := by
  simp [State.bank, State.setBank, sixteen_get_set]

@[simp] theorem setBank_setBank (s : State) (b : Bank) (r r' : BankRecord) :
    (s.setBank b r).setBank b r' = s.setBank b r' := by
  simp [State.setBank]

@[simp] theorem setBank_bank (s : State) (b : Bank) : s.setBank b (s.bank b) = s := by
  simp [State.setBank, State.bank]

@[simp] theorem link_setLink_same (s : State) (p : Port) (l : Link) : (s.setLink p l).link p = l := by
  simp [State.link, State.setLink]

@[simp] theorem link_setLink_ne (s : State) {p q : Port} (l : Link) (h : q ≠ p) :
    (s.setLink p l).link q = s.link q := by
  simp [State.link, State.setLink, h]

theorem link_setLink (s : State) (p q : Port) (l : Link) :
    (s.setLink p l).link q = if q = p then l else s.link q := by
  simp [State.link, State.setLink, four_get_set]

@[simp] theorem setLink_setLink (s : State) (p : Port) (l l' : Link) :
    (s.setLink p l).setLink p l' = s.setLink p l' := by
  simp [State.setLink]

@[simp] theorem setLink_link (s : State) (p : Port) : s.setLink p (s.link p) = s := by
  simp [State.setLink, State.link]

@[simp] theorem session_setSession_same (s : State) (p : Port) (x : Session) : (s.setSession p x).session p = x := by
  simp [State.session, State.setSession]

@[simp] theorem session_setSession_ne (s : State) {p q : Port} (x : Session) (h : q ≠ p) :
    (s.setSession p x).session q = s.session q := by
  simp [State.session, State.setSession, h]

theorem session_setSession (s : State) (p q : Port) (x : Session) :
    (s.setSession p x).session q = if q = p then x else s.session q := by
  simp [State.session, State.setSession, four_get_set]

@[simp] theorem setSession_setSession (s : State) (p : Port) (x y : Session) :
    (s.setSession p x).setSession p y = s.setSession p y := by
  simp [State.setSession]

@[simp] theorem setSession_session (s : State) (p : Port) : s.setSession p (s.session p) = s := by
  simp [State.setSession, State.session]

@[simp] theorem quad_setQuad_same (s : State) (q : Quad) (x : QuadAccount) : (s.setQuad q x).quad q = x := by
  simp [State.quad, State.setQuad]

@[simp] theorem quad_setQuad_ne (s : State) {q r : Quad} (x : QuadAccount) (h : r ≠ q) :
    (s.setQuad q x).quad r = s.quad r := by
  simp [State.quad, State.setQuad, h]

theorem quad_setQuad (s : State) (q r : Quad) (x : QuadAccount) :
    (s.setQuad q x).quad r = if r = q then x else s.quad r := by
  simp [State.quad, State.setQuad, four_get_set]

@[simp] theorem setQuad_setQuad (s : State) (q : Quad) (x y : QuadAccount) :
    (s.setQuad q x).setQuad q y = s.setQuad q y := by
  simp [State.setQuad]

@[simp] theorem burstQueue_setBurstQueue_same (s : State) (p : Port) (l : List QueuedBurst) :
    (s.setBurstQueue p l).burstQueue p = l := by
  simp [State.burstQueue, State.setBurstQueue]

@[simp] theorem burstQueue_setBurstQueue_ne (s : State) {p q : Port} (l : List QueuedBurst) (h : q ≠ p) :
    (s.setBurstQueue p l).burstQueue q = s.burstQueue q := by
  simp [State.burstQueue, State.setBurstQueue, h]

@[simp] theorem bank_setQuadPhase (s : State) (q : Quad) (ph : BankPhase) (b : Bank) :
    (s.setQuadPhase q ph).bank b = if groupOf b = q then { s.bank b with phase := ph } else s.bank b := by
  by_cases h : groupOf b = q
  · subst h; simp [State.bank, State.setQuadPhase, sixteenGet]
  · simp [State.bank, State.setQuadPhase, sixteenGet, h]

/-! ## Accessors that an update of another table leaves alone -/

@[simp] theorem setBank_link (s : State) (b : Bank) (r : BankRecord) (q : Port) : (s.setBank b r).link q = s.link q := rfl
@[simp] theorem setBank_session (s : State) (b : Bank) (r : BankRecord) (q : Port) : (s.setBank b r).session q = s.session q := rfl
@[simp] theorem setBank_quad (s : State) (b : Bank) (r : BankRecord) (q : Quad) : (s.setBank b r).quad q = s.quad q := rfl
@[simp] theorem setBank_burstQueue (s : State) (b : Bank) (r : BankRecord) (q : Port) : (s.setBank b r).burstQueue q = s.burstQueue q := rfl

@[simp] theorem setLink_bank (s : State) (p : Port) (l : Link) (c : Bank) : (s.setLink p l).bank c = s.bank c := rfl
@[simp] theorem setLink_session (s : State) (p : Port) (l : Link) (q : Port) : (s.setLink p l).session q = s.session q := rfl
@[simp] theorem setLink_quad (s : State) (p : Port) (l : Link) (q : Quad) : (s.setLink p l).quad q = s.quad q := rfl
@[simp] theorem setLink_burstQueue (s : State) (p : Port) (l : Link) (q : Port) : (s.setLink p l).burstQueue q = s.burstQueue q := rfl

@[simp] theorem setSession_bank (s : State) (p : Port) (x : Session) (c : Bank) : (s.setSession p x).bank c = s.bank c := rfl
@[simp] theorem setSession_link (s : State) (p : Port) (x : Session) (q : Port) : (s.setSession p x).link q = s.link q := rfl
@[simp] theorem setSession_quad (s : State) (p : Port) (x : Session) (q : Quad) : (s.setSession p x).quad q = s.quad q := rfl
@[simp] theorem setSession_burstQueue (s : State) (p : Port) (x : Session) (q : Port) : (s.setSession p x).burstQueue q = s.burstQueue q := rfl

@[simp] theorem setTag_bank (s : State) (p : Port) (t : Tag) (x : TagState) (c : Bank) : (s.setTag p t x).bank c = s.bank c := rfl
@[simp] theorem setTag_link (s : State) (p : Port) (t : Tag) (x : TagState) (q : Port) : (s.setTag p t x).link q = s.link q := rfl
@[simp] theorem setTag_quad (s : State) (p : Port) (t : Tag) (x : TagState) (q : Quad) : (s.setTag p t x).quad q = s.quad q := rfl
@[simp] theorem setTag_burstQueue (s : State) (p : Port) (t : Tag) (x : TagState) (q : Port) : (s.setTag p t x).burstQueue q = s.burstQueue q := rfl

@[simp] theorem setQuad_bank (s : State) (r : Quad) (x : QuadAccount) (c : Bank) : (s.setQuad r x).bank c = s.bank c := rfl
@[simp] theorem setQuad_link (s : State) (r : Quad) (x : QuadAccount) (q : Port) : (s.setQuad r x).link q = s.link q := rfl
@[simp] theorem setQuad_session (s : State) (r : Quad) (x : QuadAccount) (q : Port) : (s.setQuad r x).session q = s.session q := rfl
@[simp] theorem setQuad_burstQueue (s : State) (r : Quad) (x : QuadAccount) (q : Port) : (s.setQuad r x).burstQueue q = s.burstQueue q := rfl

@[simp] theorem setBurstQueue_bank (s : State) (p : Port) (l : List QueuedBurst) (c : Bank) : (s.setBurstQueue p l).bank c = s.bank c := rfl
@[simp] theorem setBurstQueue_link (s : State) (p : Port) (l : List QueuedBurst) (q : Port) : (s.setBurstQueue p l).link q = s.link q := rfl
@[simp] theorem setBurstQueue_session (s : State) (p : Port) (l : List QueuedBurst) (q : Port) : (s.setBurstQueue p l).session q = s.session q := rfl
@[simp] theorem setBurstQueue_quad (s : State) (p : Port) (l : List QueuedBurst) (q : Quad) : (s.setBurstQueue p l).quad q = s.quad q := rfl

@[simp] theorem setExecuting_bank (s : State) (e : Option Execution) (c : Bank) : (s.setExecuting e).bank c = s.bank c := rfl
@[simp] theorem setExecuting_link (s : State) (e : Option Execution) (q : Port) : (s.setExecuting e).link q = s.link q := rfl
@[simp] theorem setExecuting_session (s : State) (e : Option Execution) (q : Port) : (s.setExecuting e).session q = s.session q := rfl
@[simp] theorem setExecuting_quad (s : State) (e : Option Execution) (q : Quad) : (s.setExecuting e).quad q = s.quad q := rfl
@[simp] theorem setExecuting_burstQueue (s : State) (e : Option Execution) (q : Port) : (s.setExecuting e).burstQueue q = s.burstQueue q := rfl

@[simp] theorem setMode_bank (s : State) (m : DeviceMode) (c : Bank) : (s.setMode m).bank c = s.bank c := rfl
@[simp] theorem setMode_link (s : State) (m : DeviceMode) (q : Port) : (s.setMode m).link q = s.link q := rfl
@[simp] theorem setMode_session (s : State) (m : DeviceMode) (q : Port) : (s.setMode m).session q = s.session q := rfl
@[simp] theorem setMode_quad (s : State) (m : DeviceMode) (q : Quad) : (s.setMode m).quad q = s.quad q := rfl
@[simp] theorem setMode_burstQueue (s : State) (m : DeviceMode) (q : Port) : (s.setMode m).burstQueue q = s.burstQueue q := rfl

@[simp] theorem reach_bank (s : State) (t : Nat) (c : Bank) : (s.reach t).bank c = s.bank c := rfl
@[simp] theorem reach_link (s : State) (t : Nat) (q : Port) : (s.reach t).link q = s.link q := rfl
@[simp] theorem reach_session (s : State) (t : Nat) (q : Port) : (s.reach t).session q = s.session q := rfl
@[simp] theorem reach_quad (s : State) (t : Nat) (q : Quad) : (s.reach t).quad q = s.quad q := rfl
@[simp] theorem reach_burstQueue (s : State) (t : Nat) (q : Port) : (s.reach t).burstQueue q = s.burstQueue q := rfl

@[simp] theorem setQuadPhase_link (s : State) (r : Quad) (ph : BankPhase) (q : Port) : (s.setQuadPhase r ph).link q = s.link q := rfl
@[simp] theorem setQuadPhase_session (s : State) (r : Quad) (ph : BankPhase) (q : Port) : (s.setQuadPhase r ph).session q = s.session q := rfl
@[simp] theorem setQuadPhase_quad (s : State) (r : Quad) (ph : BankPhase) (q : Quad) : (s.setQuadPhase r ph).quad q = s.quad q := rfl
@[simp] theorem setQuadPhase_burstQueue (s : State) (r : Quad) (ph : BankPhase) (q : Port) : (s.setQuadPhase r ph).burstQueue q = s.burstQueue q := rfl

@[simp] theorem tickStamp_bank (s : State) (n : Nat) (c : Bank) : (s.tickStamp n).bank c = s.bank c := rfl
@[simp] theorem tickStamp_link (s : State) (n : Nat) (q : Port) : (s.tickStamp n).link q = s.link q := rfl
@[simp] theorem tickStamp_session (s : State) (n : Nat) (q : Port) : (s.tickStamp n).session q = s.session q := rfl
@[simp] theorem tickStamp_quad (s : State) (n : Nat) (q : Quad) : (s.tickStamp n).quad q = s.quad q := rfl
@[simp] theorem tickStamp_burstQueue (s : State) (n : Nat) (q : Port) : (s.tickStamp n).burstQueue q = s.burstQueue q := rfl

@[simp] theorem advanceSeq_bank (s : State) (p : Port) (c : Bank) : (s.advanceSeq p).bank c = s.bank c := rfl
@[simp] theorem advanceSeq_session (s : State) (p : Port) (q : Port) : (s.advanceSeq p).session q = s.session q := rfl
@[simp] theorem advanceSeq_quad (s : State) (p : Port) (q : Quad) : (s.advanceSeq p).quad q = s.quad q := rfl
@[simp] theorem advanceSeq_burstQueue (s : State) (p : Port) (q : Port) : (s.advanceSeq p).burstQueue q = s.burstQueue q := rfl

@[simp] theorem writeUnit_bank (s : State) (u : Nat) (d : UnitData) (c : Bank) : (s.writeUnit u d).bank c = s.bank c := rfl
@[simp] theorem writeUnit_link (s : State) (u : Nat) (d : UnitData) (q : Port) : (s.writeUnit u d).link q = s.link q := rfl
@[simp] theorem writeUnit_session (s : State) (u : Nat) (d : UnitData) (q : Port) : (s.writeUnit u d).session q = s.session q := rfl
@[simp] theorem writeUnit_quad (s : State) (u : Nat) (d : UnitData) (q : Quad) : (s.writeUnit u d).quad q = s.quad q := rfl
@[simp] theorem writeUnit_burstQueue (s : State) (u : Nat) (d : UnitData) (q : Port) : (s.writeUnit u d).burstQueue q = s.burstQueue q := rfl

end Sys2Proof.Machine
end

