-- ==== Sys2Proof/Laws/Memory.lean ====
section
/-!
SUPPORT. The canonical memory: what a written byte and every other byte read as, and that every operation keeps the canonical
form; and the same of the array's operations.
-/

namespace Sys2Proof.Machine

open Sys2Proof

/-! ## Rising addresses -/

theorem rising_of_bound {low : Nat} : ∀ {m : Memory}, Memory.rising (some low) m = true → Memory.rising none m = true
  | [], _ => rfl
  | _ :: _, h => by
    simp only [Memory.rising, Bool.and_eq_true, decide_eq_true_eq] at h ⊢
    exact h.2

theorem rising_weaken {low low' : Nat} (hl : low' ≤ low) :
    ∀ {m : Memory}, Memory.rising (some low) m = true → Memory.rising (some low') m = true
  | [], _ => rfl
  | _ :: _, h => by
    simp only [Memory.rising, Bool.and_eq_true, decide_eq_true_eq] at h ⊢
    exact ⟨by omega, h.2⟩

/-- In a rising memory no listed address is at or below the bound. -/
theorem find_none_of_rising {low a : Nat} (ha : a ≤ low) :
    ∀ {m : Memory}, Memory.rising (some low) m = true → Memory.find m a = none
  | [], _ => rfl
  | c :: m, h => by
    simp only [Memory.rising, Bool.and_eq_true, decide_eq_true_eq] at h
    simp only [Memory.find]
    rw [if_neg (by omega)]
    exact find_none_of_rising (by omega) h.2

/-! ## Erase, insert, write: reading -/

theorem find_erase_ne {a b : Nat} (h : b ≠ a) : ∀ m : Memory, Memory.find (Memory.erase m a) b = Memory.find m b
  | [] => rfl
  | c :: m => by
    simp only [Memory.erase, Memory.find]
    by_cases hc : c.1 = a
    · rw [if_pos hc, if_neg (by omega)]
    · rw [if_neg hc]
      simp only [Memory.find]
      by_cases hb : c.1 = b
      · rw [if_pos hb, if_pos hb]
      · rw [if_neg hb, if_neg hb, find_erase_ne h m]

theorem find_erase_same {a : Nat} :
    ∀ {m : Memory}, Memory.rising none m = true → Memory.find (Memory.erase m a) a = none
  | [], _ => rfl
  | c :: m, h => by
    simp only [Memory.rising] at h
    simp only [Memory.erase]
    by_cases hc : c.1 = a
    · rw [if_pos hc]; exact find_none_of_rising (by omega) h
    · rw [if_neg hc]
      simp only [Memory.find]
      rw [if_neg hc, find_erase_same (rising_of_bound h)]

theorem find_insert (a b : Nat) (v : Byte) :
    ∀ m : Memory, Memory.find (Memory.insert m a v) b = if b = a then some v else Memory.find m b
  | [] => by
    simp only [Memory.insert, Memory.find]
    by_cases h : b = a
    · subst h; simp
    · rw [if_neg (Ne.symm h), if_neg h]
  | c :: m => by
    simp only [Memory.insert]
    by_cases hlt : a < c.1
    · rw [if_pos hlt]
      simp only [Memory.find]
      by_cases h : b = a
      · subst h; simp
      · rw [if_neg (Ne.symm h), if_neg h]
    · rw [if_neg hlt]
      by_cases hc : c.1 = a
      · rw [if_pos hc]
        simp only [Memory.find]
        by_cases h : b = a
        · subst h; simp
        · rw [if_neg (Ne.symm h), if_neg h, if_neg (by omega)]
      · rw [if_neg hc]
        simp only [Memory.find]
        by_cases hb : c.1 = b
        · rw [if_pos hb, if_pos hb, if_neg (by omega)]
        · rw [if_neg hb, if_neg hb, find_insert a b v m]

/-- What a byte reads as after a write to a rising memory. -/
theorem read_write {d : Nat → Byte} {m : Memory} (h : Memory.rising none m = true) (a b : Nat) (v : Byte) :
    Memory.read d (Memory.write d m a v) b = if b = a then v else Memory.read d m b := by
  unfold Memory.write Memory.read
  by_cases hv : v = d a
  · rw [if_pos hv]
    by_cases hb : b = a
    · subst hb; rw [find_erase_same h, if_pos rfl]; simp [hv]
    · rw [find_erase_ne hb, if_neg hb]
  · rw [if_neg hv, find_insert]
    by_cases hb : b = a <;> simp [hb]

/-! ## Erase, insert, write: the canonical form -/

theorem rising_erase (a : Nat) :
    ∀ {low : Option Nat} {m : Memory}, Memory.rising low m = true → Memory.rising low (Memory.erase m a) = true
  | _, [], _ => by simpa [Memory.erase] using ‹_›
  | none, c :: m, h => by
    simp only [Memory.rising] at h
    simp only [Memory.erase]
    by_cases hc : c.1 = a
    · rw [if_pos hc]; exact rising_of_bound h
    · rw [if_neg hc]; exact rising_erase a h
  | some low, c :: m, h => by
    simp only [Memory.rising, Bool.and_eq_true, decide_eq_true_eq] at h
    simp only [Memory.erase]
    by_cases hc : c.1 = a
    · rw [if_pos hc]; exact rising_weaken (by omega) h.2
    · rw [if_neg hc]
      simp only [Memory.rising, Bool.and_eq_true, decide_eq_true_eq]
      exact ⟨h.1, rising_erase a h.2⟩

theorem rising_insert (a : Nat) (v : Byte) :
    ∀ {low : Option Nat} {m : Memory}, (∀ l, low = some l → l < a) → Memory.rising low m = true →
      Memory.rising low (Memory.insert m a v) = true
  | none, [], _, _ => rfl
  | some low, [], hl, _ => by simp [Memory.insert, Memory.rising, hl low rfl]
  | none, c :: m, _, h => by
    simp only [Memory.rising] at h
    simp only [Memory.insert]
    split
    · rename_i hlt; simp only [Memory.rising, Bool.and_eq_true, decide_eq_true_eq]; exact ⟨hlt, h⟩
    · split
      · rename_i hc; simp only [Memory.rising]; rw [← hc]; exact h
      · simp only [Memory.rising]; exact rising_insert a v (by intro l hl; cases hl; omega) h
  | some low, c :: m, hl, h => by
    simp only [Memory.rising, Bool.and_eq_true, decide_eq_true_eq] at h
    simp only [Memory.insert]
    have hla := hl low rfl
    split
    · rename_i hlt; simp only [Memory.rising, Bool.and_eq_true, decide_eq_true_eq]; exact ⟨hla, hlt, h.2⟩
    · split
      · rename_i hc
        simp only [Memory.rising, Bool.and_eq_true, decide_eq_true_eq]; rw [← hc]; exact h
      · simp only [Memory.rising, Bool.and_eq_true, decide_eq_true_eq]
        exact ⟨h.1, rising_insert a v (by intro l hl; cases hl; omega) h.2⟩

theorem all_erase {f : Host.Cell → Bool} (a : Nat) : ∀ {m : Memory}, m.all f = true → (Memory.erase m a).all f = true
  | [], h => h
  | c :: m, h => by
    simp only [List.all_cons, Bool.and_eq_true] at h
    simp only [Memory.erase]
    split
    · exact h.2
    · simp only [List.all_cons, Bool.and_eq_true]; exact ⟨h.1, all_erase a h.2⟩

theorem all_insert {f : Host.Cell → Bool} {a : Nat} {v : Byte} (hv : f (a, v) = true) :
    ∀ {m : Memory}, m.all f = true → (Memory.insert m a v).all f = true
  | [], _ => by simp [Memory.insert, hv]
  | c :: m, h => by
    simp only [List.all_cons, Bool.and_eq_true] at h
    simp only [Memory.insert]
    split
    · simp only [List.all_cons, Bool.and_eq_true]; exact ⟨hv, h.1, h.2⟩
    · split
      · simp only [List.all_cons, Bool.and_eq_true]; exact ⟨hv, h.2⟩
      · simp only [List.all_cons, Bool.and_eq_true]; exact ⟨h.1, all_insert hv h.2⟩

theorem wf_rising {d : Nat → Byte} {m : Memory} (h : Memory.wf d m = true) : Memory.rising none m = true := by
  simp only [Memory.wf, Bool.and_eq_true] at h
  exact h.1

/-- A write keeps the canonical form. -/
theorem wf_write {d : Nat → Byte} {m : Memory} (h : Memory.wf d m = true) (a : Nat) (v : Byte) :
    Memory.wf d (Memory.write d m a v) = true := by
  simp only [Memory.wf, Bool.and_eq_true] at h ⊢
  unfold Memory.write
  split
  · exact ⟨rising_erase a h.1, all_erase a h.2⟩
  · rename_i hv
    exact ⟨rising_insert a v (by intro l hl; cases hl) h.1, all_insert (by simpa using hv) h.2⟩

theorem wf_writeAll {d : Nat → Byte} :
    ∀ (vs : List Byte) {m : Memory} (a : Nat), Memory.wf d m = true → Memory.wf d (Memory.writeAll d m a vs) = true
  | [], _, _, h => h
  | v :: vs, _, a, h => wf_writeAll vs (a + 1) (wf_write h a v)

/-- What a byte reads as after a list of bytes is written. -/
theorem read_writeAll {d : Nat → Byte} :
    ∀ (vs : List Byte) {m : Memory} (a b : Nat), Memory.wf d m = true →
      Memory.read d (Memory.writeAll d m a vs) b =
        if a ≤ b ∧ b < a + vs.length then vs.getD (b - a) 0 else Memory.read d m b
  | [], m, a, b, _ => by
    simp only [Memory.writeAll, List.length_nil]
    rw [if_neg (by omega)]
  | v :: vs, m, a, b, h => by
    simp only [Memory.writeAll, List.length_cons]
    rw [read_writeAll vs (a + 1) b (wf_write h a v), read_write (wf_rising h)]
    by_cases h1 : a + 1 ≤ b ∧ b < a + 1 + vs.length
    · have e : b - a = (b - (a + 1)) + 1 := by omega
      rw [if_pos h1, if_pos (by omega), e]
      simp
    · rw [if_neg h1]
      by_cases hb : b = a
      · subst hb; rw [if_pos rfl, if_pos (by omega)]; simp
      · rw [if_neg hb, if_neg (by omega)]

/-- Entries taken out by their address keep the rising order. -/
theorem rising_filter (f : Host.Cell → Bool) :
    ∀ {low : Option Nat} {m : Memory}, Memory.rising low m = true → Memory.rising low (m.filter f) = true
  | _, [], h => by simpa using h
  | none, c :: m, h => by
    simp only [Memory.rising] at h
    simp only [List.filter_cons]
    split
    · simp only [Memory.rising]; exact rising_filter f h
    · exact rising_filter f (rising_of_bound h)
  | some low, c :: m, h => by
    simp only [Memory.rising, Bool.and_eq_true, decide_eq_true_eq] at h
    simp only [List.filter_cons]
    split
    · simp only [Memory.rising, Bool.and_eq_true, decide_eq_true_eq]; exact ⟨h.1, rising_filter f h.2⟩
    · exact rising_filter f (rising_weaken (by omega) h.2)

/-- Entries of some addresses taken out, and only those addresses' unlisted values changed: the form is kept. -/
theorem wf_filter {d d' : Nat → Byte} {keep : Host.Cell → Bool} {m : Memory} (h : Memory.wf d m = true)
    (hd : ∀ c, keep c = true → d' c.1 = d c.1) : Memory.wf d' (m.filter keep) = true := by
  simp only [Memory.wf, Bool.and_eq_true] at h ⊢
  refine ⟨rising_filter keep h.1, ?_⟩
  have h2 := h.2
  simp only [List.all_eq_true, decide_eq_true_eq, List.mem_filter] at h2 ⊢
  intro c hc
  rw [hd c hc.2]
  exact h2 c hc.1

/-- What is listed at an address after entries are taken out by their address. -/
theorem find_filter (keep : Nat → Bool) (a : Nat) :
    ∀ m : Memory, Memory.find (m.filter (fun c => keep c.1)) a = if keep a then Memory.find m a else none
  | [] => by simp [Memory.find]
  | c :: m => by
    simp only [List.filter_cons, Memory.find]
    by_cases hk : keep c.1 = true
    · rw [if_pos hk]
      simp only [Memory.find, find_filter keep a m]
      by_cases hc : c.1 = a
      · subst hc; simp [hk]
      · simp [hc]
    · rw [if_neg hk, find_filter keep a m]
      by_cases hc : c.1 = a
      · subst hc; simp [hk]
      · simp [hc]

theorem rising_foldl_write {d : Nat → Byte} :
    ∀ (l : List Host.Cell) {m : Memory}, Memory.rising none m = true →
      Memory.rising none (l.foldl (fun m c => Memory.write d m c.1 c.2) m) = true
  | [], _, h => h
  | c :: l, m, h => rising_foldl_write l (by
      show Memory.rising none (if c.2 = d c.1 then Memory.erase m c.1 else Memory.insert m c.1 c.2) = true
      split
      · exact rising_erase _ h
      · exact rising_insert _ _ (by intro _ hl; cases hl) h)

/-- What a byte reads as after the entries of a rising list are written. -/
theorem read_foldl_write {d : Nat → Byte} (a : Nat) :
    ∀ (l : List Host.Cell) {m : Memory}, Memory.rising none l = true → Memory.rising none m = true →
      Memory.read d (l.foldl (fun m c => Memory.write d m c.1 c.2) m) a = (Memory.find l a).getD (Memory.read d m a)
  | [], _, _, _ => rfl
  | c :: l, m, hl, hm => by
    simp only [Memory.rising] at hl
    have hw : Memory.rising none (Memory.write d m c.1 c.2) = true := rising_foldl_write [c] hm
    simp only [List.foldl_cons, Memory.find]
    rw [read_foldl_write a l (rising_of_bound hl) hw, read_write hm]
    by_cases hc : c.1 = a
    · subst hc
      rw [find_none_of_rising (le_refl _) hl]; simp
    · rw [if_neg (Ne.symm hc), if_neg hc]

theorem wf_foldl_write {d : Nat → Byte} :
    ∀ (l : List Host.Cell) {m : Memory}, Memory.wf d m = true →
      Memory.wf d (l.foldl (fun m c => Memory.write d m c.1 c.2) m) = true
  | [], _, h => h
  | c :: l, _, h => wf_foldl_write l (wf_write h c.1 c.2)

/-! ## The array's operations keep the canonical form -/

theorem array_wf_iff (a : ArrayState) :
    a.wf = true ↔ Memory.wf a.unlistedCell a.cells = true ∧ Memory.wf a.unlistedUpset a.upsets = true
      ∧ Memory.wf noUpset a.lateUpsets = true := by
  simp [ArrayState.wf, Bool.and_eq_true, and_assoc]

theorem wf_setUpset {a : ArrayState} (h : a.wf = true) (u : Nat) (data : UnitData) (check : BitVec 8) :
    (a.setUpset u data check).wf = true := by
  rw [array_wf_iff] at h ⊢
  exact ⟨h.1, wf_writeAll _ _ h.2.1, h.2.2⟩

theorem wf_writeUnit {a : ArrayState} (h : a.wf = true) (u : Nat) (data : UnitData) : (a.writeUnit u data).wf = true := by
  refine wf_setUpset ?_ u 0 0
  rw [array_wf_iff] at h ⊢
  exact ⟨wf_writeAll _ _ h.1, h.2.1, h.2.2⟩

theorem wf_corrupt {a : ArrayState} (h : a.wf = true) (u : Nat) (data : UnitData) (check : BitVec 8) :
    (a.corrupt u data check).wf = true := wf_setUpset h _ _ _

theorem wf_corruptLate {a : ArrayState} (h : a.wf = true) (u : Nat) (data : UnitData) (check : BitVec 8) :
    (a.corruptLate u data check).wf = true := by
  rw [array_wf_iff] at h ⊢
  exact ⟨h.1, h.2.1, wf_writeAll _ _ h.2.2⟩

/-- The bases `base` read as zero in every unit that `written` names and as before in every other one. -/
def ZeroesUnits (a : ArrayState) (written : Nat → Bool) (base : Four QuadBase) : Prop :=
  (∀ addr, (base.get (quadOfUnit (addr / 8))).cell addr =
      if written (addr / 8) then 0 else (a.base.get (quadOfUnit (addr / 8))).cell addr)
    ∧ ∀ addr, (base.get (quadOfUnit (addr / upsetCells))).upset addr =
      if written (addr / upsetCells) then 0 else (a.base.get (quadOfUnit (addr / upsetCells))).upset addr

theorem zeroesUnits_clearQuad (a : ArrayState) (q : Quad) :
    ZeroesUnits a (fun u => quadOfUnit u == q) (a.base.set q .zero) := by
  constructor <;> intro addr <;> beta_reduce
  · by_cases hq : quadOfUnit (addr / 8) = q
    · rw [hq, four_get_set_same]; simp [QuadBase.cell]
    · rw [four_get_set_ne _ _ hq]; simp [hq]
  · by_cases hq : quadOfUnit (addr / upsetCells) = q
    · rw [hq, four_get_set_same]; simp [QuadBase.upset]
    · rw [four_get_set_ne _ _ hq]; simp [hq]

theorem zeroesUnits_abandonClear (a : ArrayState) (r : ClearRun) (now : Nat) :
    ZeroesUnits a (r.hasWritten now)
      (a.base.set r.quad (.partlyZeroed r.epoch (now - r.startedAt) (a.base.get r.quad))) := by
  constructor <;> intro addr
  · by_cases hq : quadOfUnit (addr / 8) = r.quad
    · rw [hq, four_get_set_same]; simp [QuadBase.cell, ClearRun.hasWritten, hq]
    · rw [four_get_set_ne _ _ hq]; simp [ClearRun.hasWritten, Ne.symm hq]
  · by_cases hq : quadOfUnit (addr / upsetCells) = r.quad
    · rw [hq, four_get_set_same]; simp [QuadBase.upset, ClearRun.hasWritten, hq]
    · rw [four_get_set_ne _ _ hq]; simp [ClearRun.hasWritten, Ne.symm hq]

theorem wf_zeroUnits {a : ArrayState} {written : Nat → Bool} {base : Four QuadBase} (h : a.wf = true)
    (hz : ZeroesUnits a written base) : (a.zeroUnits written base).wf = true := by
  rw [array_wf_iff] at h ⊢
  refine ⟨wf_filter h.1 fun c hc => ?_, wf_foldl_write _ (wf_filter h.2.1 fun c hc => ?_), rfl⟩
  · exact (hz.1 c.1).trans (if_neg (by simpa using hc))
  · exact (hz.2 c.1).trans (if_neg (by simpa using hc))

theorem wf_clearQuad {a : ArrayState} (h : a.wf = true) (q : Quad) : (a.clearQuad q).wf = true :=
  wf_zeroUnits h (zeroesUnits_clearQuad a q)

theorem wf_abandonClear {a : ArrayState} (h : a.wf = true) (r : ClearRun) (now : Nat) :
    (a.abandonClear r now).wf = true := wf_zeroUnits h (zeroesUnits_abandonClear a r now)

end Sys2Proof.Machine
end

