-- ==== Sys2Proof/Laws/Array.lean ====
section
/-!
SUPPORT. The array's units: what a unit holds after it, or another unit, is written or struck by a corruption, and what a unit
just written is classified as (R3, R102, R103, R104).
-/

namespace Sys2Proof.Machine

open Sys2Proof

/-! ## Units as bytes -/

theorem joinUnit_unitBytes (d : UnitData) : joinUnit (unitBytes d) = d := by
  simp only [joinUnit, unitBytes, unitByte]
  ext i hi
  simp only [List.getD_cons_zero, List.getD_cons_succ, BitVec.getElem_append, BitVec.getElem_extractLsb']
  simp only [Nat.reduceAdd, Nat.reduceMul] at hi ⊢
  split <;> (try split) <;> (try split) <;> (try split) <;> (try split) <;> (try split) <;> (try split) <;>
    (rw [BitVec.getLsbD_eq_getElem] <;> first | omega | (congr 1; omega))

theorem unitBytes_length (d : UnitData) : (unitBytes d).length = 8 := rfl

/-- A list of eight bytes read back from the places it was written to. -/
theorem list_of_eight (l : List Byte) (h : l.length = 8) :
    [l.getD 0 0, l.getD 1 0, l.getD 2 0, l.getD 3 0, l.getD 4 0, l.getD 5 0, l.getD 6 0, l.getD 7 0] = l := by
  match l, h with
  | [_, _, _, _, _, _, _, _], _ => rfl

/-! ## A unit written -/

theorem readByte_writeUnit {a : ArrayState} (h : a.wf = true) (u : Nat) (d : UnitData) (b : Nat) :
    (a.writeUnit u d).readByte b =
      if 8 * u ≤ b ∧ b < 8 * u + 8 then (unitBytes d).getD (b - 8 * u) 0 else a.readByte b :=
  read_writeAll (unitBytes d) (8 * u) b ((array_wf_iff a).1 h).1

theorem readUpset_setUpset {a : ArrayState} (h : a.wf = true) (u : Nat) (d : UnitData) (k : BitVec 8) (b : Nat) :
    (a.setUpset u d k).readUpset b =
      if 9 * u ≤ b ∧ b < 9 * u + 9 then (unitBytes d ++ [k]).getD (b - 9 * u) 0 else a.readUpset b :=
  read_writeAll (unitBytes d ++ [k]) (9 * u) b ((array_wf_iff a).1 h).2.1

theorem readUpset_writeUnit {a : ArrayState} (h : a.wf = true) (u : Nat) (d : UnitData) (b : Nat) :
    (a.writeUnit u d).readUpset b = if 9 * u ≤ b ∧ b < 9 * u + 9 then 0 else a.readUpset b := by
  have hw : ({ a with cells := a.cells.writeAll a.unlistedCell (8 * u) (unitBytes d) } : ArrayState).wf = true := by
    rw [array_wf_iff] at h ⊢
    exact ⟨wf_writeAll _ _ h.1, h.2.1, h.2.2⟩
  refine (readUpset_setUpset hw u 0 0 b).trans ?_
  by_cases hb : 9 * u ≤ b ∧ b < 9 * u + 9
  · rw [if_pos hb, if_pos hb]
    have hk : b - 9 * u < 9 := by omega
    interval_cases b - 9 * u <;> rfl
  · rw [if_neg hb, if_neg hb]; rfl

theorem writtenData_writeUnit {a : ArrayState} (h : a.wf = true) (u v : Nat) (d : UnitData) :
    (a.writeUnit u d).writtenData v = if v = u then d else a.writtenData v := by
  unfold ArrayState.writtenData
  by_cases hv : v = u
  · subst hv
    rw [if_pos rfl]
    simp only [readByte_writeUnit h]
    have e : ∀ k : Nat, 8 * v + k - 8 * v = k := by intro k; omega
    have e0 : 8 * v - 8 * v = 0 := by omega
    simp only [e, e0, le_refl, true_and, show 8 * v < 8 * v + 8 by omega, if_true,
      show ∀ k : Nat, 8 * v ≤ 8 * v + k by intro k; omega, Nat.add_lt_add_iff_left,
      show (1 : Nat) < 8 by omega, show (2 : Nat) < 8 by omega, show (3 : Nat) < 8 by omega, show (4 : Nat) < 8 by omega,
      show (5 : Nat) < 8 by omega, show (6 : Nat) < 8 by omega, show (7 : Nat) < 8 by omega]
    rw [list_of_eight _ (unitBytes_length d), joinUnit_unitBytes]
  · rw [if_neg hv]
    simp only [readByte_writeUnit h]
    have e : ∀ k : Nat, k < 8 → ¬ (8 * u ≤ 8 * v + k ∧ 8 * v + k < 8 * u + 8) := by intro k hk; omega
    have e0 : ¬ (8 * u ≤ 8 * v ∧ 8 * v < 8 * u + 8) := by omega
    rw [if_neg e0, if_neg (e 1 (by omega)), if_neg (e 2 (by omega)), if_neg (e 3 (by omega)), if_neg (e 4 (by omega)),
      if_neg (e 5 (by omega)), if_neg (e 6 (by omega)), if_neg (e 7 (by omega))]

theorem changedData_writeUnit {a : ArrayState} (h : a.wf = true) (u v : Nat) (d : UnitData) :
    (a.writeUnit u d).changedData v = if v = u then 0 else a.changedData v := by
  unfold ArrayState.changedData
  by_cases hv : v = u
  · subst hv
    rw [if_pos rfl]
    simp only [readUpset_writeUnit h]
    have e : ∀ k : Nat, k < 9 → (9 * v ≤ 9 * v + k ∧ 9 * v + k < 9 * v + 9) := by intro k hk; omega
    have e0 : 9 * v ≤ 9 * v ∧ 9 * v < 9 * v + 9 := by omega
    rw [if_pos e0, if_pos (e 1 (by omega)), if_pos (e 2 (by omega)), if_pos (e 3 (by omega)), if_pos (e 4 (by omega)),
      if_pos (e 5 (by omega)), if_pos (e 6 (by omega)), if_pos (e 7 (by omega))]
    rfl
  · rw [if_neg hv]
    simp only [readUpset_writeUnit h]
    have e : ∀ k : Nat, k < 9 → ¬ (9 * u ≤ 9 * v + k ∧ 9 * v + k < 9 * u + 9) := by intro k hk; omega
    have e0 : ¬ (9 * u ≤ 9 * v ∧ 9 * v < 9 * u + 9) := by omega
    rw [if_neg e0, if_neg (e 1 (by omega)), if_neg (e 2 (by omega)), if_neg (e 3 (by omega)), if_neg (e 4 (by omega)),
      if_neg (e 5 (by omega)), if_neg (e 6 (by omega)), if_neg (e 7 (by omega))]

theorem changedCheck_writeUnit {a : ArrayState} (h : a.wf = true) (u v : Nat) (d : UnitData) :
    (a.writeUnit u d).changedCheck v = if v = u then 0 else a.changedCheck v := by
  unfold ArrayState.changedCheck
  rw [readUpset_writeUnit h]
  by_cases hv : v = u
  · subst hv; rw [if_pos (by omega), if_pos rfl]
  · rw [if_neg (by omega), if_neg hv]

/-! ## Changed bits set -/

theorem changedData_setUpset {a : ArrayState} (h : a.wf = true) (u v : Nat) (d : UnitData) (k : BitVec 8) :
    (a.setUpset u d k).changedData v = if v = u then d else a.changedData v := by
  unfold ArrayState.changedData
  by_cases hv : v = u
  · subst hv
    rw [if_pos rfl]
    simp only [readUpset_setUpset h]
    have e : ∀ k : Nat, k < 9 → (9 * v ≤ 9 * v + k ∧ 9 * v + k < 9 * v + 9) := by intro k hk; omega
    have e0 : 9 * v ≤ 9 * v ∧ 9 * v < 9 * v + 9 := by omega
    rw [if_pos e0, if_pos (e 1 (by omega)), if_pos (e 2 (by omega)), if_pos (e 3 (by omega)), if_pos (e 4 (by omega)),
      if_pos (e 5 (by omega)), if_pos (e 6 (by omega)), if_pos (e 7 (by omega))]
    have s : ∀ k : Nat, 9 * v + k - 9 * v = k := by intro k; omega
    have s0 : 9 * v - 9 * v = 0 := by omega
    simp only [s, s0]
    exact joinUnit_unitBytes d
  · rw [if_neg hv]
    simp only [readUpset_setUpset h]
    have e : ∀ k : Nat, k < 9 → ¬ (9 * u ≤ 9 * v + k ∧ 9 * v + k < 9 * u + 9) := by intro k hk; omega
    have e0 : ¬ (9 * u ≤ 9 * v ∧ 9 * v < 9 * u + 9) := by omega
    rw [if_neg e0, if_neg (e 1 (by omega)), if_neg (e 2 (by omega)), if_neg (e 3 (by omega)), if_neg (e 4 (by omega)),
      if_neg (e 5 (by omega)), if_neg (e 6 (by omega)), if_neg (e 7 (by omega))]

theorem changedCheck_setUpset {a : ArrayState} (h : a.wf = true) (u v : Nat) (d : UnitData) (k : BitVec 8) :
    (a.setUpset u d k).changedCheck v = if v = u then k else a.changedCheck v := by
  unfold ArrayState.changedCheck
  rw [readUpset_setUpset h]
  by_cases hv : v = u
  · subst hv
    rw [if_pos (by omega), if_pos rfl, show 9 * v + 8 - 9 * v = 8 by omega]
    rfl
  · rw [if_neg (by omega), if_neg hv]

@[simp] theorem writtenData_setUpset (a : ArrayState) (u v : Nat) (d : UnitData) (k : BitVec 8) :
    (a.setUpset u d k).writtenData v = a.writtenData v := rfl

/-! ## Corruptions (R103, R167) -/

theorem unit_corrupt {a : ArrayState} (h : a.wf = true) (u v : Nat) (d : UnitData) (k : BitVec 8) :
    (a.corrupt u d k).unit v =
      if v = u then
        { a.unit u with changedData := a.changedData u ^^^ d, changedCheck := a.changedCheck u ^^^ k }
      else a.unit v := by
  unfold ArrayState.corrupt ArrayState.unit
  rw [changedData_setUpset h, changedCheck_setUpset h, writtenData_setUpset]
  by_cases hv : v = u
  · subst hv; simp
  · simp [hv]

/-- An array of zeroed units whose changed bits are the late ones: they are laid out alike. -/
def ArrayState.lateAlone (a : ArrayState) : ArrayState :=
  { cells := [], upsets := a.lateUpsets, lateUpsets := [], base := Four.all .zero, epoch := 0 }

theorem lateAlone_unlistedUpset (a : ArrayState) : a.lateAlone.unlistedUpset = noUpset := by
  funext addr
  simp only [ArrayState.unlistedUpset, ArrayState.lateAlone, Four.all, Four.get, noUpset]
  split <;> rfl

theorem lateAlone_changed (a : ArrayState) (u : Nat) :
    a.lateAlone.changedData u = a.lateData u ∧ a.lateAlone.changedCheck u = a.lateCheck u := by
  have hr : ∀ addr, a.lateAlone.readUpset addr = a.readLate addr := by
    intro addr
    simp only [ArrayState.readUpset, ArrayState.readLate, lateAlone_unlistedUpset]; rfl
  simp only [ArrayState.lateData, ArrayState.lateCheck, ArrayState.changedData, ArrayState.changedCheck, hr, and_self]

theorem lateAlone_wf {a : ArrayState} (h : a.wf = true) : a.lateAlone.wf = true := by
  rw [array_wf_iff, lateAlone_unlistedUpset]
  exact ⟨rfl, ((array_wf_iff a).1 h).2.2, rfl⟩

theorem late_corruptLate {a : ArrayState} (h : a.wf = true) (u v : Nat) (d : UnitData) (k : BitVec 8) :
    (a.corruptLate u d k).lateData v = (if v = u then a.lateData u ^^^ d else a.lateData v)
      ∧ (a.corruptLate u d k).lateCheck v = (if v = u then a.lateCheck u ^^^ k else a.lateCheck v) := by
  have e : (a.corruptLate u d k).lateAlone = a.lateAlone.setUpset u (a.lateData u ^^^ d) (a.lateCheck u ^^^ k) := by
    simp only [ArrayState.setUpset, lateAlone_unlistedUpset]; rfl
  rw [← (lateAlone_changed _ v).1, ← (lateAlone_changed _ v).2, e, changedData_setUpset (lateAlone_wf h),
    changedCheck_setUpset (lateAlone_wf h), (lateAlone_changed a v).1, (lateAlone_changed a v).2]
  exact ⟨rfl, rfl⟩

/-! ## Units zeroed by a clear (R17, R167) -/

theorem readByte_zeroUnits {a : ArrayState} {written : Nat → Bool} {base : Four QuadBase}
    (hz : ZeroesUnits a written base) (addr : Nat) :
    (a.zeroUnits written base).readByte addr = if written (addr / 8) then 0 else a.readByte addr := by
  have hu : (a.zeroUnits written base).unlistedCell addr = _ := hz.1 addr
  unfold ArrayState.readByte Memory.read
  rw [hu, show (a.zeroUnits written base).cells = a.cells.filter (fun c => !written (c.1 / 8)) from rfl,
    find_filter (fun n => !written (n / 8))]
  cases written (addr / 8) <;> simp [ArrayState.unlistedCell]

theorem readUpset_zeroUnits {a : ArrayState} {written : Nat → Bool} {base : Four QuadBase} (h : a.wf = true)
    (hz : ZeroesUnits a written base) (addr : Nat) :
    (a.zeroUnits written base).readUpset addr =
      if written (addr / upsetCells) then a.readLate addr else a.readUpset addr := by
  have hw := (array_wf_iff a).1 h
  refine (read_foldl_write addr _ (rising_filter _ (wf_rising hw.2.2)) (rising_filter _ (wf_rising hw.2.1))).trans ?_
  rw [find_filter (fun n => written (n / upsetCells))]
  unfold ArrayState.readUpset ArrayState.readLate Memory.read
  rw [find_filter (fun n => !written (n / upsetCells)),
    show (a.zeroUnits written base).unlistedUpset addr = _ from hz.2 addr]
  cases written (addr / upsetCells) <;> simp [ArrayState.unlistedUpset, noUpset]

/-- A unit that a clear has written is eight zero bytes with the bits changed since; every other unit is as before. -/
theorem unit_zeroUnits {a : ArrayState} {written : Nat → Bool} {base : Four QuadBase} (h : a.wf = true)
    (hz : ZeroesUnits a written base) (u : Nat) :
    (a.zeroUnits written base).unit u =
      if written u then { written := 0, changedData := a.lateData u, changedCheck := a.lateCheck u } else a.unit u := by
  have e8 : ∀ k : Nat, k < 8 → (8 * u + k) / 8 = u := by intro k hk; omega
  have e9 : ∀ k : Nat, k < 9 → (9 * u + k) / upsetCells = u := by intro k hk; unfold upsetCells; omega
  have b := fun k (hk : k < 8) => (readByte_zeroUnits hz (8 * u + k)).trans (by rw [e8 k hk])
  have c := fun k (hk : k < 9) => (readUpset_zeroUnits h hz (9 * u + k)).trans (by rw [e9 k hk])
  unfold ArrayState.unit ArrayState.writtenData ArrayState.changedData ArrayState.changedCheck
  rw [b 1 (by omega), b 2 (by omega), b 3 (by omega), b 4 (by omega), b 5 (by omega), b 6 (by omega), b 7 (by omega),
    c 1 (by omega), c 2 (by omega), c 3 (by omega), c 4 (by omega), c 5 (by omega), c 6 (by omega), c 7 (by omega),
    c 8 (by omega), show 8 * u = 8 * u + 0 from rfl, show 9 * u = 9 * u + 0 from rfl, b 0 (by omega), c 0 (by omega)]
  cases written u
  · rfl
  · simp only [if_true, UnitBits.mk.injEq]
    exact ⟨by decide, rfl, rfl⟩

theorem unit_clearQuad {a : ArrayState} (h : a.wf = true) (q : Quad) (u : Nat) :
    (a.clearQuad q).unit u =
      if quadOfUnit u = q then { written := 0, changedData := a.lateData u, changedCheck := a.lateCheck u }
      else a.unit u := by
  refine (unit_zeroUnits h (zeroesUnits_clearQuad a q) u).trans ?_
  by_cases hq : quadOfUnit u = q <;> simp [hq]

theorem unit_abandonClear {a : ArrayState} (h : a.wf = true) (r : ClearRun) (now u : Nat) :
    (a.abandonClear r now).unit u =
      if r.hasWritten now u then { written := 0, changedData := a.lateData u, changedCheck := a.lateCheck u }
      else a.unit u := unit_zeroUnits h (zeroesUnits_abandonClear a r now) u

/-! ## Classification (R104) -/

theorem countBits_zero {w : Nat} : ∀ n : Nat, countBits (0#w) n = 0
  | 0 => rfl
  | n + 1 => by simp only [countBits, countBits_zero n]; simp

/-- "a read taken next finds it clean" (R102). -/
theorem classify_writeUnit {a : ArrayState} (h : a.wf = true) (u : Nat) (d : UnitData) :
    (a.writeUnit u d).classify u = .clean := by
  have hz : ((a.writeUnit u d).unit u).changed = 0 := by
    simp only [UnitBits.changed, ArrayState.unit, changedData_writeUnit h, changedCheck_writeUnit h, if_true]
    simp [countBits_zero]
  simp [ArrayState.classify, UnitBits.verdict, hz]

/-- The data of a unit just written, as it stands. -/
theorem storedData_writeUnit {a : ArrayState} (h : a.wf = true) (u v : Nat) (d : UnitData) :
    (a.writeUnit u d).storedData v = if v = u then d else a.storedData v := by
  simp only [ArrayState.storedData, ArrayState.unit, UnitBits.data]
  rw [writtenData_writeUnit h, changedData_writeUnit h]
  by_cases hv : v = u
  · simp [hv]
  · simp [hv]

end Sys2Proof.Machine
end

