-- ==== Sys2Proof/Laws/Frames.lean ====
section
/-!
SUPPORT. What each shared operation leaves alone, said once: one lemma for each operation, to be cited in place of its
definition.
-/

namespace Sys2Proof.Machine

open Sys2Proof

/-! ## The frames compose -/

theorem onlyAnswers_refl (s : State) : s.OnlyAnswers s := rfl

theorem onlyAnswers_trans {s t u : State} (h1 : s.OnlyAnswers t) (h2 : t.OnlyAnswers u) : s.OnlyAnswers u := by
  unfold State.OnlyAnswers at *
  rw [h2, h1]

theorem onlyHolds_refl (s : State) : s.OnlyHolds s := rfl

theorem onlyHolds_trans {s t u : State} (h1 : s.OnlyHolds t) (h2 : t.OnlyHolds u) : s.OnlyHolds u := by
  unfold State.OnlyHolds at *
  rw [h2, h1]

theorem onlyHolds_of_answers {s t : State} (h : s.OnlyAnswers t) : s.OnlyHolds t := by
  unfold State.OnlyAnswers State.OnlyHolds at *
  rw [h]

theorem keepsStore_refl (s : State) : s.KeepsStore s := ⟨rfl, rfl, rfl, rfl, rfl⟩

theorem keepsStore_trans {s t u : State} (h1 : s.KeepsStore t) (h2 : t.KeepsStore u) : s.KeepsStore u :=
  ⟨h2.1.trans h1.1, h2.2.1.trans h1.2.1, h2.2.2.1.trans h1.2.2.1, h2.2.2.2.1.trans h1.2.2.2.1,
    h2.2.2.2.2.trans h1.2.2.2.2⟩

theorem keepsStore_of_holds {s t : State} (h : s.OnlyHolds t) : s.KeepsStore t := by
  unfold State.OnlyHolds at h
  refine ⟨?_, ?_, ?_, ?_, ?_⟩ <;> rw [h]

/-- What follows from `OnlyHolds` for the tables it keeps. -/
theorem onlyHolds_keeps {s t : State} (h : s.OnlyHolds t) :
    t.now = s.now ∧ t.modeCtl = s.modeCtl ∧ t.array = s.array ∧ t.quads = s.quads ∧ t.timer = s.timer
      ∧ t.refresh = s.refresh ∧ t.integrity = s.integrity ∧ t.config = s.config ∧ t.pending = s.pending := by
  unfold State.OnlyHolds at h
  refine ⟨?_, ?_, ?_, ?_, ?_, ?_, ?_, ?_, ?_⟩ <;> rw [h]

/-- What follows from `OnlyAnswers` for the tables it keeps beside those of `OnlyHolds`. -/
theorem onlyAnswers_keeps {s t : State} (h : s.OnlyAnswers t) :
    t.banks = s.banks ∧ t.bursts = s.bursts ∧ t.stamp = s.stamp := by
  unfold State.OnlyAnswers at h
  refine ⟨?_, ?_, ?_⟩ <;> rw [h]

theorem onlyAnswers_bank {s t : State} (h : s.OnlyAnswers t) (b : Bank) : t.bank b = s.bank b := by
  unfold State.bank
  rw [(onlyAnswers_keeps h).1]

theorem onlyAnswers_foldl {α : Type} {f : State → α → State} (hf : ∀ (s : State) x, s.OnlyAnswers (f s x)) :
    ∀ (l : List α) (s : State), s.OnlyAnswers (l.foldl f s)
  | [], s => onlyAnswers_refl s
  | x :: l, s => onlyAnswers_trans (hf s x) (onlyAnswers_foldl hf l (f s x))

theorem onlyHolds_foldl {α : Type} {f : State → α → State} (hf : ∀ (s : State) x, s.OnlyHolds (f s x)) :
    ∀ (l : List α) (s : State), s.OnlyHolds (l.foldl f s)
  | [], s => onlyHolds_refl s
  | x :: l, s => onlyHolds_trans (hf s x) (onlyHolds_foldl hf l (f s x))

theorem keepsStore_foldl {α : Type} {f : State → α → State} (hf : ∀ (s : State) x, s.KeepsStore (f s x)) :
    ∀ (l : List α) (s : State), s.KeepsStore (l.foldl f s)
  | [], s => keepsStore_refl s
  | x :: l, s => keepsStore_trans (hf s x) (keepsStore_foldl hf l (f s x))

/-! ## Answers and notices -/

theorem enqueue_answers (s : State) (p : Port) (e : OutEntry) : s.OnlyAnswers (s.enqueue p e) := by
  unfold State.enqueue
  split <;> rfl

theorem setTag_answers (s : State) (p : Port) (t : Tag) (x : TagState) : s.OnlyAnswers (s.setTag p t x) := rfl

theorem setSession_answers (s : State) (p : Port) (x : Session) : s.OnlyAnswers (s.setSession p x) := rfl

theorem setLink_answers (s : State) (p : Port) (l : Link) : s.OnlyAnswers (s.setLink p l) := rfl

theorem answer_answers (s : State) (p : Port) (t : Tag) (a : Answer) : s.OnlyAnswers (s.answer p t a) :=
  onlyAnswers_trans (setTag_answers s p t _) (enqueue_answers _ p _)

theorem answerWork_answers (s : State) (p : Port) (t : Tag) (a : Answer) : s.OnlyAnswers (s.answerWork p t a) := by
  unfold State.answerWork
  split
  · exact answer_answers s p t a
  · exact onlyAnswers_refl s

theorem answerTag_answers (s : State) (p : Port) (t : Option Tag) (a : Answer) : s.OnlyAnswers (s.answerTag p t a) := by
  unfold State.answerTag
  split
  · exact answerWork_answers s p _ a
  · exact onlyAnswers_refl s

theorem notify_answers (s : State) (p : Port) (e : OutEntry) : s.OnlyAnswers (s.notify p e) := by
  unfold State.notify
  split
  · exact enqueue_answers s p e
  · exact onlyAnswers_refl s

theorem answerBursts_answers (s : State) (p : Port) (a : Answer) (bs : List QueuedBurst) :
    s.OnlyAnswers (s.answerBursts p a bs) :=
  onlyAnswers_foldl (f := fun (s : State) (b : QueuedBurst) => s.answerWork p b.tag a)
    (fun s b => answerWork_answers s p b.tag a) bs s

/-! ## The burst engine -/

theorem setBank_holds (s : State) (b : Bank) (r : BankRecord) : s.OnlyHolds (s.setBank b r) := rfl

theorem tickStamp_holds (s : State) (n : Nat) : s.OnlyHolds (s.tickStamp n) := rfl

theorem removeBankBursts_holds (s : State) (p : Port) (b : Bank) (a : Answer) :
    s.OnlyHolds (s.removeBankBursts p b a) :=
  onlyHolds_trans (t := s.setBurstQueue p _) rfl (onlyHolds_of_answers (answerBursts_answers _ p a _))

theorem removePortBursts_holds (s : State) (p : Port) (a : Answer) : s.OnlyHolds (s.removePortBursts p a) :=
  onlyHolds_trans (t := s.setBurstQueue p _) rfl (onlyHolds_of_answers (answerBursts_answers _ p a _))

@[simp] theorem removeBankBursts_bank (s : State) (p : Port) (b : Bank) (a : Answer) (c : Bank) :
    (s.removeBankBursts p b a).bank c = s.bank c :=
  onlyAnswers_bank (answerBursts_answers _ p a _) c

@[simp] theorem removePortBursts_bank (s : State) (p : Port) (a : Answer) (c : Bank) :
    (s.removePortBursts p a).bank c = s.bank c :=
  onlyAnswers_bank (answerBursts_answers _ p a _) c

theorem arbiterChoice_holds (s : State) : s.OnlyHolds s.arbiterChoice := by
  unfold State.arbiterChoice
  split
  · exact onlyHolds_refl s
  · split
    · rfl
    · exact onlyHolds_refl s

/-! ## The hold controller -/

theorem completeUpgrade_holds (s : State) (b : Bank) : s.OnlyHolds (s.completeUpgrade b) := by
  unfold State.completeUpgrade
  split
  · split
    · exact onlyHolds_trans (setBank_holds s b _) (onlyHolds_of_answers (answerWork_answers _ _ _ _))
    · exact onlyHolds_refl s
  · exact onlyHolds_refl s

theorem afterLeaving_holds (s : State) (b : Bank) : s.OnlyHolds (s.afterLeaving b) := by
  unfold State.afterLeaving
  simp only []
  split
  · split
    · exact setBank_holds s b _
    · exact onlyHolds_refl s
  · exact completeUpgrade_holds s b

theorem leaveBank_holds (s : State) (b : Bank) (p : Port) : s.OnlyHolds (s.leaveBank b p) :=
  onlyHolds_trans (setBank_holds s b _) (afterLeaving_holds _ b)

theorem markRecord_holds (s : State) (b : Bank) (p : Port) (f : HoldRecord → HoldRecord) :
    s.OnlyHolds (s.markRecord b p f) := rfl

theorem dropUpgrade_holds (s : State) (b : Bank) (p : Port) (a : Answer) : s.OnlyHolds (s.dropUpgrade b p a) := by
  unfold State.dropUpgrade
  split
  · split
    · exact onlyHolds_trans (setBank_holds s b _) (onlyHolds_of_answers (answerWork_answers _ _ _ _))
    · exact onlyHolds_refl s
  · exact onlyHolds_refl s

theorem dropWait_holds (s : State) (b : Bank) (p : Port) (a : Answer) : s.OnlyHolds (s.dropWait b p a) := by
  unfold State.dropWait
  split
  · exact onlyHolds_trans (setBank_holds s b _) (onlyHolds_of_answers (answerWork_answers _ _ _ _))
  · exact onlyHolds_refl s

theorem openOn_holds (s : State) (b : Bank) (row : Row) (hs : List HoldRecord) : s.OnlyHolds (s.openOn b row hs) := rfl

theorem grantBatch_holds (s : State) (b : Bank) (w : WaitEntry) : s.OnlyHolds (s.grantBatch b w) := rfl

theorem serveBank_holds (s : State) (b : Bank) : s.OnlyHolds (s.serveBank b) := by
  unfold State.serveBank
  split
  · split
    · exact grantBatch_holds s b _
    · exact onlyHolds_refl s
  · exact onlyHolds_refl s

theorem serveQuad_holds (s : State) (q : Quad) : s.OnlyHolds (s.serveQuad q) :=
  onlyHolds_foldl serveBank_holds _ s

theorem addRecord_holds (s : State) (b : Bank) (h : HoldRecord) : s.OnlyHolds (s.addRecord b h) := rfl

theorem joinBank_holds (s : State) (b : Bank) (p : Port) (t : Tag) : s.OnlyHolds (s.joinBank b p t) := by
  unfold State.joinBank
  split
  · rfl
  · exact onlyHolds_trans (addRecord_holds s b _) (onlyHolds_of_answers (answer_answers _ _ _ _))

theorem rejoinBank_holds (s : State) (b : Bank) (p : Port) (t : Tag) (mode : HoldMode) :
    s.OnlyHolds (s.rejoinBank b p t mode) :=
  onlyHolds_trans (onlyHolds_trans (setBank_holds s b _) (addRecord_holds _ b _))
    (onlyHolds_of_answers (answer_answers _ _ _ _))

theorem placeOpen_holds (s : State) (b : Bank) (p : Port) (t : Tag) (row : Row) (mode : HoldMode) :
    s.OnlyHolds (s.placeOpen b p t row mode) := by
  unfold State.placeOpen
  split <;> first
    | exact onlyHolds_refl s
    | exact joinBank_holds s b p t
    | exact rejoinBank_holds s b p t mode
    | rfl

theorem addWait_holds (s : State) (b : Bank) (p : Port) (t : Tag) (row : Row) (mode : HoldMode) :
    s.OnlyHolds (s.addWait b p t row mode) :=
  onlyHolds_trans (onlyHolds_trans (setBank_holds s b _) (tickStamp_holds _ 1))
    (onlyHolds_of_answers (answer_answers _ _ _ _))

theorem holdOpen_holds (s : State) (p : Port) (t : Tag) (bank : Byte) (row : BitVec 16) (mode : HoldMode) (wait : Bool) :
    s.OnlyHolds (s.holdOpen p t bank row mode wait) := by
  unfold State.holdOpen
  split
  · exact onlyHolds_of_answers (answer_answers _ _ _ _)
  · split
    · exact placeOpen_holds s _ p t _ mode
    · split
      · exact addWait_holds s _ p t _ mode
      · exact onlyHolds_of_answers (answer_answers _ _ _ _)
  · exact onlyHolds_of_answers (answer_answers _ _ _ _)

theorem closeRecord_holds (s : State) (b : Bank) (p : Port) (t : Tag) : s.OnlyHolds (s.closeRecord b p t) := by
  have hm := onlyHolds_trans (markRecord_holds s b p (fun h => { h with releasing := true, closeTag := some t }))
    (dropUpgrade_holds _ b p .cancelled)
  unfold State.closeRecord
  simp only []
  split
  · exact onlyHolds_trans hm
      (onlyHolds_trans (leaveBank_holds _ b p) (onlyHolds_of_answers (answer_answers _ _ _ _)))
  · exact hm

theorem holdClose_holds (s : State) (p : Port) (t : Tag) (bank : Byte) : s.OnlyHolds (s.holdClose p t bank) := by
  unfold State.holdClose
  split
  · exact onlyHolds_of_answers (answer_answers _ _ _ _)
  · split
    · exact onlyHolds_of_answers (answer_answers _ _ _ _)
    · split
      · exact onlyHolds_trans (dropWait_holds s _ p _) (onlyHolds_of_answers (answer_answers _ _ _ _))
      · split
        · split
          · exact closeRecord_holds s _ p t
          · exact onlyHolds_of_answers (answer_answers _ _ _ _)
        · exact onlyHolds_of_answers (answer_answers _ _ _ _)

theorem holdUpgrade_holds (s : State) (p : Port) (t : Tag) (bank : Byte) : s.OnlyHolds (s.holdUpgrade p t bank) := by
  have ha := fun (s : State) a => onlyHolds_of_answers (answer_answers s p t a)
  unfold State.holdUpgrade
  split
  · exact ha s _
  · split
    · exact ha s _
    · split
      · exact ha s _
      · split
        · exact ha s _
        · split
          · exact ha s _
          · split
            · exact onlyHolds_trans (markRecord_holds s _ p _) (ha _ _)
            · split
              · exact ha s _
              · exact onlyHolds_trans (setBank_holds s _ _) (ha _ _)

theorem autoClose_holds (s : State) (b : Bank) (p : Port) : s.OnlyHolds (s.autoClose b p) :=
  onlyHolds_trans (markRecord_holds s b p _) (dropUpgrade_holds _ b p _)

theorem acceptBurst_holds (s : State) (p : Port) (t : Tag) (kind : BurstKind) (bank column units : Byte) (ac : Bool)
    (data : List WriteUnit) : s.OnlyHolds (s.acceptBurst p t kind bank column units ac data) := by
  unfold State.acceptBurst
  split
  · exact onlyHolds_of_answers (answer_answers _ _ _ _)
  · simp only []
    refine onlyHolds_trans ?_ (arbiterChoice_holds _)
    split
    · exact onlyHolds_trans (t := s.queueBurst _) rfl (autoClose_holds _ _ p)
    · rfl
  · exact onlyHolds_of_answers (answer_answers _ _ _ _)

theorem sweep_holds {f : State → HoldRecord → State × Option HoldRecord} (hf : ∀ (s : State) h, s.OnlyHolds (f s h).1) :
    ∀ (hs : List HoldRecord) (s : State), s.OnlyHolds (sweep f hs s).1
  | [], s => onlyHolds_refl s
  | h :: hs, s => onlyHolds_trans (hf s h) (sweep_holds hf hs _)

theorem openRecord_holds (b : Bank) (s : State) (h : HoldRecord) : s.OnlyHolds (openRecord b s h).1 := by
  have ha := fun (s : State) t a => onlyHolds_of_answers (answerTag_answers s h.port t a)
  unfold openRecord
  split
  · exact onlyHolds_trans (onlyHolds_trans (ha s _ _) (removeBankBursts_holds _ _ b _)) (ha _ _ _)
  · split
    · exact ha s _ _
    · exact ha s _ _

theorem completeOpen_holds (s : State) (b : Bank) : s.OnlyHolds (s.completeOpen b) :=
  onlyHolds_trans (onlyHolds_trans (sweep_holds (openRecord_holds b) _ s) (setBank_holds _ b _))
    (completeUpgrade_holds _ b)

theorem expireDwell_holds (s : State) (b : Bank) : s.OnlyHolds (s.expireDwell b) := rfl

theorem completeClose_holds (s : State) (b : Bank) : s.OnlyHolds (s.completeClose b) :=
  onlyHolds_trans (setBank_holds s b _) (serveBank_holds _ b)

theorem reportCompletion_holds (s : State) (p : Port) (b : Bank) : s.OnlyHolds (s.reportCompletion p b) := by
  unfold State.reportCompletion
  split
  · exact onlyHolds_refl s
  · split
    · split
      · exact onlyHolds_refl s
      · exact onlyHolds_trans (leaveBank_holds s b p) (onlyHolds_of_answers (answerTag_answers _ _ _ _))
    · split
      · exact onlyHolds_trans (leaveBank_holds s b p) (onlyHolds_of_answers (notify_answers _ _ _))
      · exact onlyHolds_refl s

theorem endCut_holds (s : State) (x : QueuedBurst) : s.OnlyHolds (s.endCut x) := by
  unfold State.endCut
  simp only []
  split
  · exact onlyHolds_trans (t := s.setExecuting none) rfl (leaveBank_holds _ _ _)
  · rfl

theorem revokeRecord_holds (b : Bank) (s : State) (h : HoldRecord) : s.OnlyHolds (revokeRecord b s h).1 := by
  unfold revokeRecord
  split
  · exact onlyHolds_refl s
  · split
    · exact onlyHolds_refl s
    · split
      · exact onlyHolds_refl s
      · split
        · exact onlyHolds_of_answers (answerTag_answers _ _ _ _)
        · exact onlyHolds_of_answers (notify_answers _ _ _)

theorem revokeBank_holds (s : State) (b : Bank) : s.OnlyHolds (s.revokeBank b) := by
  have h1 : s.OnlyHolds (allFour.foldl (fun s p => s.removeBankBursts p b .revoked) s) :=
    onlyHolds_foldl (fun s p => removeBankBursts_holds s p b .revoked) _ s
  unfold State.revokeBank
  simp only []
  split
  · exact onlyHolds_trans (onlyHolds_trans (onlyHolds_trans (onlyHolds_trans h1 (dropUpgrade_holds _ b _ _))
      (sweep_holds (revokeRecord_holds b) _ _)) (setBank_holds _ b _)) (afterLeaving_holds _ b)
  · exact onlyHolds_trans (onlyHolds_trans (onlyHolds_trans h1
      (sweep_holds (revokeRecord_holds b) _ _)) (setBank_holds _ b _)) (afterLeaving_holds _ b)

theorem revokeQuad_holds (s : State) (q : Quad) : s.OnlyHolds (s.revokeQuad q) := onlyHolds_foldl revokeBank_holds _ s

theorem detachRecord_holds (s : State) (p : Port) (b : Bank) : s.OnlyHolds (s.detachRecord p b) := by
  unfold State.detachRecord
  split
  · exact onlyHolds_refl s
  · split
    · exact onlyHolds_refl s
    · split
      · exact onlyHolds_trans (leaveBank_holds s b p) (onlyHolds_of_answers (answerTag_answers _ _ _ _))
      · exact markRecord_holds s b p _

theorem teardownRecord_holds (s : State) (p : Port) (b : Bank) : s.OnlyHolds (s.teardownRecord p b) := by
  unfold State.teardownRecord
  split
  · exact onlyHolds_refl s
  · split
    · exact onlyHolds_refl s
    · split
      · exact leaveBank_holds s b p
      · exact markRecord_holds s b p _

theorem detachHolds_holds (s : State) (p : Port) : s.OnlyHolds (s.detachHolds p) :=
  onlyHolds_trans (onlyHolds_trans (onlyHolds_foldl (fun s b => dropWait_holds s b p _) _ s)
    (onlyHolds_foldl (fun s b => dropUpgrade_holds s b p _) _ _))
    (onlyHolds_foldl (fun s b => detachRecord_holds s p b) _ _)

theorem teardownHolds_holds (s : State) (p : Port) : s.OnlyHolds (s.teardownHolds p) :=
  onlyHolds_trans (onlyHolds_trans (onlyHolds_foldl (fun s b => dropWait_holds s b p _) _ s)
    (onlyHolds_foldl (fun s b => dropUpgrade_holds s b p _) _ _))
    (onlyHolds_foldl (fun s b => teardownRecord_holds s p b) _ _)

theorem resetBank_holds (s : State) (b : Bank) : s.OnlyHolds (s.resetBank b) :=
  onlyHolds_trans (setBank_holds s b _) (afterLeaving_holds _ b)

theorem cutAtOnce_holds (s : State) : s.OnlyHolds s.cutAtOnce := by
  unfold State.cutAtOnce
  split
  · split
    · exact endCut_holds s _
    · exact onlyHolds_refl s
  · exact onlyHolds_refl s

/-! ## The session unit -/

theorem finishSession_answers (s : State) (p : Port) : s.OnlyAnswers (s.finishSession p) := by
  unfold State.finishSession
  simp only []
  split
  · split
    · exact onlyAnswers_trans (answerTag_answers _ _ _ _) (setSession_answers _ _ _)
    · exact onlyAnswers_refl s
  · split
    · exact onlyAnswers_refl s
    · exact setSession_answers _ _ _
  · exact onlyAnswers_refl s
  · exact onlyAnswers_refl s

theorem finishSessions_answers (s : State) : s.OnlyAnswers s.finishSessions :=
  onlyAnswers_foldl finishSession_answers _ s

/-! ## The retention controller -/

theorem lapseNotices_answers (s : State) (q : Quad) : s.OnlyAnswers (s.lapseNotices q) :=
  onlyAnswers_foldl (fun s p => by
    split
    · exact enqueue_answers s p _
    · exact onlyAnswers_refl s) _ s

theorem reclaimBank_answers (s : State) (b : Bank) (d : Int) : s.OnlyAnswers (s.reclaimBank b d) := by
  unfold State.reclaimBank
  refine onlyAnswers_foldl (fun s' h => ?_) _ s
  split
  · exact onlyAnswers_refl s'
  · exact notify_answers s' _ _

theorem reclaimQuad_answers (s : State) (q : Quad) : s.OnlyAnswers (s.reclaimQuad q) :=
  onlyAnswers_foldl (fun s' b => reclaimBank_answers s' b _) _ s

/-- An evaluation sets the maintenance state; all else it does is the work of the hold controller (R74). -/
theorem evaluateQuad_holds (s : State) (q : Quad) :
    (s.setMaintenance q (maintenanceOf s.config.reclaimLevel (s.quad q).debt)).OnlyHolds (s.evaluateQuad q) := by
  unfold State.evaluateQuad
  simp only []
  split <;> first
    | exact onlyHolds_refl _
    | exact onlyHolds_of_answers (reclaimQuad_answers _ q)
    | exact revokeQuad_holds _ q
    | exact serveQuad_holds _ q

/-! ## What keeps the store -/

theorem setMaintenance_store (s : State) (q : Quad) (m : Maintenance) : s.KeepsStore (s.setMaintenance q m) :=
  ⟨rfl, rfl, rfl, rfl, rfl⟩

theorem setDebt_store (s : State) (q : Quad) (d : Int) : s.KeepsStore (s.setDebt q d) := ⟨rfl, rfl, rfl, rfl, rfl⟩

theorem evaluateQuad_store (s : State) (q : Quad) : s.KeepsStore (s.evaluateQuad q) :=
  keepsStore_trans (setMaintenance_store s q _) (keepsStore_of_holds (evaluateQuad_holds s q))

theorem evaluateAll_store (s : State) : s.KeepsStore s.evaluateAll := keepsStore_foldl evaluateQuad_store _ s

theorem lapseQuad_store (s : State) (q : Quad) : s.KeepsStore (s.lapseQuad q) :=
  keepsStore_trans (t := s.setQuad q { s.quad q with lapse := true }) ⟨rfl, rfl, rfl, rfl, rfl⟩
    (keepsStore_of_holds (onlyHolds_of_answers (lapseNotices_answers _ q)))

theorem expireQuad_store (s : State) (q : Quad) : s.KeepsStore (s.expireQuad q) := by
  unfold State.expireQuad
  split
  · exact keepsStore_refl s
  · split
    · exact keepsStore_trans (setDebt_store s q _) (evaluateQuad_store _ q)
    · exact lapseQuad_store s q

theorem refreshChoice_store (s : State) : s.KeepsStore s.refreshChoice := by
  unfold State.refreshChoice
  split
  · exact keepsStore_refl s
  · split
    · exact ⟨rfl, rfl, rfl, rfl, rfl⟩
    · exact keepsStore_refl s

theorem withoutStart_store (s : State) (q : Quad) : s.KeepsStore (s.withoutStart q) := ⟨rfl, rfl, rfl, rfl, rfl⟩

/-- The two orders of an OPEN and a refresh start (R92): the OPEN as the hold controller decides it after the start, or without the
start, upon which the arbiter chooses. -/
theorem orderedOpen_cases (s : State) (p : Port) (t : Tag) (bank : Byte) (row : BitVec 16) (mode : HoldMode) (wait : Bool) :
    s.orderedOpen p t bank row mode wait = s.holdOpen p t bank row mode wait
      ∨ ∃ q, s.startTogether = some q ∧ s.takesBankFrom q p bank row mode = true
          ∧ s.orderedOpen p t bank row mode wait = ((s.withoutStart q).holdOpen p t bank row mode wait).refreshChoice := by
  unfold State.orderedOpen
  split
  · rename_i q hq
    split
    · rename_i h
      rw [Bool.and_eq_true] at h
      exact Or.inr ⟨q, hq, h.1, rfl⟩
    · exact Or.inl rfl
  · exact Or.inl rfl

/-- An OPEN takes part in no more than grants, answers and, where it comes before a refresh start, the refresh unit (R92). -/
theorem orderedOpen_store (s : State) (p : Port) (t : Tag) (bank : Byte) (row : BitVec 16) (mode : HoldMode) (wait : Bool) :
    s.KeepsStore (s.orderedOpen p t bank row mode wait) := by
  have h := fun s : State => keepsStore_of_holds (holdOpen_holds s p t bank row mode wait)
  rcases orderedOpen_cases s p t bank row mode wait with e | ⟨q, -, -, e⟩ <;> rw [e]
  · exact h s
  · exact keepsStore_trans (keepsStore_trans (withoutStart_store s q) (h _)) (refreshChoice_store _)

/-- Away from a refresh start of the same moment an OPEN is the hold controller's alone. -/
theorem orderedOpen_apart {s : State} (h : s.startTogether = none) (p : Port) (t : Tag) (bank : Byte) (row : BitVec 16)
    (mode : HoldMode) (wait : Bool) : s.orderedOpen p t bank row mode wait = s.holdOpen p t bank row mode wait := by
  unfold State.orderedOpen
  rw [h]

theorem finishRefresh_store (s : State) (q : Quad) : s.KeepsStore (s.finishRefresh q) := by
  unfold State.finishRefresh
  simp only []
  refine keepsStore_trans (t := if s.cleared q then (s.setDebt q ((s.quad q).debt - 1)).evaluateQuad q else s) ?_ ?_
  · split
    · exact keepsStore_trans (setDebt_store s q _) (evaluateQuad_store _ q)
    · exact keepsStore_refl s
  · generalize (if s.cleared q then (s.setDebt q ((s.quad q).debt - 1)).evaluateQuad q else s) = paid
    have hs := keepsStore_of_holds (serveQuad_holds (paid.setQuadPhase q .closed) q)
    exact ⟨hs.1, hs.2.1, hs.2.2.1, hs.2.2.2.1, hs.2.2.2.2⟩

theorem enterRetention_store (s : State) : s.KeepsStore s.enterRetention := by
  unfold State.enterRetention
  split
  · exact ⟨rfl, rfl, rfl, rfl, rfl⟩
  · exact keepsStore_refl s

theorem settle_store (s : State) : s.KeepsStore s.settle :=
  keepsStore_trans (keepsStore_trans (keepsStore_trans (keepsStore_of_holds (arbiterChoice_holds s))
    (keepsStore_of_holds (onlyHolds_of_answers (finishSessions_answers _)))) (refreshChoice_store _))
    (enterRetention_store _)

theorem releaseRole_store (s : State) (p : Port) : s.KeepsStore (s.releaseRole p) := by
  unfold State.releaseRole
  split
  · exact ⟨rfl, rfl, rfl, rfl, rfl⟩
  · exact keepsStore_refl s

theorem attachSession_store (s : State) (p : Port) (t : Tag) (role : Byte) : s.KeepsStore (s.attachSession p t role) := by
  unfold State.attachSession
  split
  · exact keepsStore_of_holds (onlyHolds_of_answers (answer_answers _ _ _ _))
  · simp only []
    refine keepsStore_trans ?_ (keepsStore_of_holds (onlyHolds_of_answers (answer_answers _ _ _ _)))
    exact ⟨rfl, rfl, rfl, rfl, rfl⟩

theorem detachSession_store (s : State) (p : Port) (t : Tag) : s.KeepsStore (s.detachSession p t) := by
  unfold State.detachSession
  refine keepsStore_trans ?_ (keepsStore_of_holds (detachHolds_holds _ p))
  refine keepsStore_trans ?_ (keepsStore_of_holds (removePortBursts_holds _ p _))
  refine keepsStore_trans ?_ (releaseRole_store _ p)
  exact ⟨rfl, rfl, rfl, rfl, rfl⟩

theorem teardownSession_store (s : State) (p : Port) : s.KeepsStore (s.teardownSession p) := by
  have h : s.KeepsStore ((((s.setSession p tornDownSession).releaseRole p).removePortBursts p .cancelled).teardownHolds p) := by
    refine keepsStore_trans ?_ (keepsStore_of_holds (teardownHolds_holds _ p))
    refine keepsStore_trans ?_ (keepsStore_of_holds (removePortBursts_holds _ p _))
    refine keepsStore_trans ?_ (releaseRole_store _ p)
    exact ⟨rfl, rfl, rfl, rfl, rfl⟩
  unfold State.teardownSession
  split
  · exact h
  · exact h
  · exact keepsStore_refl s
  · exact keepsStore_refl s

theorem linkFault_store (s : State) (p : Port) (r : FaultReason) : s.KeepsStore (s.linkFault p r) := by
  unfold State.linkFault
  refine keepsStore_trans ?_ (settle_store _)
  refine keepsStore_trans ?_ (teardownSession_store _ p)
  exact ⟨rfl, rfl, rfl, rfl, rfl⟩

end Sys2Proof.Machine
end

