-- ==== Sys2Proof/Laws/Banks.lean ====
section
/-!
SUPPORT. What the operations on one bank leave alone: every other bank; and what an answer leaves alone: every bank.
-/

namespace Sys2Proof.Machine

open Sys2Proof

/-- At most one bank's record differs. -/
def State.OnlyBank (s t : State) (b : Bank) : Prop := ∀ c, c ≠ b → t.bank c = s.bank c

theorem onlyBank_refl (s : State) (b : Bank) : s.OnlyBank s b := fun _ _ => rfl

theorem onlyBank_trans {s t u : State} {b : Bank} (h1 : s.OnlyBank t b) (h2 : t.OnlyBank u b) : s.OnlyBank u b :=
  fun c hc => (h2 c hc).trans (h1 c hc)

theorem onlyBank_of_answers {s t : State} (h : s.OnlyAnswers t) (b : Bank) : s.OnlyBank t b :=
  fun c _ => onlyAnswers_bank h c

theorem setBank_onlyBank (s : State) (b : Bank) (r : BankRecord) : s.OnlyBank (s.setBank b r) b :=
  fun _ hc => bank_setBank_ne _ _ hc

/-! ## Answers -/

@[simp] theorem answer_bank (s : State) (p : Port) (t : Tag) (a : Answer) (c : Bank) : (s.answer p t a).bank c = s.bank c :=
  onlyAnswers_bank (answer_answers s p t a) c

@[simp] theorem answerWork_bank (s : State) (p : Port) (t : Tag) (a : Answer) (c : Bank) :
    (s.answerWork p t a).bank c = s.bank c :=
  onlyAnswers_bank (answerWork_answers s p t a) c

@[simp] theorem answerTag_bank (s : State) (p : Port) (t : Option Tag) (a : Answer) (c : Bank) :
    (s.answerTag p t a).bank c = s.bank c :=
  onlyAnswers_bank (answerTag_answers s p t a) c

@[simp] theorem notify_bank (s : State) (p : Port) (e : OutEntry) (c : Bank) : (s.notify p e).bank c = s.bank c :=
  onlyAnswers_bank (notify_answers s p e) c

@[simp] theorem finishSessions_bank (s : State) (c : Bank) : s.finishSessions.bank c = s.bank c :=
  onlyAnswers_bank (finishSessions_answers s) c

@[simp] theorem arbiterChoice_bank (s : State) (c : Bank) : s.arbiterChoice.bank c = s.bank c := by
  unfold State.arbiterChoice
  split
  · rfl
  · split <;> rfl

@[simp] theorem enterRetention_bank (s : State) (c : Bank) : s.enterRetention.bank c = s.bank c := by
  unfold State.enterRetention
  split <;> rfl

/-! ## Operations on one bank -/

theorem completeUpgrade_onlyBank (s : State) (b : Bank) : s.OnlyBank (s.completeUpgrade b) b := by
  unfold State.completeUpgrade
  split
  · split
    · exact onlyBank_trans (setBank_onlyBank s b _) (onlyBank_of_answers (answerWork_answers _ _ _ _) b)
    · exact onlyBank_refl s b
  · exact onlyBank_refl s b

theorem afterLeaving_onlyBank (s : State) (b : Bank) : s.OnlyBank (s.afterLeaving b) b := by
  unfold State.afterLeaving
  simp only []
  split
  · split
    · exact setBank_onlyBank s b _
    · exact onlyBank_refl s b
  · exact completeUpgrade_onlyBank s b

theorem leaveBank_onlyBank (s : State) (b : Bank) (p : Port) : s.OnlyBank (s.leaveBank b p) b :=
  onlyBank_trans (setBank_onlyBank s b _) (afterLeaving_onlyBank _ b)

theorem markRecord_onlyBank (s : State) (b : Bank) (p : Port) (f : HoldRecord → HoldRecord) :
    s.OnlyBank (s.markRecord b p f) b :=
  setBank_onlyBank s b _

theorem dropUpgrade_onlyBank (s : State) (b : Bank) (p : Port) (a : Answer) : s.OnlyBank (s.dropUpgrade b p a) b := by
  unfold State.dropUpgrade
  split
  · split
    · exact onlyBank_trans (setBank_onlyBank s b _) (onlyBank_of_answers (answerWork_answers _ _ _ _) b)
    · exact onlyBank_refl s b
  · exact onlyBank_refl s b

theorem dropWait_onlyBank (s : State) (b : Bank) (p : Port) (a : Answer) : s.OnlyBank (s.dropWait b p a) b := by
  unfold State.dropWait
  split
  · exact onlyBank_trans (setBank_onlyBank s b _) (onlyBank_of_answers (answerWork_answers _ _ _ _) b)
  · exact onlyBank_refl s b

theorem grantBatch_onlyBank (s : State) (b : Bank) (w : WaitEntry) : s.OnlyBank (s.grantBatch b w) b := by
  intro c hc
  unfold State.grantBatch State.openOn
  simp [hc]

theorem serveBank_onlyBank (s : State) (b : Bank) : s.OnlyBank (s.serveBank b) b := by
  unfold State.serveBank
  split
  · split
    · exact grantBatch_onlyBank s b _
    · exact onlyBank_refl s b
  · exact onlyBank_refl s b

theorem detachRecord_onlyBank (s : State) (p : Port) (b : Bank) : s.OnlyBank (s.detachRecord p b) b := by
  unfold State.detachRecord
  split
  · exact onlyBank_refl s b
  · split
    · exact onlyBank_refl s b
    · split
      · exact onlyBank_trans (leaveBank_onlyBank s b p) (onlyBank_of_answers (answerTag_answers _ _ _ _) b)
      · exact markRecord_onlyBank s b p _

theorem teardownRecord_onlyBank (s : State) (p : Port) (b : Bank) : s.OnlyBank (s.teardownRecord p b) b := by
  unfold State.teardownRecord
  split
  · exact onlyBank_refl s b
  · split
    · exact onlyBank_refl s b
    · split
      · exact leaveBank_onlyBank s b p
      · exact markRecord_onlyBank s b p _

theorem resetBank_onlyBank (s : State) (b : Bank) : s.OnlyBank (s.resetBank b) b :=
  onlyBank_trans (setBank_onlyBank s b _) (afterLeaving_onlyBank _ b)

theorem expireDwell_onlyBank (s : State) (b : Bank) : s.OnlyBank (s.expireDwell b) b := setBank_onlyBank s b _

theorem completeClose_onlyBank (s : State) (b : Bank) : s.OnlyBank (s.completeClose b) b :=
  onlyBank_trans (setBank_onlyBank s b _) (serveBank_onlyBank _ b)

theorem reportCompletion_onlyBank (s : State) (p : Port) (b : Bank) : s.OnlyBank (s.reportCompletion p b) b := by
  unfold State.reportCompletion
  split
  · exact onlyBank_refl s b
  · split
    · split
      · exact onlyBank_refl s b
      · exact onlyBank_trans (leaveBank_onlyBank s b p) (onlyBank_of_answers (answerTag_answers _ _ _ _) b)
    · split
      · exact onlyBank_trans (leaveBank_onlyBank s b p) (onlyBank_of_answers (notify_answers _ _ _) b)
      · exact onlyBank_refl s b

/-- A sweep over a bank's records that answers only leaves every bank as it was. -/
theorem sweep_bank {f : State → HoldRecord → State × Option HoldRecord}
    (hf : ∀ (s : State) h c, (f s h).1.bank c = s.bank c) :
    ∀ (hs : List HoldRecord) (s : State) (c : Bank), (sweep f hs s).1.bank c = s.bank c
  | [], _, _ => rfl
  | h :: hs, s, c => (sweep_bank hf hs (f s h).1 c).trans (hf s h c)

theorem openRecord_bank (b : Bank) (s : State) (h : HoldRecord) (c : Bank) : (openRecord b s h).1.bank c = s.bank c := by
  unfold openRecord
  split
  · simp
  · split <;> simp

theorem revokeRecord_bank (b : Bank) (s : State) (h : HoldRecord) (c : Bank) :
    (revokeRecord b s h).1.bank c = s.bank c := by
  unfold revokeRecord
  split
  · rfl
  · split
    · rfl
    · split
      · rfl
      · split <;> simp

theorem completeOpen_onlyBank (s : State) (b : Bank) : s.OnlyBank (s.completeOpen b) b := by
  unfold State.completeOpen
  exact onlyBank_trans (fun c _ => sweep_bank (openRecord_bank b) _ _ c)
    (onlyBank_trans (setBank_onlyBank _ b _) (completeUpgrade_onlyBank _ b))

theorem foldl_bank {α : Type} {f : State → α → State} {c : Bank} (hf : ∀ (s : State) x, (f s x).bank c = s.bank c) :
    ∀ (xs : List α) (s : State), (xs.foldl f s).bank c = s.bank c
  | [], _ => rfl
  | x :: xs, s => (foldl_bank hf xs (f s x)).trans (hf s x)

theorem revokeBank_onlyBank (s : State) (b : Bank) : s.OnlyBank (s.revokeBank b) b := by
  unfold State.revokeBank
  have removed : s.OnlyBank (allFour.foldl (fun s p => s.removeBankBursts p b .revoked) s) b :=
    fun c _ => foldl_bank (fun s p => removeBankBursts_bank s p b .revoked c) allFour s
  refine onlyBank_trans removed ?_
  simp only []
  refine onlyBank_trans ?_ (onlyBank_trans (fun c _ => sweep_bank (revokeRecord_bank b) _ _ c)
    (onlyBank_trans (setBank_onlyBank _ b _) (afterLeaving_onlyBank _ b)))
  split
  · exact dropUpgrade_onlyBank _ b _ _
  · exact onlyBank_refl _ b

/-- An operation on one bank after another leaves the banks outside the list alone. -/
theorem foldl_bank_ne {f : State → Bank → State} (hf : ∀ (s : State) b, s.OnlyBank (f s b) b) :
    ∀ (bs : List Bank) (s : State) (c : Bank), c ∉ bs → (bs.foldl f s).bank c = s.bank c
  | [], _, _, _ => rfl
  | b :: bs, s, c, h =>
    (foldl_bank_ne hf bs (f s b) c (fun hc => h (List.mem_cons_of_mem _ hc))).trans
      (hf s b c (fun e => h (e ▸ List.mem_cons_self ..)))

/-- The banks of a quad are those of its group. -/
theorem mem_quadBanks (q : Quad) (b : Bank) : b ∈ quadBanks q ↔ groupOf b = q := by
  revert q b; decide

theorem serveQuad_bank_ne (s : State) (q : Quad) (c : Bank) (h : groupOf c ≠ q) : (s.serveQuad q).bank c = s.bank c :=
  foldl_bank_ne serveBank_onlyBank _ s c (fun hc => h ((mem_quadBanks q c).1 hc))

theorem revokeQuad_bank_ne (s : State) (q : Quad) (c : Bank) (h : groupOf c ≠ q) : (s.revokeQuad q).bank c = s.bank c :=
  foldl_bank_ne revokeBank_onlyBank _ s c (fun hc => h ((mem_quadBanks q c).1 hc))

end Sys2Proof.Machine
end

