-- ==== Sys2Proof/Laws/Integrity.lean ====
section
/-!
SUPPORT. The classification of units: for any check code of R102 the table of R104 for no, one and two changed bits is a
function of the stored bits alone, so that "the same stored bits give the same classification at every read".
-/

namespace Sys2Proof.Machine

open Sys2Proof

/-! ## Changed bits, counted -/

theorem countBits_xor_le {w : Nat} (a b : BitVec w) : ∀ n, countBits (a ^^^ b) n ≤ countBits a n + countBits b n
  | 0 => le_refl _
  | n + 1 => by
    have := countBits_xor_le a b n
    simp only [countBits, BitVec.getLsbD_xor]
    cases a.getLsbD n <;> cases b.getLsbD n <;> simp <;> omega

theorem eq_zero_of_countBits {w : Nat} (d : BitVec w) (h : countBits d w = 0) : d = 0 := by
  ext i hi
  have := countBits_zero_imp d w h i hi
  rw [BitVec.getLsbD_eq_getElem hi] at this
  rw [this]; simp

theorem getLsbD_oneBit {w : Nat} (i k : Nat) (hk : k < w) : (1#w <<< i).getLsbD k = decide (k = i) := by
  rw [BitVec.getLsbD_shiftLeft]
  rcases Nat.lt_trichotomy k i with h | h | h
  · simp [h, show ¬ k = i by omega]
  · simp [h]; omega
  · have : k - i ≠ 0 := by omega
    simp [this, show ¬ k = i by omega, show ¬ k < i by omega, hk, BitVec.getLsbD_one]

/-- A bit changed changes the count at that bit alone. -/
theorem countBits_flip {w : Nat} (d : BitVec w) (i : Nat) : ∀ n, n ≤ w →
    countBits (d ^^^ (1#w <<< i)) n + (if i < n ∧ d.getLsbD i then 1 else 0) =
      countBits d n + (if i < n ∧ d.getLsbD i = false then 1 else 0)
  | 0, _ => by simp [countBits]
  | n + 1, hn => by
    have ih := countBits_flip d i n (by omega)
    have hb : (1#w <<< i).getLsbD n = decide (n = i) := getLsbD_oneBit i n (by omega)
    simp only [countBits, BitVec.getLsbD_xor, hb]
    rcases Nat.lt_trichotomy n i with h | h | h
    · simp only [show ¬ i < n by omega, show ¬ i < n + 1 by omega, show ¬ n = i by omega, false_and, if_false, decide_false,
        Bool.xor_false] at ih ⊢
      omega
    · subst h
      simp only [lt_irrefl, false_and, if_false] at ih
      cases d.getLsbD n <;> simp <;> omega
    · simp only [show i < n by omega, show i < n + 1 by omega, show ¬ n = i by omega, true_and, decide_false,
        Bool.xor_false] at ih ⊢
      omega

theorem exists_bit {w : Nat} (d : BitVec w) : ∀ n, 0 < countBits d n → ∃ i < n, d.getLsbD i = true
  | 0, h => by simp [countBits] at h
  | n + 1, h => by
    cases hd : d.getLsbD n
    · simp only [countBits, hd] at h
      obtain ⟨i, hi, e⟩ := exists_bit d n (by simpa using h)
      exact ⟨i, by omega, e⟩
    · exact ⟨n, by omega, hd⟩

/-- The changed bits of data and check bits together. -/
def weight (d : UnitData) (c : Byte) : Nat := countBits d 64 + countBits c 8

theorem weight_eq_zero {d : UnitData} {c : Byte} (h : weight d c = 0) : d = 0 ∧ c = 0 := by
  unfold weight at h
  exact ⟨eq_zero_of_countBits d (by omega), eq_zero_of_countBits c (by omega)⟩

theorem weight_xor_le (d e : UnitData) (c k : Byte) : weight (d ^^^ e) (c ^^^ k) ≤ weight d c + weight e k := by
  have h1 := countBits_xor_le d e 64
  have h2 := countBits_xor_le c k 8
  unfold weight; omega

theorem flipData_eq (d : UnitData) (i : Nat) : flipData d i = d ^^^ flipData 0 i := by
  unfold flipData; split <;> simp

theorem flipCheck_eq (c : Byte) (i : Nat) : flipCheck c i = c ^^^ flipCheck 0 i := by
  unfold flipCheck; split <;> simp

theorem flipData_xor (d e : UnitData) (i : Nat) : flipData (d ^^^ e) i = d ^^^ flipData e i := by
  rw [flipData_eq (d ^^^ e), flipData_eq e, BitVec.xor_assoc]

theorem flipCheck_xor (c k : Byte) (i : Nat) : flipCheck (c ^^^ k) i = c ^^^ flipCheck k i := by
  rw [flipCheck_eq (c ^^^ k), flipCheck_eq k, BitVec.xor_assoc]

/-- Some bit can be changed back. -/
theorem exists_flip_back {d : UnitData} {c : Byte} {n : Nat} (h : weight d c = n + 1) :
    ∃ i < 72, weight (flipData d i) (flipCheck c i) = n := by
  unfold weight at h ⊢
  rcases Nat.eq_zero_or_pos (countBits d 64) with hz | hp
  · obtain ⟨i, hi, e⟩ := exists_bit c 8 (by omega)
    refine ⟨64 + i, by omega, ?_⟩
    have hf := countBits_flip c i 8 (le_refl _)
    simp only [hi, e, true_and, if_true] at hf
    simp [flipData, flipCheck] at hf ⊢
    omega
  · obtain ⟨i, hi, e⟩ := exists_bit d 64 hp
    refine ⟨i, by omega, ?_⟩
    have hf := countBits_flip d i 64 (le_refl _)
    simp only [hi, e, true_and, if_true] at hf
    simp [flipData, flipCheck, hi] at hf ⊢
    omega

theorem weight_oneBit (i : Nat) (hi : i < 72) : weight (flipData 0 i) (flipCheck 0 i) = 1 := by
  have h : ∀ j : Fin 72, weight (flipData 0 j.val) (flipCheck 0 j.val) = 1 := by decide +kernel
  exact h ⟨i, hi⟩

/-! ## Units in agreement -/

/-- Two units in agreement with their check bits that differ in fewer than four bits are the same. -/
theorem agrees_unique {d d' : UnitData} {c c' : Byte} (h : agrees d c = true) (h' : agrees d' c' = true)
    (hw : weight (d ^^^ d') (c ^^^ c') < 4) : d = d' ∧ c = c' := by
  simp only [agrees, beq_iff_eq] at h h'
  by_cases he : d ^^^ d' = 0
  · have hd := BitVec.xor_eq_zero_iff.1 he
    exact ⟨hd, by rw [← h, ← h', hd]⟩
  · have hx := Config.code.distance d (d ^^^ d') he
    rw [← BitVec.xor_assoc, BitVec.xor_self, BitVec.zero_xor, h, h'] at hx
    unfold weight at hw
    omega

theorem agrees_written (x : UnitBits) : agrees x.written (Config.code.checkBits x.written) = true := by simp [agrees]

theorem data_xor_changed (x : UnitBits) : x.data ^^^ x.written = x.changedData := by
  unfold UnitBits.data
  rw [BitVec.xor_comm x.written, BitVec.xor_assoc, BitVec.xor_self, BitVec.xor_zero]

theorem check_xor_changed (x : UnitBits) : x.check ^^^ Config.code.checkBits x.written = x.changedCheck := by
  unfold UnitBits.check
  rw [BitVec.xor_comm (Config.code.checkBits x.written), BitVec.xor_assoc, BitVec.xor_self, BitVec.xor_zero]

/-- Stored bits in agreement, with fewer than four bits changed, have none changed. -/
theorem not_agrees {x : UnitBits} (h0 : x.changed ≠ 0) (h4 : x.changed < 4) : agrees x.data x.check = false := by
  rw [Bool.eq_false_iff]
  intro h
  have he := agrees_unique h (agrees_written x) (by rw [data_xor_changed, check_xor_changed]; exact h4)
  apply h0
  have hd := data_xor_changed x
  have hc := check_xor_changed x
  rw [he.1, BitVec.xor_self] at hd
  rw [he.2, BitVec.xor_self] at hc
  simp only [UnitBits.changed, ← hd, ← hc]
  decide

/-- A change of one bit that brings a unit of two changed bits or fewer into agreement brings it back as it was written. -/
theorem flip_restores {x : UnitBits} (h : x.changed ≤ 2) {i : Nat} (hi : i < 72)
    (ha : agrees (flipData x.data i) (flipCheck x.check i) = true) :
    flipData x.data i = x.written ∧ x.changedData = flipData 0 i ∧ x.changedCheck = flipCheck 0 i := by
  have hw : weight (flipData x.data i ^^^ x.written) (flipCheck x.check i ^^^ Config.code.checkBits x.written) < 4 := by
    rw [BitVec.xor_comm _ x.written, BitVec.xor_comm _ (Config.code.checkBits x.written), ← flipData_xor, ← flipCheck_xor,
      BitVec.xor_comm x.written, BitVec.xor_comm (Config.code.checkBits x.written), data_xor_changed, check_xor_changed,
      flipData_eq, flipCheck_eq]
    have h1 := weight_xor_le x.changedData (flipData 0 i) x.changedCheck (flipCheck 0 i)
    rw [weight_oneBit i hi] at h1
    change countBits x.changedData 64 + countBits x.changedCheck 8 ≤ 2 at h
    unfold weight at h1 ⊢
    omega
  obtain ⟨hd, hc⟩ := agrees_unique ha (agrees_written x) hw
  refine ⟨hd, ?_, ?_⟩
  · rw [← data_xor_changed x]
    conv_lhs => rw [← hd]
    rw [flipData_eq x.data, ← BitVec.xor_assoc, BitVec.xor_self, BitVec.zero_xor]
  · rw [← check_xor_changed x]
    conv_lhs => rw [← hc]
    rw [flipCheck_eq x.check, ← BitVec.xor_assoc, BitVec.xor_self, BitVec.zero_xor]

/-- The stored bits of a unit whose changed bits a list of changes undoes. -/
theorem agrees_of_restored (x : UnitBits) {d : UnitData} {c : Byte} (hd : x.written ^^^ d = x.written)
    (hc : Config.code.checkBits x.written ^^^ c = Config.code.checkBits x.written) :
    agrees (x.written ^^^ d) (Config.code.checkBits x.written ^^^ c) = true := by
  rw [hd, hc]; exact agrees_written x

/-- The classification of a unit is that of its stored bits (R104). -/
theorem UnitBits.verdict_of_stored (x : UnitBits) : x.verdict = classifyStored x.data x.check := by
  unfold UnitBits.verdict
  split
  · rename_i h
    obtain ⟨hd, hc⟩ := weight_eq_zero (d := x.changedData) (c := x.changedCheck) h
    have ha : agrees x.data x.check = true := by
      unfold UnitBits.data UnitBits.check
      exact agrees_of_restored x (by rw [hd]; exact BitVec.xor_zero) (by rw [hc]; exact BitVec.xor_zero)
    simp [classifyStored, ha]
  · rename_i h
    obtain ⟨i, hi, hw⟩ := exists_flip_back (d := x.changedData) (c := x.changedCheck) h
    obtain ⟨hd, hc⟩ := weight_eq_zero hw
    have ha : agrees (flipData x.data i) (flipCheck x.check i) = true := by
      unfold UnitBits.data UnitBits.check
      rw [flipData_xor, flipCheck_xor]
      exact agrees_of_restored x (by rw [hd]; exact BitVec.xor_zero) (by rw [hc]; exact BitVec.xor_zero)
    unfold classifyStored oneBitAway
    rw [not_agrees (by omega) (by omega)]
    cases hf : (List.range 72).find? (fun i => agrees (flipData x.data i) (flipCheck x.check i)) with
    | none => exact absurd ha (List.find?_eq_none.1 hf i (List.mem_range.2 hi))
    | some j =>
      have hj72 : j < 72 := List.mem_range.1 (List.mem_of_find?_eq_some hf)
      have haj : agrees (flipData x.data j) (flipCheck x.check j) = true :=
        List.find?_some (p := fun i => agrees (flipData x.data i) (flipCheck x.check i)) hf
      have hj := flip_restores (x := x) (by omega) hj72 haj
      simp [hj.1]
  · rename_i h
    obtain ⟨i, hi, hw⟩ := exists_flip_back (d := x.changedData) (c := x.changedCheck) h
    obtain ⟨j, hj, hw'⟩ := exists_flip_back hw
    obtain ⟨hd, hc⟩ := weight_eq_zero hw'
    have ha : agrees (flipData (flipData x.data i) j) (flipCheck (flipCheck x.check i) j) = true := by
      unfold UnitBits.data UnitBits.check
      rw [flipData_xor, flipCheck_xor, flipData_xor, flipCheck_xor]
      exact agrees_of_restored x (by rw [hd]; exact BitVec.xor_zero) (by rw [hc]; exact BitVec.xor_zero)
    have hnone : oneBitAway x.data x.check = none := List.find?_eq_none.2 fun k hk hagree => by
      have hr := flip_restores (by omega) (List.mem_range.1 hk) hagree
      have h1 := weight_oneBit k (List.mem_range.1 hk)
      rw [← hr.2.1, ← hr.2.2] at h1
      change weight x.changedData x.changedCheck = 2 at h
      omega
    have htwo : twoBitsAway x.data x.check = true := List.any_eq_true.2 ⟨i, List.mem_range.2 hi, by
      unfold oneBitAway
      rw [List.find?_isSome]
      exact ⟨j, List.mem_range.2 hj, ha⟩⟩
    unfold classifyStored
    rw [not_agrees (by omega) (by omega), hnone, htwo]
    simp
  · rfl

end Sys2Proof.Machine
end

