-- ==== Sys2Proof/Laws/Requests.lean ====
section
/-!
SUPPORT. From the arrival of a good request to its owner: the checks pass, the tag is taken, and a final answer frees it again
in the same event (R120, R135, R138).
-/

namespace Sys2Proof.Machine

open Sys2Proof

/-- A response enters at the tail (R127). -/
@[simp] theorem placeEntry_response (queue : List OutEntry) (t : Tag) (a : Answer) :
    placeEntry queue (.response t a) = queue ++ [.response t a] := by
  have h : queue.any (fun x => x.sameSubject (.response t a)) = false := by
    rw [List.any_eq_false]
    intro x _
    cases x <;> simp [OutEntry.sameSubject]
  unfold placeEntry
  rw [h]
  simp

theorem tag_free_of_hears {s : State} {h : Header} (hh : s.hears h) :
    sixteenGet (s.session h.port).tags h.tag = .free := by
  have hf := hh.2.2.2
  unfold State.inFlight at hf
  simp only [Bool.or_eq_false_iff, bne_eq_false_iff_eq] at hf
  exact hf.1

/-- An arrival on a link that listens is checked by its link unit. -/
theorem receive_listens {s : State} {p : Port} (h : s.listens p) (a : Arrival) : s.receive p a = s.accept p a := by
  unfold State.receive
  rw [h.2]
  rcases h.1 with hm | hm <;> simp [hm]

/-- A good request reaches the session unit with the expected sequence number advanced (R120). -/
theorem request_good {s : State} {h : Header} (hh : s.hears h) {r : Request} (he : r.encodable = true) :
    s.request h r = (s.advanceSeq h.port).take h.port h.tag r := by
  unfold State.request
  rw [receive_listens hh.1]
  unfold State.accept State.linkCheck State.goodPacket goodArrival
  simp [hh.2.1, hh.2.2.1, hh.2.2.2, he]

/-- The first two steps of the taking, for a request other than IDLE (R135). -/
theorem begin_taken (s : State) (h : Header) {r : Request} (hr : r ≠ .idle) :
    (s.advanceSeq h.port).beginRequest h.port h.tag r = s.taken h := by
  unfold State.beginRequest
  rw [if_neg hr]
  simp [State.setTag, State.setVote, State.advanceSeq, State.taken]
  rfl

theorem request_taken {s : State} {h : Header} (hh : s.hears h) {r : Request} (he : r.encodable = true)
    (hr : r ≠ .idle) : s.request h r = (s.taken h).dispatch h.port h.tag r := by
  rw [request_good hh he, State.take, begin_taken s h hr]

/-- A final answer as the request is taken: the response enters the queue, and the tag is FREE again (R138). -/
theorem taken_answer {s : State} {h : Header} (hh : s.hears h) {a : Answer} (ha : a.tagAfter = .free) :
    (s.taken h).answer h.port h.tag a = s.answered h false a := by
  have ht := tag_free_of_hears hh
  have hs : sixteenSet (sixteenSet (s.session h.port).tags h.tag .busy) h.tag .free = (s.session h.port).tags := by
    rw [sixteen_set_set, ← ht, sixteen_set_get]
  unfold State.answer State.enqueue
  simp only [setTag_link, State.taken, setSession_link, link_setLink_same, hh.2.1, if_true, ha]
  simp only [State.setTag, session_setSession_same, hs, setSession_setSession, placeEntry_response]
  have hu : (s.links.get h.port).up = true := hh.2.1
  simp [State.answered, State.replied, State.setLink, State.setSession, State.session, State.link, hu]

/-! ## What the taking of a request leaves alone -/

@[simp] theorem taken_bank (s : State) (h : Header) (b : Bank) : (s.taken h).bank b = s.bank b := rfl
@[simp] theorem taken_banks (s : State) (h : Header) : (s.taken h).banks = s.banks := rfl
@[simp] theorem taken_bursts (s : State) (h : Header) : (s.taken h).bursts = s.bursts := rfl
@[simp] theorem taken_burstQueue (s : State) (h : Header) (p : Port) : (s.taken h).burstQueue p = s.burstQueue p := rfl
@[simp] theorem taken_config (s : State) (h : Header) : (s.taken h).config = s.config := rfl
@[simp] theorem taken_quads (s : State) (h : Header) : (s.taken h).quads = s.quads := rfl
@[simp] theorem taken_quad (s : State) (h : Header) (q : Quad) : (s.taken h).quad q = s.quad q := rfl
@[simp] theorem taken_modeCtl (s : State) (h : Header) : (s.taken h).modeCtl = s.modeCtl := rfl
@[simp] theorem taken_mode (s : State) (h : Header) : (s.taken h).mode = s.mode := rfl
@[simp] theorem taken_cleared (s : State) (h : Header) (q : Quad) : (s.taken h).cleared q = s.cleared q := rfl
@[simp] theorem taken_integrity (s : State) (h : Header) : (s.taken h).integrity = s.integrity := rfl
@[simp] theorem taken_array (s : State) (h : Header) : (s.taken h).array = s.array := rfl
@[simp] theorem taken_now (s : State) (h : Header) : (s.taken h).now = s.now := rfl
@[simp] theorem taken_stamp (s : State) (h : Header) : (s.taken h).stamp = s.stamp := rfl
@[simp] theorem taken_use (s : State) (h : Header) (p : Port) : (s.taken h).use p = s.use p := rfl
@[simp] theorem taken_isMaintainer (s : State) (h : Header) (p : Port) :
    (s.taken h).isMaintainer p = s.isMaintainer p := rfl
@[simp] theorem taken_marks (s : State) (h : Header) : (s.taken h).marks = s.countRequest.marks := rfl
@[simp] theorem taken_session_state (s : State) (h : Header) :
    ((s.taken h).session h.port).state = (s.session h.port).state := by
  simp [State.taken]

end Sys2Proof.Machine
end

