-- ==== Sys2Proof/Tests/Slice0.lean ====
section
/-!
SUPPORT. Tests: ill-formed terms refused by the check, packets written out byte by byte from chapter 11, and for every statement
a small state and operands that meet its hypotheses, clause by clause.
-/

namespace Sys2Proof.Tests

open Sys2Proof Sys2Proof.Machine

set_option Elab.async false

/-! ## Small states -/

/-- A link that is UP with carrier, expecting sequence number 1. -/
def upLink : Link := { Link.powerOn true with up := true, expectedSeq := 1 }

/-- An ATTACHED session of a USER with every tag FREE. -/
def attachedUser : Session := { Session.powerOn with state := .attached, role := some .user }

/-- ACTIVE, every quad cleared to zero, four links UP and four sessions ATTACHED, every bank CLOSED. -/
def calm : State :=
  { State.reset with
    modeCtl := { State.reset.modeCtl with mode := .active, clearStates := Four.all .cleared, clearRun := none }
    array := { cells := [], upsets := [], lateUpsets := [], base := Four.all .zero, epoch := 1 }
    banks := sixteenAll BankRecord.powerOn
    sessions := Four.all attachedUser
    links := Four.all upLink }

/-- A header that `calm` hears on port 0. -/
def head : Header := { port := 0, sequence := 1, tag := 2 }

/-- An unmarked record. -/
def record (p : Port) (m : HoldMode) : HoldRecord := newRecord p m none 0

/-- A bank with row 5 and records. -/
def bankWith (phase : BankPhase) (holds : List HoldRecord) : BankRecord :=
  { BankRecord.powerOn with phase := phase, row := some 5, dwellExpired := some false, holds := holds }

/-- `calm` with bank 3 in a phase, with records. -/
def withBank (phase : BankPhase) (holds : List HoldRecord) : State := calm.setBank 3 (bankWith phase holds)

/-- A wait entry for row 5. -/
def waiting (p : Port) : WaitEntry := { port := p, tag := 9, row := 5, mode := .shared, stamp := 0 }

/-- `calm` with a mode. -/
def inMode (m : DeviceMode) : State := calm.setMode m

/-- `calm` with port 0's session in a state. -/
def inSession (x : SessionState) : State := calm.setSession 0 { attachedUser with state := x }

/-- A burst of port 0 to bank 3, row 5, column 0, of 2 units. -/
def burst (kind : BurstKind) (data : List WriteUnit) : QueuedBurst :=
  { port := 0, tag := 4, kind := kind, bank := 3, row := 5, column := 0, units := 2, autoClose := false, data := data }

/-- Its execution with units finished. -/
def running (kind : BurstKind) (data : List WriteUnit) (done : List UnitResult) : Execution :=
  { burst := burst kind data, startedAt := 0, results := done, cut := none }

/-- Bank 3 OPEN with port 0's EXCLUSIVE record, on which a burst executes. -/
def executing (e : Execution) : State := (withBank .opened [record 0 .exclusive]).setExecuting (some e)

/-- The unit the burst reaches first. -/
def firstUnit : Nat := unitIndex 3 5 0

/-- A state with bits of that unit changed. -/
def struck (s : State) (data : UnitData) : State := { s with array := s.array.corrupt firstUnit data 0 }

/-- Records of ports 0 and 1 on bank 3, with port 1's pending upgrade. -/
def upgrader : State :=
  calm.setBank 3 { bankWith .opened [record 0 .shared, record 1 .shared] with upgrade := some ⟨1, 7⟩ }

/-- Port 0's session DETACHING with detach tag 9, that tag and the burst's in use. -/
def detaching (s : State) : State :=
  s.setSession 0 { attachedUser with
    state := .detaching, detachTag := some 9, tags := sixteenSet (sixteenSet (sixteenAll .free) 9 .busy) 4 .busy }

/-- The clear of quad 0 after its last moment, with one bit changed in its first unit since. -/
def lateStruck : State :=
  { State.reset with now := clearTime, array := State.reset.array.corruptLate 0 1 0 }

/-- `calm` with port 0 as maintainer. -/
def maintained : State := { calm with config := { calm.config with maintainer := some 0 } }

/-- `calm` with a debt and the state that follows from it on quad 1. -/
def indebted (debt : Int) : State := calm.setQuad 1 { debt := debt, state := maintenanceOf 8 debt, lapse := false }

/-! ## Well-formed commands -/

theorem test_wf_write : (Instr.write head 0 0 1 false [⟨0xFF, 0⟩]).wf = true := by decide +kernel
theorem test_wf_write_data_short : (Instr.write head 0 0 2 false [⟨0xFF, 0⟩]).wf = false := by decide +kernel
theorem test_wf_write_too_many_units : (Instr.write head 0 0 28 false (List.replicate 28 ⟨0, 0⟩)).wf = false := by decide +kernel
theorem test_wf_corruption_of_no_bit : (Instr.unitCorruption 0 0 0 0 0).wf = false := by decide +kernel
theorem test_wf_fault_clear_all_is_its_own_row : (Instr.faultClearIndex head 0xFF).wf = false := by decide +kernel

/-! ## Packets, byte by byte (R177, R178, R179) -/

/-- The check value of the polynomial 1021h from FFFFh over "123456789". -/
theorem test_check_word : checkWord [0x31, 0x32, 0x33, 0x34, 0x35, 0x36, 0x37, 0x38, 0x39] = 0x29B1#16 := by decide +kernel
theorem test_packet_hello : decodePacket [0x01, 0x00, 0x05, 0xAB, 0x09] = helloArrival := by decide +kernel
theorem test_packet_link_reset : decodePacket [0x02, 0x30, 0x05, 0xF7, 0xCC] = linkResetArrival 3 := by decide +kernel
theorem test_packet_attach : decodePacket [0x10, 0x12, 0x06, 0x01, 0x08, 0xE3] = goodArrival 1 2 (.attach 1) := by decide +kernel
theorem test_packet_idle : decodePacket [0x12, 0x12, 0x05, 0xD4, 0x2B] = goodArrival 1 2 .idle := by decide +kernel
theorem test_packet_open :
    decodePacket [0x20, 0x27, 0x09, 0x05, 0x1F, 0xFF, 0x03, 0x2A, 0x86] =
      goodArrival 2 7 (.openBank 5 0x1FFF .exclusive true) := by decide +kernel
theorem test_packet_close : decodePacket [0x22, 0x41, 0x06, 0x05, 0x8E, 0x78] = goodArrival 4 1 (.closeBank 5) := by decide +kernel
theorem test_packet_read :
    decodePacket [0x30, 0x41, 0x09, 0x05, 0x78, 0x08, 0x01, 0x7B, 0xEB] = goodArrival 4 1 (.read 5 120 8 true) := by decide +kernel
theorem test_packet_write :
    decodePacket [0x31, 0xF9, 0x12, 0x02, 0x03, 0x01, 0x01, 0x0F, 0x01, 0x02, 0x03, 0x04, 0x05, 0x06, 0x07, 0x08, 0x65,
      0x94] = goodArrival 15 9 (.write 2 3 1 true [⟨0x0F, 0x0807060504030201⟩]) := by decide +kernel
theorem test_packet_cfg_write :
    decodePacket [0x41, 0x41, 0x08, 0x02, 0x00, 0x0B, 0xC0, 0x51] = goodArrival 4 1 (.cfgWrite 2 0 11) := by decide +kernel
theorem test_packet_inspect :
    decodePacket [0x42, 0x41, 0x07, 0x06, 0x00, 0x73, 0xF9] = goodArrival 4 1 (.inspect 6 0) := by decide +kernel
theorem test_packet_fault_clear :
    decodePacket [0x43, 0x41, 0x06, 0xFF, 0xEF, 0x4B] = goodArrival 4 1 (.faultClear 0xFF) := by decide +kernel
theorem test_packet_granted :
    OutEntry.packet (.response 7 (.granted 5 8191 .exclusive)) 5 =
      [0x90, 0x57, 0x0A, 0x02, 0x05, 0x1F, 0xFF, 0x01, 0x00, 0x90] := by decide +kernel
theorem test_packet_reclaim :
    OutEntry.packet (.reclaim 5 8191 8 1) 5 = [0xA0, 0x50, 0x0A, 0x05, 0x1F, 0xFF, 0x08, 0x01, 0x61, 0xB7] := by decide +kernel
theorem test_packet_hello_ack :
    ControlPacket.packet .helloAck 0 2 = [0x81, 0x00, 0x0B, 0x03, 0xC2, 0x04, 0x16, 0x01, 0x02, 0x96, 0x56] := by decide +kernel
theorem test_packet_link_fault :
    ControlPacket.packet (.linkFault .sequence) 9 2 = [0x82, 0x90, 0x06, 0x02, 0x46, 0x4D] := by decide +kernel
/-- Debts below zero are sent in two's complement (R179). -/
theorem test_signed_byte : signedByte (-4) = 0xFC := by decide +kernel

/-! ## Records and bodies, byte by byte (11.3, 11.4) -/

theorem test_record_self :
    let s := ((withBank .opened [record 0 .exclusive]).setBank 7
      { bankWith .closing [] with waitQueue := [waiting 0] }).setBurstQueue 0 [burst .read []]
    s.selfRecord 0 =
      [0x01, 0x00, 0x00, 0x00, 0x00, 0x00, 0x00, 0x02, 0x04, 0x01, 0x03, 0x00, 0x05, 0x01, 0x01, 0x07, 0x00, 0x05, 0x09,
        0x01, 0x04, 0x03, 0x00, 0x82, 0xFF] := by decide +kernel
theorem test_record_bank :
    (executing (running .read [] [])).bankRecordBytes 3 =
      [0x02, 0x00, 0x05, 0x00, 0x01, 0x04, 0x00, 0xFF, 0x03, 0x00, 0x00, 0x00, 0x02, 0x00] := by decide +kernel
theorem test_record_quad :
    (indebted (-3)).quadRecord 1 = [0x02, 0xFD, 0x00, 0x00, 0x00, 0x00, 0x00, 0x00, 0x00, 0x00]
      ∧ State.reset.quadRecord 1 = [0x00, 0x00, 0x00, 0x00, 0x00, 0x80, 0x00, 0x00, 0x00, 0x00] := by decide +kernel
theorem test_record_faults :
    ({ calm with integrity := { calm.integrity with
        faults := [{ bank := 3, row := 8191, column := 2, port := 1, kind := .merge }] } } : State).faultsRecord =
      [0x01, 0x00, 0x00, 0x03, 0x1F, 0xFF, 0x02, 0x11] := by decide +kernel
theorem test_record_counts : calm.countsRecord = List.replicate 16 0x00 := by decide +kernel
theorem test_record_device :
    calm.deviceRecord =
      [0x01, 0x02, 0x02, 0x02, 0x02, 0x01, 0x00, 0x01, 0x00, 0x01, 0x00, 0x01, 0x00, 0x01, 0x00, 0x01, 0x00, 0x01, 0x00,
        0x01, 0x00, 0xFF, 0x30, 0xFF, 0x40, 0x00] := by decide +kernel
theorem test_body_cfg_all :
    (Answer.data (.cfgAll ConfigTable.default)).bytes =
      [0x03, 0x40, 0x08, 0x00, 0x00, 0x00, 0x00, 0x04, 0x04, 0x04, 0x04, 0x00, 0x01, 0xFF] := by decide +kernel
theorem test_body_read :
    (Answer.data (.read 3 5 7 1 true [⟨0x0807060504030201, .corrected⟩])).bytes =
      [0x03, 0x03, 0x00, 0x05, 0x07, 0x01, 0x01, 0x01, 0x02, 0x03, 0x04, 0x05, 0x06, 0x07, 0x08, 0x01] := by decide +kernel

/-! ## Every statement's hypotheses are met -/

/-- A state in which neither a clear nor a refresh is in progress holds the phase law. -/
theorem test_phaseLaw_when_idle (s : State) (hc : s.modeCtl.clearRun = none) (hr : s.refresh = none) : s.phaseLaw := by
  constructor
  · intro r h; rw [hc] at h; cases h
  · intro r h; rw [hr] at h; cases h


/-- `calm` hears a request on an ATTACHED session: the hypotheses of IdleSetsVote, and of every request statement. -/
theorem test_hyps_request : calm.hears head ∧ (calm.session head.port).state = .attached := by decide +kernel

theorem test_hyps_reset_fall : calm.mode ≠ .reset ∧ calm.modeCtl.clearRun = none ∧ State.reset.mode ≠ .reset := by decide +kernel

/-- A clear past its last moment has written every unit of its quad, and none of another quad. -/
theorem test_clear_has_written :
    clearHasWritten lateStruck.modeCtl.clearRun lateStruck.now 0 = true
      ∧ clearHasWritten lateStruck.modeCtl.clearRun lateStruck.now (unitIndex 4 0 0) = false := by
  constructor
  · have h : clearWrote 0 clearTime 0 = true := decide_eq_true (Nat.min_le_right _ _)
    exact h
  · rfl

/-- A clear in progress with a late corruption; and an executing burst before, within and after its units' steps. -/
theorem test_hyps_reset_fall_work :
    let e := running .read [] []
    lateStruck.mode ≠ .reset ∧ lateStruck.modeCtl.clearRun.isSome = true ∧ lateStruck.array.wf = true
      ∧ (executing e).mode ≠ .reset ∧ (executing e).bursts.executing = some e ∧ e.cut = none ∧ e.inUnit 15 = false
      ∧ e.inUnit 16 = true ∧ (running .read [] [⟨0, .ok⟩, ⟨0, .ok⟩]).inUnit 100 = false := by decide +kernel

theorem test_hyps_reset_fall_holds :
    let s := executing (running .read [] [])
    s.mode ≠ .reset ∧ s.maintenanceLaw ∧ s.phaseLaw ∧ s.executingOn 0 3 = true ∧ (s.bank 3).phase = .opened :=
  ⟨by decide +kernel, by unfold State.maintenanceLaw; decide +kernel, test_phaseLaw_when_idle _ rfl rfl, by decide +kernel,
    by decide +kernel⟩

theorem test_hyps_reset_rise :
    (inMode .reset).mode = .reset ∧ (inMode .reset).modeCtl.resetDuringClearing = false
      ∧ (State.powerOn false (Four.all true) 0 0 .none []).mode = .reset
      ∧ (State.powerOn false (Four.all true) 0 0 .none []).modeCtl.resetDuringClearing = true
      ∧ (State.powerOn false (Four.all true) 0 0 .none []).quadClosed 0 = true := by decide +kernel

/-- A state that meets the retention entry condition, and one that does not. -/
theorem test_hyps_retention_entry :
    let s : State := { calm with sessions := Four.all { attachedUser with idleVote := true } }
    s.retentionEntry = true ∧ calm.retentionEntry = false := by decide +kernel

theorem test_hyps_carrier : (State.reset.link 0).up = false ∧ (calm.link 3).up = true := by decide +kernel

theorem test_hyps_down_link :
    State.reset.listens 0 ∧ (State.reset.link 0).up = false
      ∧ ¬ ((decodePacket []).checkAgrees = true ∧ (decodePacket []).content = .hello true ∧ (decodePacket []).sequence = 0)
      ∧ (inMode .reset).mode = .reset ∧ ((calm.setLink 0 (Link.powerOn false)).link 0).carrier = false := by decide +kernel

/-- One byte string for each check: CHECK, SEQUENCE, KIND twice, LENGTH, TAG (sequence number 1 expected). -/
theorem test_hyps_inbound_checks :
    let busy := calm.setSession 0 { attachedUser with tags := sixteenSet (sixteenAll .free) 2 .busy }
    busy.listens 0 ∧ (busy.link 0).up = true ∧ (busy.link 0).expectedSeq = 1
      ∧ (decodePacket []).checkAgrees = false
      ∧ (decodePacket [0x02, 0x30, 0x05, 0xF7, 0xCC]).checkAgrees = true
      ∧ (decodePacket [0x02, 0x30, 0x05, 0xF7, 0xCC]).sequence = 3
      ∧ (decodePacket [0x7F, 0x10, 0x05, 0x6B, 0x73]).content = .notAllowed
      ∧ (decodePacket [0x7F, 0x10, 0x05, 0x6B, 0x73]).sequence = 1
      ∧ (decodePacket [0x01, 0x00, 0x05, 0xAB, 0x09]).content = .hello true
      ∧ (decodePacket [0x10, 0x10, 0x05, 0xDC, 0x29]).content = .badLength
      ∧ (decodePacket [0x10, 0x10, 0x05, 0xDC, 0x29]).sequence = 1
      ∧ (decodePacket [0x12, 0x12, 0x05, 0xD4, 0x2B]).content = .request .idle
      ∧ (decodePacket [0x12, 0x12, 0x05, 0xD4, 0x2B]).sequence = 1
      ∧ busy.inFlight 0 (decodePacket [0x12, 0x12, 0x05, 0xD4, 0x2B]).tag = true := by decide +kernel

/-- A HELLO in its turn on an UP link: expected sequence number 0. -/
theorem test_hyps_inbound_hello :
    let s := calm.setLink 0 { upLink with expectedSeq := 0 }
    s.listens 0 ∧ (s.link 0).up = true ∧ (decodePacket [0x01, 0x00, 0x05, 0xAB, 0x09]).checkAgrees = true
      ∧ (decodePacket [0x01, 0x00, 0x05, 0xAB, 0x09]).sequence = (s.link 0).expectedSeq := by decide +kernel

theorem test_hyps_link_reset :
    calm.listens 0 ∧ (calm.link 0).up = true ∧ (calm.link 0).expectedSeq = 1 ∧ (calm.link 0).expectedSeq ≠ 2
      ∧ State.reset.listens 0 ∧ (State.reset.link 0).up = false
      ∧ (decodePacket [0x02, 0x30, 0x05, 0x00, 0x00]).content = .linkReset
      ∧ (decodePacket [0x02, 0x30, 0x05, 0x00, 0x00]).checkAgrees = false := by decide +kernel

theorem test_hyps_link_fault_ends_work :
    let s := withBank .opened [record 0 .shared, record 1 .shared]
    s.listens 0 ∧ (s.link 0).up = true ∧ (s.session 0).state = .attached ∧ s.placeLaw :=
  ⟨by decide +kernel, by decide +kernel, by decide +kernel, by unfold State.placeLaw; decide +kernel⟩

/-- A record whose leaving completes another port's upgrade, and a last one, the dwell run out or not. -/
theorem test_hyps_link_fault_leaving :
    let last := (withBank .opened [record 0 .shared]).setBank 4 { bankWith .opened [record 0 .shared] with dwellExpired := some true }
    (upgrader.bank 3).upgrade = some ⟨1, 7⟩ ∧ record 0 .shared ∈ (upgrader.bank 3).holds ∧ (upgrader.bank 3).phase = .opened
      ∧ upgrader.executingOn 0 3 = false ∧ (upgrader.session 1).state = .attached ∧ (upgrader.link 1).up = true
      ∧ (last.bank 3).dwellExpired = some false ∧ (last.bank 4).dwellExpired = some true := by decide +kernel

/-- Port 0's burst at its last moment on a bank with the record of port 1, the upgrader, who has a READ queued there. -/
def upgradeAtCompletion : State :=
  ((upgrader.setBank 3 { upgrader.bank 3 with
    holds := [{ record 0 .shared with releasing := true }, record 1 .shared] }).setExecuting
      (some (running .read [] [⟨0, .ok⟩, ⟨0, .ok⟩]))).setBurstQueue 1 [{ burst .read [] with port := 1 }]

/-- The state after commands one after the other, where every one completes. -/
def after : List Instr → State → Option State
  | [], s => some s
  | c :: rest, s =>
    match exec c s with
    | .next t => after rest t
    | _ => none

/-- A link fault of port 1 and a burst completion that completes its upgrade, an open completion with its record, or a FORCED entry of its
bank, in either order: the banks but for the mode of a record, bursts, sessions and the links of the other ports are the same (R125, R176). -/
theorem test_event_and_fault_agree :
    let done : State := { upgradeAtCompletion.setBurstQueue 1 [] with now := 26 }
    let opening := calm.setBank 3
      { bankWith .opening [{ record 1 .shared with openTag := some 6 }, { record 2 .shared with openTag := some 5 }] with endsAt := some 0 }
    let forced : State :=
      { withBank .opened [record 1 .shared, record 2 .shared] with
        quads := Four.all { debt := 11, state := maintenanceOf 8 11, lapse := false }, timer := { calm.timer with endsAt := 0 } }
    let view := fun (t : State) =>
      (({ t.bank 3 with holds := (t.bank 3).holds.map (fun (h : HoldRecord) => { h with mode := .shared }) } : BankRecord), t.bursts,
        t.sessions, [t.link 0, t.link 2, t.link 3])
    let cases : List (State × Instr) := [(done, Instr.executionCompletion), (opening, .openCompletion 3), (forced, .retentionTimerExpiry)]
    ∀ x ∈ cases,
      (after [x.2, .carrierLoss 1] x.1).map view = (after [.carrierLoss 1, x.2] x.1).map view := by decide +kernel

/-- The arbiter has chosen port 1's READ at the completion of port 0's burst; port 1's link fault of the same moment leaves it executing
and marks its record (R59, R68, log 32), and the record leaves at its completion. -/
theorem test_burst_just_chosen_outlives_teardown :
    (after [.executionCompletion, .carrierLoss 1] upgradeAtCompletion).map (fun s =>
        (s.executingOn 1 3, (s.bank 3).holds.map (fun h => h.revokePending), (s.session 1).state)) =
        some (true, [true], .teardown)
      ∧ (after [.executionCompletion, .carrierLoss 1, .executionCompletion] upgradeAtCompletion).map (fun s =>
        ((s.bank 3).holds, (s.session 1).state)) = some ([], .none) := by decide +kernel

/-- Another port's teardown or DETACH that completes an upgrade, and the teardown of the upgrader, in either order: banks but for the mode
of a record, bursts and sessions are the same (R176), also where the upgrader's burst has just been chosen. -/
theorem test_upgrade_by_session_end_and_teardown_agree :
    let s := ((upgrader.setExecuting (some (running .read [] [⟨0, .ok⟩, ⟨0, .ok⟩]))).setBurstQueue 1
      [{ burst .read [] with port := 1 }]).setBurstQueue 0 [{ burst .read [] with tag := 5 }]
    let asShared := fun (h : HoldRecord) => { h with mode := .shared }
    let view := fun (t : State) =>
      ({ t.bank 3 with holds := (t.bank 3).holds.map asShared }, t.bursts, t.sessions)
    ∀ last : Port, ∀ e ∈ [Instr.carrierLoss 0, .detach head],
      let u : State := { s with bursts := { s.bursts with lastServed := last } }
      (after [.executionCompletion, e, .carrierLoss 1] u).map view = (after [.executionCompletion, .carrierLoss 1, e] u).map view := by
  decide +kernel

/-- Another port's pending upgrade that a leaving does not complete: two other records stay; or nothing leaves, the record being revoke
pending. For a link fault and a DETACH of port 0, and with its burst at its end for the completion and the cut. -/
theorem test_hyps_upgrade_left_pending :
    let held := fun (x : HoldRecord) =>
      upgrader.setBank 3 { upgrader.bank 3 with holds := [x, record 1 .shared, record 2 .shared] }
    let s := held (record 0 .shared)
    let stays := held { record 0 .shared with revokePending := true }
    s.hears head ∧ (s.session 0).state = .attached ∧ s.placeLaw ∧ stays.placeLaw ∧ (s.bank 3).phase = .opened
      ∧ s.executingOn 0 3 = false ∧ (s.bank 3).upgrade = some ⟨1, 7⟩
      ∧ ((s.bank 3).holds.filter (fun h => h.port != 0)).map (fun h => h.port) ≠ [1]
      ∧ (∀ h ∈ (stays.bank 3).holds, h.port = 0 → h.revokePending = true) := by unfold State.placeLaw; decide +kernel

/-- Link faults of the other kinds, and in a session without work. -/
theorem test_hyps_link_fault_commands :
    (upgrader.link 0).up = true ∧ upgrader.listens 0 ∧ (∀ r, (decodePacket []).content = .request r → (decodePacket []).checkAgrees = false)
      ∧ ((inSession .teardown).session 0).state = .teardown ∧ ((inSession .teardown).link 0).up = true
      ∧ ((inSession .none).session 0).state = .none := by
  refine ⟨by decide +kernel, by decide +kernel, fun _ _ => by decide +kernel, by decide +kernel, by decide +kernel, by decide +kernel⟩

theorem test_hyps_arrivals_around_the_wake :
    let full := (inMode .waking).setLink 0 { upLink with held := List.replicate 32 ⟨0, helloArrival⟩ }
    ((inMode .retention).link 0).carrier = true ∧ ((inMode .retention).link 0).held.length < 32
      ∧ (inMode .waking).mode = .waking ∧ full.mode = .waking ∧ (full.link 0).carrier = true
      ∧ 32 ≤ (full.link 0).held.length := by decide +kernel

/-- A wake with nothing held, and one with one packet held. -/
theorem test_hyps_wake_completion :
    let s : State := { calm with modeCtl := { calm.modeCtl with mode := .waking, wakeEndsAt := some 8000 } }
    let t := s.setLink 2 { upLink with held := [⟨0, helloArrival⟩] }
    s.modeCtl.wakeEndsAt = some 8000 ∧ (∀ p, (s.link p).held = [] ∧ (s.link p).overrun = false)
      ∧ t.modeCtl.wakeEndsAt = some 8000 ∧ (t.link 2).held = [⟨0, helloArrival⟩]
      ∧ (∀ q, q ≠ 2 → (t.link q).held = []) ∧ (∀ q, (t.link q).overrun = false) ∧ (t.link 2).carrier = true := by decide +kernel

/-- Packets held on two links in the order 0, 2, 0, with no overrun mark and with one on both links. -/
theorem test_hyps_wake_order :
    let held := (((inMode .waking).setLink 0 { upLink with held := [⟨4, helloArrival⟩, ⟨6, helloArrival⟩] }).setLink 2
      { upLink with held := [⟨5, helloArrival⟩] })
    let marked := (held.setLink 0 { held.link 0 with overrun := true }).setLink 2 { held.link 2 with overrun := true }
    let order : List (Port × HeldPacket) := [(0, ⟨4, helloArrival⟩), (2, ⟨5, helloArrival⟩), (0, ⟨6, helloArrival⟩)]
    order.Pairwise (fun x y => x.2.stamp < y.2.stamp)
      ∧ (∀ p, (held.link p).held = (order.filter (fun x => x.1 == p)).map (fun x => x.2))
      ∧ (∀ p, (marked.link p).held = (order.filter (fun x => x.1 == p)).map (fun x => x.2))
      ∧ (∀ x ∈ order, (held.link x.1).carrier = true) ∧ (∀ p, (held.link p).overrun = false)
      ∧ (marked.link 0).overrun = true ∧ (marked.link 2).overrun = true
      ∧ (∀ p, (marked.link p).overrun = true → (marked.link p).held ≠ [])
      ∧ (∃ y ∈ order.drop 1, y.1 = 0) ∧ (∀ y ∈ order.drop 2, y.1 ≠ 2) ∧ (∀ y ∈ order.drop 3, y.1 ≠ 0) := by decide +kernel

/-- The marked link UP and DOWN after its last held packet. -/
theorem test_hyps_wake_overrun :
    let idle : Arrival := goodArrival 1 2 .idle
    let up := { upLink with held := [⟨4, idle⟩], overrun := true }
    let s := fun (l : Link) => (inMode .active).setLink 0 { l with held := [] }
    (((s up).receive 0 idle).link 0).up = true ∧ (((s { up with up := false }).receive 0 idle).link 0).up = false := by
  decide +kernel

theorem test_hyps_transmission :
    let c := calm.setLink 0 { upLink with control := some .helloAck }
    let q := calm.setLink 0 { upLink with queue := [.lapse 0 1] }
    (c.link 0).carrier = true ∧ c.mode ≠ .reset ∧ (c.link 0).control = some .helloAck
      ∧ (q.link 0).carrier = true ∧ (q.link 0).control = none ∧ (q.link 0).up = true ∧ (q.link 0).queue = [.lapse 0 1]
      ∧ (calm.link 0).control = none ∧ (calm.link 0).queue = [] := by decide +kernel

theorem test_hyps_request_without_session :
    let s := inSession .detaching
    (Instr.read head 0 0 1 false).wf = true ∧ requestOf (.read head 0 0 1 false) = some (head, .read 0 0 1 false)
      ∧ s.hears head ∧ (s.session 0).state ≠ .attached
      ∧ (∀ role, Request.read 0 0 1 false ≠ .attach role) ∧ (∀ n, Request.read 0 0 1 false ≠ .inspect 0x06 n) :=
  ⟨by decide +kernel, rfl, by decide +kernel, by decide +kernel, nofun, nofun⟩

theorem test_hyps_attach :
    let s := inSession .none
    s.hears head ∧ (s.session 0).state = .none ∧ ((2 : Byte) ≠ 0 ∧ (2 : Byte) ≠ 1)
      ∧ (Role.maintainer = if (1 : Byte) = 1 ∧ s.config.maintainer = none then Role.maintainer else .user)
      ∧ (Role.user = if (0 : Byte) = 1 ∧ s.config.maintainer = none then Role.maintainer else .user)
      ∧ (calm.session 0).state ≠ .none := by decide +kernel

theorem test_hyps_detach :
    calm.hears head ∧ calm.outstanding 0 = false ∧ (∀ i, sixteenGet (calm.session 0).tags i = .free) ∧ calm.placeLaw :=
  ⟨by decide +kernel, by decide +kernel, by decide +kernel, by unfold State.placeLaw; decide +kernel⟩

/-- Work of every kind at a DETACH: a burst, a wait, an upgrade, a record with a close tag that leaves, the last of its bank. -/
theorem test_hyps_detach_work :
    let own := upgrader.setBank 3 { upgrader.bank 3 with upgrade := some ⟨0, 7⟩ }
    let waits := own.setBank 5 { bankWith .closing [] with waitQueue := [waiting 0] }
    let s := (waits.setBank 4 (bankWith .opened [{ record 0 .shared with releasing := true, closeTag := some 8 }])).setBurstQueue
      0 [{ burst .read [] with bank := 4 }]
    s.hears head ∧ (s.session 0).state = .attached ∧ s.placeLaw ∧ (s.bank 4).phase = .opened ∧ s.executingOn 0 4 = false :=
  ⟨by decide +kernel, by decide +kernel, by unfold State.placeLaw; decide +kernel, by decide +kernel, by decide +kernel⟩

/-- A DETACH of port 0 that leaves port 1, the upgrader, alone. -/
theorem test_hyps_detach_completes_upgrade :
    upgrader.hears head ∧ (upgrader.session 0).state = .attached ∧ upgrader.placeLaw ∧ (upgrader.bank 3).upgrade = some ⟨1, 7⟩
      ∧ (upgrader.bank 3).phase = .opened ∧ upgrader.executingOn 0 3 = false
      ∧ (upgrader.bank 3).holds.filter (fun h => h.port != 0) = [record 1 .shared] ∧ (upgrader.session 1).state = .attached
      ∧ (upgrader.link 1).up = true := by unfold State.placeLaw; decide +kernel

/-- NOT_ATTACHED, BOUNDS at bank 16 and at row 8192, ALREADY_HELD, ALREADY_WAITING, QUOTA at a quota just used up. -/
theorem test_hyps_open_checks :
    let held := withBank .opened [record 0 .shared]
    let waits := calm.setBank 3 { bankWith .closing [] with waitQueue := [waiting 0] }
    let full : State := { held with config := { held.config with holdQuota := Four.all 1 } }
    (inSession .detaching).hears head ∧ ((inSession .detaching).session 0).state ≠ .attached
      ∧ 16 ≤ (16 : Byte).toNat ∧ 8192 ≤ (8192 : BitVec 16).toNat ∧ bankOf 3 = some 3 ∧ (8191 : BitVec 16).toNat < 8192
      ∧ held.hears head ∧ ((held.bank 3).recordOf 0).isSome = true
      ∧ waits.hears head ∧ ((waits.bank 3).recordOf 0).isNone = true ∧ ((waits.bank 3).waitOf 0).isSome = true
      ∧ full.hears head ∧ ((full.bank 4).recordOf 0).isNone = true ∧ ((full.bank 4).waitOf 0).isNone = true
      ∧ full.config.holdQuota.get 0 ≤ full.use 0 := by decide +kernel

theorem test_hyps_open_fresh :
    calm.hears head ∧ bankOf 15 = some 15 ∧ rowOf 8191 = some 8191 ∧ ((calm.bank 15).recordOf 0).isNone = true
      ∧ ((calm.bank 15).waitOf 0).isNone = true ∧ calm.use 0 < calm.config.holdQuota.get 0
      ∧ calm.cleared (groupOf 15) = true ∧ (calm.quad (groupOf 15)).state = .current
      ∧ (calm.bank 15).phase = .closed ∧ (calm.bank 15).waitQueue = [] ∧ (calm.bank 15).upgrade = none := by decide +kernel

/-- A join on an OPEN and on an OPENING bank. -/
theorem test_hyps_open_join :
    ∀ phase, phase = .opened ∨ phase = .opening →
      let s := withBank phase [record 1 .shared]
      s.hears head ∧ ((s.bank 3).recordOf 0).isNone = true ∧ ((s.bank 3).waitOf 0).isNone = true
        ∧ s.use 0 < s.config.holdQuota.get 0 ∧ s.cleared (groupOf 3) = true ∧ (s.quad (groupOf 3)).state = .current
        ∧ (s.bank 3).waitQueue = [] ∧ (s.bank 3).row = some 5 ∧ (∀ x ∈ (s.bank 3).holds, x.mode = .shared)
        ∧ (s.bank 3).upgrade = none ∧ (s.bank 3).phase = phase := by
  intro phase h
  rcases h with h | h <;> subst h <;> decide +kernel

theorem test_hyps_open_rejoin :
    let s := withBank .closeWait []
    s.hears head ∧ ((s.bank 3).recordOf 0).isNone = true ∧ ((s.bank 3).waitOf 0).isNone = true
      ∧ s.use 0 < s.config.holdQuota.get 0 ∧ s.cleared (groupOf 3) = true ∧ (s.quad (groupOf 3)).state = .current
      ∧ (s.bank 3).waitQueue = [] ∧ (s.bank 3).phase = .closeWait ∧ (s.bank 3).row = some 5 := by decide +kernel

/-- STARTING in an uncleared quad, MAINTENANCE in a DUE one, BANK_BUSY for each of its grounds. -/
theorem test_hyps_open_waits :
    let ready := fun (s : State) => s.hears head ∧ ((s.bank 4).recordOf 0).isNone = true
      ∧ ((s.bank 4).waitOf 0).isNone = true ∧ s.use 0 < s.config.holdQuota.get 0
    let starting := calm.setClearState 1 .uncleared
    let due := indebted 8
    let queued := calm.setBank 4 { BankRecord.powerOn with waitQueue := [waiting 1] }
    let other := calm.setBank 4 (bankWith .opened [record 1 .shared])
    let closing := calm.setBank 4 (bankWith .closing [])
    (ready starting ∧ starting.cleared (groupOf 4) = false)
      ∧ (ready due ∧ due.cleared (groupOf 4) = true ∧ (due.quad (groupOf 4)).state ≠ .current)
      ∧ (ready queued ∧ (queued.quad (groupOf 4)).state = .current ∧ (queued.bank 4).waitQueue ≠ [])
      ∧ (ready other ∧ (other.bank 4).phase = .opened ∧ (other.bank 4).row ≠ some 6)
      ∧ (ready closing ∧ (closing.bank 4).phase = .closing) := by decide +kernel

/-- An OPEN for a bank of quad 1 at the moment of the quad's refresh start, with the quad CURRENT; and one at a later moment, and one
after another request of the same moment. -/
theorem test_hyps_open_at_refresh_start :
    let s := (indebted 1).refreshChoice
    s.hears head ∧ ((s.bank 4).recordOf 0).isNone = true ∧ ((s.bank 4).waitOf 0).isNone = true
      ∧ s.use 0 < s.config.holdQuota.get 0 ∧ s.startOfThisMoment 4 ∧ s.cleared (groupOf 4) = true
      ∧ (s.quad (groupOf 4)).state = .current ∧ (s.bank 4).phase = .refreshing ∧ (s.bank 4).waitQueue = []
      ∧ ¬ ({ s with now := s.now + 1 } : State).startOfThisMoment 4 ∧ ¬ s.countRequest.startOfThisMoment 4 := by
  unfold State.startOfThisMoment; decide +kernel

/-- Such an OPEN is one that may be taken before the start. -/
theorem test_open_takes_bank_from_refresh_start :
    let s := ((indebted 1).refreshChoice).countRequest
    s.startTogether = some 1 ∧ s.takesBankFrom 1 0 4 6 .shared = true
      ∧ (((s.withoutStart 1).holdOpen 0 2 4 6 .shared false).bank 4).phase = .opening := by decide +kernel

/-- Every outcome of an UPGRADE from port 0 to bank 3. -/
theorem test_hyps_upgrade :
    let alone := withBank .opened [record 0 .shared]
    let two := withBank .opened [record 0 .shared, record 1 .shared]
    let taken := two.setBank 3 { two.bank 3 with upgrade := some ⟨1, 7⟩ }
    let marked := withBank .opened [{ record 0 .shared with releasing := true }]
    let mine := withBank .opened [record 0 .exclusive]
    (inSession .none).hears head ∧ ((inSession .none).session 0).state ≠ .attached
      ∧ calm.hears head ∧ (calm.bank 3).recordOf 0 = none
      ∧ alone.hears head ∧ (alone.bank 3).recordOf 0 = some (record 0 .shared) ∧ (alone.bank 3).holds = [record 0 .shared]
      ∧ two.hears head ∧ (two.bank 3).recordOf 0 = some (record 0 .shared) ∧ (two.bank 3).holds.length ≠ 1
      ∧ (two.bank 3).upgrade = none
      ∧ taken.hears head ∧ (taken.bank 3).recordOf 0 = some (record 0 .shared) ∧ (taken.bank 3).upgrade ≠ none
      ∧ marked.hears head ∧ (marked.bank 3).recordOf 0 = some { record 0 .shared with releasing := true }
      ∧ mine.hears head ∧ (mine.bank 3).recordOf 0 = some (record 0 .exclusive) := by decide +kernel

/-- CLOSE of nothing held, of a marked record, of a wait, of an idle record, of a busy one, of an upgrader's. -/
theorem test_hyps_close :
    let marked := withBank .opened [{ record 0 .shared with releasing := true }]
    let waits := calm.setBank 3 { bankWith .closing [] with waitQueue := [waiting 0] }
    let mine := withBank .opened [record 0 .shared]
    let opening := withBank .opening [record 0 .shared]
    let two := withBank .opened [record 0 .shared, record 1 .shared]
    let upgrading := two.setBank 3 { two.bank 3 with upgrade := some ⟨0, 7⟩ }
    (calm.hears head ∧ ((calm.bank 3).waitOf 0).isNone = true ∧ (calm.bank 3).recordOf 0 = none)
      ∧ (marked.hears head ∧ (marked.bank 3).recordOf 0 = some { record 0 .shared with releasing := true })
      ∧ (waits.hears head ∧ (waits.bank 3).waitOf 0 = some (waiting 0) ∧ (waiting 0).tag ≠ head.tag)
      ∧ (mine.hears head ∧ ((mine.bank 3).waitOf 0).isNone = true ∧ (mine.bank 3).holds = [record 0 .shared]
        ∧ (mine.bank 3).phase = .opened ∧ (mine.bank 3).upgrade = none ∧ mine.queuedOn 0 3 = false
        ∧ mine.executingOn 0 3 = false)
      ∧ (opening.hears head ∧ (opening.bank 3).recordOf 0 = some (record 0 .shared) ∧ opening.upgradeOn 0 3 = false
        ∧ (opening.bank 3).phase = .opening)
      ∧ ((executing (running .read [] [])).hears head ∧ (executing (running .read [] [])).executingOn 0 3 = true)
      ∧ (upgrading.hears head ∧ (upgrading.bank 3).recordOf 0 = some (record 0 .shared)
        ∧ (upgrading.bank 3).upgrade = some ⟨0, 7⟩ ∧ (7 : Tag) ≠ head.tag) := by decide +kernel

/-- Other holders staying, and another port's pending upgrade left alone. -/
theorem test_hyps_close_among_holders :
    let three := withBank .opened [record 0 .shared, record 1 .shared, record 2 .exclusive]
    (three.hears head ∧ ((three.bank 3).waitOf 0).isNone = true ∧ (three.bank 3).recordOf 0 = some (record 0 .shared)
        ∧ three.upgradeOn 0 3 = false ∧ (three.bank 3).holds.filter (fun y => y.port != 0) ≠ [])
      ∧ (upgrader.hears head ∧ ((upgrader.bank 3).waitOf 0).isNone = true
        ∧ (upgrader.bank 3).recordOf 0 = some (record 0 .shared) ∧ upgrader.upgradeOn 0 3 = false
        ∧ upgrader.queuedOn 0 3 = false ∧ upgrader.executingOn 0 3 = false
        ∧ (upgrader.bank 3).holds.filter (fun y => y.port != 0) = [record 1 .shared]) := by decide +kernel

/-- A CLOSE by the upgrader: idle, alone and among others, with the dwell run out or not; on an OPENING bank; with a burst queued. -/
theorem test_hyps_close_by_upgrader :
    let own := fun (phase : BankPhase) (hs : List HoldRecord) (dwell : Bool) =>
      calm.setBank 3 { bankWith phase hs with upgrade := some ⟨0, 7⟩, dwellExpired := some dwell }
    let two := own .opened [record 0 .shared, record 1 .shared] false
    let last := own .opened [record 0 .shared] false
    let late := own .opened [record 0 .shared] true
    let opening := own .opening [record 0 .shared, record 1 .shared] false
    let busy := two.setBurstQueue 0 [burst .read []]
    (∀ s ∈ [two, last, late, opening, busy], s.hears head ∧ ((s.bank 3).waitOf 0).isNone = true
        ∧ (s.bank 3).recordOf 0 = some (record 0 .shared) ∧ (s.bank 3).upgrade = some ⟨0, 7⟩)
      ∧ (7 : Tag) ≠ head.tag ∧ two.queuedOn 0 3 = false ∧ two.executingOn 0 3 = false
      ∧ (two.bank 3).holds.filter (fun y => y.port != 0) ≠ [] ∧ (last.bank 3).holds.filter (fun y => y.port != 0) = []
      ∧ (late.bank 3).dwellExpired = some true ∧ (opening.bank 3).phase = .opening ∧ busy.queuedOn 0 3 = true := by
  decide +kernel

/-- A CLOSE of a record that an earlier CLOSE has marked releasing, on an OPENING bank. -/
theorem test_hyps_close_twice :
    let leaving := { record 0 .shared with releasing := true, closeTag := some 7 }
    let s := withBank .opening [leaving]
    s.hears head ∧ (s.session 0).state = .attached ∧ ((s.bank 3).waitOf 0).isNone = true
      ∧ (s.bank 3).recordOf 0 = some leaving ∧ (s.bank 3).phase = .opening ∧ s.placeLaw ∧ leaving ∈ (s.bank 3).holds := by
  unfold State.placeLaw; decide +kernel

/-- The same while the port's last burst to the bank executes, its units stepped. -/
theorem test_hyps_close_twice_executing :
    let leaving := { record 0 .shared with releasing := true, closeTag := some 7 }
    let e := running .read [] [⟨0, .ok⟩, ⟨0, .ok⟩]
    let s := (withBank .opened [leaving]).setExecuting (some e)
    s.hears head ∧ (s.session 0).state = .attached ∧ ((s.bank 3).waitOf 0).isNone = true ∧ s.bursts.executing = some e ∧ e.cut = none
      ∧ e.results.length = e.burst.units ∧ (s.bank 3).recordOf 0 = some leaving ∧ s.queuedOn 0 3 = false := by decide +kernel

/-- Every refusal of a READ or WRITE, at its boundary. -/
theorem test_hyps_burst_checks :
    let shared := withBank .opened [record 0 .shared]
    let full := shared.setBurstQueue 0 (List.replicate 8 (burst .read []))
    let marked := withBank .opened [{ record 0 .shared with revokePending := true }]
    (Instr.read head 3 120 8 false).wf = true ∧ (Instr.write head 3 127 1 false [⟨0, 0⟩]).wf = true
      ∧ 16 ≤ (16 : Byte).toNat ∧ 8 < (9 : Byte).toNat ∧ 128 < (121 : Byte).toNat + (8 : Byte).toNat
      ∧ (0 : Byte).toNat = 0 ∧ (120 : Byte).toNat + (8 : Byte).toNat ≤ 128
      ∧ calm.hears head ∧ (calm.bank 3).recordOf 0 = none
      ∧ marked.hears head ∧ (marked.bank 3).recordOf 0 = some { record 0 .shared with revokePending := true }
      ∧ shared.hears head ∧ (shared.bank 3).recordOf 0 = some (record 0 .shared)
      ∧ full.hears head ∧ 8 ≤ (full.burstQueue 0).length := by decide +kernel

theorem test_hyps_burst_accepted :
    let s := withBank .opened [record 0 .exclusive]
    s.hears head ∧ (Instr.write head 3 127 1 true [⟨1, 0⟩]).wf = true ∧ (record 0 .exclusive).mode = .exclusive
      ∧ bankOf 3 = some 3 ∧ (s.bank 3).row = some 5 ∧ (127 : Byte).toNat + (1 : Byte).toNat ≤ 128
      ∧ (s.bank 3).recordOf 0 = some (record 0 .exclusive) ∧ (s.burstQueue 0).length < 8 ∧ s.upgradeOn 0 3 = false
      ∧ s.bursts.executing = none ∧ (∀ p, s.burstQueue p = []) ∧ (s.bank 3).phase = .opened := by decide +kernel

/-- An auto-close READ by the port of the pending upgrade. -/
theorem test_hyps_burst_auto_close_upgrade :
    let s := upgrader.setBank 3 { upgrader.bank 3 with upgrade := some ⟨0, 7⟩ }
    s.hears head ∧ (Instr.read head 3 127 1 true).wf = true ∧ (s.bank 3).row = some 5
      ∧ (s.bank 3).recordOf 0 = some (record 0 .shared) ∧ (s.burstQueue 0).length < 8
      ∧ (s.bank 3).upgrade = some ⟨0, 7⟩ := by decide +kernel

/-- A busy data path, no candidate, and the candidate last in the cycle (last served port P3, n = 3). -/
theorem test_hyps_arbiter :
    let s := (withBank .opened [record 0 .exclusive]).setBurstQueue 3 [{ burst .read [] with port := 3 }]
    (executing (running .read [] [])).bursts.executing ≠ none ∧ (∀ p, calm.candidate p = none)
      ∧ s.bursts.executing = none ∧ (3 : Port).val = (s.bursts.lastServed.val + 1 + 3) % 4
      ∧ (∀ q : Port, q ≠ 3 → s.candidate q = none) ∧ s.burstQueue 3 = [{ burst .read [] with port := 3 }]
      ∧ (s.bank 3).phase = .opened := by decide +kernel

/-- A head burst whose bank is OPENING is no candidate, whatever stands behind it; one whose bank is OPEN is. -/
theorem test_candidate_by_phase :
    let q := [burst .read [], { burst .read [] with bank := 4 }]
    let s := (((withBank .opening [record 0 .shared]).setBank 4 (bankWith .opened [record 0 .shared]))).setBurstQueue 0 q
    s.candidate 0 = none ∧ (s.setBank 3 (bankWith .opened [record 0 .shared])).candidate 0 = some (burst .read []) := by decide +kernel

/-- A clean, a correctable and an uncorrectable unit. -/
theorem test_hyps_read_unit :
    let e := running .read [] []
    (executing e).arrayLaw ∧ (executing e).bursts.executing = some e ∧ e.cut = none ∧ e.results.length < e.burst.units
      ∧ (executing e).array.classify firstUnit = .clean
      ∧ (struck (executing e) 1).arrayLaw ∧ (struck (executing e) 1).array.classify firstUnit = .correctable 0
      ∧ (struck (executing e) 3).arrayLaw ∧ (struck (executing e) 3).array.classify firstUnit = .uncorrectable :=
  ⟨by unfold State.arrayLaw; decide +kernel, rfl, rfl, by decide +kernel, by decide +kernel, by unfold State.arrayLaw; decide +kernel, by decide +kernel,
    by unfold State.arrayLaw; decide +kernel, by decide +kernel⟩

/-- A full, an empty and a partial mask; for the partial one a listed unit, and the three classifications. -/
theorem test_hyps_write_unit :
    let e := fun (m : BitVec 8) => running .write [⟨m, 7⟩, ⟨0, 0⟩] []
    let listed : State := { executing (e 1) with integrity :=
      { (executing (e 1)).integrity with faults := [{ bank := 3, row := 5, column := 0, port := 1, kind := .read }] } }
    (∀ m, (e m).burst.data[(e m).results.length]? = some ⟨m, 7⟩) ∧ (1 : BitVec 8) ≠ 0xFF ∧ (1 : BitVec 8) ≠ 0
      ∧ (executing (e 1)).arrayLaw ∧ (executing (e 1)).listed 3 5 0 = false ∧ listed.listed 3 5 0 = true
      ∧ (executing (e 1)).array.classify firstUnit = .clean
      ∧ (struck (executing (e 1)) 1).array.classify firstUnit = .correctable 0
      ∧ (struck (executing (e 1)) 3).array.classify firstUnit = .uncorrectable :=
  ⟨fun _ => rfl, by decide +kernel, by decide +kernel, by unfold State.arrayLaw; decide +kernel, by decide +kernel, by decide +kernel, by decide +kernel, by decide +kernel,
    by decide +kernel⟩

/-- A record unmarked, releasing with and without a burst queued, and revoke pending; a session torn down. -/
theorem test_hyps_execution_completion :
    let e := running .read [] [⟨0, .ok⟩, ⟨0, .ok⟩]
    let at3 := fun (x : HoldRecord) => (withBank .opened [x]).setExecuting (some e)
    let queued := (at3 { record 0 .shared with releasing := true }).setBurstQueue 0 [burst .read []]
    e.results.length = e.burst.units ∧ e.cut = none
      ∧ ((at3 (record 0 .shared)).bank 3).recordOf 0 = some (record 0 .shared)
      ∧ ((at3 { record 0 .shared with releasing := true }).bank 3).recordOf 0 = some { record 0 .shared with releasing := true }
      ∧ (at3 { record 0 .shared with releasing := true }).queuedOn 0 3 = false ∧ queued.queuedOn 0 3 = true
      ∧ ((at3 { record 0 .shared with revokePending := true }).bank 3).recordOf 0 =
          some { record 0 .shared with revokePending := true }
      ∧ ((at3 (record 0 .shared)).session 0).state = .attached ∧ ((at3 (record 0 .shared)).link 0).up = true
      ∧ ((at3 (record 0 .shared)).bank 3).upgrade = none ∧ ((inSession .teardown).session 0).state = .teardown := by decide +kernel

/-- A completion after which the DETACHING session has nothing left, its record releasing or revoke pending; one after which it
has; and one that leaves an upgrader alone. -/
theorem test_hyps_execution_completion_ends_session :
    let e := running .read [] [⟨0, .ok⟩, ⟨0, .ok⟩]
    let at3 := fun (x : HoldRecord) => detaching ((withBank .opened [x]).setExecuting (some e))
    let releasing := at3 { record 0 .shared with releasing := true }
    let more := releasing.setBank 4 (bankWith .opening [{ record 0 .shared with releasing := true }])
    let upgrading := (upgrader.setBank 3 { upgrader.bank 3 with
      holds := [{ record 0 .shared with releasing := true }, record 1 .shared] }).setExecuting (some e)
    let after := fun (s : State) => match exec .executionCompletion s with
      | .next t => t.outstanding 0
      | _ => false
    (releasing.session 0).state = .detaching ∧ (releasing.session 0).detachTag = some 9 ∧ (releasing.link 0).up = true
      ∧ (releasing.bank 3).upgrade = none ∧ releasing.queuedOn 0 3 = false
      ∧ after releasing = false ∧ after more = true
      ∧ after (at3 { record 0 .shared with revokePending := true }) = false
      ∧ (∀ i, i ≠ 9 → i ≠ 4 → sixteenGet (releasing.session 0).tags i = .free)
      ∧ (upgrading.bank 3).upgrade = some ⟨1, 7⟩ ∧ upgrading.queuedOn 0 3 = false
      ∧ (upgrading.bank 3).holds.filter (fun h => h.port != 0) = [record 1 .shared] := by decide +kernel

/-- A completion of the upgrader's own READ, its record staying; and one after which the record leaves while another port's upgrade stands:
in an ATTACHED and in a DETACHING session. -/
theorem test_hyps_execution_completion_with_upgrade :
    let e := running .read [] [⟨0, .ok⟩, ⟨0, .ok⟩]
    let own := (upgrader.setBank 3 { upgrader.bank 3 with upgrade := some ⟨0, 7⟩ }).setExecuting (some e)
    let x := { record 0 .shared with releasing := true, closeTag := some 6 }
    let other := (upgrader.setBank 3 { upgrader.bank 3 with holds := [x, record 1 .shared] }).setExecuting (some e)
    (own.bank 3).recordOf 0 = some (record 0 .shared) ∧ (own.session 0).state = .attached ∧ (own.link 0).up = true
      ∧ (own.bank 3).upgrade = some ⟨0, 7⟩ ∧ (other.bank 3).recordOf 0 = some x ∧ other.queuedOn 0 3 = false
      ∧ (other.bank 3).upgrade = some ⟨1, 7⟩ ∧ ((detaching other).session 0).state = .detaching
      ∧ ((detaching other).session 0).detachTag = some 9 := by decide +kernel

/-- A completion, and a cut, that takes the last record of its bank, the dwell run out or not; that leaves an upgrader alone; and one
among two others. -/
theorem test_hyps_burst_end_leaving :
    let done := running .read [] [⟨0, .ok⟩, ⟨0, .ok⟩]
    let x := { record 0 .shared with releasing := true }
    let at3 := fun (others : List HoldRecord) (dwell : Bool) (up : Option PendingUpgrade) (e : Execution) =>
      (calm.setBank 3 { bankWith .opened (x :: others) with dwellExpired := some dwell, upgrade := up }).setExecuting (some e)
    let torn := fun (s : State) => s.setSession 0 { attachedUser with state := .teardown }
    ∀ e ∈ [done, { done with results := [⟨0, .ok⟩], cut := some 26 }], ∀ dwell,
      let last := at3 [] dwell none e
      let alone := at3 [record 1 .shared] dwell (some ⟨1, 7⟩) e
      let among := at3 [record 1 .shared, record 2 .shared] dwell (some ⟨1, 7⟩) e
      (∀ s ∈ [last, alone, among], s.bursts.executing = some e ∧ (s.bank 3).recordOf 0 = some x ∧ (s.bank 3).phase = .opened
          ∧ s.queuedOn 0 3 = false ∧ (s.bank 3).dwellExpired = some dwell ∧ ((torn s).session 0).state = .teardown)
        ∧ (last.bank 3).holds.filter (fun h => h.port != 0) = []
        ∧ (alone.bank 3).holds.filter (fun h => h.port != 0) = [record 1 .shared]
        ∧ ((among.bank 3).holds.filter (fun h => h.port != 0)).map (fun h => h.port) ≠ [1] := by decide +kernel

theorem test_hyps_cut_completion :
    let e : Execution := { running .read [] [⟨0, .ok⟩] with cut := some 26 }
    let s := (executing e).setSession 0 { attachedUser with state := .teardown }
    s.bursts.executing = some e ∧ e.cut = some 26 ∧ (s.session e.burst.port).state = .teardown ∧ 0 < e.unitsLeft
      ∧ (s.bank 3).upgrade = none := by decide +kernel

/-- One record by its marks, and an upgrader left alone. -/
theorem test_hyps_open_completion :
    let x := { record 0 .shared with openTag := some 6 }
    let y := { x with releasing := true, closeTag := some 7 }
    let up := (withBank .opening [x, { record 1 .shared with revokePending := true }]).setBank 3
      { bankWith .opening [x, { record 1 .shared with revokePending := true }] with upgrade := some ⟨0, 8⟩ }
    ((withBank .opening [x]).bank 3).phase = .opening ∧ ((withBank .opening [x]).bank 3).upgrade = none
      ∧ ((withBank .opening [x]).bank 3).holds = [x] ∧ ((withBank .opening [y]).bank 3).holds = [y]
      ∧ ((withBank .opening [{ x with revokePending := true }]).bank 3).holds = [{ x with revokePending := true }]
      ∧ ((withBank .opening [x]).session 0).state = .attached ∧ ((withBank .opening [x]).link 0).up = true
      ∧ (up.bank 3).upgrade = some ⟨0, 8⟩ ∧ up.placeLaw ∧ x ∈ (up.bank 3).holds ∧ (up.session 0).state = .attached ∧ (up.link 0).up = true
      ∧ ((up.bank 3).holds.filter (fun h => !h.releasing && !h.revokePending)).map (fun h => { h with openTag := none }) =
          [{ x with openTag := none }] := by unfold State.placeLaw; decide +kernel

/-- A pending upgrade that an open completion does not complete: its port's record, whose open tag is answered, stays among others, or
leaves. -/
theorem test_hyps_open_completion_upgrade_left :
    let kept := fun (s : State) => (s.bank 3).holds.filter (fun h => !h.releasing && !h.revokePending)
    let at3 := fun (holds : List HoldRecord) => calm.setBank 3 { bankWith .opening holds with upgrade := some ⟨0, 8⟩ }
    let x := { record 0 .shared with openTag := some 6 }
    let stays := at3 [x, record 1 .shared]
    let goes := at3 [{ x with releasing := true }, record 1 .shared]
    stays.placeLaw ∧ goes.placeLaw ∧ x ∈ (stays.bank 3).holds ∧ (stays.session 0).state = .attached ∧ (stays.link 0).up = true
      ∧ (stays.bank 3).phase = .opening ∧ (kept stays).map (fun h => h.port) ≠ [0] ∧ (kept stays).any (fun h => h.port == 0) = true
      ∧ (goes.bank 3).phase = .opening ∧ (kept goes).map (fun h => h.port) ≠ [0]
      ∧ (kept goes).any (fun h => h.port == 0) = false := by unfold State.placeLaw; decide +kernel

/-- Three records on one OPENING bank: unmarked, releasing without a close tag, and releasing with one; under the place law, with
another port's upgrade pending or none. -/
theorem test_hyps_open_completion_answers :
    let x := { record 0 .shared with openTag := some 6 }
    let y := { record 1 .shared with openTag := some 5, releasing := true }
    let z := { record 2 .shared with openTag := some 4, releasing := true, closeTag := some 3 }
    let s := withBank .opening [x, y, z]
    let up := s.setBank 3 { s.bank 3 with upgrade := some ⟨0, 8⟩ }
    s.placeLaw ∧ up.placeLaw ∧ x ∈ (s.bank 3).holds ∧ y ∈ (s.bank 3).holds ∧ z ∈ (s.bank 3).holds ∧ (s.bank 3).upgrade = none
      ∧ (∀ p, (s.session p).state = .attached ∧ (s.link p).up = true) ∧ (up.bank 3).upgrade = some ⟨0, 8⟩ ∧ y.port ≠ 0 := by
  unfold State.placeLaw; decide +kernel

/-- A releasing and a revoke pending record of a DETACHING session, as its last work and not; and a session in TEARDOWN. -/
theorem test_hyps_open_completion_ends_session :
    let x := { record 0 .shared with openTag := some 4, releasing := true }
    let y := { record 0 .shared with openTag := some 4, revokePending := true }
    let s := detaching (withBank .opening [x])
    let more := s.setBank 4 (bankWith .opening [x])
    let after := fun (s : State) => match exec (.openCompletion 3) s with
      | .next t => t.outstanding 0
      | _ => false
    s.placeLaw ∧ more.placeLaw ∧ (s.bank 3).phase = .opening ∧ (s.bank 3).holds = [x] ∧ (s.bank 3).upgrade = none ∧ (s.session 0).state = .detaching
      ∧ (s.session 0).detachTag = some 9 ∧ (s.link 0).up = true ∧ after s = false ∧ after more = true
      ∧ after (detaching (withBank .opening [y])) = false
      ∧ (∀ i, i ≠ 9 → i ≠ 4 → sixteenGet (s.session 0).tags i = .free)
      ∧ ((inSession .teardown).session 0).state = .teardown := by unfold State.placeLaw; decide +kernel

theorem test_hyps_dwell :
    ((withBank .opened [record 0 .shared]).bank 3).dwellExpired = some false
      ∧ ((withBank .opened [record 0 .shared]).bank 3).phase = .opened
      ∧ ((withBank .closeWait []).bank 3).dwellExpired = some false ∧ ((withBank .closeWait []).bank 3).phase = .closeWait := by
  decide +kernel

/-- An empty queue, an ARRIVAL choice, and a ROTATING one at the end of the cycle (last granted port P3, n = 3). -/
theorem test_hyps_close_completion :
    let s := calm.setBank 3 { bankWith .closing [] with waitQueue := [waiting 3] }
    let r : State := { s with config := { s.config with grantPolicy := .rotating } }
    ((withBank .closing []).bank 3).phase = .closing ∧ ((withBank .closing []).bank 3).waitQueue = []
      ∧ (s.bank 3).phase = .closing ∧ s.cleared (groupOf 3) = true ∧ (s.quad (groupOf 3)).state = .current
      ∧ s.config.grantPolicy = .arrival ∧ (s.bank 3).waitQueue.head? = some (waiting 3)
      ∧ r.config.grantPolicy = .rotating ∧ (waiting 3).port.val = ((r.bank 3).lastGranted.val + 1 + 3) % 4
      ∧ (r.bank 3).waitQueue.find? (fun y => y.port == (waiting 3).port) = some (waiting 3)
      ∧ (∀ k : Fin 3, ∀ y ∈ (r.bank 3).waitQueue, y.port.val ≠ ((r.bank 3).lastGranted.val + 1 + k.val) % 4) := by decide +kernel

/-- Quad 0 UNCLEARED in CLEARING with bank 3 the last to be CLOSED: its clear is due then; in `calm` none ever is. A refresh of quad 0
that holds the clear up in the same way. -/
theorem test_hyps_clear_due :
    let s := ((withBank .closing []).setMode .clearing).setClearState 0 .uncleared
    let u := s.setBank 3 { s.bank 3 with phase := .closed }
    let r : State := { u.setQuadPhase 0 .refreshing with refresh := some ⟨0, 560⟩ }
    (s.bank 3).phase = .closing ∧ (s.bank 3).waitQueue = [] ∧ u.clearDue 0 ∧ (∀ q, ¬ calm.clearDue q)
      ∧ r.refresh = some ⟨0, 560⟩ ∧ r.cleared 0 = false ∧ ((r.finishRefresh 0).clearDue 0) := by
  unfold State.clearDue; decide +kernel

/-- A debt that rises, one at 12, an uncleared quad, an entry to DUE and one to FORCED. -/
theorem test_hyps_expiry :
    let due := (indebted 7).setBank 4 (bankWith .opened [record 0 .shared])
    calm.cleared 0 = true ∧ (calm.quad 0).debt < 12 ∧ (indebted 12).cleared 1 = true ∧ 12 ≤ ((indebted 12).quad 1).debt
      ∧ State.reset.cleared 0 = false
      ∧ due.cleared (groupOf 4) = true ∧ (due.quad (groupOf 4)).state = .current
      ∧ (due.quad (groupOf 4)).debt + 1 = due.config.reclaimLevel ∧ due.config.reclaimLevel < 12
      ∧ record 0 .shared ∈ (due.bank 4).holds ∧ (record 0 .shared).revokePending = false
      ∧ (due.session 0).state = .attached ∧ (due.link 0).up = true
      ∧ (indebted 11).cleared 1 = true ∧ ((indebted 11).quad 1).debt = 11 ∧ ((indebted 11).quad 1).state ≠ .forced := by
  decide +kernel

/-- A repeated LAPSE, at the count's limit; a FORCED entry with a burst, an upgrade and records on its banks. -/
theorem test_hyps_expiry_notices :
    let l := (indebted 12).setLink 0 { upLink with queue := [.lapse 0 3, .lapse 1 255] }
    let f := (((indebted 11).setBank 4 { bankWith .opened [record 0 .shared, { record 1 .shared with releasing := true, closeTag := some 3 }]
      with upgrade := some ⟨0, 7⟩ }).setBurstQueue 0 [{ burst .read [] with bank := 4 }])
    let alone : State := { f with modeCtl := { f.modeCtl with clearStates := ⟨.uncleared, .cleared, .uncleared, .uncleared⟩ } }
    (l.cleared 1 = true ∧ 12 ≤ (l.quad 1).debt ∧ (l.session 0).state = .attached ∧ (l.link 0).up = true
        ∧ (l.link 0).queue = [.lapse 0 3] ++ .lapse 1 255 :: []
        ∧ ∀ x ∈ [OutEntry.lapse 0 3] ++ [], x.sameSubject (.lapse 1 1) = false)
      ∧ (f.maintenanceLaw ∧ f.cleared 1 = true ∧ (f.quad 1).debt = 11 ∧ groupOf 4 = 1 ∧ (f.bank 4).phase = .opened
        ∧ (f.session 0).state = .attached ∧ (f.link 0).up = true ∧ f.executingOn 0 4 = false)
      ∧ (∀ r, r ≠ 1 → alone.cleared r = false) ∧ alone.maintenanceLaw
      ∧ (let o := (indebted 11).setBank 4 (bankWith .opening [record 0 .shared])
        o.maintenanceLaw ∧ (o.bank 4).phase ≠ .opened ∧ (o.bank 4).holds ≠ []) := by
  unfold State.maintenanceLaw; decide +kernel

/-- A FORCED entry that takes the last record of an OPEN bank, the dwell run out or not. -/
theorem test_hyps_forced_entry_last_record :
    ∀ dwell : Bool, let s := (indebted 11).setBank 4 { bankWith .opened [record 0 .shared] with dwellExpired := some dwell }
      s.maintenanceLaw ∧ s.cleared 1 = true ∧ (s.quad 1).debt = 11 ∧ groupOf 4 = 1 ∧ (s.bank 4).phase = .opened ∧ (s.bank 4).holds ≠ []
        ∧ (s.bank 4).dwellExpired = some dwell
        ∧ (s.bank 4).holds.filter (fun h => (s.bank 4).phase != .opened || h.revokePending || s.executingOn h.port 4) = [] := by
  unfold State.maintenanceLaw; decide +kernel

/-- A refresh that pays quad 1 back to CURRENT with an entry waiting on bank 4, by either policy; and one of an uncleared quad. -/
theorem test_hyps_refresh_completion :
    let s := (indebted 8).setQuadPhase 1 .refreshing
    let t : State := { s.setBank 4 { s.bank 4 with waitQueue := [waiting 2] } with refresh := some ⟨1, 560⟩ }
    let r : State := { t with config := { t.config with grantPolicy := .rotating } }
    t.refresh = some ⟨1, 560⟩ ∧ t.maintenanceLaw ∧ t.phaseLaw ∧ t.cleared 1 = true ∧ groupOf 4 = 1
      ∧ t.servedFirst 4 (waiting 2) ∧ r.servedFirst 4 (waiting 2) ∧ (t.bank 5).waitQueue = []
      ∧ maintenanceOf t.config.reclaimLevel ((t.quad 1).debt - 1) = .current ∧ State.reset.cleared 1 = false :=
  ⟨rfl, by unfold State.maintenanceLaw; decide +kernel,
    ⟨fun _ h => by simp [calm, indebted] at h, fun r h => by obtain rfl : (⟨1, 560⟩ : RefreshRun) = r := Option.some.inj h; decide +kernel⟩,
    by decide +kernel, rfl, Or.inl ⟨rfl, rfl⟩, Or.inr ⟨rfl, 2, by decide, rfl, rfl, by decide +kernel⟩, rfl, by decide +kernel, by decide +kernel⟩

/-- No quad eligible, and one. -/
theorem test_hyps_refresh_arbiter :
    (∀ q, calm.eligible q = false) ∧ (indebted 1).refresh = none ∧ (indebted 1).eligible 1 = true
      ∧ (∀ r : Quad, r ≠ 1 → (indebted 1).eligible r = false) := by decide +kernel

/-- The clear of quad 0 with quad 1 next, and that of quad 3. -/
theorem test_hyps_clear_completion :
    let last : State := { calm with modeCtl :=
      { calm.modeCtl with mode := .clearing, clearRun := some { quad := 3, startedAt := 0, epoch := 0 } } }
    State.reset.modeCtl.clearRun = some { quad := 0, startedAt := 0, epoch := 0 } ∧ State.reset.mode = .clearing
      ∧ State.reset.arrayLaw ∧ State.reset.array.lateData 0 = 0 ∧ State.reset.array.lateCheck 0 = 0
      ∧ lateStruck.arrayLaw ∧ lateStruck.array.lateData 0 = 1 ∧ State.reset.clearState 1 = .uncleared
      ∧ State.reset.quadClosed 1 = true ∧ (∀ q' : Quad, q' < 0 → State.reset.cleared q' = true)
      ∧ last.modeCtl.clearRun = some { quad := 3, startedAt := 0, epoch := 0 } ∧ last.mode = .clearing :=
  ⟨rfl, rfl, by unfold State.arrayLaw; rfl, by decide +kernel, by decide +kernel, by unfold State.arrayLaw; decide +kernel,
    by decide +kernel, rfl, by decide +kernel, by decide +kernel, rfl, rfl⟩

/-- An entry that waits on a bank of the quad being cleared, by either policy. -/
theorem test_hyps_clear_completion_serves :
    let s := State.reset.setBank 2 { State.reset.bank 2 with waitQueue := [waiting 3] }
    let r : State := { s with config := { s.config with grantPolicy := .rotating } }
    groupOf 2 = 0 ∧ s.servedFirst 2 (waiting 3) ∧ r.servedFirst 2 (waiting 3) :=
  ⟨rfl, Or.inl ⟨rfl, rfl⟩, Or.inr ⟨rfl, 3, by decide, rfl, rfl, by decide +kernel⟩⟩

/-- A corruption that falls together with the rewrite of its unit: the rewrite is marked with its unit and moment. -/
theorem test_hyps_corruption_at_rewrite :
    let s := struck (executing (running .read [] [])) 1
    (match exec .burstUnitStep s with
      | .next t => t.marks.rewritten == some (firstUnit, t.now) && t.array.classify firstUnit == .clean
      | _ => false) = true := by decide +kernel

/-- One bit and two bits of a clean unit, outside a clear; and a unit that the running clear has written. -/
theorem test_hyps_corruption :
    calm.arrayLaw ∧ clearHasWritten calm.modeCtl.clearRun calm.now firstUnit = false
      ∧ (calm.unitNow firstUnit).changed = 0 ∧ countBits (1#64) 64 + countBits (0#8) 8 = 1
      ∧ countBits (1#64) 64 + countBits (0x80#8) 8 = 2
      ∧ lateStruck.arrayLaw ∧ clearHasWritten lateStruck.modeCtl.clearRun lateStruck.now 0 = true :=
  ⟨by unfold State.arrayLaw; decide +kernel, by decide +kernel, by decide +kernel, by decide +kernel, by decide +kernel,
    by unfold State.arrayLaw; decide +kernel, test_clear_has_written.1⟩

/-- Item codes at their boundaries, and indexes 3 and 4. -/
theorem test_hyps_cfg_read :
    (3 : Byte) = BitVec.ofNat 8 (3 : Quad).val ∧ 4 ≤ (4 : Byte).toNat ∧ 6 < (7 : Byte).toNat ∧ (254 : Byte).toNat < 255 := by
  decide +kernel

/-- Values just out of range, and a quota below the port's use. -/
theorem test_hyps_cfg_write :
    let s := maintained.setBank 3 (bankWith .opened [record 1 .shared])
    let t := s.setBank 4 (bankWith .opened [record 1 .shared])
    calm.config.maintainer ≠ some 0 ∧ maintained.hears head ∧ maintained.config.maintainer = some 0
      ∧ requestOf (.cfgWriteHoldQuota head 1 1) = some (head, .cfgWrite 0x04 1 1)
      ∧ (15 : Byte).toNat < 16 ∧ 128 < (129 : Byte).toNat ∧ 11 < (12 : Byte).toNat ∧ 1 < (2 : Byte).toNat
      ∧ 8 < (9 : Byte).toNat ∧ 3 < (4 : Byte).toNat ∧ t.hears head ∧ (1 : Byte).toNat < t.use 1 ∧ s.use 1 ≤ (1 : Byte).toNat
      ∧ maintained.config.reclaimLevel = (8 : Byte).toNat ∧ maintained.config.reclaimLevel ≠ (11 : Byte).toNat := by decide +kernel

/-- A new RECLAIM_LEVEL that a quad's debt has reached, and one that lets a quad with a waiting entry return to CURRENT. -/
theorem test_hyps_cfg_write_level :
    let s : State := { indebted 8 with config := { maintained.config with reclaimLevel := 8 } }
    let down := (calm.setQuad 1 { debt := 5, state := .current, lapse := false })
    let t : State := { s.setBank 4 { BankRecord.powerOn with waitQueue := [waiting 2] } with pending := [] }
    down.config.reclaimLevel = 8 ∧ down.maintenanceLaw ∧ (down.quad 1).state = .current ∧ maintenanceOf 5 (down.quad 1).debt = .due
      ∧ t.hears head ∧ t.config.maintainer = some 0 ∧ t.maintenanceLaw ∧ (t.quad (groupOf 4)).state = .due
      ∧ maintenanceOf 9 (t.quad (groupOf 4)).debt = .current ∧ t.cleared (groupOf 4) = true ∧ (t.bank 4).phase = .closed
      ∧ t.servedFirst 4 (waiting 2) :=
  ⟨rfl, by unfold State.maintenanceLaw; decide +kernel, by decide +kernel, by decide +kernel, by decide +kernel, by decide +kernel,
    by unfold State.maintenanceLaw; decide +kernel, by decide +kernel, by decide +kernel, by decide +kernel, by decide +kernel,
    Or.inl ⟨rfl, rfl⟩⟩

/-- An entry to remove at index 0, none at index 1, and arguments just out of range. -/
theorem test_hyps_clear_requests :
    let x : FaultEntry := { bank := 3, row := 5, column := 0, port := 1, kind := .read }
    let s : State := { maintained with integrity := { maintained.integrity with faults := [x] } }
    s.hears head ∧ s.config.maintainer = some 0 ∧ s.integrity.faults[(0 : Byte).toNat]? = some x
      ∧ s.integrity.faults.length ≤ (1 : Byte).toNat ∧ 16 ≤ (16 : Byte).toNat ∧ 4 ≤ (4 : Byte).toNat
      ∧ requestOf (.lapseClear head 0) = some (head, .lapseClear 0) ∧ calm.config.maintainer ≠ some 0 := by decide +kernel

theorem test_hyps_inspect : (inSession .teardown).hears head ∧ calm.hears head := by decide +kernel

/-- Two records and a wait of one port, with different stamps. -/
theorem test_hyps_inspect_self :
    let s := ((withBank .opened [{ record 0 .shared with stamp := 4 }]).setBank 4
      (bankWith .opened [{ record 0 .exclusive with stamp := 2 }])).setBank 7 { bankWith .closing [] with waitQueue := [waiting 0] }
    s.holdView 0 = [(4, { record 0 .exclusive with stamp := 2 }), (3, { record 0 .shared with stamp := 4 })]
      ∧ (s.holdView 0).Pairwise (fun x y => x.2.stamp < y.2.stamp)
      ∧ (s.holdView 0).Perm (allBanks.flatMap (fun b => ((s.bank b).holds.filter (fun x => x.port == 0)).map (fun x => (b, x))))
      ∧ s.waitView 0 = [(7, waiting 0)] := by decide +kernel

/-- `calm` holds every law, with a command at the front of its queue that completes. -/
theorem test_hyps_step_keeps_laws :
    let s : State := { calm with pending := [.retentionTimerExpiry] }
    (s.arrayLaw ∧ s.debtLaw ∧ s.maintenanceLaw ∧ s.holdLaw ∧ s.placeLaw ∧ s.phaseLaw ∧ s.bankLaw ∧ s.burstLaw
        ∧ s.integrityLaw ∧ s.noticeLaw)
      ∧ ∃ t, step s = .next t := by
  refine ⟨⟨?_, ?_, ?_, ?_, ?_, test_phaseLaw_when_idle _ rfl rfl, ?_, ?_, ?_, ?_⟩, ⟨_, rfl⟩⟩
  · unfold State.arrayLaw; decide +kernel
  · exact ⟨by decide +kernel, fun _ h => nomatch h⟩
  · unfold State.maintenanceLaw; decide +kernel
  · intro b; fin_cases b <;> exact ⟨Or.inl (fun _ h => nomatch h), fun h => nomatch h⟩
  · unfold State.placeLaw; decide +kernel
  · intro b; fin_cases b <;> exact ⟨rfl, rfl, rfl, rfl⟩
  · exact ⟨(fun _ h => nomatch h), fun p x h => by fin_cases p <;> exact nomatch h⟩
  · unfold State.integrityLaw; decide +kernel
  · unfold State.noticeLaw; decide +kernel

theorem test_hyps_encodable : (Request.write 2 3 1 true [⟨0x0F, 0⟩]).encodable = true := by decide +kernel

end Sys2Proof.Tests
end

section
/-!
SUPPORT. How a law is carried through a packet, a command that ends an interval, and a step; and the first such law, the canonical form
of the array's memories (`State.arrayLaw`), where nearly every command leaves the array as it is.
-/

namespace Sys2Proof.Machine

open Sys2Proof

/-! ## The array under a request -/

theorem keepsStore_array {s t : State} (h : s.KeepsStore t) : t.array = s.array := h.2.1

@[simp] theorem answer_array (s : State) (p : Port) (t : Tag) (a : Answer) : (s.answer p t a).array = s.array :=
  keepsStore_array (keepsStore_of_holds (onlyHolds_of_answers (answer_answers s p t a)))

@[simp] theorem enterRetention_array (s : State) : s.enterRetention.array = s.array :=
  keepsStore_array (enterRetention_store s)

@[simp] theorem refreshChoice_array (s : State) : s.refreshChoice.array = s.array :=
  keepsStore_array (refreshChoice_store s)

@[simp] theorem settle_array (s : State) : s.settle.array = s.array := keepsStore_array (settle_store s)

@[simp] theorem linkFault_array (s : State) (p : Port) (reason : FaultReason) : (s.linkFault p reason).array = s.array :=
  keepsStore_array (linkFault_store s p reason)

theorem ifAttached_array {s : State} {f : State → State} (p : Port) (t : Tag) (h : (f s).array = s.array) :
    (s.ifAttached p t f).array = s.array := by
  unfold State.ifAttached
  split
  · exact h
  · simp

theorem unlessNone_array {s : State} {f : State → State} (p : Port) (t : Tag) (h : (f s).array = s.array) :
    (s.unlessNone p t f).array = s.array := by
  unfold State.unlessNone
  split
  · simp
  · exact h

theorem itemEffect_array (s : State) (i : Item) : (s.itemEffect i).array = s.array := by
  cases i with
  | reclaimLevel => exact (refreshChoice_array _).trans (keepsStore_array (evaluateAll_store s))
  | pullIn => exact refreshChoice_array s
  | retentionInterval | holdQuota | grantPolicy | idleEntry => rfl

theorem cfgWrite_array (s : State) (p : Port) (t : Tag) (code index value : Byte) :
    (s.cfgWrite p t code index value).array = s.array := by
  have applied (i : Item) (v : Nat) : (s.applyItem i v).array = s.array := by
    unfold State.applyItem
    split
    · rfl
    · exact itemEffect_array _ i
  unfold State.cfgWrite
  split
  · simp
  · simp only []
    split <;> simp [applied]
  · simp

theorem cfgRead_array (s : State) (p : Port) (t : Tag) (code index : Byte) : (s.cfgRead p t code index).array = s.array := by
  unfold State.cfgRead
  split
  · simp
  · split <;> simp

theorem inspect_array (s : State) (p : Port) (t : Tag) (code number : Byte) :
    (s.inspect p t code number).array = s.array := by
  unfold State.inspect
  split <;> simp

theorem faultClear_array (s : State) (p : Port) (t : Tag) (index : Byte) : (s.faultClear p t index).array = s.array := by
  unfold State.faultClear
  split
  · simp
  · split
    · simp
    · split
      · split <;> simp
      · simp

theorem lapseClear_array (s : State) (p : Port) (t : Tag) (quad : Byte) : (s.lapseClear p t quad).array = s.array := by
  unfold State.lapseClear
  split
  · simp
  · split
    · simp
    · split <;> simp

theorem countClear_array (s : State) (p : Port) (t : Tag) (bank : Byte) : (s.countClear p t bank).array = s.array := by
  unfold State.countClear
  split
  · simp
  · split
    · simp
    · split <;> simp

theorem requestClose_array (s : State) (p : Port) (t : Tag) (bank : Byte) : (s.requestClose p t bank).array = s.array := by
  have closed := keepsStore_array (keepsStore_of_holds (holdClose_holds s p t bank))
  refine unlessNone_array p t ?_
  split
  · exact (refreshChoice_array _).trans closed
  · exact closed

/-- No request reads or writes the array: a READ or WRITE is queued. -/
theorem dispatch_array (s : State) (p : Port) (t : Tag) (r : Request) : (s.dispatch p t r).array = s.array := by
  have holds {u : State} (h : s.OnlyHolds u) : u.array = s.array := keepsStore_array (keepsStore_of_holds h)
  cases r with
  | attach role =>
    show (s.requestAttach p t role).array = s.array
    unfold State.requestAttach
    split
    · exact keepsStore_array (attachSession_store s p t role)
    · simp
  | detach =>
    show (s.ifAttached p t (fun s => (s.detachSession p t).settle)).array = s.array
    refine ifAttached_array p t ?_
    rw [settle_array, keepsStore_array (detachSession_store s p t)]
  | idle => exact ifAttached_array p t (by simp)
  | openBank bank row mode wait => exact unlessNone_array p t (keepsStore_array (orderedOpen_store s p t bank row mode wait))
  | upgrade bank => exact unlessNone_array p t (holds (holdUpgrade_holds s p t bank))
  | closeBank bank => exact requestClose_array s p t bank
  | read bank column units ac =>
    exact unlessNone_array p t (holds (acceptBurst_holds s p t .read bank column units ac []))
  | write bank column units ac data =>
    exact unlessNone_array p t (holds (acceptBurst_holds s p t .write bank column units ac data))
  | cfgRead item index => exact ifAttached_array p t (cfgRead_array s p t item index)
  | cfgWrite item index value => exact ifAttached_array p t (cfgWrite_array s p t item index value)
  | inspect target number =>
    show (s.requestInspect p t target number).array = s.array
    unfold State.requestInspect
    split
    · exact inspect_array s p t target number
    · exact ifAttached_array p t (inspect_array s p t target number)
  | faultClear index => exact ifAttached_array p t (faultClear_array s p t index)
  | lapseClear quad => exact ifAttached_array p t (lapseClear_array s p t quad)
  | countClear bank => exact ifAttached_array p t (countClear_array s p t bank)

theorem take_array (s : State) (p : Port) (t : Tag) (r : Request) : (s.take p t r).array = s.array := by
  refine (dispatch_array _ p t r).trans ?_
  unfold State.beginRequest
  split <;> rfl

/-! ## Packets -/

/-- What makes every packet keep a law of the state: its link unit, a link fault and the session unit each keep it. -/
structure KeptByPackets (P : State → Prop) : Prop where
  link : ∀ {s : State} (p : Port) {l : Link}, l.queue = (s.link p).queue → P s → P (s.setLink p l)
  fault : ∀ {s : State} (p : Port) (reason : FaultReason), P s → P (s.linkFault p reason)
  take : ∀ {s : State} (p : Port) (t : Tag) (r : Request), P s → P (s.take p t r)
  wake : ∀ {s : State}, P s → P s.startWake
  stamp : ∀ {s : State} (n : Nat), P s → P (s.tickStamp n)
  retention : ∀ {s : State}, P s → P s.enterRetention

section
variable {P : State → Prop}

theorem accept_keeps (law : KeptByPackets P) {s : State} (p : Port) (a : Arrival) (h : P s) : P (s.accept p a) := by
  have good : P (s.goodPacket p a) := by
    unfold State.goodPacket
    split
    · exact law.fault p .reset (law.link p rfl h)
    · exact law.take p _ _ (law.link p rfl h)
    · exact h
    · exact h
    · exact h
  unfold State.accept
  split
  · split
    · exact law.fault p _ h
    · exact good
  · split
    · exact law.link p rfl h
    · exact h

theorem holdPacket_keeps (law : KeptByPackets P) {s : State} (p : Port) (a : Arrival) (h : P s) :
    P (s.holdPacket p a) := by
  unfold State.holdPacket
  simp only []
  split
  · exact law.stamp 1 (law.link p rfl h)
  · exact law.link p rfl h

theorem receive_keeps (law : KeptByPackets P) {s : State} (p : Port) (a : Arrival) (h : P s) : P (s.receive p a) := by
  unfold State.receive
  split
  · exact h
  · split
    · exact h
    · exact holdPacket_keeps law p a (law.wake h)
    · exact holdPacket_keeps law p a h
    · exact accept_keeps law p a h
    · exact accept_keeps law p a h

theorem endHeld_keeps (law : KeptByPackets P) {s : State} (p : Port) (h : P s) : P (s.endHeld p) := by
  unfold State.endHeld
  simp only []
  split
  · exact law.fault p .sequence (law.link p rfl h)
  · exact law.link p rfl h

theorem takeHeld_keeps (law : KeptByPackets P) :
    ∀ (held : List (Port × HeldPacket)) {s : State}, P s → P (State.takeHeld held s)
  | [], _, h => h
  | x :: rest, s, h => by
    have taken := accept_keeps law x.1 x.2.packet h
    refine takeHeld_keeps law rest ?_
    split
    · exact taken
    · exact endHeld_keeps law x.1 taken

theorem foldl_keeps {α : Type} {f : State → α → State} (hf : ∀ (s : State) x, P s → P (f s x)) :
    ∀ (xs : List α) {s : State}, P s → P (xs.foldl f s)
  | [], _, h => h
  | x :: xs, s, h => foldl_keeps hf xs (hf s x h)

/-- The end of a wake keeps a law that the part keeps in going to ACTIVE with its held packets taken up. -/
theorem finishWake_keeps (law : KeptByPackets P) {s : State}
    (awake : P { s with
      modeCtl := { s.modeCtl with mode := .active, wakeEndsAt := none }
      links := s.links.map (fun l => { l with held := [] }) }) : P s.finishWake :=
  law.retention (foldl_keeps (fun _ p => endHeld_keeps law p) allFour (takeHeld_keeps law s.heldOrder awake))

theorem loseCarrier_keeps (law : KeptByPackets P) {s : State} (p : Port) (h : P s) : P (s.loseCarrier p) := by
  unfold State.loseCarrier
  simp only []
  split
  · exact law.fault p .carrier (law.link p rfl h)
  · exact law.retention (law.link p rfl h)

end

/-! ## Commands that end an interval

Each completes only where its interval runs (log 5). -/

theorem burstUnitStep_next {s t : State} (hx : exec .burstUnitStep s = .next t) :
    ∃ e, s.bursts.executing = some e ∧ e.cut = none ∧ 0 < e.unitsLeft ∧ t = (s.reach e.nextUnitEnds).stepNextUnit e := by
  change execBurstUnitStep s = _ at hx
  unfold execBurstUnitStep at hx
  split at hx
  · split at hx
    · next e he hu =>
      exact ⟨e, he, Option.isNone_iff_eq_none.1 hu.1, hu.2, (Host.Outcome.next.inj hx).symm⟩
    · cases hx
  · cases hx

theorem executionCompletion_next {s t : State} (hx : exec .executionCompletion s = .next t) :
    ∃ e done, s.bursts.executing = some e ∧ e.cut = none
      ∧ ((State.stepUnits e.unitsLeft s).reach e.endsAt).bursts.executing = some done
      ∧ t = (((State.stepUnits e.unitsLeft s).reach e.endsAt).finishBurst done).settle := by
  change execExecutionCompletion s = _ at hx
  unfold execExecutionCompletion at hx
  split at hx
  · next e he =>
    split at hx
    · cases hx
    · next hc =>
      simp only [] at hx
      split at hx
      · next done hd =>
        exact ⟨e, done, he, by simpa using hc, hd, (Host.Outcome.next.inj hx).symm⟩
      · cases hx
  · cases hx

theorem cutCompletion_next {s t : State} (hx : exec .cutCompletion s = .next t) :
    ∃ e ends, s.bursts.executing = some e ∧ e.cut = some ends
      ∧ t = (((s.reach ends).unitStep e.burst e.results.length).1.endCut e.burst).settle := by
  change execCutCompletion s = _ at hx
  unfold execCutCompletion at hx
  split at hx
  · next e he =>
    split at hx
    · next ends hc => exact ⟨e, ends, he, hc, (Host.Outcome.next.inj hx).symm⟩
    · cases hx
  · cases hx

theorem openCompletion_next {s t : State} {b : Bank} (hx : exec (.openCompletion b) s = .next t) :
    (s.bank b).phase = .opening ∧ t = ((s.reachBank b).completeOpen b).settle := by
  change execOpenCompletion b s = _ at hx
  unfold execOpenCompletion at hx
  split at hx
  · next hp => exact ⟨hp, (Host.Outcome.next.inj hx).symm⟩
  · cases hx

theorem dwellExpiry_next {s t : State} {b : Bank} (hx : exec (.dwellExpiry b) s = .next t) :
    (s.bank b).dwellRuns = true ∧ t = (s.reachBank b).expireDwell b := by
  change execDwellExpiry b s = _ at hx
  unfold execDwellExpiry at hx
  split at hx
  · next hd => exact ⟨hd, (Host.Outcome.next.inj hx).symm⟩
  · cases hx

theorem closeCompletion_next {s t : State} {b : Bank} (hx : exec (.closeCompletion b) s = .next t) :
    (s.bank b).phase = .closing
      ∧ t = ((s.reachBank b).completeClose b).tryClearStart.refreshChoice.enterRetention := by
  change execCloseCompletion b s = _ at hx
  unfold execCloseCompletion at hx
  split at hx
  · next hp => exact ⟨hp, (Host.Outcome.next.inj hx).symm⟩
  · cases hx

theorem refreshCompletion_next {s t : State} (hx : exec .refreshCompletion s = .next t) :
    ∃ r, s.refresh = some r
      ∧ t = ((s.reach r.endsAt).finishRefresh r.quad).tryClearStart.refreshChoice.enterRetention := by
  change execRefreshCompletion s = _ at hx
  unfold execRefreshCompletion at hx
  split at hx
  · next r hr => exact ⟨r, hr, (Host.Outcome.next.inj hx).symm⟩
  · cases hx

theorem clearCompletion_next {s t : State} (hx : exec .clearCompletion s = .next t) :
    ∃ r, s.modeCtl.clearRun = some r
      ∧ t = (((s.reach (r.startedAt + clearTime)).finishClear r.quad).refreshChoice.afterClear r.quad).enterRetention := by
  change execClearCompletion s = _ at hx
  unfold execClearCompletion at hx
  split at hx
  · next r hr => exact ⟨r, hr, (Host.Outcome.next.inj hx).symm⟩
  · cases hx

theorem wakeCompletion_next {s t : State} (hx : exec .wakeCompletion s = .next t) :
    ∃ ends, s.modeCtl.wakeEndsAt = some ends ∧ t = (s.reach ends).finishWake := by
  change execWakeCompletion s = _ at hx
  unfold execWakeCompletion at hx
  split at hx
  · next ends hw => exact ⟨ends, hw, (Host.Outcome.next.inj hx).symm⟩
  · cases hx

theorem transmission_next {s t : State} {p : Port} (hx : exec (.transmission p) s = .next t) :
    ∃ bytes, s.transmittable p = some bytes ∧ t = (s.setLink p ((s.link p).transmitted bytes)).enterRetention := by
  change execTransmission p s = _ at hx
  unfold execTransmission at hx
  split at hx
  · next bytes hb => exact ⟨bytes, hb, (Host.Outcome.next.inj hx).symm⟩
  · cases hx

/-! ## Steps -/

/-- A law that every command keeps, and that sees neither the queue nor the time, is kept by every step: a step is a waiting command,
a timed event that is due, or the passing of time. -/
theorem step_keeps {P : State → Prop} (queue : ∀ {s : State} (rest : List Instr), P s → P { s with pending := rest })
    (command : ∀ {i : Instr} {s t : State}, P s → exec i s = .next t → P t) (time : ∀ {s : State}, P s → P s.passTime)
    {s t : State} (h : P s) (hx : step s = .next t) : P t := by
  unfold step at hx
  split at hx
  · next c rest _ => exact command (queue rest h) hx
  · split at hx
    · exact command h hx
    · obtain rfl := Host.Outcome.next.inj hx
      exact time h

/-! ## The array under the other commands -/

/-- An array in its canonical form keeps it while only data and changed bits of single units are written. -/
theorem unitStep_wf {s : State} (h : s.array.wf = true) (b : QueuedBurst) (k : Nat) : (s.unitStep b k).1.array.wf = true := by
  have detected (e : FaultEntry) : (s.detect e).array = s.array := by
    unfold State.detect
    split
    · rfl
    · split <;> rfl
  unfold State.unitStep
  split
  · unfold State.readUnitStep
    simp only []
    split
    · exact h
    · exact wf_writeUnit h _ _
    · rw [detected]; exact h
  · unfold State.writeUnitStep
    split
    · exact wf_writeUnit h _ _
    · split
      · exact h
      · unfold State.partialWriteStep
        simp only []
        split
        · exact h
        · split
          · exact wf_writeUnit h _ _
          · exact wf_writeUnit h _ _
          · rw [detected]; exact h

theorem stepNextUnit_wf {s : State} (h : s.array.wf = true) (e : Execution) : (s.stepNextUnit e).array.wf = true :=
  unitStep_wf h e.burst e.results.length

theorem stepUnits_wf : ∀ (n : Nat) {s : State}, s.array.wf = true → (State.stepUnits n s).array.wf = true
  | 0, _, h => h
  | n + 1, s, h => by
    unfold State.stepUnits
    split
    · exact stepUnits_wf n (stepNextUnit_wf (s := s.reach _) h _)
    · exact h

/-- The start of a clear takes a new epoch for its free values; the memories stay (log 11). -/
theorem tryClearStart_array (s : State) : s.tryClearStart.array = { s.array with epoch := s.tryClearStart.array.epoch } := by
  unfold State.tryClearStart
  split
  · rfl
  · split
    · split <;> rfl
    · rfl

theorem tryClearStart_wf {s : State} (h : s.array.wf = true) : s.tryClearStart.array.wf = true := by
  rw [tryClearStart_array]
  exact h

/-- The links and sessions at RESET_N fall, before the bank records are looked at (R132, R148). -/
def State.quieted (s : State) : State :=
  { s with links := s.links.map Link.atReset, sessions := s.sessions.map Session.atReset }

@[simp] theorem quieted_array (s : State) : s.quieted.array = s.array := rfl

/-- The sixteen bank records at RESET_N fall (R8). -/
def State.resetBanks (s : State) : State := allBanks.foldl (fun s b => s.resetBank b) s

theorem resetBlocks_eq (s : State) : s.resetBlocks =
    { s.quieted.resetBanks.clearAllCounts with
      bursts := s.quieted.resetBanks.bursts.atReset s.quieted.resetBanks.now, config := ConfigTable.default } := rfl

theorem resetBanks_holds (s : State) : s.OnlyHolds s.resetBanks := onlyHolds_foldl resetBank_holds allBanks s

theorem resetFall_wf {s : State} (h : s.array.wf = true) : s.resetFall.array.wf = true := by
  have abandoned : s.resetMode.array.wf = true := by
    unfold State.resetMode State.abandonClear
    simp only []
    split
    · exact h
    · exact wf_abandonClear h _ _
  have blocks (u : State) : u.resetBlocks.array = u.array := by
    have banked := keepsStore_array (keepsStore_of_holds (resetBanks_holds u.quieted))
    simpa only [resetBlocks_eq, clearAllCounts_array, quieted_array] using banked
  have cut (u : State) : u.cutAtOnce.array = u.array := keepsStore_array (keepsStore_of_holds (cutAtOnce_holds u))
  have evaluated (u : State) : u.evaluateAll.array = u.array := keepsStore_array (evaluateAll_store u)
  have finished (u : State) : u.finishSessions.array = u.array :=
    keepsStore_array (keepsStore_of_holds (onlyHolds_of_answers (finishSessions_answers u)))
  unfold State.resetFall
  rwa [refreshChoice_array, finished, evaluated, cut, blocks]

theorem resetRise_wf {s : State} (h : s.array.wf = true) : s.resetRise.array.wf = true := by
  unfold State.resetRise
  simp only []
  split
  · exact tryClearStart_wf h
  · rw [enterRetention_array]; exact h

theorem finishBurst_store (s : State) (e : Execution) : s.KeepsStore (s.finishBurst e) :=
  keepsStore_trans (t := (s.answerWork _ _ _).setExecuting none)
    (keepsStore_trans (keepsStore_of_holds (onlyHolds_of_answers (answerWork_answers s _ _ _))) ⟨rfl, rfl, rfl, rfl, rfl⟩)
    (keepsStore_of_holds (reportCompletion_holds _ _ _))

theorem finishClear_wf {s : State} (h : s.array.wf = true) (q : Quad) : (s.finishClear q).array.wf = true := by
  have served (u : State) : (u.serveQuad q).array = u.array := keepsStore_array (keepsStore_of_holds (serveQuad_holds u q))
  unfold State.finishClear
  simp only []
  rw [served]
  exact wf_clearQuad h q

theorem keptByPackets_arrayLaw : KeptByPackets State.arrayLaw where
  link _ _ _ h := h
  fault p reason h := by unfold State.arrayLaw; rwa [linkFault_array]
  take p t r h := by unfold State.arrayLaw; rwa [take_array]
  wake h := h
  stamp _ h := h
  retention h := by unfold State.arrayLaw; rwa [enterRetention_array]

/-- Every command keeps the canonical form of the array's memories. -/
theorem exec_keeps_arrayLaw {i : Instr} {s t : State} (h : s.arrayLaw) (hx : exec i s = .next t) : t.arrayLaw := by
  have law := keptByPackets_arrayLaw
  have choices {u : State} (hu : u.arrayLaw) : u.refreshChoice.enterRetention.arrayLaw := by
    unfold State.arrayLaw; rwa [enterRetention_array, refreshChoice_array]
  have store {u v : State} (k : u.KeepsStore v) (hu : u.arrayLaw) : v.arrayLaw := by
    unfold State.arrayLaw; rwa [keepsStore_array k]
  cases i
  case powerOn high carrier =>
    obtain rfl := Host.Outcome.next.inj hx
    exact rfl
  case resetNFall =>
    obtain rfl := Host.Outcome.next.inj hx
    split
    · exact h
    · exact resetFall_wf h
  case resetNRise =>
    obtain rfl := Host.Outcome.next.inj hx
    split
    · exact resetRise_wf h
    · exact h
  case carrierLoss p =>
    obtain rfl := Host.Outcome.next.inj hx
    exact loseCarrier_keeps law p h
  case carrierReturn p =>
    obtain rfl := Host.Outcome.next.inj hx
    exact h
  case unitCorruption bank row column data check =>
    obtain rfl := Host.Outcome.next.inj hx
    show ArrayState.wf (if _ then _ else _) = true
    split
    · exact h
    · split
      · exact wf_corruptLate h _ _ _
      · exact wf_corrupt h _ _ _
  case burstUnitStep =>
    obtain ⟨e, -, -, -, rfl⟩ := burstUnitStep_next hx
    exact stepNextUnit_wf (s := s.reach _) h e
  case executionCompletion =>
    obtain ⟨e, done, -, -, -, rfl⟩ := executionCompletion_next hx
    have stepped : ((State.stepUnits e.unitsLeft s).reach e.endsAt).arrayLaw := stepUnits_wf e.unitsLeft h
    exact store (settle_store _) (store (finishBurst_store _ done) stepped)
  case cutCompletion =>
    obtain ⟨e, ends, -, -, rfl⟩ := cutCompletion_next hx
    have stepped : ((s.reach ends).unitStep e.burst e.results.length).1.arrayLaw := unitStep_wf (s := s.reach ends) h _ _
    exact store (settle_store _) (store (keepsStore_of_holds (endCut_holds _ _)) stepped)
  case openCompletion b =>
    obtain ⟨-, rfl⟩ := openCompletion_next hx
    exact store (settle_store _) (store (u := s.reachBank b) (keepsStore_of_holds (completeOpen_holds _ b)) h)
  case dwellExpiry b =>
    obtain ⟨-, rfl⟩ := dwellExpiry_next hx
    exact h
  case closeCompletion b =>
    obtain ⟨-, rfl⟩ := closeCompletion_next hx
    have closed : ((s.reachBank b).completeClose b).arrayLaw :=
      store (u := s.reachBank b) (keepsStore_of_holds (completeClose_holds _ b)) h
    exact choices (tryClearStart_wf closed)
  case retentionTimerExpiry =>
    obtain rfl := Host.Outcome.next.inj hx
    have expired := keepsStore_array (keepsStore_foldl expireQuad_store allFour (s.reach s.timer.endsAt))
    unfold State.arrayLaw
    rw [settle_array, nextPeriod_array, expired]
    exact h
  case refreshCompletion =>
    obtain ⟨r, -, rfl⟩ := refreshCompletion_next hx
    have finished : ((s.reach r.endsAt).finishRefresh r.quad).arrayLaw :=
      store (u := s.reach r.endsAt) (finishRefresh_store _ r.quad) h
    exact choices (tryClearStart_wf finished)
  case clearCompletion =>
    obtain ⟨r, -, rfl⟩ := clearCompletion_next hx
    have finished := store (refreshChoice_store _)
      (finishClear_wf (s := s.reach (r.startedAt + clearTime)) h r.quad : State.arrayLaw _)
    refine store (enterRetention_store _) ?_
    unfold State.afterClear
    split
    · exact finished
    · exact tryClearStart_wf finished
  case wakeCompletion =>
    obtain ⟨ends, -, rfl⟩ := wakeCompletion_next hx
    exact finishWake_keeps law h
  case transmission p =>
    obtain ⟨bytes, -, rfl⟩ := transmission_next hx
    exact store (enterRetention_store _) (u := s.setLink p _) h
  all_goals
    obtain rfl := Host.Outcome.next.inj hx
    exact receive_keeps law _ _ h

/-- Settles O54: only the units of bursts, corruptions and clears change the array, each by operations that keep the form. -/
theorem stepKeepsArrayLaw : Obligations.StepKeepsArrayLaw :=
  fun _ _ h hx => step_keeps (fun _ h => h) exec_keeps_arrayLaw (fun h => h) h hx

end Sys2Proof.Machine
end
section
/-!
SUPPORT. The clear and the refresh in progress: no operation of the hold controller, no answer and no choice of the data-path arbiter
moves a bank out of CLEARING or REFRESHING, and the starts and ends of clears and refreshes move the four banks of their quad together
(R16, R17).
-/

namespace Sys2Proof.Machine

open Sys2Proof

/-! ## Banks in CLEARING or REFRESHING stay so -/

/-- A bank that is CLEARING or REFRESHING in `s` is so in `t`. -/
def State.KeepsPhases (s t : State) : Prop :=
  ∀ b, (s.bank b).phase = .clearing ∨ (s.bank b).phase = .refreshing → (t.bank b).phase = (s.bank b).phase

theorem keepsPhases_refl (s : State) : s.KeepsPhases s := fun _ _ => rfl

theorem keepsPhases_trans {s t u : State} (h1 : s.KeepsPhases t) (h2 : t.KeepsPhases u) : s.KeepsPhases u := fun b hb => by
  have e := h1 b hb
  exact (h2 b (e ▸ hb)).trans e

theorem keepsPhases_of_bank {s t : State} (h : ∀ b, t.bank b = s.bank b) : s.KeepsPhases t := fun b _ => by rw [h]

theorem keepsPhases_of_answers {s t : State} (h : s.OnlyAnswers t) : s.KeepsPhases t :=
  keepsPhases_of_bank (onlyAnswers_bank h)

theorem keepsPhases_foldl {α : Type} {f : State → α → State} (hf : ∀ (s : State) x, s.KeepsPhases (f s x)) :
    ∀ (xs : List α) (s : State), s.KeepsPhases (xs.foldl f s)
  | [], s => keepsPhases_refl s
  | x :: xs, s => keepsPhases_trans (hf s x) (keepsPhases_foldl hf xs (f s x))

theorem keepsPhases_setBank (s : State) (b : Bank) {r : BankRecord}
    (h : (s.bank b).phase = .clearing ∨ (s.bank b).phase = .refreshing → r.phase = (s.bank b).phase) :
    s.KeepsPhases (s.setBank b r) := fun c hc => by
  rw [bank_setBank]
  split
  · next e => subst e; exact h hc
  · rfl

/-- A bank in any other state may be given any record. -/
theorem keepsPhases_setBank_other (s : State) (b : Bank) (r : BankRecord)
    (h : (s.bank b).phase ≠ .clearing ∧ (s.bank b).phase ≠ .refreshing) : s.KeepsPhases (s.setBank b r) :=
  keepsPhases_setBank s b fun hp => absurd hp (not_or.2 h)

theorem keepsPhases_arbiterChoice (s : State) : s.KeepsPhases s.arbiterChoice := keepsPhases_of_bank (arbiterChoice_bank s)

theorem completeUpgrade_phases (s : State) (b : Bank) : s.KeepsPhases (s.completeUpgrade b) := by
  unfold State.completeUpgrade
  split
  · split
    · exact keepsPhases_trans (keepsPhases_setBank s b fun _ => by rfl) (keepsPhases_of_answers (answerWork_answers _ _ _ _))
    · exact keepsPhases_refl s
  · exact keepsPhases_refl s

theorem afterLeaving_phases (s : State) (b : Bank) : s.KeepsPhases (s.afterLeaving b) := by
  unfold State.afterLeaving
  simp only []
  split
  · split
    · next ho => exact keepsPhases_setBank_other s b _ (by simp [ho])
    · exact keepsPhases_refl s
  · exact completeUpgrade_phases s b

theorem leaveBank_phases (s : State) (b : Bank) (p : Port) : s.KeepsPhases (s.leaveBank b p) :=
  keepsPhases_trans (keepsPhases_setBank s b fun _ => by rfl) (afterLeaving_phases _ b)

theorem markRecord_phases (s : State) (b : Bank) (p : Port) (f : HoldRecord → HoldRecord) :
    s.KeepsPhases (s.markRecord b p f) :=
  keepsPhases_setBank s b fun _ => rfl

theorem dropUpgrade_phases (s : State) (b : Bank) (p : Port) (a : Answer) : s.KeepsPhases (s.dropUpgrade b p a) := by
  unfold State.dropUpgrade
  split
  · split
    · exact keepsPhases_trans (keepsPhases_setBank s b fun _ => by rfl) (keepsPhases_of_answers (answerWork_answers _ _ _ _))
    · exact keepsPhases_refl s
  · exact keepsPhases_refl s

theorem dropWait_phases (s : State) (b : Bank) (p : Port) (a : Answer) : s.KeepsPhases (s.dropWait b p a) := by
  unfold State.dropWait
  split
  · exact keepsPhases_trans (keepsPhases_setBank s b fun _ => by rfl) (keepsPhases_of_answers (answerWork_answers _ _ _ _))
  · exact keepsPhases_refl s

theorem addRecord_phases (s : State) (b : Bank) (h : HoldRecord) : s.KeepsPhases (s.addRecord b h) :=
  keepsPhases_setBank s b fun _ => rfl

theorem joinBank_phases (s : State) (b : Bank) (p : Port) (t : Tag) : s.KeepsPhases (s.joinBank b p t) := by
  unfold State.joinBank
  split
  · exact addRecord_phases s b _
  · exact keepsPhases_trans (addRecord_phases s b _) (keepsPhases_of_answers (answer_answers _ _ _ _))

theorem rejoinBank_phases (s : State) (b : Bank) (p : Port) (t : Tag) (mode : HoldMode)
    (h : (s.bank b).phase = .closeWait) : s.KeepsPhases (s.rejoinBank b p t mode) :=
  keepsPhases_trans
    (keepsPhases_trans (keepsPhases_setBank_other s b { s.bank b with phase := .opened } (by simp [h]))
      (addRecord_phases _ b _))
    (keepsPhases_of_answers (answer_answers _ _ _ _))

theorem placeOpen_phases (s : State) (b : Bank) (p : Port) (t : Tag) (row : Row) (mode : HoldMode) :
    s.KeepsPhases (s.placeOpen b p t row mode) := by
  unfold State.placeOpen
  split
  case h_1 hp => exact keepsPhases_setBank_other s b _ (by simp [hp])
  case h_2 | h_3 => exact joinBank_phases s b p t
  case h_4 hp => exact rejoinBank_phases s b p t mode hp
  case h_5 | h_6 | h_7 => exact keepsPhases_refl s

theorem addWait_phases (s : State) (b : Bank) (p : Port) (t : Tag) (row : Row) (mode : HoldMode) :
    s.KeepsPhases (s.addWait b p t row mode) := by
  unfold State.addWait
  exact keepsPhases_trans (t := (s.setBank b _).tickStamp 1) (keepsPhases_setBank s b fun _ => by rfl)
    (keepsPhases_of_answers (answer_answers _ _ _ _))

theorem holdOpen_phases (s : State) (p : Port) (t : Tag) (bank : Byte) (row : BitVec 16) (mode : HoldMode) (wait : Bool) :
    s.KeepsPhases (s.holdOpen p t bank row mode wait) := by
  have answered := fun a => keepsPhases_of_answers (answer_answers s p t a)
  unfold State.holdOpen
  split
  · exact answered _
  · split
    · exact placeOpen_phases s _ p t _ mode
    · split
      · exact addWait_phases s _ p t _ mode
      · exact answered _
  · exact answered _

theorem serveBank_phases (s : State) (b : Bank) : s.KeepsPhases (s.serveBank b) := by
  unfold State.serveBank
  split
  · next hc =>
    split
    · unfold State.grantBatch State.openOn
      simp only []
      rw [setBank_setBank]
      exact keepsPhases_trans (keepsPhases_setBank_other s b _ (by simp [hc.1])) (keepsPhases_of_bank fun _ => rfl)
    · exact keepsPhases_refl s
  · exact keepsPhases_refl s

theorem serveQuad_phases (s : State) (q : Quad) : s.KeepsPhases (s.serveQuad q) := keepsPhases_foldl serveBank_phases _ s

theorem closeRecord_phases (s : State) (b : Bank) (p : Port) (t : Tag) : s.KeepsPhases (s.closeRecord b p t) := by
  have marked := keepsPhases_trans (markRecord_phases s b p (fun h => { h with releasing := true, closeTag := some t }))
    (dropUpgrade_phases _ b p .cancelled)
  unfold State.closeRecord
  simp only []
  split
  · exact keepsPhases_trans marked
      (keepsPhases_trans (leaveBank_phases _ b p) (keepsPhases_of_answers (answer_answers _ _ _ _)))
  · exact marked

theorem holdClose_phases (s : State) (p : Port) (t : Tag) (bank : Byte) : s.KeepsPhases (s.holdClose p t bank) := by
  have answered := fun (s : State) a => keepsPhases_of_answers (answer_answers s p t a)
  unfold State.holdClose
  split
  · exact answered s _
  · split
    · exact answered s _
    · split
      · exact keepsPhases_trans (dropWait_phases s _ p _) (answered _ _)
      · split
        · split
          · exact closeRecord_phases s _ p t
          · exact answered s _
        · exact answered s _

theorem holdUpgrade_phases (s : State) (p : Port) (t : Tag) (bank : Byte) : s.KeepsPhases (s.holdUpgrade p t bank) := by
  have answered := fun (s : State) a => keepsPhases_of_answers (answer_answers s p t a)
  unfold State.holdUpgrade
  split
  · exact answered s _
  · split
    · exact answered s _
    · split
      · exact answered s _
      · split
        · exact answered s _
        · split
          · exact answered s _
          · split
            · exact keepsPhases_trans (markRecord_phases s _ p _) (answered _ _)
            · split
              · exact answered s _
              · exact keepsPhases_trans (keepsPhases_setBank s _ fun _ => by rfl) (answered _ _)

theorem acceptBurst_phases (s : State) (p : Port) (t : Tag) (kind : BurstKind) (bank column units : Byte) (ac : Bool)
    (data : List WriteUnit) : s.KeepsPhases (s.acceptBurst p t kind bank column units ac data) := by
  have answered := fun a => keepsPhases_of_answers (answer_answers s p t a)
  unfold State.acceptBurst
  split
  · exact answered _
  · simp only []
    refine keepsPhases_trans ?_ (keepsPhases_arbiterChoice _)
    split
    · exact keepsPhases_trans (s := s) (t := s.queueBurst _) (fun _ _ => rfl)
        (keepsPhases_trans (markRecord_phases _ _ p _) (dropUpgrade_phases _ _ p _))
    · exact fun _ _ => rfl
  · exact answered _

theorem completeOpen_phases (s : State) (b : Bank) (h : (s.bank b).phase = .opening) :
    s.KeepsPhases (s.completeOpen b) := by
  have swept := sweep_bank (openRecord_bank b) (s.bank b).holds s
  unfold State.completeOpen
  refine keepsPhases_trans (keepsPhases_of_bank swept)
    (keepsPhases_trans (keepsPhases_setBank_other _ b _ ?_) (completeUpgrade_phases _ b))
  rw [swept, h]
  simp

theorem expireDwell_phases (s : State) (b : Bank) (h : (s.bank b).dwellRuns = true) : s.KeepsPhases (s.expireDwell b) := by
  refine keepsPhases_setBank_other s b _ ?_
  unfold BankRecord.dwellRuns at h
  constructor <;> intro hp <;> simp [hp] at h

theorem completeClose_phases (s : State) (b : Bank) (h : (s.bank b).phase = .closing) :
    s.KeepsPhases (s.completeClose b) :=
  keepsPhases_trans (keepsPhases_setBank_other s b _ (by simp [h])) (serveBank_phases _ b)

theorem reportCompletion_phases (s : State) (p : Port) (b : Bank) : s.KeepsPhases (s.reportCompletion p b) := by
  unfold State.reportCompletion
  split
  · exact keepsPhases_refl s
  · split
    · split
      · exact keepsPhases_refl s
      · exact keepsPhases_trans (leaveBank_phases s b p) (keepsPhases_of_answers (answerTag_answers _ _ _ _))
    · split
      · exact keepsPhases_trans (leaveBank_phases s b p) (keepsPhases_of_answers (notify_answers _ _ _))
      · exact keepsPhases_refl s

theorem endCut_phases (s : State) (x : QueuedBurst) : s.KeepsPhases (s.endCut x) := by
  unfold State.endCut
  simp only []
  split
  · exact keepsPhases_trans (s := s) (t := s.setExecuting none) (fun _ _ => rfl) (leaveBank_phases _ _ _)
  · exact fun _ _ => rfl

theorem revokeBank_phases (s : State) (b : Bank) : s.KeepsPhases (s.revokeBank b) := by
  have removed := fun c => foldl_bank (fun s p => removeBankBursts_bank s p b .revoked c) allFour s
  unfold State.revokeBank
  simp only []
  refine keepsPhases_trans (keepsPhases_of_bank removed) (keepsPhases_trans ?_
    (keepsPhases_trans (keepsPhases_of_bank (sweep_bank (revokeRecord_bank b) _ _))
      (keepsPhases_trans (keepsPhases_setBank _ b fun _ => by rfl) (afterLeaving_phases _ b))))
  split
  · exact dropUpgrade_phases _ b _ _
  · exact keepsPhases_refl _

theorem revokeQuad_phases (s : State) (q : Quad) : s.KeepsPhases (s.revokeQuad q) := keepsPhases_foldl revokeBank_phases _ s

theorem detachRecord_phases (s : State) (p : Port) (b : Bank) : s.KeepsPhases (s.detachRecord p b) := by
  unfold State.detachRecord
  split
  · exact keepsPhases_refl s
  · split
    · exact keepsPhases_refl s
    · split
      · exact keepsPhases_trans (leaveBank_phases s b p) (keepsPhases_of_answers (answerTag_answers _ _ _ _))
      · exact markRecord_phases s b p _

theorem teardownRecord_phases (s : State) (p : Port) (b : Bank) : s.KeepsPhases (s.teardownRecord p b) := by
  unfold State.teardownRecord
  split
  · exact keepsPhases_refl s
  · split
    · exact keepsPhases_refl s
    · split
      · exact leaveBank_phases s b p
      · exact markRecord_phases s b p _

theorem detachHolds_phases (s : State) (p : Port) : s.KeepsPhases (s.detachHolds p) :=
  keepsPhases_trans (keepsPhases_trans (keepsPhases_foldl (fun s b => dropWait_phases s b p _) _ s)
    (keepsPhases_foldl (fun s b => dropUpgrade_phases s b p _) _ _))
    (keepsPhases_foldl (fun s b => detachRecord_phases s p b) _ _)

theorem teardownHolds_phases (s : State) (p : Port) : s.KeepsPhases (s.teardownHolds p) :=
  keepsPhases_trans (keepsPhases_trans (keepsPhases_foldl (fun s b => dropWait_phases s b p _) _ s)
    (keepsPhases_foldl (fun s b => dropUpgrade_phases s b p _) _ _))
    (keepsPhases_foldl (fun s b => teardownRecord_phases s p b) _ _)

theorem resetBank_phases (s : State) (b : Bank) : s.KeepsPhases (s.resetBank b) :=
  keepsPhases_trans (keepsPhases_setBank s b fun _ => by rfl) (afterLeaving_phases _ b)

theorem cutAtOnce_phases (s : State) : s.KeepsPhases s.cutAtOnce := by
  unfold State.cutAtOnce
  split
  · split
    · exact endCut_phases s _
    · exact keepsPhases_refl s
  · exact keepsPhases_refl s

/-! ## Operations that leave the clear and the refresh in progress as they are -/

/-- The clear and the refresh in progress are the same, and the banks in CLEARING and REFRESHING stay so. -/
structure State.KeepsRuns (s t : State) : Prop where
  clear : t.modeCtl.clearRun = s.modeCtl.clearRun
  refresh : t.refresh = s.refresh
  phases : s.KeepsPhases t

theorem keepsRuns_refl (s : State) : s.KeepsRuns s := ⟨rfl, rfl, keepsPhases_refl s⟩

theorem keepsRuns_trans {s t u : State} (h1 : s.KeepsRuns t) (h2 : t.KeepsRuns u) : s.KeepsRuns u :=
  ⟨h2.clear.trans h1.clear, h2.refresh.trans h1.refresh, keepsPhases_trans h1.phases h2.phases⟩

theorem keepsRuns_foldl {α : Type} {f : State → α → State} (hf : ∀ (s : State) x, s.KeepsRuns (f s x)) :
    ∀ (xs : List α) (s : State), s.KeepsRuns (xs.foldl f s)
  | [], s => keepsRuns_refl s
  | x :: xs, s => keepsRuns_trans (hf s x) (keepsRuns_foldl hf xs (f s x))

theorem keepsRuns_of_holds {s t : State} (h : s.OnlyHolds t) (hp : s.KeepsPhases t) : s.KeepsRuns t := by
  obtain ⟨-, hmode, -, -, -, hrefresh, -⟩ := onlyHolds_keeps h
  exact ⟨by rw [hmode], hrefresh, hp⟩

theorem keepsRuns_of_answers {s t : State} (h : s.OnlyAnswers t) : s.KeepsRuns t :=
  keepsRuns_of_holds (onlyHolds_of_answers h) (keepsPhases_of_answers h)

theorem keepsRuns_of_eq {s t : State} (hm : t.modeCtl.clearRun = s.modeCtl.clearRun) (hr : t.refresh = s.refresh)
    (hb : t.banks = s.banks) : s.KeepsRuns t :=
  ⟨hm, hr, keepsPhases_of_bank fun _ => by unfold State.bank; rw [hb]⟩

/-- The phase law sees no more of the state than this. -/
theorem phaseLaw_of_runs {s t : State} (h : s.KeepsRuns t) (law : s.phaseLaw) : t.phaseLaw := by
  refine ⟨fun r hr b hb => ?_, fun r hr b hb => ?_⟩
  · have e := law.1 r (h.clear ▸ hr) b hb
    rw [h.phases b (Or.inl e), e]
  · have e := law.2 r (h.refresh ▸ hr) b hb
    rw [h.phases b (Or.inr e), e]

theorem evaluateQuad_runs (s : State) (q : Quad) : s.KeepsRuns (s.evaluateQuad q) := by
  have set (m : Maintenance) : s.KeepsRuns (s.setMaintenance q m) := keepsRuns_of_eq rfl rfl rfl
  unfold State.evaluateQuad
  simp only []
  split
  case h_1 => exact keepsRuns_trans (set _) (keepsRuns_of_answers (reclaimQuad_answers _ q))
  case h_2 | h_3 => exact keepsRuns_trans (set _) (keepsRuns_of_holds (revokeQuad_holds _ q) (revokeQuad_phases _ q))
  case h_4 => exact keepsRuns_trans (set _) (keepsRuns_of_holds (serveQuad_holds _ q) (serveQuad_phases _ q))
  case h_5 | h_6 | h_7 | h_8 | h_9 => exact set _

theorem evaluateAll_runs (s : State) : s.KeepsRuns s.evaluateAll := keepsRuns_foldl evaluateQuad_runs allFour s

theorem expireQuad_runs (s : State) (q : Quad) : s.KeepsRuns (s.expireQuad q) := by
  unfold State.expireQuad
  split
  · exact keepsRuns_refl s
  · split
    · exact keepsRuns_trans (t := s.setDebt q _) (keepsRuns_of_eq rfl rfl rfl) (evaluateQuad_runs _ q)
    · exact keepsRuns_trans (t := s.setQuad q _) (keepsRuns_of_eq rfl rfl rfl)
        (keepsRuns_of_answers (lapseNotices_answers _ q))

theorem releaseRole_runs (s : State) (p : Port) : s.KeepsRuns (s.releaseRole p) := by
  unfold State.releaseRole
  split <;> exact keepsRuns_of_eq rfl rfl rfl

theorem attachSession_runs (s : State) (p : Port) (t : Tag) (role : Byte) : s.KeepsRuns (s.attachSession p t role) := by
  unfold State.attachSession
  split
  · exact keepsRuns_of_answers (answer_answers _ _ _ _)
  · exact keepsRuns_trans (t := State.setSession { s with config := _ } p _) (keepsRuns_of_eq rfl rfl rfl)
      (keepsRuns_of_answers (answer_answers _ _ _ _))

/-- The first steps of a DETACH and of a teardown: the session's new record, its role, its bursts. -/
theorem sessionEnd_runs (s : State) (p : Port) (x : Session) :
    s.KeepsRuns (((s.setSession p x).releaseRole p).removePortBursts p .cancelled) :=
  keepsRuns_trans (keepsRuns_trans (t := s.setSession p x) (keepsRuns_of_eq rfl rfl rfl) (releaseRole_runs _ p))
    (keepsRuns_of_holds (removePortBursts_holds _ p _) (keepsPhases_of_bank (removePortBursts_bank _ p _)))

theorem detachSession_runs (s : State) (p : Port) (t : Tag) : s.KeepsRuns (s.detachSession p t) :=
 by
  unfold State.detachSession
  exact keepsRuns_trans (sessionEnd_runs s p _) (keepsRuns_of_holds (detachHolds_holds _ p) (detachHolds_phases _ p))

theorem teardownSession_runs (s : State) (p : Port) : s.KeepsRuns (s.teardownSession p) := by
  unfold State.teardownSession
  split
  case h_1 | h_2 =>
    exact keepsRuns_trans (sessionEnd_runs s p _) (keepsRuns_of_holds (teardownHolds_holds _ p) (teardownHolds_phases _ p))
  case h_3 | h_4 => exact keepsRuns_refl s

theorem nextPeriod_runs (s : State) : s.KeepsRuns s.nextPeriod := keepsRuns_of_eq rfl rfl rfl

theorem enterRetention_runs (s : State) : s.KeepsRuns s.enterRetention := by
  unfold State.enterRetention
  split <;> exact keepsRuns_of_eq rfl rfl rfl

/-! ## Starts of clears and refreshes -/

theorem quadClosed_iff (s : State) (q : Quad) : s.quadClosed q = true ↔ ∀ b, groupOf b = q → (s.bank b).phase = .closed := by
  simp only [State.quadClosed, List.all_eq_true, mem_quadBanks, beq_iff_eq]

/-- The refresh arbiter picks a quad that is eligible (R90). -/
theorem refreshPick_eligible {s : State} {q : Quad} (h : s.refreshPick = some q) : s.eligible q = true := by
  have picked : ∀ q, s.refreshPick = some q → s.eligible q = true := by
    unfold State.refreshPick
    refine List.foldlRecOn (motive := fun best => ∀ q, best = some q → s.eligible q = true) allFour _
      (fun _ hq => by cases hq) ?_
    intro best hbest x _ q hq
    split at hq
    · next hx =>
      split at hq
      · exact Option.some.inj hq ▸ hx
      · split at hq
        · exact Option.some.inj hq ▸ hx
        · exact hbest q hq
    · exact hbest q hq
  exact picked q h

theorem eligible_closed {s : State} {q : Quad} (h : s.eligible q = true) : s.quadClosed q = true := by
  unfold State.eligible at h
  split at h
  · exact (Bool.and_eq_true _ _ ▸ h).1
  · cases h

/-- The refresh arbiter's choice starts the refresh of a quad whose four banks are CLOSED, or changes nothing (R89, R91, R92). -/
theorem refreshChoice_cases (s : State) : s.refreshChoice = s
    ∨ ∃ q, s.refresh = none ∧ (∀ b, groupOf b = q → (s.bank b).phase = .closed)
        ∧ s.refreshChoice = s.startRefresh q := by
  unfold State.refreshChoice
  split
  · exact Or.inl rfl
  · next hidle =>
    split
    · next q hq => exact Or.inr ⟨q, hidle, (quadClosed_iff s q).1 (eligible_closed (refreshPick_eligible hq)), rfl⟩
    · exact Or.inl rfl

/-- The evaluation of the clear start starts the clear that is due, or changes nothing (R166). -/
theorem tryClearStart_cases (s : State) : s.tryClearStart = s
    ∨ ∃ q, s.mode = .clearing ∧ s.clearTurn = some q ∧ s.clearState q = .uncleared
        ∧ (∀ b, groupOf b = q → (s.bank b).phase = .closed) ∧ s.tryClearStart = s.startClear q := by
  unfold State.tryClearStart
  split
  · exact Or.inl rfl
  · next hmode =>
    split
    · next q hq =>
      split
      · next hc => exact Or.inr ⟨q, not_not.1 hmode, hq, hc.1, (quadClosed_iff s q).1 hc.2, rfl⟩
      · exact Or.inl rfl
    · exact Or.inl rfl

theorem phaseLaw_refreshChoice {s : State} (law : s.phaseLaw) : s.refreshChoice.phaseLaw := by
  rcases refreshChoice_cases s with e | ⟨q, -, closed, e⟩ <;> rw [e]
  · exact law
  · have bank (b : Bank) : (s.startRefresh q).bank b = (s.setQuadPhase q .refreshing).bank b := rfl
    refine ⟨fun r hr b hb => ?_, fun r hr b hb => ?_⟩
    · have clearing := law.1 r hr b hb
      rw [bank, bank_setQuadPhase]
      split
      · next hq => exact absurd (closed b hq) (by simp [clearing])
      · exact clearing
    · obtain rfl := Option.some.inj hr
      rw [bank, bank_setQuadPhase, if_pos hb]

theorem phaseLaw_tryClearStart {s : State} (law : s.phaseLaw) : s.tryClearStart.phaseLaw := by
  rcases tryClearStart_cases s with e | ⟨q, -, -, -, closed, e⟩ <;> rw [e]
  · exact law
  · have bank (b : Bank) : (s.startClear q).bank b = (s.setQuadPhase q .clearing).bank b := rfl
    refine ⟨fun r hr b hb => ?_, fun r hr b hb => ?_⟩
    · obtain rfl := Option.some.inj hr
      rw [bank, bank_setQuadPhase, if_pos hb]
    · have refreshing := law.2 r hr b hb
      rw [bank, bank_setQuadPhase]
      split
      · next hq => exact absurd (closed b hq) (by simp [refreshing])
      · exact refreshing

theorem phaseLaw_enterRetention {s : State} (law : s.phaseLaw) : s.enterRetention.phaseLaw :=
  phaseLaw_of_runs (enterRetention_runs s) law

theorem phaseLaw_settle {s : State} (law : s.phaseLaw) : s.settle.phaseLaw :=
  phaseLaw_enterRetention (phaseLaw_refreshChoice (phaseLaw_of_runs
    (keepsRuns_trans (keepsRuns_of_holds (arbiterChoice_holds s) (keepsPhases_arbiterChoice s))
      (keepsRuns_of_answers (finishSessions_answers _))) law))

theorem phaseLaw_linkFault {s : State} (p : Port) (reason : FaultReason) (law : s.phaseLaw) :
    (s.linkFault p reason).phaseLaw :=
  phaseLaw_settle (phaseLaw_of_runs
    (keepsRuns_trans (t := s.setLink p _) (keepsRuns_of_eq rfl rfl rfl) (teardownSession_runs _ p)) law)

/-! ## Ends of clears and refreshes

The four banks of the quad leave the interval's state together, and are in no other interval's. -/

/-- A refresh's quad is not the quad being cleared. -/
theorem clear_ne_refresh {s : State} (law : s.phaseLaw) {c : ClearRun} {r : RefreshRun}
    (hc : s.modeCtl.clearRun = some c) (hr : s.refresh = some r) : c.quad ≠ r.quad := fun e => by
  obtain ⟨b, hb, -⟩ := lane_cover c.quad 0
  have clearing := law.1 c hc b hb
  have refreshing := law.2 r hr b (hb.trans e)
  rw [clearing] at refreshing
  cases refreshing

/-- The refresh in progress is over: its quad's banks go to CLOSED, and may be granted from there. -/
theorem phaseLaw_endRefresh {s u : State} {r : RefreshRun} (law : s.phaseLaw) (hr : s.refresh = some r)
    (hu : (s.setQuadPhase r.quad .closed).KeepsRuns u) : State.phaseLaw { u with refresh := none } := by
  refine ⟨fun c hc b hb => ?_, fun _ h => nomatch h⟩
  have hc' : s.modeCtl.clearRun = some c := hu.clear.symm.trans hc
  have hne : groupOf b ≠ r.quad := hb ▸ clear_ne_refresh law hc' hr
  have clearing : ((s.setQuadPhase r.quad .closed).bank b).phase = .clearing := by
    rw [bank_setQuadPhase, if_neg hne]
    exact law.1 c hc' b hb
  exact (hu.phases b (Or.inl clearing)).trans clearing

theorem phaseLaw_finishRefresh {s : State} {r : RefreshRun} (law : s.phaseLaw) (hr : s.refresh = some r) :
    (s.finishRefresh r.quad).phaseLaw := by
  have paid : s.KeepsRuns (if s.cleared r.quad then (s.setDebt r.quad ((s.quad r.quad).debt - 1)).evaluateQuad r.quad else s) := by
    split
    · exact keepsRuns_trans (t := s.setDebt r.quad _) (keepsRuns_of_eq rfl rfl rfl) (evaluateQuad_runs _ r.quad)
    · exact keepsRuns_refl s
  exact phaseLaw_endRefresh (phaseLaw_of_runs paid law) (paid.refresh.trans hr)
    (keepsRuns_of_holds (serveQuad_holds _ r.quad) (serveQuad_phases _ r.quad))

/-- The clear in progress is over, completed or abandoned: its quad's banks go to CLOSED, and may be granted from there. -/
theorem phaseLaw_endClear {s u : State} {c : ClearRun} (law : s.phaseLaw) (hc : s.modeCtl.clearRun = some c)
    (hrun : u.modeCtl.clearRun = none) (hrefresh : u.refresh = s.refresh)
    (hu : (s.setQuadPhase c.quad .closed).KeepsPhases u) : u.phaseLaw := by
  refine ⟨fun _ h => (by rw [hrun] at h; cases h), fun r hr b hb => ?_⟩
  have hr' : s.refresh = some r := hrefresh.symm.trans hr
  have hne : groupOf b ≠ c.quad := hb ▸ (clear_ne_refresh law hc hr').symm
  have refreshing : ((s.setQuadPhase c.quad .closed).bank b).phase = .refreshing := by
    rw [bank_setQuadPhase, if_neg hne]
    exact law.2 r hr' b hb
  exact (hu b (Or.inr refreshing)).trans refreshing

theorem phaseLaw_finishClear {s : State} {c : ClearRun} (law : s.phaseLaw) (hc : s.modeCtl.clearRun = some c) :
    (s.finishClear c.quad).phaseLaw := by
  unfold State.finishClear
  simp only []
  refine phaseLaw_of_runs (keepsRuns_of_holds (serveQuad_holds _ c.quad) (serveQuad_phases _ c.quad)) ?_
  exact phaseLaw_endClear law hc rfl rfl (keepsPhases_of_bank fun _ => rfl)

theorem phaseLaw_abandonClear {s : State} (law : s.phaseLaw) : s.abandonClear.phaseLaw := by
  unfold State.abandonClear
  split
  · exact law
  · next c hc => exact phaseLaw_endClear law hc rfl rfl (keepsPhases_of_bank fun _ => rfl)

/-! ## The phase law under requests and commands -/

theorem phaseLaw_of_holds {s t : State} (h : s.OnlyHolds t) (hp : s.KeepsPhases t) (law : s.phaseLaw) : t.phaseLaw :=
  phaseLaw_of_runs (keepsRuns_of_holds h hp) law

theorem phaseLaw_answer {s : State} (p : Port) (t : Tag) (a : Answer) (law : s.phaseLaw) : (s.answer p t a).phaseLaw :=
  phaseLaw_of_runs (keepsRuns_of_answers (answer_answers s p t a)) law

theorem phaseLaw_ifAttached {s : State} {f : State → State} (p : Port) (t : Tag) (law : s.phaseLaw) (h : (f s).phaseLaw) :
    (s.ifAttached p t f).phaseLaw := by
  unfold State.ifAttached
  split
  · exact h
  · exact phaseLaw_answer p t _ law

theorem phaseLaw_unlessNone {s : State} {f : State → State} (p : Port) (t : Tag) (law : s.phaseLaw) (h : (f s).phaseLaw) :
    (s.unlessNone p t f).phaseLaw := by
  unfold State.unlessNone
  split
  · exact phaseLaw_answer p t _ law
  · exact h

theorem startTogether_refresh {s : State} {q : Quad} (h : s.startTogether = some q) :
    ∃ r, s.refresh = some r ∧ r.quad = q := by
  unfold State.startTogether at h
  split at h
  · next r hr =>
    split at h
    · exact ⟨r, hr, Option.some.inj h⟩
    · cases h
  · cases h

/-- An OPEN after the refresh start of its moment, or before it, upon which the arbiter chooses (R92). -/
theorem phaseLaw_orderedOpen {s : State} (p : Port) (t : Tag) (bank : Byte) (row : BitVec 16) (mode : HoldMode) (wait : Bool)
    (law : s.phaseLaw) : (s.orderedOpen p t bank row mode wait).phaseLaw := by
  have opened {u : State} (hu : u.phaseLaw) : (u.holdOpen p t bank row mode wait).phaseLaw :=
    phaseLaw_of_holds (holdOpen_holds u p t bank row mode wait) (holdOpen_phases u p t bank row mode wait) hu
  rcases orderedOpen_cases s p t bank row mode wait with e | ⟨q, hq, -, e⟩ <;> rw [e]
  · exact opened law
  · obtain ⟨r, hr, rfl⟩ := startTogether_refresh hq
    exact phaseLaw_refreshChoice (opened (phaseLaw_endRefresh law hr (keepsRuns_refl _)))

theorem phaseLaw_requestClose {s : State} (p : Port) (t : Tag) (bank : Byte) (law : s.phaseLaw) :
    (s.requestClose p t bank).phaseLaw := by
  have closed := phaseLaw_of_holds (holdClose_holds s p t bank) (holdClose_phases s p t bank) law
  refine phaseLaw_unlessNone p t law ?_
  split
  · exact phaseLaw_refreshChoice closed
  · exact closed

theorem phaseLaw_cfgWrite {s : State} (p : Port) (t : Tag) (code index value : Byte) (law : s.phaseLaw) :
    (s.cfgWrite p t code index value).phaseLaw := by
  have effect {u : State} (i : Item) (hu : u.phaseLaw) : (u.itemEffect i).phaseLaw := by
    cases i with
    | reclaimLevel => exact phaseLaw_refreshChoice (phaseLaw_of_runs (evaluateAll_runs u) hu)
    | pullIn => exact phaseLaw_refreshChoice hu
    | retentionInterval | holdQuota | grantPolicy | idleEntry => exact hu
  have applied (i : Item) (v : Nat) : (s.applyItem i v).phaseLaw := by
    unfold State.applyItem
    split
    · exact law
    · exact effect i (phaseLaw_of_runs (s := s) (t := s.setItem i v) (keepsRuns_of_eq rfl rfl rfl) law)
  unfold State.cfgWrite
  split
  · exact phaseLaw_answer p t _ law
  · simp only []
    split
    · exact phaseLaw_enterRetention (phaseLaw_answer p t _ (applied _ _))
    · exact phaseLaw_answer p t _ (applied _ _)
  · exact phaseLaw_answer p t _ law

theorem phaseLaw_cfgRead {s : State} (p : Port) (t : Tag) (code index : Byte) (law : s.phaseLaw) :
    (s.cfgRead p t code index).phaseLaw := by
  unfold State.cfgRead
  split
  · exact phaseLaw_answer p t _ law
  · split <;> exact phaseLaw_answer p t _ law

theorem phaseLaw_inspect {s : State} (p : Port) (t : Tag) (code number : Byte) (law : s.phaseLaw) :
    (s.inspect p t code number).phaseLaw := by
  unfold State.inspect
  split <;> exact phaseLaw_answer p t _ law

theorem phaseLaw_faultClear {s : State} (p : Port) (t : Tag) (index : Byte) (law : s.phaseLaw) :
    (s.faultClear p t index).phaseLaw := by
  have answered {u : State} (a : Answer) (e : s.KeepsRuns u) : (u.answer p t a).phaseLaw :=
    phaseLaw_answer p t a (phaseLaw_of_runs e law)
  unfold State.faultClear
  split
  · exact answered _ (keepsRuns_refl s)
  · split
    · exact answered _ (keepsRuns_of_eq rfl rfl rfl)
    · split
      · split
        · exact answered _ (keepsRuns_of_eq rfl rfl rfl)
        · exact answered _ (keepsRuns_refl s)
      · exact answered _ (keepsRuns_refl s)

theorem phaseLaw_lapseClear {s : State} (p : Port) (t : Tag) (quad : Byte) (law : s.phaseLaw) :
    (s.lapseClear p t quad).phaseLaw := by
  have answered {u : State} (a : Answer) (e : s.KeepsRuns u) : (u.answer p t a).phaseLaw :=
    phaseLaw_answer p t a (phaseLaw_of_runs e law)
  unfold State.lapseClear
  split
  · exact answered _ (keepsRuns_refl s)
  · split
    · exact answered _ (keepsRuns_of_eq rfl rfl rfl)
    · split
      · exact answered _ (keepsRuns_of_eq rfl rfl rfl)
      · exact answered _ (keepsRuns_refl s)

theorem phaseLaw_countClear {s : State} (p : Port) (t : Tag) (bank : Byte) (law : s.phaseLaw) :
    (s.countClear p t bank).phaseLaw := by
  have answered {u : State} (a : Answer) (e : s.KeepsRuns u) : (u.answer p t a).phaseLaw :=
    phaseLaw_answer p t a (phaseLaw_of_runs e law)
  unfold State.countClear
  split
  · exact answered _ (keepsRuns_refl s)
  · split
    · exact answered _ (keepsRuns_of_eq rfl rfl rfl)
    · split
      · exact answered _ (keepsRuns_of_eq rfl rfl rfl)
      · exact answered _ (keepsRuns_refl s)

theorem phaseLaw_dispatch {s : State} (p : Port) (t : Tag) (r : Request) (law : s.phaseLaw) :
    (s.dispatch p t r).phaseLaw := by
  have burst (kind : BurstKind) (bank column units : Byte) (ac : Bool) (data : List WriteUnit) :
      (s.requestBurst p t kind bank column units ac data).phaseLaw :=
    phaseLaw_unlessNone p t law (phaseLaw_of_holds (acceptBurst_holds s p t kind bank column units ac data)
      (acceptBurst_phases s p t kind bank column units ac data) law)
  cases r with
  | attach role =>
    show (s.requestAttach p t role).phaseLaw
    unfold State.requestAttach
    split
    · exact phaseLaw_of_runs (attachSession_runs s p t role) law
    · exact phaseLaw_answer p t _ law
  | detach =>
    show (s.ifAttached p t (fun s => (s.detachSession p t).settle)).phaseLaw
    exact phaseLaw_ifAttached p t law (phaseLaw_settle (phaseLaw_of_runs (detachSession_runs s p t) law))
  | idle =>
    refine phaseLaw_ifAttached p t law (phaseLaw_enterRetention (phaseLaw_answer p t _ ?_))
    exact phaseLaw_of_runs (s := s) (keepsRuns_of_eq rfl rfl rfl) law
  | openBank bank row mode wait =>
    exact phaseLaw_unlessNone p t law (phaseLaw_orderedOpen p t bank row mode wait law)
  | upgrade bank =>
    exact phaseLaw_unlessNone p t law
      (phaseLaw_of_holds (holdUpgrade_holds s p t bank) (holdUpgrade_phases s p t bank) law)
  | closeBank bank => exact phaseLaw_requestClose p t bank law
  | read bank column units ac => exact burst .read bank column units ac []
  | write bank column units ac data => exact burst .write bank column units ac data
  | cfgRead item index => exact phaseLaw_ifAttached p t law (phaseLaw_cfgRead p t item index law)
  | cfgWrite item index value => exact phaseLaw_ifAttached p t law (phaseLaw_cfgWrite p t item index value law)
  | inspect target number =>
    show (s.requestInspect p t target number).phaseLaw
    unfold State.requestInspect
    split
    · exact phaseLaw_inspect p t target number law
    · exact phaseLaw_ifAttached p t law (phaseLaw_inspect p t target number law)
  | faultClear index => exact phaseLaw_ifAttached p t law (phaseLaw_faultClear p t index law)
  | lapseClear quad => exact phaseLaw_ifAttached p t law (phaseLaw_lapseClear p t quad law)
  | countClear bank => exact phaseLaw_ifAttached p t law (phaseLaw_countClear p t bank law)

theorem phaseLaw_take {s : State} (p : Port) (t : Tag) (r : Request) (law : s.phaseLaw) : (s.take p t r).phaseLaw := by
  refine phaseLaw_dispatch p t r (phaseLaw_of_runs ?_ law)
  unfold State.beginRequest
  split <;> exact keepsRuns_of_eq rfl rfl rfl

theorem keptByPackets_phaseLaw : KeptByPackets State.phaseLaw where
  link _ _ _ law := law
  fault p reason law := phaseLaw_linkFault p reason law
  take p t r law := phaseLaw_take p t r law
  wake law := law
  stamp _ law := law
  retention law := phaseLaw_enterRetention law

theorem phaseLaw_resetFall {s : State} (law : s.phaseLaw) : s.resetFall.phaseLaw := by
  have mode : s.resetMode.phaseLaw := by
    unfold State.resetMode
    exact phaseLaw_abandonClear (phaseLaw_of_runs (s := s) (keepsRuns_of_eq rfl rfl rfl) law)
  have blocks (u : State) : u.KeepsRuns u.resetBlocks := by
    refine keepsRuns_trans (t := u.quieted.resetBanks) (keepsRuns_trans (t := u.quieted) (keepsRuns_of_eq rfl rfl rfl) ?_) ?_
    · exact keepsRuns_of_holds (resetBanks_holds _) (keepsPhases_foldl resetBank_phases allBanks _)
    · refine keepsRuns_of_eq ?_ ?_ ?_ <;>
        simp only [resetBlocks_eq, clearAllCounts_modeCtl, clearAllCounts_refresh, clearAllCounts_banks]
  have cut (u : State) : u.KeepsRuns u.cutAtOnce := keepsRuns_of_holds (cutAtOnce_holds u) (cutAtOnce_phases u)
  unfold State.resetFall
  exact phaseLaw_refreshChoice (phaseLaw_of_runs (keepsRuns_trans (keepsRuns_trans (keepsRuns_trans (blocks _) (cut _))
    (evaluateAll_runs _)) (keepsRuns_of_answers (finishSessions_answers _))) mode)

theorem phaseLaw_resetRise {s : State} (law : s.phaseLaw) : s.resetRise.phaseLaw := by
  unfold State.resetRise
  simp only []
  split
  · exact phaseLaw_tryClearStart (phaseLaw_of_runs (s := s) (keepsRuns_of_eq rfl rfl rfl) law)
  · exact phaseLaw_enterRetention (phaseLaw_of_runs (s := s) (keepsRuns_of_eq rfl rfl rfl) law)

theorem phaseLaw_powerOn (high : Bool) (carrier : Four Bool) (now epoch : Nat) (marks : RecentMarks) (pending : List Instr) :
    (State.powerOn high carrier now epoch marks pending).phaseLaw := by
  refine ⟨fun r hr b hb => ?_, fun r hr => nomatch hr⟩
  cases high with
  | false => cases hr
  | true =>
    obtain rfl := Option.some.inj hr
    unfold State.bank sixteenGet
    rw [show groupOf b = 0 from hb]
    show ((Four.all { BankRecord.powerOn with phase := .clearing }).get (laneOf b)).phase = .clearing
    rw [four_get_all]

theorem unitStep_runs (s : State) (b : QueuedBurst) (k : Nat) : s.KeepsRuns (s.unitStep b k).1 := by
  have detected (e : FaultEntry) : s.KeepsRuns (s.detect e) := by
    unfold State.detect
    split
    · exact keepsRuns_refl s
    · split <;> exact keepsRuns_of_eq rfl rfl rfl
  unfold State.unitStep
  split
  · unfold State.readUnitStep
    simp only []
    split
    · exact keepsRuns_refl s
    · exact keepsRuns_of_eq rfl rfl rfl
    · exact detected _
  · unfold State.writeUnitStep
    split
    · exact keepsRuns_of_eq rfl rfl rfl
    · split
      · exact keepsRuns_refl s
      · unfold State.partialWriteStep
        simp only []
        split
        · exact keepsRuns_refl s
        · split
          · exact keepsRuns_of_eq rfl rfl rfl
          · exact keepsRuns_of_eq rfl rfl rfl
          · exact detected _

theorem stepNextUnit_runs (s : State) (e : Execution) : s.KeepsRuns (s.stepNextUnit e) :=
  keepsRuns_trans (unitStep_runs s e.burst e.results.length) (keepsRuns_of_eq rfl rfl rfl)

theorem stepUnits_runs : ∀ (n : Nat) (s : State), s.KeepsRuns (State.stepUnits n s)
  | 0, s => keepsRuns_refl s
  | n + 1, s => by
    unfold State.stepUnits
    split
    · next e he =>
      exact keepsRuns_trans (keepsRuns_trans (t := s.reach e.nextUnitEnds) (keepsRuns_of_eq rfl rfl rfl)
        (stepNextUnit_runs _ e)) (stepUnits_runs n _)
    · exact keepsRuns_refl s

theorem finishBurst_runs (s : State) (e : Execution) : s.KeepsRuns (s.finishBurst e) :=
  keepsRuns_trans (t := (s.answerWork _ _ _).setExecuting none)
    (keepsRuns_trans (keepsRuns_of_answers (answerWork_answers s _ _ _)) (keepsRuns_of_eq rfl rfl rfl))
    (keepsRuns_of_holds (reportCompletion_holds _ _ _) (reportCompletion_phases _ _ _))

/-- Every command keeps the banks of the quad in clear or refresh in that state. -/
theorem exec_keeps_phaseLaw {i : Instr} {s t : State} (h : s.phaseLaw) (hx : exec i s = .next t) : t.phaseLaw := by
  have law := keptByPackets_phaseLaw
  cases i
  case powerOn high carrier =>
    obtain rfl := Host.Outcome.next.inj hx
    exact phaseLaw_powerOn _ _ _ _ _ _
  case resetNFall =>
    obtain rfl := Host.Outcome.next.inj hx
    split
    · exact h
    · exact phaseLaw_resetFall h
  case resetNRise =>
    obtain rfl := Host.Outcome.next.inj hx
    split
    · exact phaseLaw_resetRise h
    · exact h
  case carrierLoss p =>
    obtain rfl := Host.Outcome.next.inj hx
    exact loseCarrier_keeps law p h
  case carrierReturn p =>
    obtain rfl := Host.Outcome.next.inj hx
    exact h
  case unitCorruption bank row column data check =>
    obtain rfl := Host.Outcome.next.inj hx
    exact h
  case burstUnitStep =>
    obtain ⟨e, -, -, -, rfl⟩ := burstUnitStep_next hx
    exact phaseLaw_of_runs (s := s.reach _) (stepNextUnit_runs _ e) h
  case executionCompletion =>
    obtain ⟨e, done, -, -, -, rfl⟩ := executionCompletion_next hx
    have stepped := phaseLaw_of_runs (stepUnits_runs e.unitsLeft s) h
    exact phaseLaw_settle (phaseLaw_of_runs (s := (State.stepUnits e.unitsLeft s).reach e.endsAt) (finishBurst_runs _ done) stepped)
  case cutCompletion =>
    obtain ⟨e, ends, -, -, rfl⟩ := cutCompletion_next hx
    exact phaseLaw_settle (phaseLaw_of_runs (s := s.reach ends) (keepsRuns_trans (unitStep_runs _ _ _)
      (keepsRuns_of_holds (endCut_holds _ _) (endCut_phases _ _))) h)
  case openCompletion b =>
    obtain ⟨hp, rfl⟩ := openCompletion_next hx
    exact phaseLaw_settle (phaseLaw_of_holds (s := s.reachBank b) (completeOpen_holds _ b) (completeOpen_phases _ b hp) h)
  case dwellExpiry b =>
    obtain ⟨hd, rfl⟩ := dwellExpiry_next hx
    exact phaseLaw_of_holds (s := s.reachBank b) (expireDwell_holds _ b) (expireDwell_phases _ b hd) h
  case closeCompletion b =>
    obtain ⟨hp, rfl⟩ := closeCompletion_next hx
    exact phaseLaw_enterRetention (phaseLaw_refreshChoice (phaseLaw_tryClearStart
      (phaseLaw_of_holds (s := s.reachBank b) (completeClose_holds _ b) (completeClose_phases _ b hp) h)))
  case retentionTimerExpiry =>
    obtain rfl := Host.Outcome.next.inj hx
    have expired := keepsRuns_trans (keepsRuns_foldl expireQuad_runs allFour (s.reach s.timer.endsAt)) (nextPeriod_runs _)
    exact phaseLaw_settle (phaseLaw_of_runs expired h)
  case refreshCompletion =>
    obtain ⟨r, hr, rfl⟩ := refreshCompletion_next hx
    exact phaseLaw_enterRetention (phaseLaw_refreshChoice (phaseLaw_tryClearStart
      (phaseLaw_finishRefresh (s := s.reach r.endsAt) h hr)))
  case clearCompletion =>
    obtain ⟨r, hr, rfl⟩ := clearCompletion_next hx
    have finished := phaseLaw_refreshChoice (phaseLaw_finishClear (s := s.reach (r.startedAt + clearTime)) h hr)
    refine phaseLaw_enterRetention ?_
    unfold State.afterClear
    split
    · exact finished
    · exact phaseLaw_tryClearStart finished
  case wakeCompletion =>
    obtain ⟨ends, -, rfl⟩ := wakeCompletion_next hx
    exact finishWake_keeps law h
  case transmission p =>
    obtain ⟨bytes, -, rfl⟩ := transmission_next hx
    exact phaseLaw_enterRetention (s := s.setLink p _) h
  all_goals
    obtain rfl := Host.Outcome.next.inj hx
    exact receive_keeps law _ _ h

/-- Settles O57: only starts and ends of clears and refreshes move a bank into or out of these states, the four of a quad
together. -/
theorem stepKeepsPhaseLaw : Obligations.StepKeepsPhaseLaw :=
  fun _ _ h hx => step_keeps (fun _ h => h) exec_keeps_phaseLaw (fun h => h) h hx

end Sys2Proof.Machine
end
section
/-!
SUPPORT. Dwell expiry, close completion and queue service: which entry queue service chooses, what a grant makes of the bank, and what
the choices at the end of an event leave alone (R12, R15, R32 to R34, R166).
-/

namespace Sys2Proof.Machine

open Sys2Proof

/-! ## What the choices at the end of an event leave alone -/

/-- A refresh start changes the bank records, the refresh unit and the model's own marks. -/
theorem refreshChoice_frame (s : State) : s.refreshChoice =
    { s with banks := s.refreshChoice.banks, refresh := s.refreshChoice.refresh, marks := s.refreshChoice.marks } := by
  rcases refreshChoice_cases s with e | ⟨q, -, -, e⟩ <;> rw [e]
  rfl

@[simp] theorem refreshChoice_now (s : State) : s.refreshChoice.now = s.now := by rw [refreshChoice_frame]
@[simp] theorem refreshChoice_stamp (s : State) : s.refreshChoice.stamp = s.stamp := by rw [refreshChoice_frame]
@[simp] theorem refreshChoice_modeCtl (s : State) : s.refreshChoice.modeCtl = s.modeCtl := by rw [refreshChoice_frame]
@[simp] theorem refreshChoice_bursts (s : State) : s.refreshChoice.bursts = s.bursts := by rw [refreshChoice_frame]
@[simp] theorem refreshChoice_quads (s : State) : s.refreshChoice.quads = s.quads := by rw [refreshChoice_frame]
@[simp] theorem refreshChoice_config (s : State) : s.refreshChoice.config = s.config := by rw [refreshChoice_frame]
@[simp] theorem refreshChoice_sessions (s : State) : s.refreshChoice.sessions = s.sessions := by rw [refreshChoice_frame]
@[simp] theorem refreshChoice_links (s : State) : s.refreshChoice.links = s.links := by rw [refreshChoice_frame]

/-- A refresh start moves CLOSED banks to REFRESHING and changes no bank record in any other way (R92). -/
theorem refreshChoice_bank (s : State) (b : Bank) : s.refreshChoice.bank b = s.bank b
    ∨ (s.bank b).phase = .closed ∧ s.refreshChoice.bank b = { s.bank b with phase := .refreshing } := by
  rcases refreshChoice_cases s with e | ⟨q, -, closed, e⟩ <;> rw [e]
  · exact Or.inl rfl
  · rw [show (s.startRefresh q).bank b = (s.setQuadPhase q .refreshing).bank b from rfl, bank_setQuadPhase]
    split
    · next hq => exact Or.inr ⟨closed b hq, rfl⟩
    · exact Or.inl rfl

theorem refreshChoice_bank_of_not_closed {s : State} {b : Bank} (h : (s.bank b).phase ≠ .closed) :
    s.refreshChoice.bank b = s.bank b :=
  (refreshChoice_bank s b).resolve_right fun hr => h hr.1

/-- Retention entry changes the mode alone. -/
theorem enterRetention_frame (s : State) : s.enterRetention = { s with modeCtl := s.enterRetention.modeCtl } := by
  unfold State.enterRetention
  split <;> rfl

@[simp] theorem enterRetention_now (s : State) : s.enterRetention.now = s.now := by rw [enterRetention_frame]
@[simp] theorem enterRetention_bursts (s : State) : s.enterRetention.bursts = s.bursts := by rw [enterRetention_frame]
@[simp] theorem enterRetention_quads (s : State) : s.enterRetention.quads = s.quads := by rw [enterRetention_frame]
@[simp] theorem enterRetention_config (s : State) : s.enterRetention.config = s.config := by rw [enterRetention_frame]
@[simp] theorem enterRetention_sessions (s : State) : s.enterRetention.sessions = s.sessions := by rw [enterRetention_frame]
@[simp] theorem enterRetention_links (s : State) : s.enterRetention.links = s.links := by rw [enterRetention_frame]

/-! ## The clear start (R166) -/

/-- A clear start changes the bank records, the mode controller and the number of the next epoch. -/
theorem tryClearStart_frame (s : State) : s.tryClearStart =
    { s with
      banks := s.tryClearStart.banks, modeCtl := s.tryClearStart.modeCtl
      array := { s.array with epoch := s.tryClearStart.array.epoch } } := by
  rcases tryClearStart_cases s with e | ⟨q, -, -, -, -, e⟩ <;> rw [e]
  rfl

@[simp] theorem tryClearStart_now (s : State) : s.tryClearStart.now = s.now := by rw [tryClearStart_frame]
@[simp] theorem tryClearStart_quads (s : State) : s.tryClearStart.quads = s.quads := by rw [tryClearStart_frame]
@[simp] theorem tryClearStart_config (s : State) : s.tryClearStart.config = s.config := by rw [tryClearStart_frame]
@[simp] theorem tryClearStart_sessions (s : State) : s.tryClearStart.sessions = s.sessions := by rw [tryClearStart_frame]
@[simp] theorem tryClearStart_links (s : State) : s.tryClearStart.links = s.links := by rw [tryClearStart_frame]

theorem startClear_bank (s : State) (q : Quad) (b : Bank) :
    (s.startClear q).bank b = if groupOf b = q then { s.bank b with phase := .clearing } else s.bank b :=
  bank_setQuadPhase s q .clearing b

theorem tryClearStart_bank_of_not_closed {s : State} {b : Bank} (h : (s.bank b).phase ≠ .closed) :
    s.tryClearStart.bank b = s.bank b := by
  rcases tryClearStart_cases s with e | ⟨q, -, -, -, closed, e⟩ <;> rw [e]
  rw [startClear_bank, if_neg fun hq => h (closed b hq)]

theorem clearTurn_iff (s : State) (q : Quad) :
    s.clearTurn = some q ↔ s.cleared q = false ∧ ∀ r, r < q → s.cleared r = true := by
  have turn : ∀ (f : Quad → Bool) (q : Quad),
      allFour.find? (fun q => !f q) = some q ↔ f q = false ∧ ∀ r, r < q → f r = true := by decide
  exact turn s.cleared q

theorem tryClearStart_of_due {s : State} {q : Quad} (h : s.clearDue q) : s.tryClearStart = s.startClear q := by
  obtain ⟨hmode, hbelow, hstate, hclosed⟩ := h
  have turn : s.clearTurn = some q := (clearTurn_iff s q).2 ⟨by simp [State.cleared, hstate], hbelow⟩
  unfold State.tryClearStart
  simp [hmode, turn, hstate, (quadClosed_iff s q).2 hclosed]

/-- The evaluation of the clear start, as the statements put it. -/
theorem tryClearStart_evaluated (s : State) : s.clearEvaluated s.tryClearStart := by
  refine ⟨fun q due => ?_, fun none_due => ?_⟩
  · rw [tryClearStart_of_due due]
    exact ⟨rfl, rfl, rfl, startClear_bank s q⟩
  · rcases tryClearStart_cases s with e | ⟨q, hmode, hturn, hstate, hclosed, -⟩
    · exact e
    · exact absurd ⟨hmode, ((clearTurn_iff s q).1 hturn).2, hstate, hclosed⟩ (none_due q)

/-! ## The cycle of the ports (R33, R58) -/

/-- The port `n` places after the next one in the cycle, with the ports that are tried before it. -/
theorem cycleAfter_split (last p : Port) (n : Nat) (hn : n < 4) (hp : p.val = (last.val + 1 + n) % 4) :
    cycleAfter last = (cycleAfter last).take n ++ p :: (cycleAfter last).drop (n + 1)
      ∧ ∀ q ∈ (cycleAfter last).take n, ∃ k, k < n ∧ q.val = (last.val + 1 + k) % 4 := by
  revert last p n
  decide

/-! ## Queue service (R32 to R34) -/

theorem firstWaiting_append {queue : List WaitEntry} {p : Port} {w : WaitEntry} (after : List Port)
    (hw : queue.find? (fun y => y.port == p) = some w) :
    ∀ before : List Port, (∀ q ∈ before, ∀ y ∈ queue, y.port ≠ q) → firstWaiting queue (before ++ p :: after) = some w
  | [], _ => by
    simp only [List.nil_append, firstWaiting, hw]
  | q :: before, h => by
    have none : queue.find? (fun y => y.port == q) = none :=
      List.find?_eq_none.2 fun y hy => by simpa using h q List.mem_cons_self y hy
    simp only [List.cons_append, firstWaiting, none]
    exact firstWaiting_append after hw before fun r hr => h r (List.mem_cons_of_mem _ hr)

/-- Queue service chooses the entry that the policy in force names (R33). -/
theorem chooseEntry_servedFirst {s : State} {b : Bank} {w : WaitEntry} (h : s.servedFirst b w) :
    chooseEntry s.config.grantPolicy (s.bank b).lastGranted (s.bank b).waitQueue = some w := by
  rcases h with ⟨hpolicy, hhead⟩ | ⟨hpolicy, n, hn, hport, hfind, hnone⟩ <;> rw [hpolicy]
  · exact hhead
  · obtain ⟨hsplit, hbefore⟩ := cycleAfter_split (s.bank b).lastGranted w.port n hn hport
    show firstWaiting (s.bank b).waitQueue (cycleAfter (s.bank b).lastGranted) = some w
    rw [hsplit]
    refine firstWaiting_append _ hfind _ fun q hq y hy e => ?_
    obtain ⟨k, hk, hval⟩ := hbefore q hq
    exact hnone k hk y hy (e ▸ hval)

theorem firstWaiting_nil : ∀ ports : List Port, firstWaiting [] ports = none
  | [] => rfl
  | _ :: ports => firstWaiting_nil ports

theorem chooseEntry_nil (policy : GrantPolicy) (last : Port) : chooseEntry policy last [] = none := by
  cases policy with
  | arrival => rfl
  | rotating => exact firstWaiting_nil _

/-- A bank without a waiting entry, or in a quad that permits no grants, is left as it is (R32). -/
theorem serveBank_unserved {s : State} {b : Bank}
    (h : (s.bank b).waitQueue = [] ∨ s.cleared (groupOf b) = false ∨ (s.quad (groupOf b)).state ≠ .current) :
    s.serveBank b = s := by
  unfold State.serveBank
  rcases h with hq | hq | hq
  · rw [hq, chooseEntry_nil]
    split <;> rfl
  · rw [if_neg (by simp [State.grantable, hq])]
  · rw [if_neg (by simp [State.grantable, hq])]

theorem serveBank_served {s : State} {b : Bank} {w : WaitEntry} (hclosed : (s.bank b).phase = .closed)
    (hcleared : s.cleared (groupOf b) = true) (hcurrent : (s.quad (groupOf b)).state = .current)
    (h : s.servedFirst b w) : s.serveBank b = s.grantBatch b w := by
  unfold State.serveBank
  rw [if_pos ⟨hclosed, by simp [State.grantable, hcleared, hcurrent]⟩, chooseEntry_servedFirst h]

theorem batchRecords_view : ∀ (batch : List WaitEntry) (n : Nat),
    (batchRecords batch n).map (fun h => (h.port, h.mode, h.openTag)) = batch.map (fun y => (y.port, y.mode, some y.tag))
  | [], _ => rfl
  | w :: batch, n => by simp only [batchRecords, List.map_cons, batchRecords_view batch (n + 1)]; rfl

theorem batchRecords_unmarked : ∀ (batch : List WaitEntry) (n : Nat),
    ∀ h ∈ batchRecords batch n, h.releasing = false ∧ h.revokePending = false ∧ h.closeTag = none
  | [], _, _, hm => nomatch hm
  | w :: batch, n, h, hm => by
    rcases List.mem_cons.1 hm with rfl | hm
    · exact ⟨rfl, rfl, rfl⟩
    · exact batchRecords_unmarked batch (n + 1) h hm

/-- The bank after a grant (R10, R34). -/
theorem grantBatch_bank (s : State) (b : Bank) (w : WaitEntry) :
    (s.bank b).grantedTo ((s.grantBatch b w).bank b) w s.now := by
  have bank : (s.grantBatch b w).bank b =
      { s.bank b with
        phase := .opening, row := some w.row, dwellExpired := some false, endsAt := some (s.now + rowOpenTime)
        holds := batchRecords (batchOf w (s.bank b).waitQueue) s.stamp
        waitQueue := leftWaiting w (s.bank b).waitQueue, lastGranted := w.port } := by
    simp [State.grantBatch, State.openOn]
  refine ⟨fun y => y.port != w.port && w.mode == .shared && y.mode == .shared && y.row == w.row, fun _ => rfl, ?_, ?_, ?_⟩
  · rw [bank]
    have left (y : WaitEntry) : (y.port != w.port && !w.joinsBatch y)
        = (y.port != w.port && !(y.port != w.port && w.mode == .shared && y.mode == .shared && y.row == w.row)) := by
      unfold WaitEntry.joinsBatch
      cases y.port != w.port <;> simp
    simp only [leftWaiting, left]
    rfl
  · rw [bank, batchRecords_view]
    simp only [batchOf, WaitEntry.joinsBatch, Bool.and_assoc]
  · rw [bank]
    exact batchRecords_unmarked _ _

/-! ## The obligations -/

@[simp] theorem reachBank_bank (s : State) (b c : Bank) : (s.reachBank b).bank c = s.bank c := rfl

theorem reachBank_now (s : State) (b : Bank) : (s.reachBank b).now = max s.now ((s.bank b).endsAt.getD s.now) := rfl

theorem expireDwell_opened {s : State} {b : Bank} (h : (s.bank b).phase = .opened) :
    s.expireDwell b = s.setBank b { s.bank b with dwellExpired := some true, endsAt := none } := by
  unfold State.expireDwell
  simp only []
  rw [if_neg (by simp [h])]

theorem expireDwell_closeWait {s : State} {b : Bank} (h : (s.bank b).phase = .closeWait) : s.expireDwell b = s.setBank b
    { s.bank b with phase := .closing, dwellExpired := some true, endsAt := some (s.now + rowCloseTime) } := by
  unfold State.expireDwell
  simp only []
  rw [if_pos h]

theorem dwellExpiry_exec {s : State} {b : Bank} (h : (s.bank b).dwellRuns = true) :
    exec (.dwellExpiry b) s = .next ((s.reachBank b).expireDwell b) := by
  show execDwellExpiry b s = _
  unfold execDwellExpiry
  rw [if_pos h]

/-- Settles O41: the dwell runs in OPEN and in CLOSE_WAIT, and its expiry looks at nothing but which of the two it is. -/
theorem dwellExpiryByPhase : Obligations.DwellExpiryByPhase := by
  rintro s b now rfl hdwell
  refine ⟨fun hp => ?_, fun hp => ?_⟩
  · rw [dwellExpiry_exec (by simp [BankRecord.dwellRuns, hp, hdwell]), expireDwell_opened (s := s.reachBank b) hp]
    rfl
  · rw [dwellExpiry_exec (by simp [BankRecord.dwellRuns, hp, hdwell]), expireDwell_closeWait (s := s.reachBank b) hp]
    rfl

/-- The bank at close completion, before it is offered for queue service (R15). -/
def State.closed (s : State) (b : Bank) : State :=
  s.setBank b { s.bank b with phase := .closed, row := none, dwellExpired := none, endsAt := none }

theorem completeClose_eq (s : State) (b : Bank) : s.completeClose b = (s.closed b).serveBank b := rfl

theorem closeCompletion_exec {s : State} {b : Bank} (h : (s.bank b).phase = .closing) :
    exec (.closeCompletion b) s =
      .next (((s.reachBank b).closed b).serveBank b).tryClearStart.refreshChoice.enterRetention := by
  show execCloseCompletion b s = _
  unfold execCloseCompletion
  rw [if_pos h, completeClose_eq]

/-- Settles O42: the bank is CLOSED and then either left by queue service or granted, and a granted bank is past the choices that
follow, which take CLOSED banks only. -/
theorem closeCompletionServesTheQueue : Obligations.CloseCompletionServesTheQueue := by
  rintro s b now hclosing rfl
  have bank : ((s.reachBank b).closed b).bank b =
      { s.bank b with phase := .closed, row := none, dwellExpired := none, endsAt := none } := bank_setBank_same _ _ _
  refine ⟨fun hunserved => ?_, fun w joins hcleared hcurrent hserved hjoins => ?_⟩
  · refine ⟨((s.reachBank b).closed b).tryClearStart, ?_, tryClearStart_evaluated _⟩
    rw [closeCompletion_exec hclosing, serveBank_unserved (by rw [bank]; exact hunserved)]
  · have served : ((s.reachBank b).closed b).servedFirst b w := by
      unfold State.servedFirst
      rw [bank]
      exact hserved
    obtain ⟨joins', hjoins', hr, hview, hmarks⟩ := grantBatch_bank ((s.reachBank b).closed b) b w
    obtain rfl : joins = joins' := funext fun y => (hjoins y).trans (hjoins' y).symm
    have granted : ((s.reachBank b).closed b).serveBank b = ((s.reachBank b).closed b).grantBatch b w :=
      serveBank_served (s := (s.reachBank b).closed b) (by rw [bank]) hcleared hcurrent served
    rw [closeCompletion_exec hclosing, granted]
    have tables : (((s.reachBank b).closed b).grantBatch b w).links = s.links
        ∧ (((s.reachBank b).closed b).grantBatch b w).sessions = s.sessions
        ∧ (((s.reachBank b).closed b).grantBatch b w).array = s.array
        ∧ (((s.reachBank b).closed b).grantBatch b w).quads = s.quads
        ∧ (((s.reachBank b).closed b).grantBatch b w).config = s.config
        ∧ (((s.reachBank b).closed b).grantBatch b w).now = max s.now ((s.bank b).endsAt.getD s.now) :=
      ⟨rfl, rfl, rfl, rfl, rfl, rfl⟩
    generalize ((s.reachBank b).closed b).grantBatch b w = g at *
    obtain ⟨links, sessions, array, quads, config, now⟩ := tables
    have phase : (g.bank b).phase = .opening := by rw [hr]
    have kept : g.tryClearStart.refreshChoice.enterRetention.bank b = g.bank b := by
      have cleared : g.tryClearStart.bank b = g.bank b := tryClearStart_bank_of_not_closed (by rw [phase]; decide)
      rw [enterRetention_bank, refreshChoice_bank_of_not_closed (by rw [cleared, phase]; decide), cleared]
    rw [bank] at hr hview
    refine ⟨_, rfl, ?_⟩
    rw [kept]
    refine ⟨by simpa using now, phase, by rw [hr], by rw [hr], by rw [hr]; rfl, by rw [hr], by rw [hr], hview, hmarks,
      by simpa using links, by simpa using sessions, ?_, by simpa using quads, by simpa using config⟩
    rw [enterRetention_array, refreshChoice_array, tryClearStart_array, array]

end Sys2Proof.Machine
end
section
/-!
SUPPORT. RESET_N fall at the bank records: what each step of it makes of a bank's hold records, up to those that stay (R8, R69, R172).
-/

namespace Sys2Proof.Machine

open Sys2Proof

/-! ## A bank whose records have left (R13) -/

/-- The record of a bank without a pending upgrade after records have left it: an OPEN bank whose last record has left goes to CLOSE_WAIT,
or to CLOSING if its dwell has expired (R13). -/
def BankRecord.left (r : BankRecord) (now : Nat) : BankRecord :=
  if r.holds = [] ∧ r.phase = .opened then
    if r.dwellExpired = some true then { r with phase := .closing, endsAt := some (now + rowCloseTime) }
    else { r with phase := .closeWait }
  else r

@[simp] theorem left_holds (r : BankRecord) (now : Nat) : (r.left now).holds = r.holds := by
  unfold BankRecord.left
  split
  · split <;> rfl
  · rfl

@[simp] theorem left_waitQueue (r : BankRecord) (now : Nat) : (r.left now).waitQueue = r.waitQueue := by
  unfold BankRecord.left
  split
  · split <;> rfl
  · rfl

@[simp] theorem left_upgrade (r : BankRecord) (now : Nat) : (r.left now).upgrade = r.upgrade := by
  unfold BankRecord.left
  split
  · split <;> rfl
  · rfl

/-- Without a pending upgrade, what follows the leaving of records is R13 alone. -/
theorem afterLeaving_of_no_upgrade {s : State} {b : Bank} (h : (s.bank b).upgrade = none) :
    s.afterLeaving b = s.setBank b ((s.bank b).left s.now) := by
  have upgraded : s.completeUpgrade b = s := by
    unfold State.completeUpgrade
    rw [h]
  unfold State.afterLeaving BankRecord.left
  simp only [List.isEmpty_iff]
  by_cases hh : (s.bank b).holds = []
  · rw [if_pos hh]
    by_cases hp : (s.bank b).phase = .opened
    · have both : (s.bank b).holds = [] ∧ (s.bank b).phase = .opened := ⟨hh, hp⟩
      rw [if_pos hp, if_pos both, h]
    · rw [if_neg hp, if_neg fun hc => hp hc.2, setBank_bank]
  · rw [if_neg hh, if_neg fun hc => hh hc.1, setBank_bank, upgraded]

/-- The hold record of a port leaves a bank without a pending upgrade. -/
theorem leaveBank_of_no_upgrade {s : State} {b : Bank} (p : Port) (h : (s.bank b).upgrade = none) :
    s.leaveBank b p = s.setBank b (((s.bank b).dropRecord p).left s.now) := by
  unfold State.leaveBank
  rw [afterLeaving_of_no_upgrade (by rw [bank_setBank_same]; exact h), bank_setBank_same, setBank_setBank]
  rfl

/-! ## One operation for each bank in turn -/

/-- An operation on one bank after another does to each bank of the list what it does to it alone, if what it does to a bank does not
depend on the other banks. -/
theorem foldl_bank_mem {f : State → Bank → State} (only : ∀ (s : State) b, s.OnlyBank (f s b) b)
    (apart : ∀ (s : State) b c, c ≠ b → (f (f s b) c).bank c = (f s c).bank c)
    {bs : List Bank} (hn : bs.Nodup) (s : State) {c : Bank} (hc : c ∈ bs) : (bs.foldl f s).bank c = (f s c).bank c := by
  induction bs generalizing s with
  | nil => cases hc
  | cons b bs ih =>
    obtain ⟨hb, hbs⟩ := List.nodup_cons.1 hn
    rw [List.foldl_cons]
    rcases List.mem_cons.1 hc with rfl | hc
    · exact foldl_bank_ne only bs (f s c) c hb
    · rw [ih hbs (f s b) hc]
      exact apart s b c fun e => hb (e ▸ hc)

/-! ## The bank records at RESET_N fall (R8) -/

/-- The bank record at RESET_N fall, before R13 is looked at. -/
def State.resetRecord (s : State) (b : Bank) : BankRecord :=
  { s.bank b with
    waitQueue := [], upgrade := none, lastGranted := 3
    holds := ((s.bank b).holds.filter (fun h => s.staysAtReset b h)).map HoldRecord.revoke }

theorem resetBank_eq (s : State) (b : Bank) : s.resetBank b = s.setBank b ((s.resetRecord b).left s.now) := by
  unfold State.resetBank
  rw [afterLeaving_of_no_upgrade (by rw [bank_setBank_same]), bank_setBank_same, setBank_setBank]
  rfl

theorem resetBanks_bank (s : State) (b : Bank) : s.resetBanks.bank b = (s.resetRecord b).left s.now := by
  have apart (s : State) (b c : Bank) (hc : c ≠ b) : ((s.resetBank b).resetBank c).bank c = (s.resetBank c).bank c := by
    simp only [resetBank_eq, bank_setBank_same, setBank_now]
    unfold State.resetRecord State.staysAtReset State.executingOn
    simp [hc]
  have mem : b ∈ allBanks := by revert b; decide
  refine (foldl_bank_mem resetBank_onlyBank apart (by decide) s mem).trans ?_
  rw [resetBank_eq, bank_setBank_same]

theorem resetBanks_bursts (s : State) : s.resetBanks.bursts = s.bursts := by
  have kept (bs : List Bank) : ∀ s : State, (bs.foldl (fun s b => s.resetBank b) s).bursts = s.bursts := by
    induction bs with
    | nil => exact fun _ => rfl
    | cons b bs ih => exact fun s => (ih (s.resetBank b)).trans (by rw [resetBank_eq, setBank_bursts])
  exact kept allBanks s

theorem resetBlocks_bank (s : State) (b : Bank) : s.resetBlocks.bank b = (s.resetRecord b).left s.now := by
  have banked := resetBanks_bank s.quieted b
  unfold State.bank at banked ⊢
  simp only [resetBlocks_eq, clearAllCounts_banks, banked]
  rfl

theorem resetBlocks_bursts (s : State) : s.resetBlocks.bursts = s.bursts.atReset s.now := by
  obtain ⟨hnow, -⟩ := onlyHolds_keeps (resetBanks_holds s.quieted)
  simp only [resetBlocks_eq, resetBanks_bursts, hnow]
  rfl

/-- The mode controller's steps move the banks of an abandoned clear to CLOSED, and no other (R17, R172). -/
theorem resetMode_bank (s : State) (b : Bank) : s.resetMode.bank b =
    if s.modeCtl.clearRun.map (fun r => r.quad) = some (groupOf b) then { s.bank b with phase := .closed } else s.bank b := by
  unfold State.resetMode State.abandonClear
  simp only []
  split
  · next hrun => rw [if_neg (by simp [hrun])]; rfl
  · next r hrun =>
    refine (bank_setQuadPhase _ r.quad .closed b).trans ?_
    simp only [hrun, Option.map_some, Option.some.injEq, eq_comm (a := r.quad)]
    rfl

/-- At most the bank records, the mode controller and the array differ. -/
theorem resetMode_frame (s : State) : s.resetMode =
    { s with banks := s.resetMode.banks, modeCtl := s.resetMode.modeCtl, array := s.resetMode.array } := by
  unfold State.resetMode State.abandonClear
  simp only []
  split <;> rfl

/-- A bank of a quad being cleared is CLEARING, so that it is OPEN neither before nor after the clear is abandoned. -/
theorem resetMode_opened {s : State} (law : s.phaseLaw) (b : Bank) :
    (s.resetMode.bank b).phase = .opened ↔ (s.bank b).phase = .opened := by
  rw [resetMode_bank]
  split
  · next h =>
    obtain ⟨r, hr, hq⟩ := Option.map_eq_some_iff.1 h
    simp [law.1 r hr b hq.symm]
  · exact Iff.rfl

/-! ## The cut at RESET_N fall (R69) -/

theorem cutAt_burst (e : Execution) (now : Nat) : (e.cutAt now).burst = e.burst := by
  unfold Execution.cutAt
  split
  · rfl
  · split <;> rfl

theorem cutAt_uncut (e : Execution) (now : Nat) : (e.cutAt now).cut.isNone = (e.cut.isNone && !e.inUnit now) := by
  unfold Execution.cutAt
  cases hc : e.cut with
  | some _ => simp [hc]
  | none => cases hu : e.inUnit now <;> simp [hc]

/-- What the end of a cut burst leaves of the records, where no upgrade pends: all but its port's on its bank. -/
theorem endCut_bank {s : State} (x : QueuedBurst) (h : ∀ b, (s.bank b).upgrade = none) (b : Bank) :
    ((s.endCut x).bank b).holds = (s.bank b).holds.filter (fun y => !(x.port == y.port && x.bank == b))
      ∧ ((s.endCut x).bank b).waitQueue = (s.bank b).waitQueue := by
  have kept (hb : b ≠ x.bank) :
      (s.bank b).holds.filter (fun y => !(x.port == y.port && x.bank == b)) = (s.bank b).holds := by
    simp [Ne.symm hb]
  unfold State.endCut
  simp only [setExecuting_bank]
  split
  · rw [leaveBank_of_no_upgrade (s := s.setExecuting none) x.port (h x.bank), bank_setBank]
    by_cases hb : b = x.bank
    · subst hb
      simp [BankRecord.dropRecord, bne, Bool.beq_comm]
    · rw [if_neg hb, kept hb]
      exact ⟨rfl, rfl⟩
  · next hnone =>
    refine ⟨?_, rfl⟩
    by_cases hb : b = x.bank
    · subst hb
      have absent := List.find?_eq_none.1 hnone
      refine (List.filter_eq_self.2 fun y hy => ?_).symm
      have hp : y.port ≠ x.port := by simpa using absent y hy
      simp [Ne.symm hp]
    · rw [kept hb]
      rfl

/-- A cut at once takes the record of its burst's port away (R69, log 13). -/
theorem cutAtOnce_bank {s : State} (h : ∀ b, (s.bank b).upgrade = none) (b : Bank) :
    (s.cutAtOnce.bank b).holds = (s.bank b).holds.filter (fun y =>
        !(s.bursts.executing.any (fun e => e.burst.port == y.port && e.burst.bank == b && e.cut.isNone)))
      ∧ (s.cutAtOnce.bank b).waitQueue = (s.bank b).waitQueue := by
  unfold State.cutAtOnce
  split
  · next e he =>
    rw [he]
    split
    · next hc => simpa [hc] using endCut_bank e.burst h b
    · next hc => simp [hc]
  · next he => simp [he]

/-! ## The evaluation against the defaults (R98) -/

/-- Every maintenance state is one that the quad's debt gives at some level that RECLAIM_LEVEL can have. -/
def State.levelled (s : State) : Prop :=
  s.config.reclaimLevel ≤ 11 ∧ ∀ q, ∃ level ≤ 11, (s.quad q).state = maintenanceOf level (s.quad q).debt

/-- FORCED is a matter of the debt alone: the level does not come into it (R74). -/
theorem maintenanceOf_forced {level : Nat} (h : level ≤ 11) (debt : Int) :
    maintenanceOf level debt = .forced ↔ 12 ≤ debt := by
  unfold maintenanceOf forceLevel
  split
  · exact ⟨fun h => (by cases h), fun _ => by omega⟩
  · split
    · exact ⟨fun h => (by cases h), fun _ => by omega⟩
    · exact ⟨fun _ => by omega, fun _ => rfl⟩

theorem evaluateQuad_levelled {s : State} (h : s.levelled) (q : Quad) : (s.evaluateQuad q).levelled := by
  obtain ⟨-, -, -, hquads, -, -, -, hconfig, -⟩ := onlyHolds_keeps (evaluateQuad_holds s q)
  obtain ⟨hlevel, hstate⟩ := h
  refine ⟨by rw [hconfig]; exact hlevel, fun r => ?_⟩
  unfold State.quad
  rw [hquads]
  show ∃ level ≤ 11, ((s.setMaintenance q _).quad r).state = maintenanceOf level ((s.setMaintenance q _).quad r).debt
  unfold State.setMaintenance
  rw [quad_setQuad]
  split
  · exact ⟨_, hlevel, rfl⟩
  · exact hstate r

theorem serveQuad_unwaited {s : State} (q : Quad) (hwait : ∀ b, (s.bank b).waitQueue = []) : s.serveQuad q = s := by
  unfold State.serveQuad
  induction quadBanks q with
  | nil => rfl
  | cons b bs ih => rw [List.foldl_cons, serveBank_unserved (Or.inl (hwait b)), ih]

/-- Where no entry waits, an evaluation that moves no quad into FORCED leaves every bank as it is. -/
theorem evaluateQuad_bank {s : State} (h : s.levelled) (hwait : ∀ b, (s.bank b).waitQueue = []) (q : Quad) (b : Bank) :
    (s.evaluateQuad q).bank b = s.bank b := by
  obtain ⟨hlevel, hstate⟩ := h
  obtain ⟨level, hl, hold⟩ := hstate q
  have forced (hnew : maintenanceOf s.config.reclaimLevel (s.quad q).debt = .forced) : (s.quad q).state = .forced := by
    rw [hold]
    exact (maintenanceOf_forced hl _).2 ((maintenanceOf_forced hlevel _).1 hnew)
  unfold State.evaluateQuad
  simp only []
  split
  case h_1 => exact onlyAnswers_bank (reclaimQuad_answers _ q) b
  case h_2 old new => exact absurd (forced new) (by rw [old]; decide)
  case h_3 old new => exact absurd (forced new) (by rw [old]; decide)
  case h_4 =>
    rw [serveQuad_unwaited (s := s.setMaintenance q _) q hwait]
    rfl
  case h_5 | h_6 | h_7 | h_8 | h_9 => rfl

theorem evaluateAll_bank {s : State} (h : s.levelled) (hwait : ∀ b, (s.bank b).waitQueue = []) (b : Bank) :
    s.evaluateAll.bank b = s.bank b := by
  have all (qs : List Quad) : ∀ u : State, u.levelled → (∀ c, u.bank c = s.bank c) →
      (qs.foldl (fun u q => u.evaluateQuad q) u).bank b = s.bank b := by
    induction qs with
    | nil => exact fun u _ hu => hu b
    | cons q qs ih =>
      refine fun u hl hu => ih (u.evaluateQuad q) (evaluateQuad_levelled hl q) fun c => ?_
      rw [evaluateQuad_bank hl (fun d => by rw [hu, hwait]), hu]
  exact all allFour s h fun _ => rfl

/-! ## The obligation -/

@[simp] theorem revoke_port (h : HoldRecord) : h.revoke.port = h.port := by
  unfold HoldRecord.revoke
  split <;> rfl

theorem resetMode_stays {s : State} (law : s.phaseLaw) (b : Bank) : s.resetMode.staysAtReset b = s.staysAtReset b := by
  funext h
  have opened := resetMode_opened law b
  have executing : s.resetMode.executingOn h.port b = s.executingOn h.port b := by
    unfold State.executingOn
    rw [resetMode_frame]
  unfold State.staysAtReset
  rw [executing]
  by_cases hp : (s.bank b).phase = .opened
  · rw [opened.2 hp, hp]
  · rw [bne_iff_ne.2 hp, bne_iff_ne.2 (mt opened.1 hp)]

theorem resetBlocks_levelled {s : State} (level : s.maintenanceLaw) : s.resetMode.resetBlocks.cutAtOnce.levelled := by
  obtain ⟨-, -, -, hcut, -, -, -, hcutConfig, -⟩ := onlyHolds_keeps (cutAtOnce_holds s.resetMode.resetBlocks)
  obtain ⟨-, -, -, hbanks, -⟩ := onlyHolds_keeps (resetBanks_holds s.resetMode.quieted)
  have quads : s.resetMode.resetBlocks.cutAtOnce.quads = s.quads := by
    rw [hcut, resetBlocks_eq]
    simp only [clearAllCounts_quads, hbanks]
    show s.resetMode.quads = s.quads
    rw [resetMode_frame]
  obtain ⟨⟨-, hlevel⟩, hstate⟩ := level
  refine ⟨?_, fun q => ⟨s.config.reclaimLevel, hlevel, ?_⟩⟩
  · rw [hcutConfig, resetBlocks_eq]
    show ConfigTable.default.reclaimLevel ≤ 11
    decide
  · unfold State.quad
    rw [quads]
    exact hstate q

/-- What RESET_N fall leaves of a bank's hold records: those that stay by R8, but for one whose burst is cut at once. -/
theorem resetFall_holds {s : State} (level : s.maintenanceLaw) (law : s.phaseLaw) (b : Bank) :
    (s.resetFall.bank b).holds =
      ((s.bank b).holds.filter (fun h => s.staysAtReset b h && !(s.bursts.executing.any (fun e =>
        e.burst.port == h.port && e.burst.bank == b && e.cut.isNone && !e.inUnit s.now)))).map HoldRecord.revoke := by
  have hblocks (c : Bank) := resetBlocks_bank s.resetMode c
  have hcut (c : Bank) := cutAtOnce_bank (s := s.resetMode.resetBlocks) (fun c => by rw [hblocks, left_upgrade]; rfl) c
  have hwait (c : Bank) : (s.resetMode.resetBlocks.cutAtOnce.bank c).waitQueue = [] := by
    rw [(hcut c).2, hblocks, left_waitQueue]
    rfl
  have hevaluated := evaluateAll_bank (resetBlocks_levelled level) hwait b
  have hbursts : s.resetMode.resetBlocks.bursts = s.bursts.atReset s.now := by
    rw [resetBlocks_bursts, resetMode_frame]
  have hholds : (s.resetMode.resetRecord b).holds =
      ((s.bank b).holds.filter (s.staysAtReset b)).map HoldRecord.revoke := by
    unfold State.resetRecord
    rw [resetMode_stays law, resetMode_bank]
    split <;> rfl
  have hchoice : (s.resetFall.bank b).holds = (s.resetMode.resetBlocks.cutAtOnce.bank b).holds := by
    unfold State.resetFall
    rcases refreshChoice_bank s.resetMode.resetBlocks.cutAtOnce.evaluateAll.finishSessions b with e | ⟨-, e⟩ <;>
      rw [e] <;> simp [hevaluated]
  rw [hchoice, (hcut b).1, hblocks, left_holds, hholds, hbursts, List.filter_map, List.filter_filter]
  congr 1
  refine List.filter_congr fun y _ => ?_
  rw [Bool.and_comm]
  congr 2
  unfold BurstEngine.atReset
  cases s.bursts.executing with
  | none => rfl
  | some e => simp [cutAt_burst, cutAt_uncut, Bool.and_assoc]

/-- Settles O5: what the fall leaves is what R8 and the cut leave, since the later steps take no record away. -/
theorem resetFallTreatsHoldRecords : Obligations.ResetFallTreatsHoldRecords := by
  intro s b hmode level law
  refine ⟨s.resetFall, ?_, resetFall_holds level law b⟩
  show execResetNFall s = _
  unfold execResetNFall
  rw [if_neg hmode]

end Sys2Proof.Machine
end
section
/-!
SUPPORT. What the answers of an event make of one port's link and session, whichever order the ports' answers come in; and how sessions
end at the end of an event (R127, R138, R145, R149).
-/

namespace Sys2Proof.Machine

open Sys2Proof

/-! ## Answers to one port -/

/-- Answers as entries of an outbound queue. -/
def responses (es : List (Tag × Answer)) : List OutEntry := es.map (fun e => .response e.1 e.2)

/-- A link after answers: they enter the queue of a link that is UP (R127). -/
def Link.answered (l : Link) (es : List (Tag × Answer)) : Link :=
  if l.up then { l with queue := l.queue ++ responses es } else l

/-- A session after answers: each leaves its tag in the state that R138 gives. -/
def Session.answered (x : Session) (es : List (Tag × Answer)) : Session :=
  { x with tags := es.foldl (fun tags e => sixteenSet tags e.1 e.2.tagAfter) x.tags }

/-- `t` is `s`, in the link and the session of a port, after these answers to work of the port; a session that has been torn down
receives none of them (R138, R148). -/
def State.RepliedTo (s t : State) (p : Port) (es : List (Tag × Answer)) : Prop :=
  t.link p = (if s.answerable p then (s.link p).answered es else s.link p)
    ∧ t.session p = (if s.answerable p then (s.session p).answered es else s.session p)

theorem link_answered_nil (l : Link) : l.answered [] = l := by
  unfold Link.answered responses
  split <;> simp

theorem link_answered_append (l : Link) (es fs : List (Tag × Answer)) : (l.answered es).answered fs = l.answered (es ++ fs) := by
  unfold Link.answered responses
  cases h : l.up <;> simp [h]

theorem session_answered_append (x : Session) (es fs : List (Tag × Answer)) :
    (x.answered es).answered fs = x.answered (es ++ fs) := by
  simp [Session.answered, List.foldl_append]

/-- A session receives answers or not by its state alone. -/
theorem answerable_congr {s t : State} {p : Port} (h : (t.session p).state = (s.session p).state) :
    t.answerable p = s.answerable p := by
  unfold State.answerable
  rw [h]

theorem repliedTo_of_eq {s t : State} {p : Port} (hl : t.link p = s.link p) (hs : t.session p = s.session p) :
    s.RepliedTo t p [] := by
  refine ⟨?_, ?_⟩
  · rw [hl, link_answered_nil, ite_self]
  · rw [hs]
    exact (ite_self _).symm

theorem repliedTo_refl (s : State) (p : Port) : s.RepliedTo s p [] := repliedTo_of_eq rfl rfl

theorem repliedTo_answerable {s t : State} {p : Port} {es : List (Tag × Answer)} (h : s.RepliedTo t p es) :
    t.answerable p = s.answerable p := by
  refine answerable_congr ?_
  rw [h.2]
  split <;> rfl

theorem repliedTo_trans {s t u : State} {p : Port} {es fs : List (Tag × Answer)} (h1 : s.RepliedTo t p es)
    (h2 : t.RepliedTo u p fs) : s.RepliedTo u p (es ++ fs) := by
  have same := repliedTo_answerable h1
  obtain ⟨hl, hs⟩ := h1
  refine ⟨?_, ?_⟩
  · rw [h2.1, same, hl]
    split
    · exact link_answered_append _ es fs
    · rfl
  · rw [h2.2, same, hs]
    split
    · exact session_answered_append _ es fs
    · rfl

/-- A port whose session has been torn down is answered nothing. -/
theorem repliedTo_teardown {s t : State} {p : Port} {es : List (Tag × Answer)} (h : s.RepliedTo t p es)
    (hp : (s.session p).state = .teardown) : t.link p = s.link p ∧ t.session p = s.session p := by
  have torn : s.answerable p = false := by
    unfold State.answerable
    rw [hp]
  simpa [State.RepliedTo, torn] using h

theorem answerWork_replied (s : State) (q : Port) (t : Tag) (a : Answer) (p : Port) :
    s.RepliedTo (s.answerWork q t a) p (if q = p then [(t, a)] else []) := by
  unfold State.answerWork
  by_cases hq : q = p
  · subst hq
    rw [if_pos rfl]
    cases ha : s.answerable q with
    | false => exact ⟨by simp [ha], by simp [ha]⟩
    | true =>
      rw [if_pos rfl]
      unfold State.answer State.enqueue
      simp only [setTag_link, placeEntry_response]
      refine ⟨?_, ?_⟩
      · rw [ha, if_pos rfl]
        unfold Link.answered responses
        split <;> simp
      · rw [ha, if_pos rfl]
        split <;> simp [State.setTag, Session.answered]
  · rw [if_neg hq]
    refine repliedTo_of_eq ?_ ?_
    · split
      · unfold State.answer State.enqueue
        split
        · rw [link_setLink_ne _ _ (Ne.symm hq), setTag_link]
        · rw [setTag_link]
      · rfl
    · split
      · unfold State.answer State.enqueue
        split
        · rw [setLink_session, State.setTag, session_setSession_ne _ _ (Ne.symm hq)]
        · rw [State.setTag, session_setSession_ne _ _ (Ne.symm hq)]
      · rfl

theorem answerTag_replied (s : State) (q : Port) (t : Option Tag) (a : Answer) (p : Port) :
    s.RepliedTo (s.answerTag q t a) p (if q = p then t.toList.map (·, a) else []) := by
  cases t with
  | none => simpa [State.answerTag] using repliedTo_refl s p
  | some t => exact answerWork_replied s q t a p

theorem answerBursts_replied (q : Port) (a : Answer) (p : Port) : ∀ (bs : List QueuedBurst) (s : State),
    s.RepliedTo (s.answerBursts q a bs) p (if q = p then bs.map (fun y => (y.tag, a)) else [])
  | [], s => by
    rw [List.map_nil, ite_self]
    exact repliedTo_refl s p
  | b :: bs, s => by
    have h : s.RepliedTo (s.answerBursts q a (b :: bs)) p _ :=
      repliedTo_trans (answerWork_replied s q b.tag a p) (answerBursts_replied q a p bs _)
    by_cases hq : q = p <;> simpa [hq] using h

theorem removeBankBursts_replied (s : State) (q : Port) (b : Bank) (a : Answer) (p : Port) :
    s.RepliedTo (s.removeBankBursts q b a) p
      (if q = p then ((s.burstQueue q).filter (fun y => y.bank == b)).map (fun y => (y.tag, a)) else []) :=
  answerBursts_replied q a p _ (s.setBurstQueue q _)

/-- Final answers leave each tag that they carry FREE, and every other as it was (R138). -/
theorem session_answered_tag (i : Tag) : ∀ (es : List (Tag × Answer)) (x : Session), (∀ e ∈ es, e.2.tagAfter = .free) →
    sixteenGet (x.answered es).tags i = if es.any (fun e => e.1 == i) then .free else sixteenGet x.tags i
  | [], _, _ => rfl
  | e :: es, x, h => by
    have first : e.2.tagAfter = .free := h e List.mem_cons_self
    refine (session_answered_tag i es (x.answered [e]) fun y hy => h y (List.mem_cons_of_mem _ hy)).trans ?_
    have one : sixteenGet (x.answered [e]).tags i = if i = e.1 then .free else sixteenGet x.tags i := by
      simp [Session.answered, first, sixteen_get_set]
    rw [one, List.any_cons]
    by_cases hi : i = e.1
    · simp [hi]
    · rw [if_neg hi, beq_false_of_ne (Ne.symm hi), Bool.false_or]

/-! ## The end of an event: sessions (R145, R149) -/

/-- A port's outstanding work is seen in the bank records, apart from their states, and in the burst engine (R134). -/
theorem outstanding_congr {s t : State} (hb : ∀ b, (t.bank b).holds = (s.bank b).holds
    ∧ (t.bank b).waitQueue = (s.bank b).waitQueue ∧ (t.bank b).upgrade = (s.bank b).upgrade)
    (he : t.bursts = s.bursts) (p : Port) : t.outstanding p = s.outstanding p := by
  have banks (b : Bank) : ((t.bank b).holds.any (fun h => h.port == p) || (t.bank b).waitQueue.any (fun w => w.port == p)
      || t.upgradeOn p b) = ((s.bank b).holds.any (fun h => h.port == p) || (s.bank b).waitQueue.any (fun w => w.port == p)
      || s.upgradeOn p b) := by
    obtain ⟨h1, h2, h3⟩ := hb b
    unfold State.upgradeOn
    rw [h1, h2, h3]
  unfold State.outstanding State.burstQueue State.executes
  simp only [banks, he]

theorem outstanding_of_answers {s t : State} (h : s.OnlyAnswers t) (p : Port) : t.outstanding p = s.outstanding p := by
  obtain ⟨-, hbursts, -⟩ := onlyAnswers_keeps h
  exact outstanding_congr (fun b => by rw [onlyAnswers_bank h]; exact ⟨rfl, rfl, rfl⟩) hbursts p

/-- A session that ends leaves every other port's link and session alone. -/
theorem finishSession_others (s : State) {p q : Port} (h : q ≠ p) :
    (s.finishSession p).link q = s.link q ∧ (s.finishSession p).session q = s.session q := by
  have answered (t : Option Tag) (a : Answer) : (s.answerTag p t a).link q = s.link q
      ∧ (s.answerTag p t a).session q = s.session q := by
    have r := answerTag_replied s p t a q
    rw [if_neg (Ne.symm h)] at r
    obtain ⟨hl, hs⟩ := r
    rw [hl, hs, link_answered_nil]
    exact ⟨ite_self _, ite_self _⟩
  unfold State.finishSession
  simp only []
  split
  · split
    · exact ⟨(answered _ _).1, (session_setSession_ne _ _ h).trans (answered _ _).2⟩
    · exact ⟨rfl, rfl⟩
  · split
    · exact ⟨rfl, rfl⟩
    · exact ⟨rfl, session_setSession_ne _ _ h⟩
  · exact ⟨rfl, rfl⟩
  · exact ⟨rfl, rfl⟩

theorem mem_allFour (p : Fin 4) : p ∈ allFour := by revert p; decide

/-- The end of the sessions, seen at one port: its own, in a state where its link, its session and its work are as they were. -/
theorem finishSessions_port (s : State) (p : Port) : ∃ u : State,
    u.link p = s.link p ∧ u.session p = s.session p ∧ u.outstanding p = s.outstanding p
      ∧ s.finishSessions.link p = (u.finishSession p).link p ∧ s.finishSessions.session p = (u.finishSession p).session p := by
  have others (qs : List Port) : ∀ v : State, p ∉ qs →
      (qs.foldl (fun v q => v.finishSession q) v).link p = v.link p
        ∧ (qs.foldl (fun v q => v.finishSession q) v).session p = v.session p := by
    induction qs with
    | nil => exact fun _ _ => ⟨rfl, rfl⟩
    | cons q qs ih =>
      intro v hp
      obtain ⟨hq, hqs⟩ := not_or.1 (mt List.mem_cons.2 hp)
      have here := finishSession_others v hq
      have rest := ih (v.finishSession q) hqs
      exact ⟨rest.1.trans here.1, rest.2.trans here.2⟩
  obtain ⟨before, after, hsplit⟩ := List.append_of_mem (mem_allFour p)
  have nodup : (before ++ p :: after).Nodup := hsplit ▸ (by decide)
  have hbefore : p ∉ before := fun hm => (List.nodup_append.1 nodup).2.2 p hm p List.mem_cons_self rfl
  have hafter : p ∉ after := (List.nodup_cons.1 (List.nodup_append.1 nodup).2.1).1
  refine ⟨before.foldl (fun v q => v.finishSession q) s, (others before s hbefore).1, (others before s hbefore).2,
    outstanding_of_answers (onlyAnswers_foldl finishSession_answers before s) p, ?_⟩
  unfold State.finishSessions
  rw [hsplit, List.foldl_append, List.foldl_cons]
  exact others after _ hafter

theorem finishSession_idle {s : State} {p : Port} (h : (s.session p).state = .none ∨ (s.session p).state = .attached) :
    s.finishSession p = s := by
  unfold State.finishSession
  rcases h with h | h <;> simp [h]

theorem finishSession_teardown {s : State} {p : Port} (h : (s.session p).state = .teardown) :
    (s.finishSession p).link p = s.link p
      ∧ (s.finishSession p).session p = { s.session p with state := if s.outstanding p then .teardown else .none } := by
  unfold State.finishSession
  simp only [h]
  cases s.outstanding p with
  | true => exact ⟨rfl, by simp [← h]⟩
  | false => exact ⟨rfl, session_setSession_same _ _ _⟩

theorem finishSession_detaching_busy {s : State} {p : Port} (h : (s.session p).state = .detaching)
    (ho : s.outstanding p = true) : s.finishSession p = s := by
  unfold State.finishSession
  simp [h, ho]

theorem tagsFreeBut_iff (s : State) (p : Port) (d : Tag) :
    s.tagsFreeBut p (some d) = true ↔ ∀ i, i ≠ d → sixteenGet (s.session p).tags i = .free := by
  have mem (i : Tag) : i ∈ allTags := by revert i; decide
  simp only [State.tagsFreeBut, List.all_eq_true, mem, forall_const, Bool.or_eq_true, beq_iff_eq, Option.some.injEq,
    or_iff_not_imp_left, ne_eq]

theorem finishSession_detaching_done {s : State} {p : Port} {d : Tag} (h : (s.session p).state = .detaching)
    (hd : (s.session p).detachTag = some d) (ho : s.outstanding p = false)
    (hfree : ∀ i, i ≠ d → sixteenGet (s.session p).tags i = .free) :
    (s.finishSession p).link p = (s.link p).answered [(d, .ok .plain)] ∧ (s.finishSession p).session p = endedSession := by
  have answerable : s.answerable p = true := by
    unfold State.answerable
    rw [h]
  have finished : s.finishSession p = (s.answerTag p (some d) (.ok .plain)).setSession p endedSession := by
    unfold State.finishSession
    simp [h, hd, ho, (tagsFreeBut_iff s p d).2 hfree]
  have replied := (answerTag_replied s p (some d) (.ok .plain) p).1
  rw [if_pos answerable, if_pos rfl] at replied
  rw [finished]
  exact ⟨replied, session_setSession_same _ _ _⟩

/-! ## The end of an event: all choices -/

/-- The arbiter's choice changes the burst engine alone. -/
theorem arbiterChoice_frame (s : State) : s.arbiterChoice = { s with bursts := s.arbiterChoice.bursts } := by
  unfold State.arbiterChoice
  split
  · rfl
  · split <;> rfl

theorem settle_links (s : State) : s.settle.links = s.arbiterChoice.finishSessions.links := by
  unfold State.settle
  rw [enterRetention_links, refreshChoice_links]

theorem settle_sessions (s : State) : s.settle.sessions = s.arbiterChoice.finishSessions.sessions := by
  unfold State.settle
  rw [enterRetention_sessions, refreshChoice_sessions]

theorem settle_bursts (s : State) : s.settle.bursts = s.arbiterChoice.bursts := by
  unfold State.settle
  rw [enterRetention_bursts, refreshChoice_bursts, (onlyAnswers_keeps (finishSessions_answers _)).2.1]

/-- At the end of an event banks go from CLOSED to REFRESHING, and change in no other way. -/
theorem settle_bank (s : State) (b : Bank) : s.settle.bank b = s.bank b
    ∨ (s.bank b).phase = .closed ∧ s.settle.bank b = { s.bank b with phase := .refreshing } := by
  have h := refreshChoice_bank s.arbiterChoice.finishSessions b
  rw [finishSessions_bank, arbiterChoice_bank] at h
  unfold State.settle
  rwa [enterRetention_bank]

theorem settle_bank_of_not_closed {s : State} {b : Bank} (h : (s.bank b).phase ≠ .closed) : s.settle.bank b = s.bank b :=
  (settle_bank s b).resolve_right fun hr => h hr.1

theorem settle_quads (s : State) : s.settle.quads = s.quads := by
  unfold State.settle
  rw [enterRetention_quads, refreshChoice_quads,
    (onlyHolds_keeps (onlyHolds_of_answers (finishSessions_answers _))).2.2.2.1, arbiterChoice_frame]

theorem settle_config (s : State) : s.settle.config = s.config := by
  unfold State.settle
  rw [enterRetention_config, refreshChoice_config,
    (onlyHolds_keeps (onlyHolds_of_answers (finishSessions_answers _))).2.2.2.2.2.2.2.1, arbiterChoice_frame]

/-- A port's outstanding work after the arbiter's choice is what it is at the end of the event. -/
theorem settle_outstanding (s : State) (p : Port) : s.settle.outstanding p = s.arbiterChoice.outstanding p := by
  refine outstanding_congr (fun b => ?_) (settle_bursts s) p
  rw [arbiterChoice_bank]
  rcases settle_bank s b with e | ⟨-, e⟩ <;> rw [e] <;> exact ⟨rfl, rfl, rfl⟩

/-- The end of an event, seen at one port: that of its session. -/
theorem settle_port (s : State) (p : Port) : ∃ u : State,
    u.link p = s.link p ∧ u.session p = s.session p ∧ u.outstanding p = s.settle.outstanding p
      ∧ s.settle.link p = (u.finishSession p).link p ∧ s.settle.session p = (u.finishSession p).session p := by
  obtain ⟨u, hl, hs, ho, hlink, hsession⟩ := finishSessions_port s.arbiterChoice p
  refine ⟨u, hl.trans ?_, hs.trans ?_, ho.trans (settle_outstanding s p).symm, ?_, ?_⟩
  · rw [arbiterChoice_frame]; rfl
  · rw [arbiterChoice_frame]; rfl
  · rw [← hlink]
    unfold State.link
    rw [settle_links]
  · rw [← hsession]
    unfold State.session
    rw [settle_sessions]

theorem settle_attached {s : State} {p : Port} (h : (s.session p).state = .attached) : s.settle.link p = s.link p := by
  obtain ⟨u, hl, hs, -, hlink, -⟩ := settle_port s p
  rw [hlink, finishSession_idle (Or.inr (hs ▸ h)), hl]

theorem settle_teardown {s : State} {p : Port} (h : (s.session p).state = .teardown) :
    s.settle.link p = s.link p
      ∧ s.settle.session p = { s.session p with state := if s.settle.outstanding p then .teardown else .none } := by
  obtain ⟨u, hl, hs, ho, hlink, hsession⟩ := settle_port s p
  have torn := finishSession_teardown (s := u) (p := p) (hs ▸ h)
  rw [hlink, hsession, torn.1, torn.2, hl, hs, ho]
  exact ⟨rfl, rfl⟩

theorem settle_detaching_busy {s : State} {p : Port} (h : (s.session p).state = .detaching)
    (ho : s.settle.outstanding p = true) : s.settle.link p = s.link p ∧ s.settle.session p = s.session p := by
  obtain ⟨u, hl, hs, hu, hlink, hsession⟩ := settle_port s p
  rw [hlink, hsession, finishSession_detaching_busy (hs ▸ h) (hu.trans ho)]
  exact ⟨hl, hs⟩

theorem settle_detaching_done {s : State} {p : Port} {d : Tag} (h : (s.session p).state = .detaching)
    (hd : (s.session p).detachTag = some d) (ho : s.settle.outstanding p = false)
    (hfree : ∀ i, i ≠ d → sixteenGet (s.session p).tags i = .free) :
    s.settle.link p = (s.link p).answered [(d, .ok .plain)] ∧ s.settle.session p = endedSession := by
  obtain ⟨u, hl, hs, hu, hlink, hsession⟩ := settle_port s p
  have done := finishSession_detaching_done (s := u) (p := p) (hs ▸ h) (hs ▸ hd) (hu.trans ho) (by rw [hs]; exact hfree)
  rw [hlink, hsession, done.1, done.2, hl]
  exact ⟨rfl, rfl⟩

/-! ## The data-path arbiter's choice (R57, R58) -/

theorem candidate_iff (s : State) (p : Port) (b : QueuedBurst) :
    s.candidate p = some b ↔ (s.burstQueue p).head? = some b ∧ (s.bank b.bank).phase = .opened := by
  unfold State.candidate State.ready
  cases s.burstQueue p with
  | nil => simp
  | cons c rest =>
    simp only [List.head?_cons, Option.some.injEq, beq_iff_eq]
    constructor
    · intro h
      split at h
      · next hopen =>
        obtain rfl := Option.some.inj h
        exact ⟨rfl, hopen⟩
      · cases h
    · rintro ⟨rfl, hopen⟩
      exact if_pos hopen

theorem firstCandidate_none {s : State} (h : ∀ p b, (s.burstQueue p).head? = some b → (s.bank b.bank).phase ≠ .opened) :
    ∀ ports : List Port, s.firstCandidate ports = none
  | [] => rfl
  | p :: ports => by
    have none : s.candidate p = none := Option.eq_none_iff_forall_ne_some.2 fun b hb =>
      h p b ((candidate_iff s p b).1 hb).1 ((candidate_iff s p b).1 hb).2
    unfold State.firstCandidate
    rw [none]
    exact firstCandidate_none h ports

theorem firstCandidate_append {s : State} {p : Port} {b : QueuedBurst} (after : List Port) (hp : s.candidate p = some b) :
    ∀ before : List Port, (∀ q ∈ before, s.candidate q = none) → s.firstCandidate (before ++ p :: after) = some (p, b)
  | [], _ => by
    rw [List.nil_append]
    unfold State.firstCandidate
    rw [hp]
  | q :: before, h => by
    rw [List.cons_append]
    unfold State.firstCandidate
    rw [h q List.mem_cons_self]
    exact firstCandidate_append after hp before fun r hr => h r (List.mem_cons_of_mem _ hr)

/-- The arbiter's choice on a free data path, as the statements put it. -/
theorem arbiterChoice_choseFrom {s : State} (h : s.bursts.executing = none) :
    s.arbiterChoice.choseFrom s.bursts.queues s.bursts.lastServed := by
  unfold State.choseFrom
  simp only [arbiterChoice_bank]
  refine ⟨fun hnone => ?_, fun n p b rest hn hp hq hopen hbefore => ?_⟩
  · unfold State.arbiterChoice
    rw [h, firstCandidate_none hnone]
    simp only []
    rw [← h]
  · obtain ⟨hsplit, hcycle⟩ := cycleAfter_split s.bursts.lastServed p n hn hp
    have chosen : s.candidate p = some b := (candidate_iff s p b).2 ⟨by unfold State.burstQueue; rw [hq]; rfl, hopen⟩
    have before : ∀ q ∈ (cycleAfter s.bursts.lastServed).take n, s.candidate q = none := by
      intro q hm
      obtain ⟨k, hk, hval⟩ := hcycle q hm
      refine Option.eq_none_iff_forall_ne_some.2 fun c hc => ?_
      obtain ⟨hhead, hready⟩ := (candidate_iff s q c).1 hc
      exact hbefore k q c hk hval hhead hready
    have first := firstCandidate_append ((cycleAfter s.bursts.lastServed).drop (n + 1)) chosen _ before
    rw [← hsplit] at first
    unfold State.arbiterChoice
    rw [h, first]
    simp [State.startBurst, State.burstQueue, hq]

theorem choseFrom_congr {s t : State} {queues : Four (List QueuedBurst)} {last : Port} (h : s.choseFrom queues last)
    (hbursts : t.bursts = s.bursts) (hnow : t.now = s.now)
    (hopen : ∀ b, (t.bank b).phase = .opened ↔ (s.bank b).phase = .opened) : t.choseFrom queues last := by
  unfold State.choseFrom at h ⊢
  simpa only [hbursts, hnow, ne_eq, hopen] using h

/-- The burst engine at the end of an event. -/
theorem settle_engine (s : State) : s.engineGoesOn s.settle s.bursts.queues := by
  refine ⟨fun h => ?_, fun h => ?_⟩
  · rw [settle_bursts]
    unfold State.arbiterChoice
    split
    · rfl
    · next hn => exact absurd hn h
  · refine choseFrom_congr (arbiterChoice_choseFrom h) (settle_bursts s) ?_ fun b => ?_
    · rw [(settle_store s).1, arbiterChoice_frame]
    · rw [arbiterChoice_bank]
      rcases settle_bank s b with e | ⟨hc, e⟩ <;> rw [e]
      simp [hc]

end Sys2Proof.Machine
end
section
/-!
SUPPORT. Open completion: the records that stay, the answers that each record gives rise to by its marks, the bursts that leave with the
releasing ones, and the upgrade that the completion may complete (R11, R38, R44).
-/

namespace Sys2Proof.Machine

open Sys2Proof

/-! ## One record at open completion (R11, R38) -/

/-- The answers for one record at open completion, by its marks. -/
def State.openAnswers (s : State) (b : Bank) (h : HoldRecord) : List (Tag × Answer) :=
  if h.releasing then
    h.openTag.toList.map (·, .cancelled)
      ++ ((s.burstQueue h.port).filter (fun y => y.bank == b)).map (fun y => (y.tag, .cancelled))
      ++ h.closeTag.toList.map (·, .ok (.close false))
  else if h.revokePending then h.openTag.toList.map (·, .revoked)
  else h.openTag.toList.map (·, .granted b (s.bank b).openRow h.mode)

theorem openAnswers_final (s : State) (b : Bank) (h : HoldRecord) : ∀ e ∈ s.openAnswers b h, e.2.tagAfter = .free := by
  intro e he
  unfold State.openAnswers at he
  split at he
  · simp only [List.mem_append, List.mem_map] at he
    rcases he with (⟨_, -, rfl⟩ | ⟨_, -, rfl⟩) | ⟨_, -, rfl⟩ <;> rfl
  · split at he <;> obtain ⟨_, -, rfl⟩ := List.mem_map.1 he <;> rfl

theorem openAnswers_congr {s t : State} {b : Bank} {h : HoldRecord} (hq : t.burstQueue h.port = s.burstQueue h.port)
    (hb : t.bank b = s.bank b) : t.openAnswers b h = s.openAnswers b h := by
  unfold State.openAnswers
  rw [hq, hb]

/-- What stays of a record at open completion. -/
theorem openRecord_stays (b : Bank) (s : State) (h : HoldRecord) :
    (openRecord b s h).2 = if !h.releasing && !h.revokePending then some { h with openTag := none } else none := by
  unfold openRecord
  cases h.releasing with
  | true => rfl
  | false => cases h.revokePending <;> rfl

theorem openRecord_replied (b : Bank) (s : State) (h : HoldRecord) (p : Port) :
    s.RepliedTo (openRecord b s h).1 p (if h.port = p then s.openAnswers b h else []) := by
  unfold openRecord State.openAnswers
  split
  · have r := repliedTo_trans (repliedTo_trans (answerTag_replied s h.port h.openTag .cancelled p)
      (removeBankBursts_replied _ h.port b .cancelled p)) (answerTag_replied _ h.port h.closeTag (.ok (.close false)) p)
    have queue : (s.answerTag h.port h.openTag .cancelled).burstQueue h.port = s.burstQueue h.port := by
      unfold State.burstQueue
      rw [(onlyAnswers_keeps (answerTag_answers s _ _ _)).2.1]
    rw [queue] at r
    by_cases hp : h.port = p
    · simpa only [if_pos hp] using r
    · simpa only [if_neg hp, List.append_nil] using r
  · split
    · exact answerTag_replied s h.port h.openTag .revoked p
    · exact answerTag_replied s h.port h.openTag _ p

theorem removeBankBursts_bursts (s : State) (p : Port) (b : Bank) (a : Answer) : (s.removeBankBursts p b a).bursts =
    { s.bursts with queues := s.bursts.queues.set p ((s.burstQueue p).filter (fun y => y.bank != b)) } :=
  (onlyAnswers_keeps (answerBursts_answers (s.setBurstQueue p _) p a _)).2.1

/-- The bursts that leave with a record: those of a releasing one's port to the bank (R38). -/
theorem openRecord_bursts (b : Bank) (s : State) (h : HoldRecord) : (openRecord b s h).1.bursts =
    if h.releasing then
      { s.bursts with queues := s.bursts.queues.set h.port ((s.burstQueue h.port).filter (fun y => y.bank != b)) }
    else s.bursts := by
  have answered (u : State) (t : Option Tag) (a : Answer) : (u.answerTag h.port t a).bursts = u.bursts :=
    (onlyAnswers_keeps (answerTag_answers u _ _ _)).2.1
  unfold openRecord State.burstQueue
  split
  · simp only [answered, removeBankBursts_bursts, State.burstQueue]
  · split <;> simp only [answered]

/-! ## The sweep over the bank's records -/

theorem sweep_openRecord_stays (b : Bank) : ∀ (hs : List HoldRecord) (s : State), (sweep (openRecord b) hs s).2 =
    (hs.filter (fun h => !h.releasing && !h.revokePending)).map (fun h => { h with openTag := none })
  | [], _ => rfl
  | h :: hs, s => by
    simp only [sweep, openRecord_stays, sweep_openRecord_stays b hs, List.filter_cons]
    split <;> rfl

theorem sweep_append (f : State → HoldRecord → State × Option HoldRecord) (ks : List HoldRecord) :
    ∀ (hs : List HoldRecord) (s : State), (sweep f (hs ++ ks) s).1 = (sweep f ks (sweep f hs s).1).1
  | [], _ => rfl
  | h :: hs, s => sweep_append f ks hs (f s h).1

/-- The bursts after the sweep: the queues without those of the releasing records' ports to the bank. -/
theorem sweep_openRecord_bursts (b : Bank) : ∀ (hs : List HoldRecord) (s : State),
    (sweep (openRecord b) hs s).1.bursts.executing = s.bursts.executing
      ∧ (sweep (openRecord b) hs s).1.bursts.lastServed = s.bursts.lastServed
      ∧ ∀ p, (sweep (openRecord b) hs s).1.burstQueue p =
          if hs.any (fun h => h.port == p && h.releasing) then (s.burstQueue p).filter (fun y => y.bank != b)
          else s.burstQueue p
  | [], _ => ⟨rfl, rfl, fun _ => rfl⟩
  | h :: hs, s => by
    obtain ⟨he, hl, hq⟩ := sweep_openRecord_bursts b hs (openRecord b s h).1
    have first := openRecord_bursts b s h
    refine ⟨he.trans ?_, hl.trans ?_, fun p => (hq p).trans ?_⟩
    · rw [first]; split <;> rfl
    · rw [first]; split <;> rfl
    · have queue : (openRecord b s h).1.burstQueue p =
          if h.port = p ∧ h.releasing = true then (s.burstQueue p).filter (fun y => y.bank != b) else s.burstQueue p := by
        unfold State.burstQueue
        rw [first]
        cases h.releasing with
        | false => simp
        | true =>
          rw [if_pos rfl, four_get_set]
          by_cases hp : p = h.port
          · simp [hp, State.burstQueue]
          · simp [hp, Ne.symm hp]
      rw [queue, List.any_cons]
      by_cases hp : h.port = p ∧ h.releasing = true
      · simp [hp.1, hp.2]
      · have other : (h.port == p && h.releasing) = false := by simpa using hp
        rw [if_neg hp, other, Bool.false_or]

/-- To a port without a record in the list the sweep answers nothing, and its queue stays. -/
theorem sweep_openRecord_others (b : Bank) (p : Port) : ∀ (hs : List HoldRecord) (s : State), (∀ h ∈ hs, h.port ≠ p) →
    s.RepliedTo (sweep (openRecord b) hs s).1 p []
  | [], s, _ => repliedTo_refl s p
  | h :: hs, s, hp => by
    have first := openRecord_replied b s h p
    rw [if_neg (hp h List.mem_cons_self)] at first
    exact repliedTo_trans first (sweep_openRecord_others b p hs _ fun k hk => hp k (List.mem_cons_of_mem _ hk))

/-- Whatever records a port has, the sweep does no more to its link and session than answer it. -/
theorem sweep_openRecord_answers (b : Bank) (p : Port) : ∀ (hs : List HoldRecord) (s : State),
    ∃ es, s.RepliedTo (sweep (openRecord b) hs s).1 p es
  | [], s => ⟨[], repliedTo_refl s p⟩
  | h :: hs, s => by
    obtain ⟨es, rest⟩ := sweep_openRecord_answers b p hs (openRecord b s h).1
    exact ⟨_, repliedTo_trans (openRecord_replied b s h p) rest⟩

/-- By the place law a record is the only one of its port on the bank (R23). -/
theorem placeLaw_split {s : State} (law : s.placeLaw) {b : Bank} {x : HoldRecord} (hx : x ∈ (s.bank b).holds) :
    ∃ before after, (s.bank b).holds = before ++ x :: after
      ∧ (∀ h ∈ before, h.port ≠ x.port) ∧ ∀ h ∈ after, h.port ≠ x.port := by
  obtain ⟨before, after, hsplit⟩ := List.append_of_mem hx
  have one := law b x.port
  rw [hsplit, List.filter_append, List.filter_cons_of_pos (by simp)] at one
  simp only [List.length_append, List.length_cons] at one
  have nil (l : List HoldRecord) (hl : (l.filter (fun h => h.port == x.port)).length = 0) : ∀ h ∈ l, h.port ≠ x.port := by
    simpa using List.filter_eq_nil_iff.1 (List.length_eq_zero_iff.1 hl)
  exact ⟨before, after, hsplit, nil before (by omega), nil after (by omega)⟩

/-- The sweep answers a port by the marks of its one record. -/
theorem sweep_openRecord_replied {s : State} (law : s.placeLaw) {b : Bank} {x : HoldRecord} (hx : x ∈ (s.bank b).holds) :
    s.RepliedTo (sweep (openRecord b) (s.bank b).holds s).1 x.port (s.openAnswers b x) := by
  obtain ⟨before, after, hsplit, hbefore, hafter⟩ := placeLaw_split law hx
  have swept := sweep_openRecord_bursts b before s
  have queue : (sweep (openRecord b) before s).1.burstQueue x.port = s.burstQueue x.port := by
    rw [swept.2.2, if_neg]
    simp only [List.any_eq_true, Bool.and_eq_true, beq_iff_eq, not_exists, not_and]
    exact fun h hm e => absurd e (hbefore h hm)
  have own := openRecord_replied b (sweep (openRecord b) before s).1 x x.port
  rw [if_pos rfl, openAnswers_congr queue (sweep_bank (openRecord_bank b) before s b)] at own
  rw [hsplit, sweep_append]
  have all : s.RepliedTo (sweep (openRecord b) (x :: after) (sweep (openRecord b) before s).1).1 x.port _ :=
    repliedTo_trans (repliedTo_trans (sweep_openRecord_others b x.port before s hbefore) own)
      (sweep_openRecord_others b x.port after _ hafter)
  simpa only [List.nil_append, List.append_nil] using all

/-! ## The upgrade that an event completes (R44) -/

/-- A pending upgrade completes where its port's record is the bank's only one. -/
theorem completeUpgrade_alone {s : State} {b : Bank} {u : PendingUpgrade} {h : HoldRecord} (hu : (s.bank b).upgrade = some u)
    (hh : (s.bank b).holds = [h]) (hp : h.port = u.port) :
    s.completeUpgrade b = (s.setBank b { s.bank b with holds := [{ h with mode := .exclusive }], upgrade := none }).answerWork
      u.port u.tag (.granted b (s.bank b).openRow .exclusive) := by
  unfold State.completeUpgrade
  rw [hu, hh]
  simp only []
  rw [if_pos hp]

theorem completeUpgrade_otherwise {s : State} {b : Bank}
    (h : ∀ u, (s.bank b).upgrade = some u → (s.bank b).holds.map (fun x => x.port) ≠ [u.port]) : s.completeUpgrade b = s := by
  unfold State.completeUpgrade
  split
  · next u x hu hh =>
    rw [if_neg]
    intro hp
    exact h u hu (by rw [hh, ← hp]; rfl)
  · rfl

/-- Either of the two. -/
theorem completeUpgrade_cases (s : State) (b : Bank) :
    (∃ u h, (s.bank b).upgrade = some u ∧ (s.bank b).holds = [h] ∧ h.port = u.port)
      ∨ ∀ u, (s.bank b).upgrade = some u → (s.bank b).holds.map (fun x => x.port) ≠ [u.port] := by
  by_cases h : ∀ u, (s.bank b).upgrade = some u → (s.bank b).holds.map (fun x => x.port) ≠ [u.port]
  · exact Or.inr h
  · push Not at h
    obtain ⟨u, hu, hmap⟩ := h
    obtain ⟨x, hx, hp⟩ := List.map_eq_singleton_iff.1 hmap
    exact Or.inl ⟨u, x, hu, hx, hp⟩

theorem completeUpgrade_bursts (s : State) (b : Bank) : (s.completeUpgrade b).bursts = s.bursts := by
  rcases completeUpgrade_cases s b with ⟨u, h, hu, hh, hp⟩ | h
  · rw [completeUpgrade_alone hu hh hp, (onlyAnswers_keeps (answerWork_answers _ _ _ _)).2.1]
    rfl
  · rw [completeUpgrade_otherwise h]

/-- A port is answered at most for its own upgrade. -/
theorem completeUpgrade_answers (s : State) (b : Bank) (p : Port) : ∃ es, s.RepliedTo (s.completeUpgrade b) p es := by
  rcases completeUpgrade_cases s b with ⟨u, h, hu, hh, hp⟩ | h
  · rw [completeUpgrade_alone hu hh hp]
    exact ⟨_, answerWork_replied (s.setBank b _) u.port u.tag _ p⟩
  · rw [completeUpgrade_otherwise h]
    exact ⟨[], repliedTo_refl s p⟩

theorem completeUpgrade_others {s : State} {b : Bank} {p : Port}
    (h : ∀ u, (s.bank b).upgrade = some u → u.port = p → (s.bank b).holds.map (fun x => x.port) ≠ [u.port]) :
    s.RepliedTo (s.completeUpgrade b) p [] := by
  rcases completeUpgrade_cases s b with ⟨u, x, hu, hx, hp⟩ | hnone
  · have other : u.port ≠ p := fun e => h u hu e (by rw [hx, ← hp]; rfl)
    rw [completeUpgrade_alone hu hx hp]
    have r := answerWork_replied (s.setBank b { s.bank b with holds := [{ x with mode := .exclusive }], upgrade := none })
      u.port u.tag (.granted b (s.bank b).openRow .exclusive) p
    rwa [if_neg other] at r
  · rw [completeUpgrade_otherwise hnone]
    exact repliedTo_refl s p

/-! ## Open completion (R11) -/

/-- The records that stay at open completion, without their open tags. -/
def BankRecord.openKept (r : BankRecord) : List HoldRecord :=
  (r.holds.filter (fun h => !h.releasing && !h.revokePending)).map (fun h => { h with openTag := none })

theorem openKept_mem {r : BankRecord} {y : HoldRecord} (h : y ∈ r.openKept) :
    ∃ x ∈ r.holds, x.releasing = false ∧ x.revokePending = false ∧ { x with openTag := none } = y := by
  obtain ⟨x, hx, rfl⟩ := List.mem_map.1 h
  obtain ⟨hmem, hmarks⟩ := List.mem_filter.1 hx
  rw [Bool.and_eq_true, Bool.not_eq_true', Bool.not_eq_true'] at hmarks
  exact ⟨x, hmem, hmarks.1, hmarks.2, rfl⟩

/-- By the place law a port whose record is marked keeps none at open completion. -/
theorem openKept_marked {s : State} (law : s.placeLaw) {b : Bank} {x : HoldRecord} (hx : x ∈ (s.bank b).holds)
    (hmarked : x.releasing = true ∨ x.revokePending = true) : ∀ y ∈ (s.bank b).openKept, y.port ≠ x.port := by
  intro y hy hp
  obtain ⟨z, hz, hreleasing, hrevoke, rfl⟩ := openKept_mem hy
  obtain ⟨before, after, hsplit, hbefore, hafter⟩ := placeLaw_split law hx
  rw [hsplit, List.mem_append, List.mem_cons] at hz
  rcases hz with hz | rfl | hz
  · exact hbefore z hz hp
  · rw [hreleasing, hrevoke] at hmarked
    simp at hmarked
  · exact hafter z hz hp

/-- The state at open completion before a pending upgrade is looked at. -/
def State.opened (s : State) (b : Bank) : State :=
  (sweep (openRecord b) (s.bank b).holds s).1.setBank b ((s.bank b).afterOpening (s.bank b).openKept s.now)

/-- The bank after open completion, before a pending upgrade is looked at (R11). -/
theorem afterOpening_eq (r : BankRecord) (kept : List HoldRecord) (now : Nat) : r.afterOpening kept now =
    { r with
      phase := if kept = [] then .closeWait else .opened
      holds := kept, dwellExpired := some false, endsAt := some (now + 72)
      upgrade := r.upgrade.filter (fun u => kept.any (fun h => h.port == u.port)) } := by
  unfold BankRecord.afterOpening
  simp only [List.isEmpty_iff]
  rfl

theorem completeOpen_eq (s : State) (b : Bank) : s.completeOpen b = (s.opened b).completeUpgrade b := by
  unfold State.completeOpen State.opened
  simp only [sweep_openRecord_stays, sweep_bank (openRecord_bank b)]
  rfl

theorem opened_bank (s : State) (b : Bank) : (s.opened b).bank b = (s.bank b).afterOpening (s.bank b).openKept s.now :=
  bank_setBank_same _ _ _

theorem opened_upgrade (s : State) (b : Bank) (u : PendingUpgrade) : ((s.opened b).bank b).upgrade = some u ↔
    (s.bank b).upgrade = some u ∧ (s.bank b).openKept.any (fun h => h.port == u.port) = true := by
  rw [opened_bank]
  exact Option.filter_eq_some_iff

theorem opened_bursts (s : State) (b : Bank) : (s.opened b).bursts = (sweep (openRecord b) (s.bank b).holds s).1.bursts := rfl

theorem opened_replied {s t : State} {b : Bank} {p : Port} {es : List (Tag × Answer)}
    (h : s.RepliedTo (sweep (openRecord b) (s.bank b).holds s).1 p es) (h' : (s.opened b).RepliedTo t p []) :
    s.RepliedTo t p es := by
  have opened : s.RepliedTo (s.opened b) p es := h
  simpa only [List.append_nil] using repliedTo_trans opened h'

section
variable {s : State} {b : Bank}

/-- No upgrade completes: there is none, or its port's record is not the only one that stays. -/
theorem completeOpen_otherwise
    (h : ∀ u, (s.bank b).upgrade = some u → (s.bank b).openKept.map (fun x => x.port) ≠ [u.port]) :
    s.completeOpen b = s.opened b := by
  rw [completeOpen_eq]
  refine completeUpgrade_otherwise fun u hu => ?_
  rw [opened_bank]
  exact h u ((opened_upgrade s b u).1 hu).1

theorem completeOpen_bank_otherwise
    (h : ∀ u, (s.bank b).upgrade = some u → (s.bank b).openKept.map (fun x => x.port) ≠ [u.port]) :
    (s.completeOpen b).bank b = (s.bank b).afterOpening (s.bank b).openKept s.now := by
  rw [completeOpen_otherwise h, opened_bank]

/-- The upgrade of the only record that stays completes (R44). -/
theorem completeOpen_alone {u : PendingUpgrade} {x : HoldRecord} (hu : (s.bank b).upgrade = some u)
    (hk : (s.bank b).openKept = [x]) (hp : x.port = u.port) :
    s.completeOpen b = ((s.opened b).setBank b
        { (s.opened b).bank b with holds := [{ x with mode := .exclusive }], upgrade := none }).answerWork u.port u.tag
      (.granted b (s.bank b).openRow .exclusive) := by
  have upgrade : ((s.opened b).bank b).upgrade = some u := (opened_upgrade s b u).2 ⟨hu, by simp [hk, hp]⟩
  have holds : ((s.opened b).bank b).holds = [x] := by rw [opened_bank]; exact hk
  have row : ((s.opened b).bank b).openRow = (s.bank b).openRow := by rw [opened_bank]; rfl
  rw [completeOpen_eq, completeUpgrade_alone upgrade holds hp, row]

theorem completeOpen_bank_alone {u : PendingUpgrade} {x : HoldRecord} (hu : (s.bank b).upgrade = some u)
    (hk : (s.bank b).openKept = [x]) (hp : x.port = u.port) :
    (s.completeOpen b).bank b =
      { s.bank b with
        phase := .opened, holds := [{ x with mode := .exclusive }], dwellExpired := some false, upgrade := none
        endsAt := some (s.now + rowDwellTime) } := by
  rw [completeOpen_alone hu hk hp, answerWork_bank, bank_setBank_same, opened_bank, hk]
  rfl

/-- The bank is OPEN or in CLOSE_WAIT after open completion (R11). -/
theorem completeOpen_phase : ((s.completeOpen b).bank b).phase ≠ .closed := by
  by_cases h : ∀ u, (s.bank b).upgrade = some u → (s.bank b).openKept.map (fun x => x.port) ≠ [u.port]
  · rw [completeOpen_bank_otherwise h]
    unfold BankRecord.afterOpening
    simp only []
    split <;> decide
  · push Not at h
    obtain ⟨u, hu, hmap⟩ := h
    obtain ⟨x, hx, hp⟩ := List.map_eq_singleton_iff.1 hmap
    rw [completeOpen_bank_alone hu hx hp]
    simp

/-- The answers to the port of a record, unless an upgrade of that port completes. -/
theorem completeOpen_replied (law : s.placeLaw) {x : HoldRecord} (hx : x ∈ (s.bank b).holds)
    (h : ∀ u, (s.bank b).upgrade = some u → u.port = x.port → (s.bank b).openKept.map (fun y => y.port) ≠ [u.port]) :
    s.RepliedTo (s.completeOpen b) x.port (s.openAnswers b x) := by
  rw [completeOpen_eq]
  refine opened_replied (sweep_openRecord_replied law hx) (completeUpgrade_others fun u hu hp => ?_)
  rw [opened_bank]
  exact h u ((opened_upgrade s b u).1 hu).1 hp

/-- The answers to the port of a record whose upgrade completes: that for the UPGRADE comes last (log 34). -/
theorem completeOpen_replied_alone (law : s.placeLaw) {x y : HoldRecord} {u : PendingUpgrade} (hx : x ∈ (s.bank b).holds)
    (hu : (s.bank b).upgrade = some u) (hk : (s.bank b).openKept = [y]) (hy : y.port = u.port) (hp : x.port = u.port) :
    s.RepliedTo (s.completeOpen b) x.port
      (s.openAnswers b x ++ [(u.tag, .granted b (s.bank b).openRow .exclusive)]) := by
  have opened : s.RepliedTo ((s.opened b).setBank b
      { (s.opened b).bank b with holds := [{ y with mode := .exclusive }], upgrade := none }) x.port (s.openAnswers b x) :=
    sweep_openRecord_replied law hx
  have upgraded := repliedTo_trans opened
    (answerWork_replied _ u.port u.tag (.granted b (s.bank b).openRow .exclusive) x.port)
  rwa [if_pos hp.symm, ← completeOpen_alone hu hk hy] at upgraded

theorem completeOpen_answers (p : Port) : ∃ es, s.RepliedTo (s.completeOpen b) p es := by
  obtain ⟨es, swept⟩ := sweep_openRecord_answers b p (s.bank b).holds s
  obtain ⟨fs, upgraded⟩ := completeUpgrade_answers (s.opened b) b p
  have opened : s.RepliedTo (s.opened b) p es := swept
  rw [completeOpen_eq]
  exact ⟨_, repliedTo_trans opened upgraded⟩

theorem completeOpen_bursts {queues : Four (List QueuedBurst)}
    (h : ∀ p, queues.get p = if (s.bank b).holds.any (fun x => x.port == p && x.releasing) = true then
        (s.burstQueue p).filter (fun y => y.bank != b)
      else s.burstQueue p) : (s.completeOpen b).bursts = { s.bursts with queues := queues } := by
  rw [completeOpen_eq, completeUpgrade_bursts, opened_bursts]
  obtain ⟨he, hl, hq⟩ := sweep_openRecord_bursts b (s.bank b).holds s
  have same : (sweep (openRecord b) (s.bank b).holds s).1.bursts.queues = queues :=
    four_ext fun p => (hq p).trans (h p).symm
  show _ = ({ queues := queues, executing := s.bursts.executing, lastServed := s.bursts.lastServed } : BurstEngine)
  rw [← he, ← hl, ← same]

/-! ## The end of the event, seen at one port -/

/-- What an ATTACHED session's link shows of an event that answers it. -/
theorem settle_replied_attached {t : State} {p : Port} {es : List (Tag × Answer)} (h : s.RepliedTo t p es)
    (hs : (s.session p).state = .attached) (hup : (s.link p).up = true) :
    (t.settle.link p).queue = (s.link p).queue ++ responses es := by
  have answerable : s.answerable p = true := by unfold State.answerable; rw [hs]
  obtain ⟨hl, hsession⟩ := h
  rw [if_pos answerable] at hl hsession
  rw [settle_attached (by rw [hsession]; exact hs), hl]
  simp [Link.answered, hup]

/-- What a DETACHING session's link and record show of an event that answers it with final answers. -/
theorem settle_replied_detaching {t : State} {p : Port} {d : Tag} {es : List (Tag × Answer)} (h : s.RepliedTo t p es)
    (hfinal : ∀ e ∈ es, e.2.tagAfter = .free) (hs : (s.session p).state = .detaching)
    (hd : (s.session p).detachTag = some d) (hup : (s.link p).up = true) :
    (t.settle.outstanding p = true →
        (t.settle.session p).state = .detaching ∧ (t.settle.link p).queue = (s.link p).queue ++ responses es)
      ∧ (t.settle.outstanding p = false →
          (∀ i, i ≠ d → (∀ y ∈ responses es, y.carriesTag i = false) → sixteenGet (s.session p).tags i = .free) →
          (t.settle.link p).queue = (s.link p).queue ++ responses es ++ [.response d (.ok .plain)]
            ∧ t.settle.session p = endedSession) := by
  have answerable : s.answerable p = true := by unfold State.answerable; rw [hs]
  obtain ⟨hl, hsession⟩ := h
  rw [if_pos answerable] at hl hsession
  have state : (t.session p).state = .detaching := by rw [hsession]; exact hs
  refine ⟨fun hout => ?_, fun hout hfree => ?_⟩
  · obtain ⟨hlink, hsame⟩ := settle_detaching_busy state hout
    rw [hlink, hsame, hl]
    exact ⟨state, by simp [Link.answered, hup]⟩
  · have free : ∀ i, i ≠ d → sixteenGet (t.session p).tags i = .free := by
      intro i hi
      rw [hsession, session_answered_tag i es _ hfinal]
      split
      · rfl
      · next hnone =>
        refine hfree i hi fun y hy => ?_
        obtain ⟨e, he, rfl⟩ := List.mem_map.1 hy
        simpa [OutEntry.carriesTag] using fun hc => hnone (List.any_eq_true.2 ⟨e, he, hc⟩)
    obtain ⟨hlink, hended⟩ := settle_detaching_done state (by rw [hsession]; exact hd) hout free
    rw [hlink, hended, hl]
    exact ⟨by simp [Link.answered, hup, responses], rfl⟩

theorem responses_append (es fs : List (Tag × Answer)) : responses (es ++ fs) = responses es ++ responses fs := List.map_append

theorem responses_openAnswers {x : HoldRecord} {ot : Tag} (h : x.openTag = some ot) : responses (s.openAnswers b x) =
    if x.releasing = true then
      .response ot .cancelled ::
        (((s.burstQueue x.port).filter (fun y => y.bank == b)).map (fun y => .response y.tag .cancelled)
          ++ x.closeTag.toList.map (fun ct => .response ct (.ok (.close false))))
    else if x.revokePending = true then [.response ot .revoked]
    else [.response ot (.granted b (s.bank b).openRow x.mode)] := by
  unfold State.openAnswers responses
  rw [h]
  split
  · simp [Function.comp_def]
  · split <;> rfl

end

/-! ## The obligation -/

/-- Settles O40: the bank by what `completeOpen` makes of it, the answers port by port, and the burst engine and the sessions by the
choices at the end of the event. -/
theorem openCompletionByMarks : Obligations.OpenCompletionByMarks := by
  intro s b kept hopening hkept
  have hkept : kept = ((s.reachBank b).bank b).openKept := hkept
  have notClosed : (((s.reachBank b).completeOpen b).bank b).phase ≠ .closed := completeOpen_phase
  have now : ((s.reachBank b).completeOpen b).settle.now = max s.now ((s.bank b).endsAt.getD s.now) := by
    rw [(settle_store _).1, (onlyHolds_keeps (completeOpen_holds _ b)).1]
    rfl
  have store := keepsStore_trans (keepsStore_of_holds (completeOpen_holds (s.reachBank b) b)) (settle_store _)
  obtain ⟨-, -, -, hquads, -, -, -, hconfig, -⟩ := onlyHolds_keeps (completeOpen_holds (s.reachBank b) b)
  refine ⟨((s.reachBank b).completeOpen b).settle, ?_, now, fun hu => ?_, fun u x hu hk hp => ?_, fun u hu hk => ?_,
    fun x ot law hx hot hother hs hup => ?_, fun u x ot law hu hk hx hp hot hs hup => ?_, fun queues hq => ?_, fun p hp => ?_,
    fun x ot d law hx hot hmarked hs hd hup answers hanswers => ?_, ⟨rfl, store.2⟩, ?_, ?_⟩
  · show execOpenCompletion b s = _
    unfold execOpenCompletion
    rw [if_pos hopening]
  · rw [settle_bank_of_not_closed notClosed, now,
      completeOpen_bank_otherwise (s := s.reachBank b) (fun u h => nomatch hu.symm.trans h), afterOpening_eq, ← hkept]
    simp [hu, reachBank_now]
  · rw [settle_bank_of_not_closed notClosed, now,
      completeOpen_bank_alone (s := s.reachBank b) hu (hkept ▸ hk) hp]
    rfl
  · rw [settle_bank_of_not_closed notClosed, now,
      completeOpen_bank_otherwise (s := s.reachBank b) (fun v hv => by
        obtain rfl := Option.some.inj (hu.symm.trans hv)
        exact hkept ▸ hk), afterOpening_eq, ← hkept]
    simp [hu, reachBank_now, Option.filter]
  · have replied := completeOpen_replied (s := s.reachBank b) law hx fun u hu hp => hkept ▸ hother u hu hp
    rw [settle_replied_attached replied hs hup, responses_openAnswers hot]
    cases x.closeTag <;> rfl
  · have replied := completeOpen_replied_alone (s := s.reachBank b) law hx hu (y := { x with openTag := none })
      (hkept ▸ hk) hp hp
    obtain ⟨z, -, hreleasing, hrevoke, hz⟩ := openKept_mem (r := s.bank b) (y := { x with openTag := none })
      (by rw [show (s.bank b).openKept = kept from hkept.symm, hk]; exact List.mem_cons_self)
    obtain ⟨hr, hv⟩ : x.releasing = false ∧ x.revokePending = false := by
      injection hz with _ _ hr hv
      exact ⟨hr ▸ hreleasing, hv ▸ hrevoke⟩
    rw [settle_replied_attached replied hs hup, responses_append, responses_openAnswers hot]
    simp only [hr, hv, Bool.false_eq_true, if_false]
    rfl
  · have engine := settle_engine ((s.reachBank b).completeOpen b)
    unfold State.engineGoesOn at engine ⊢
    rw [completeOpen_bursts (s := s.reachBank b) hq] at engine
    exact engine
  · obtain ⟨es, replied⟩ := completeOpen_answers (s := s.reachBank b) (b := b) p
    obtain ⟨hlink, hsession⟩ := repliedTo_teardown replied hp
    have torn := settle_teardown (s := (s.reachBank b).completeOpen b) (p := p) (by rw [hsession]; exact hp)
    rw [hlink, hsession] at torn
    exact torn
  · have replied := completeOpen_replied (s := s.reachBank b) law hx fun u hu hp hmap => by
      obtain ⟨y, hy, hport⟩ := List.map_eq_singleton_iff.1 hmap
      exact openKept_marked (s := s.reachBank b) law hx hmarked y (by rw [hy]; exact List.mem_cons_self) (hport.trans hp)
    have detaching := settle_replied_detaching replied (openAnswers_final _ b x) hs hd hup
    have same : answers = responses ((s.reachBank b).openAnswers b x) := by
      rw [hanswers, responses_openAnswers hot]
      by_cases hr : x.releasing = true
      · rw [if_pos hr, if_pos hr]
        cases x.closeTag <;> rfl
      · rw [if_neg hr, if_neg hr, if_pos (hmarked.resolve_left hr)]
    rw [same]
    exact detaching
  · rw [settle_quads, hquads]; rfl
  · rw [settle_config, hconfig]; rfl

end Sys2Proof.Machine
end
section
/-!
SUPPORT. The data-path arbiter and the acceptance of bursts: which port is chosen, the checks of a READ or WRITE in their order,
and what an accepted burst makes of its port's queue, record and pending upgrade (R40, R41, R53 to R58).
-/

namespace Sys2Proof.Machine

open Sys2Proof

/-! ## The data-path arbiter (R57, R58) -/

theorem arbiterChoice_busy {s : State} (h : s.bursts.executing ≠ none) : s.arbiterChoice = s := by
  unfold State.arbiterChoice
  split
  · rfl
  · next hn => exact absurd hn h

theorem arbiterChoice_no_candidate {s : State} (h : ∀ p, s.candidate p = none) : s.arbiterChoice = s := by
  have none_first : ∀ ports, s.firstCandidate ports = none := firstCandidate_none fun p b hb hopen =>
    nomatch (h p).symm.trans ((candidate_iff s p b).2 ⟨hb, hopen⟩)
  unfold State.arbiterChoice
  split
  · rfl
  · rw [none_first]

/-- On a free data path the first candidate in the cycle after the last served port begins. -/
theorem arbiterChoice_first {s : State} {n : Nat} {p : Port} {b : QueuedBurst} {rest : List QueuedBurst}
    (hfree : s.bursts.executing = none) (hn : n < 4) (hp : p.val = (s.bursts.lastServed.val + 1 + n) % 4)
    (hbefore : ∀ (k : Nat) (q : Port), k < n → q.val = (s.bursts.lastServed.val + 1 + k) % 4 → s.candidate q = none)
    (hq : s.burstQueue p = b :: rest) (hopen : (s.bank b.bank).phase = .opened) :
    s.arbiterChoice =
      { s with bursts :=
          { queues := s.bursts.queues.set p rest
            executing := some { burst := b, startedAt := s.now, results := [], cut := none }
            lastServed := p } } := by
  obtain ⟨hsplit, hcycle⟩ := cycleAfter_split s.bursts.lastServed p n hn hp
  have chosen : s.candidate p = some b := (candidate_iff s p b).2 ⟨by rw [hq]; rfl, hopen⟩
  have first := firstCandidate_append ((cycleAfter s.bursts.lastServed).drop (n + 1)) chosen
    ((cycleAfter s.bursts.lastServed).take n) fun q hm => by
      obtain ⟨k, hk, hval⟩ := hcycle q hm
      exact hbefore k q hk hval
  rw [← hsplit] at first
  unfold State.arbiterChoice
  rw [hfree, first]
  simp [State.startBurst, hq]

/-- Settles O35: the cycle of the ports is split at the chosen one, before which no port is a candidate. -/
theorem dataPathArbiterChoosesRoundRobin : Obligations.DataPathArbiterChoosesRoundRobin := by
  refine fun s => ⟨fun p b => ?_, arbiterChoice_busy, arbiterChoice_no_candidate,
    fun _ _ _ _ hfree hn hp hbefore hq hopen => arbiterChoice_first hfree hn hp hbefore hq hopen⟩
  rw [candidate_iff, List.head?_eq_some_iff]
  exact ⟨fun ⟨⟨rest, hq⟩, hopen⟩ => ⟨rest, hq, hopen⟩, fun ⟨rest, hq, hopen⟩ => ⟨⟨rest, hq⟩, hopen⟩⟩

/-! ## READ and WRITE as the burst engine decides them (R41, R54) -/

/-- The command is a READ or a WRITE with these operands; a READ carries no data. -/
def IsBurst (c : Instr) (h : Header) (bank column units : Byte) (ac : Bool) (kind : BurstKind) (data : List WriteUnit) : Prop :=
  (c = .read h bank column units ac ∧ kind = .read ∧ data = [])
    ∨ (c = .write h bank column units ac data ∧ kind = .write)

section
variable {s : State} {c : Instr} {h : Header} {bank column units : Byte} {ac : Bool} {kind : BurstKind} {data : List WriteUnit}
  {b : Bank}

/-- A good READ or WRITE of an ATTACHED session comes to the burst engine. -/
theorem burst_exec (hc : IsBurst c h bank column units ac kind data) (hh : s.hears h)
    (hs : (s.session h.port).state = .attached) (hwf : c.wf = true) :
    exec c s = .next ((s.taken h).acceptBurst h.port h.tag kind bank column units ac data) := by
  have attached : ((s.taken h).session h.port).state ≠ .none := by rw [taken_session_state, hs]; decide
  have dispatched (k : BurstKind) (d : List WriteUnit) : (s.taken h).requestBurst h.port h.tag k bank column units ac d =
      (s.taken h).acceptBurst h.port h.tag k bank column units ac d := by
    unfold State.requestBurst State.unlessNone
    rw [if_neg attached]
  rcases hc with ⟨rfl, rfl, rfl⟩ | ⟨rfl, rfl⟩
  · show Host.Outcome.next (s.request h (.read bank column units ac)) = _
    rw [request_taken hh rfl (by simp), ← dispatched]
    rfl
  · show Host.Outcome.next (s.request h (.write bank column units ac data)) = _
    rw [request_taken (r := .write bank column units ac data) hh hwf (by simp), ← dispatched]
    rfl

theorem bankOf_none (h : 16 ≤ bank.toNat) : bankOf bank = none := dif_neg (by omega)

theorem burstBounds_iff : burstBounds column units = true ↔
    1 ≤ units.toNat ∧ units.toNat ≤ 8 ∧ column.toNat + units.toNat ≤ 128 := by
  simp only [burstBounds, Bool.and_eq_true, decide_eq_true_eq, and_assoc]

theorem unmarked_iff (x : HoldRecord) : x.unmarked = true ↔ x.releasing = false ∧ x.revokePending = false := by
  simp only [HoldRecord.unmarked, Bool.and_eq_true, Bool.not_eq_true']

/-- Checks 1 and 2 of R54: the bank, the units and the column are in their bounds. -/
theorem burstRefusal_bounds (hs : (s.session h.port).state = .attached)
    (hout : 16 ≤ bank.toNat ∨ units.toNat = 0 ∨ 8 < units.toNat ∨ 128 < column.toNat + units.toNat) :
    (s.taken h).burstRefusal h.port kind (bankOf bank) column units = some .bounds := by
  unfold State.burstRefusal
  rw [if_neg (by rw [taken_session_state, hs]; decide)]
  rcases hout with hbank | hout
  · rw [bankOf_none hbank]
  · have outside : burstBounds column units = false := by
      rw [Bool.eq_false_iff, ne_eq, burstBounds_iff]
      omega
    split
    · rfl
    · simp [outside]

/-- Check 3 of R54 for a port without a record on the bank (R41). -/
theorem burstRefusal_without_record (hs : (s.session h.port).state = .attached) (hin : burstBounds column units = true)
    (hx : (s.bank b).recordOf h.port = none) :
    (s.taken h).burstRefusal h.port kind (some b) column units = some .notHeld := by
  unfold State.burstRefusal
  rw [if_neg (by rw [taken_session_state, hs]; decide)]
  simp [hin, hx]

/-- Past the bounds, the marks and the mode of the port's record decide, and then the room in its queue (R41, R54). -/
theorem burstRefusal_with_record {x : HoldRecord} (hs : (s.session h.port).state = .attached)
    (hin : burstBounds column units = true) (hx : (s.bank b).recordOf h.port = some x) :
    (s.taken h).burstRefusal h.port kind (some b) column units =
      if !x.unmarked then some .notHeld
      else if kind = .write ∧ x.mode = .shared then some .notExclusive
      else if (s.burstQueue h.port).length < burstQueueLimit then none
      else some .burstFull := by
  unfold State.burstRefusal
  rw [if_neg (by rw [taken_session_state, hs]; decide)]
  refine (if_neg (by simp [hin])).trans ?_
  split
  · next hnone => cases hx.symm.trans hnone
  · next y hy =>
    obtain rfl := Option.some.inj (hx.symm.trans hy)
    rfl

theorem acceptBurst_refused {reason : Reason}
    (hr : (s.taken h).burstRefusal h.port kind (bankOf bank) column units = some reason) (hh : s.hears h) :
    (s.taken h).acceptBurst h.port h.tag kind bank column units ac data = s.answered h false (.refused reason) := by
  unfold State.acceptBurst
  rw [hr]
  exact taken_answer hh rfl

end

/-- Settles O33: each check is one branch of `burstRefusal`, and a refusal is the answer alone. -/
theorem burstChecksInOrder : Obligations.BurstChecksInOrder := by
  intro s h bank column units ac data c hh hs hwf hc
  obtain ⟨kind, carried, isBurst, hkind⟩ : ∃ kind carried, IsBurst c h bank column units ac kind carried
      ∧ (kind = .write ↔ c = .write h bank column units ac data) := by
    rcases hc with rfl | rfl
    · exact ⟨.read, [], Or.inl ⟨rfl, rfl, rfl⟩, by simp⟩
    · exact ⟨.write, data, Or.inr ⟨rfl, rfl⟩, by simp⟩
  have refused {reason : Reason} (hr : (s.taken h).burstRefusal h.port kind (bankOf bank) column units = some reason) :
      exec c s = .next (s.answered h false (.refused reason)) := by
    rw [burst_exec isBurst hh hs hwf, acceptBurst_refused hr hh]
  refine ⟨fun hout => refused (burstRefusal_bounds hs hout), fun b hb hone height hfit => ?_⟩
  have inside : burstBounds column units = true := burstBounds_iff.2 ⟨hone, height, hfit⟩
  refine ⟨fun hnone => refused (by rw [hb, burstRefusal_without_record hs inside hnone]), fun x hx => ?_⟩
  have checks := burstRefusal_with_record (kind := kind) hs inside hx
  rw [← hb] at checks
  refine ⟨fun hmarked => ?_, fun hr hv => ⟨fun hw hshared => ?_, fun hmode hfull => ?_⟩⟩
  · have marked : x.unmarked = false := by
      rw [Bool.eq_false_iff, ne_eq, unmarked_iff]
      rcases hmarked with hm | hm <;> simp [hm]
    exact refused (by rw [checks]; simp [marked])
  · exact refused (by rw [checks]; simp [(unmarked_iff x).2 ⟨hr, hv⟩, hkind.2 hw, hshared])
  · have allowed : ¬ (kind = .write ∧ x.mode = .shared) := by
      rintro ⟨hk, hshared⟩
      rcases hmode with hread | hex
      · cases hread.symm.trans (hkind.1 hk)
      · cases hshared.symm.trans hex
    have full : ¬ (s.burstQueue h.port).length < burstQueueLimit := by unfold burstQueueLimit; omega
    exact refused (by rw [checks]; simp [(unmarked_iff x).2 ⟨hr, hv⟩, allowed, full])

/-! ## Acceptance (R40, R53, R55) -/

theorem openRow_of_row {r : BankRecord} {row : Row} (h : r.row = some row) : r.openRow = row := by
  unfold BankRecord.openRow
  rw [h]
  rfl

/-- The burst that a READ or WRITE asks for, on the row that the bank has open (R53). -/
def State.burstOf (s : State) (h : Header) (kind : BurstKind) (b : Bank) (column units : Byte) (ac : Bool)
    (data : List WriteUnit) : QueuedBurst :=
  { port := h.port, tag := h.tag, kind := kind, bank := b, row := (s.bank b).openRow, column := column.toNat
    units := units.toNat, autoClose := ac, data := data }

/-- The state after a request has been taken and its burst queued. -/
def State.queuedFor (s : State) (h : Header) (burst : QueuedBurst) : State :=
  (s.taken h).setBurstQueue h.port (s.burstQueue h.port ++ [burst])

@[simp] theorem queuedFor_bank (s : State) (h : Header) (burst : QueuedBurst) (b : Bank) :
    (s.queuedFor h burst).bank b = s.bank b := rfl

@[simp] theorem queuedFor_link (s : State) (h : Header) (burst : QueuedBurst) :
    (s.queuedFor h burst).link h.port = { s.link h.port with expectedSeq := (s.link h.port).expectedSeq + 1 } := by
  simp [State.queuedFor, State.taken]

@[simp] theorem queuedFor_session (s : State) (h : Header) (burst : QueuedBurst) : (s.queuedFor h burst).session h.port =
    { s.session h.port with idleVote := false, tags := sixteenSet (s.session h.port).tags h.tag .busy } := by
  simp [State.queuedFor, State.taken]

theorem acceptBurst_accepted {s : State} {h : Header} {bank column units : Byte} {ac : Bool} {kind : BurstKind}
    {data : List WriteUnit} {b : Bank} (hb : bankOf bank = some b)
    (hr : (s.taken h).burstRefusal h.port kind (some b) column units = none) :
    (s.taken h).acceptBurst h.port h.tag kind bank column units ac data =
      (if ac then (s.queuedFor h (s.burstOf h kind b column units ac data)).autoClose b h.port
        else s.queuedFor h (s.burstOf h kind b column units ac data)).arbiterChoice := by
  unfold State.acceptBurst
  rw [hb, hr]
  rfl

/-- Auto-close of a port that has no upgrade pending on the bank marks its record, and no more (R40). -/
theorem autoClose_without_upgrade {s : State} {b : Bank} {p : Port} (h : s.upgradeOn p b = false) :
    s.autoClose b p = s.markRecord b p HoldRecord.release := by
  unfold State.autoClose State.dropUpgrade State.markRecord
  unfold State.upgradeOn at h
  rw [bank_setBank_same]
  simp only [BankRecord.updRecord]
  split
  · next u hu =>
    rw [hu] at h
    rw [if_neg (by simpa using h)]
  · rfl

/-- What an answer makes of an ATTACHED session and its link, UP (R127, R138). -/
theorem answerWork_attached {s : State} {p : Port} (t : Tag) (a : Answer) (hs : (s.session p).state = .attached)
    (hup : (s.link p).up = true) :
    s.answerWork p t a =
      (s.setLink p { s.link p with queue := (s.link p).queue ++ [.response t a] }).setSession p
        { s.session p with tags := sixteenSet (s.session p).tags t a.tagAfter } := by
  have answerable : s.answerable p = true := by unfold State.answerable; rw [hs]
  unfold State.answerWork State.answer State.enqueue
  rw [if_pos answerable, setTag_link, if_pos hup, placeEntry_response]
  rfl

/-- Auto-close of the port whose upgrade pends on the bank also removes the upgrade and answers it CANCELLED (R40, R45). -/
theorem autoClose_with_upgrade {s : State} {b : Bank} {u : PendingUpgrade} (hu : (s.bank b).upgrade = some u)
    (hs : (s.session u.port).state = .attached) (hup : (s.link u.port).up = true) :
    s.autoClose b u.port =
      (((s.setBank b
          { s.bank b with
            upgrade := none
            holds := (s.bank b).holds.map (fun y => if y.port = u.port then { y with releasing := true } else y) }).setLink u.port
        { s.link u.port with queue := (s.link u.port).queue ++ [.response u.tag .cancelled] }).setSession u.port
        { s.session u.port with tags := sixteenSet (s.session u.port).tags u.tag .free }) := by
  unfold State.autoClose State.dropUpgrade State.markRecord
  rw [bank_setBank_same]
  simp only [BankRecord.updRecord, hu, if_true, setBank_setBank]
  exact answerWork_attached (s := s.setBank b _) u.tag .cancelled hs hup

/-- Settles O34: the checks pass, the burst is queued, auto-close treats the record and its upgrade, and the arbiter chooses. -/
theorem acceptedBurstJoinsItsQueue : Obligations.AcceptedBurstJoinsItsQueue := by
  intro s h bank column units ac data c kind b r x burst hh hs hwf hc hb hrow hone height hfit hx hrel hrev hroom hburst
  have isBurst : IsBurst c h bank column units ac kind data :=
    hc.imp_right fun ⟨e, hk, _⟩ => ⟨e, hk⟩
  have allowed : ¬ (kind = .write ∧ x.mode = .shared) := by
    rintro ⟨hw, hshared⟩
    rcases hc with ⟨-, hread, -⟩ | ⟨-, -, hex⟩
    · cases hread.symm.trans hw
    · cases hshared.symm.trans hex
  have passed : (s.taken h).burstRefusal h.port kind (some b) column units = none := by
    rw [burstRefusal_with_record hs (burstBounds_iff.2 ⟨hone, height, hfit⟩) hx]
    simp [(unmarked_iff x).2 ⟨hrel, hrev⟩, allowed, show (s.burstQueue h.port).length < burstQueueLimit from hroom]
  have same : s.burstOf h kind b column units ac data = burst := by
    rw [hburst, State.burstOf, openRow_of_row hrow]
  have accepted := burst_exec isBurst hh hs hwf
  rw [acceptBurst_accepted hb passed, same] at accepted
  refine ⟨fun hac => ?_, fun hac hno => ?_, fun u hac hu hport => ?_, fun hac hidle hempty hopen => ?_⟩
  · rw [accepted, hac]
    rfl
  · rw [accepted, hac, if_pos rfl, autoClose_without_upgrade (s := s.queuedFor h burst) hno]
    rfl
  · have closed := autoClose_with_upgrade (s := s.queuedFor h burst) (b := b) hu (by rw [hport]; simpa using hs)
      (by rw [hport]; simpa using hh.2.1)
    rw [hport] at closed
    rw [accepted, hac, if_pos rfl, closed]
    simp only [queuedFor_link, queuedFor_session, queuedFor_bank]
    rfl
  · have alone (q : Port) (hq : q ≠ h.port) : (s.queuedFor h burst).candidate q = none := by
      refine Option.eq_none_iff_forall_ne_some.2 fun y hy => ?_
      have head := ((candidate_iff _ q y).1 hy).1
      rw [State.queuedFor, burstQueue_setBurstQueue_ne _ _ hq, taken_burstQueue, hempty] at head
      cases head
    have turn : ∀ last p : Port, ∃ n < 4, p.val = (last.val + 1 + n) % 4
        ∧ ∀ k < n, ∀ q : Port, q.val = (last.val + 1 + k) % 4 → q ≠ p := by decide
    obtain ⟨n, hn, hp, hbefore⟩ := turn s.bursts.lastServed h.port
    have onBank : burst.bank = b := by rw [hburst]
    have chosen := arbiterChoice_first (s := s.queuedFor h burst) (p := h.port) (b := burst) (rest := []) hidle hn hp
      (fun k q hk hq => alone q (hbefore k hk q hq)) (by simp [State.queuedFor, hempty]) (by rw [onBank]; exact hopen)
    have queues : (s.queuedFor h burst).bursts.queues.set h.port [] = s.bursts.queues := by
      show (s.bursts.queues.set h.port _).set h.port [] = _
      rw [four_set_set, ← hempty h.port]
      exact four_set_get _ _
    rw [accepted, hac, if_neg (by decide), chosen, queues]
    rfl

end Sys2Proof.Machine
end
section
/-!
SUPPORT. The step of one unit of a burst: what it leaves alone, what it makes of the array and the integrity unit by the unit's
classification, and the merge of a partial unit byte by byte (R59, R60, R62 to R64, R102, R106, R107, R110).
-/

namespace Sys2Proof.Machine

open Sys2Proof

/-! ## The merge of a partial unit (R63) -/

theorem unitByte_joinUnit (l : List Byte) {i : Nat} (hi : i < 8) : unitByte (joinUnit l) i = l.getD i 0 := by
  unfold unitByte joinUnit
  ext j hj
  rw [BitVec.getElem_extractLsb', ← BitVec.getLsbD_eq_getElem hj]
  simp only [BitVec.getLsbD_append]
  interval_cases i
  all_goals
    simp (disch := omega) only [if_pos, if_neg]
    congr 1
    omega

theorem unitByte_and (x y : UnitData) (i : Nat) : unitByte (x &&& y) i = unitByte x i &&& unitByte y i := by
  unfold unitByte
  ext j hj
  simp

theorem unitByte_or (x y : UnitData) (i : Nat) : unitByte (x ||| y) i = unitByte x i ||| unitByte y i := by
  unfold unitByte
  ext j hj
  simp

theorem unitByte_not (x : UnitData) {i : Nat} (hi : i < 8) : unitByte (~~~ x) i = ~~~ unitByte x i := by
  unfold unitByte
  ext j hj
  have inside : 8 * i + j < 64 := by omega
  simp [inside]

theorem unitByte_maskBits (m : BitVec 8) {i : Nat} (hi : i < 8) :
    unitByte (maskBits m) i = if m.getLsbD i then 0xFF else 0 := by
  unfold maskBits
  simp only []
  rw [unitByte_joinUnit _ hi]
  interval_cases i <;> rfl

/-- The model's merge, by whole words, is the rule's, byte by byte. -/
theorem merged_mergeUnit (m : BitVec 8) (new old : UnitData) : merged m new old (mergeUnit m new old) := by
  intro i hi
  unfold mergeUnit
  rw [unitByte_or, unitByte_and, unitByte_and, unitByte_not _ hi, unitByte_maskBits m hi]
  have all (x : Byte) : x &&& 255#8 = x := BitVec.and_allOnes
  cases m.getLsbD i <;> simp [all]

/-! ## Writes, counts and detections -/

theorem unit_writeUnit_ne {a : ArrayState} (h : a.wf = true) (d : UnitData) {u v : Nat} (hv : v ≠ u) :
    (a.writeUnit u d).unit v = a.unit v := by
  unfold ArrayState.unit
  rw [writtenData_writeUnit h, changedData_writeUnit h, changedCheck_writeUnit h, if_neg hv, if_neg hv, if_neg hv]

theorem wroteUnit_writeUnit {a : ArrayState} (h : a.wf = true) (u : Nat) (d : UnitData) :
    a.wroteUnit (a.writeUnit u d) u d := by
  refine ⟨classify_writeUnit h u d, fun v => ⟨storedData_writeUnit h u v d, fun hv => ?_⟩⟩
  unfold ArrayState.classify
  rw [unit_writeUnit_ne h d hv]

theorem countedUp_countCorrected (s : State) (b : Bank) : countedUp s.integrity (s.countCorrected b).integrity b :=
  ⟨rfl, fun c => sixteen_get_set _ b c _⟩

/-- A detection changes the integrity unit alone. -/
theorem detect_frame (s : State) (e : FaultEntry) : s.detect e = { s with integrity := detectedIn s.integrity e } := by
  unfold State.detect State.listed detectedIn faultListLimit
  split
  · rfl
  · split <;> rfl

/-! ## What the step of a unit leaves alone -/

/-- At most the array, the integrity unit and the model's own marks differ. -/
def State.OnlyUnits (s t : State) : Prop := t = { s with array := t.array, integrity := t.integrity, marks := t.marks }

theorem unitStep_onlyUnits (s : State) (x : QueuedBurst) (k : Nat) : s.OnlyUnits (s.unitStep x k).1 := by
  have detected (e : FaultEntry) : s.OnlyUnits (s.detect e) := by
    unfold State.OnlyUnits
    rw [detect_frame]
  unfold State.unitStep
  split
  · unfold State.readUnitStep
    simp only []
    split
    · rfl
    · rfl
    · exact detected _
  · unfold State.writeUnitStep
    split
    · rfl
    · split
      · rfl
      · unfold State.partialWriteStep
        simp only []
        split
        · rfl
        · split
          · rfl
          · rfl
          · exact detected _

/-- The step of the next unit at its end, with everything that it leaves alone. -/
theorem stepNextUnit_frame (s : State) (e : Execution) (ends : Nat) :
    (s.reach ends).stepNextUnit e =
      { s with
        now := max s.now ends
        array := ((s.reach ends).unitStep e.burst e.results.length).1.array
        integrity := ((s.reach ends).unitStep e.burst e.results.length).1.integrity
        marks := ((s.reach ends).unitStep e.burst e.results.length).1.marks
        bursts := { s.bursts with
          executing := some { e with results := e.results ++ [((s.reach ends).unitStep e.burst e.results.length).2] } } } := by
  have frame := unitStep_onlyUnits (s.reach ends) e.burst e.results.length
  unfold State.OnlyUnits at frame
  unfold State.stepNextUnit State.setExecuting
  simp only []
  rw [frame]
  rfl

theorem nextUnitEnds_eq (e : Execution) : e.nextUnitEnds = e.startedAt + 16 + 5 * (e.results.length + 1) := by
  simp only [Execution.nextUnitEnds, Execution.nextUnitBegins, burstLeadTime, unitStepTime]
  omega

theorem burstUnitStep_exec {s : State} {e : Execution} (he : s.bursts.executing = some e) (hcut : e.cut = none)
    (hleft : 0 < e.unitsLeft) : exec .burstUnitStep s = .next ((s.reach e.nextUnitEnds).stepNextUnit e) := by
  show execBurstUnitStep s = _
  unfold execBurstUnitStep
  simp only [he]
  rw [if_pos ⟨by rw [hcut]; rfl, hleft⟩]

/-! ## The step of a READ unit, by its classification (R60) -/

section
variable {s : State} {x : QueuedBurst} {column : Nat}

theorem readUnitStep_clean (h : s.array.classify (unitIndex x.bank x.row column) = .clean) :
    s.readUnitStep x column = (s, ⟨s.array.storedData (unitIndex x.bank x.row column), .ok⟩) := by
  unfold State.readUnitStep
  simp only [h]

theorem readUnitStep_correctable {d : UnitData} (h : s.array.classify (unitIndex x.bank x.row column) = .correctable d) :
    s.readUnitStep x column =
      ((s.rewriteUnit (unitIndex x.bank x.row column) d).countCorrected x.bank, ⟨d, .corrected⟩) := by
  unfold State.readUnitStep
  simp only [h]

theorem readUnitStep_uncorrectable (h : s.array.classify (unitIndex x.bank x.row column) = .uncorrectable) :
    s.readUnitStep x column =
      ({ s with
          integrity := detectedIn s.integrity
            { bank := x.bank, row := x.row, column := column, port := x.port, kind := .read } },
        ⟨s.array.storedData (unitIndex x.bank x.row column), .poisoned⟩) := by
  unfold State.readUnitStep
  simp only [h, detect_frame]

/-! ## The step of a WRITE unit, by its mask (R62 to R64) -/

variable {w : WriteUnit}

theorem writeUnitStep_full (h : w.mask = 0xFF) : s.writeUnitStep x column w = s.fullWriteStep x column w := by
  unfold State.writeUnitStep
  rw [if_pos h]

theorem writeUnitStep_empty (h : w.mask = 0) : s.writeUnitStep x column w = (s, ⟨0, .unchanged⟩) := by
  unfold State.writeUnitStep
  rw [if_neg (by rw [h]; decide), if_pos h]

theorem writeUnitStep_listed (hfull : w.mask ≠ 0xFF) (hempty : w.mask ≠ 0) (h : s.listed x.bank x.row column = true) :
    s.writeUnitStep x column w = (s, ⟨0, .poisoned⟩) := by
  unfold State.writeUnitStep State.partialWriteStep
  rw [if_neg hfull, if_neg hempty]
  simp only [h, if_true]

section
variable (hfull : w.mask ≠ 0xFF) (hempty : w.mask ≠ 0) (hlisted : s.listed x.bank x.row column = false)
include hfull hempty hlisted

/-- A partial mask on a unit that is not listed: its merge read decides (R63). -/
theorem writeUnitStep_merge_clean (h : s.array.classify (unitIndex x.bank x.row column) = .clean) :
    s.writeUnitStep x column w =
      (s.writeUnit (unitIndex x.bank x.row column)
        (mergeUnit w.mask w.data (s.array.storedData (unitIndex x.bank x.row column))), ⟨0, .written⟩) := by
  unfold State.writeUnitStep State.partialWriteStep
  rw [if_neg hfull, if_neg hempty]
  simp only [hlisted, Bool.false_eq_true, if_false, h]

theorem writeUnitStep_merge_correctable {d : UnitData}
    (h : s.array.classify (unitIndex x.bank x.row column) = .correctable d) :
    s.writeUnitStep x column w =
      ((s.rewriteUnit (unitIndex x.bank x.row column) (mergeUnit w.mask w.data d)).countCorrected x.bank, ⟨0, .written⟩) := by
  unfold State.writeUnitStep State.partialWriteStep
  rw [if_neg hfull, if_neg hempty]
  simp only [hlisted, Bool.false_eq_true, if_false, h]

theorem writeUnitStep_merge_uncorrectable (h : s.array.classify (unitIndex x.bank x.row column) = .uncorrectable) :
    s.writeUnitStep x column w =
      ({ s with
          integrity := detectedIn s.integrity
            { bank := x.bank, row := x.row, column := column, port := x.port, kind := .merge } }, ⟨0, .poisoned⟩) := by
  unfold State.writeUnitStep State.partialWriteStep
  rw [if_neg hfull, if_neg hempty]
  simp only [hlisted, Bool.false_eq_true, if_false, h, detect_frame]

end

end

/-! ## The obligations -/

theorem unitsLeft_pos {e : Execution} (h : e.results.length < e.burst.units) : 0 < e.unitsLeft := by
  unfold Execution.unitsLeft
  omega

/-- Settles O36: the frame of a unit's step, and its three outcomes by the classification of the unit. -/
theorem readUnitStepByClassification : Obligations.ReadUnitStepByClassification := by
  rintro s e c u law he hcut hkind hleft rfl rfl
  have step : (s.reach e.nextUnitEnds).unitStep e.burst e.results.length =
      (s.reach e.nextUnitEnds).readUnitStep e.burst (e.burst.column + e.results.length) := by
    unfold State.unitStep
    rw [hkind]
  have ran := burstUnitStep_exec he hcut (unitsLeft_pos hleft)
  rw [stepNextUnit_frame, step, nextUnitEnds_eq] at ran
  refine ⟨_, _, ran, rfl, ?_⟩
  cases hclass : s.array.classify (unitIndex e.burst.bank e.burst.row (e.burst.column + e.results.length)) with
  | clean =>
    rw [readUnitStep_clean (s := s.reach _) hclass]
    exact ⟨rfl, fun _ => ⟨rfl, rfl, rfl⟩, fun _ h => (nomatch h), fun h => (nomatch h)⟩
  | correctable d =>
    rw [readUnitStep_correctable (s := s.reach _) hclass]
    refine ⟨rfl, fun h => (nomatch h), fun d' h => ?_, fun h => (nomatch h)⟩
    obtain rfl := Verdict.correctable.inj h
    exact ⟨rfl, wroteUnit_writeUnit law _ d, countedUp_countCorrected s e.burst.bank⟩
  | uncorrectable =>
    rw [readUnitStep_uncorrectable (s := s.reach _) hclass]
    exact ⟨rfl, fun h => (nomatch h), fun _ h => (nomatch h), fun _ => ⟨rfl, rfl, rfl⟩⟩

/-- Settles O37: the frame of a unit's step, and its outcomes by the mask, the fault unit list and the merge read. -/
theorem writeUnitStepByMask : Obligations.WriteUnitStepByMask := by
  rintro s e w c u law he hcut hkind hleft hdata rfl rfl
  have step : (s.reach e.nextUnitEnds).unitStep e.burst e.results.length =
      (s.reach e.nextUnitEnds).writeUnitStep e.burst (e.burst.column + e.results.length) w := by
    unfold State.unitStep
    rw [hkind]
    simp only [List.getD_eq_getElem?_getD, hdata, Option.getD_some]
  have ran := burstUnitStep_exec he hcut (unitsLeft_pos hleft)
  rw [stepNextUnit_frame, step, nextUnitEnds_eq] at ran
  by_cases hfull : w.mask = 0xFF
  · rw [writeUnitStep_full hfull] at ran
    refine ⟨_, .written, ran, rfl, Or.inl rfl, fun _ => ⟨rfl, wroteUnit_writeUnit law _ w.data, rfl⟩, fun h => ?_,
      fun h => absurd hfull h⟩
    rw [hfull] at h
    cases h
  by_cases hempty : w.mask = 0
  · rw [writeUnitStep_empty hempty] at ran
    exact ⟨_, .unchanged, ran, rfl, Or.inl rfl, fun h => absurd h hfull, fun _ => ⟨rfl, rfl, rfl⟩,
      fun _ h => absurd hempty h⟩
  cases hlisted : s.listed e.burst.bank e.burst.row (e.burst.column + e.results.length) with
  | true =>
    rw [writeUnitStep_listed (s := s.reach _) hfull hempty hlisted] at ran
    exact ⟨_, .poisoned, ran, rfl, Or.inl rfl, fun h => absurd h hfull, fun h => absurd h hempty,
      fun _ _ => ⟨fun _ => ⟨rfl, rfl, rfl⟩, fun h => (nomatch h)⟩⟩
  | false =>
    cases hclass : s.array.classify (unitIndex e.burst.bank e.burst.row (e.burst.column + e.results.length)) with
    | clean =>
      rw [writeUnitStep_merge_clean (s := s.reach _) hfull hempty hlisted hclass] at ran
      refine ⟨_, .written, ran, rfl, Or.inl rfl, fun h => absurd h hfull, fun h => absurd h hempty,
        fun _ _ => ⟨fun h => (nomatch h), fun _ => ⟨fun _ => ⟨rfl, rfl, ?_⟩, fun _ h => (nomatch h), fun h => (nomatch h)⟩⟩⟩
      exact ⟨_, merged_mergeUnit w.mask w.data _, wroteUnit_writeUnit law _ _⟩
    | correctable d =>
      rw [writeUnitStep_merge_correctable (s := s.reach _) hfull hempty hlisted hclass] at ran
      refine ⟨_, .written, ran, rfl, Or.inr rfl, fun h => absurd h hfull, fun h => absurd h hempty,
        fun _ _ => ⟨fun h => (nomatch h), fun _ => ⟨fun h => (nomatch h), fun d' h => ?_, fun h => (nomatch h)⟩⟩⟩
      obtain rfl := Verdict.correctable.inj h
      exact ⟨rfl, countedUp_countCorrected s e.burst.bank, rfl, _, merged_mergeUnit w.mask w.data d,
        wroteUnit_writeUnit law _ _⟩
    | uncorrectable =>
      rw [writeUnitStep_merge_uncorrectable (s := s.reach _) hfull hempty hlisted hclass] at ran
      exact ⟨_, .poisoned, ran, rfl, Or.inl rfl, fun h => absurd h hfull, fun h => absurd h hempty,
        fun _ _ => ⟨fun h => (nomatch h), fun _ => ⟨fun h => (nomatch h), fun _ h => (nomatch h), fun _ => ⟨rfl, rfl, rfl⟩⟩⟩⟩

end Sys2Proof.Machine
end
section
/-!
SUPPORT. The leaving of a record at the end of its port's burst: what becomes of its bank and of a pending upgrade, what the port is
answered, and the end of the event (R13, R38, R44, R48, R65, R69).
-/

namespace Sys2Proof.Machine

open Sys2Proof

/-! ## A record leaves its bank (R13, R44) -/

section
variable {s : State} {b : Bank} {p : Port}

/-- While other records are left, an upgrade may complete. -/
theorem leaveBank_others (h : (s.bank b).holds.filter (fun y => y.port != p) ≠ []) :
    s.leaveBank b p = (s.setBank b ((s.bank b).dropRecord p)).completeUpgrade b := by
  unfold State.leaveBank State.afterLeaving
  rw [bank_setBank_same]
  exact if_neg (mt List.isEmpty_iff.1 h)

/-- The leaving of the last record of a bank that is not OPEN does nothing more. -/
theorem leaveBank_last_shut (hlast : (s.bank b).holds.filter (fun y => y.port != p) = []) (h : (s.bank b).phase ≠ .opened) :
    s.leaveBank b p = s.setBank b ((s.bank b).dropRecord p) := by
  unfold State.leaveBank State.afterLeaving
  rw [bank_setBank_same]
  exact (if_pos (List.isEmpty_iff.2 hlast)).trans (if_neg h)

/-- The leaving of the last record of an OPEN bank (R13). -/
theorem leaveBank_last (hlast : (s.bank b).holds.filter (fun y => y.port != p) = []) (h : (s.bank b).phase = .opened) :
    s.leaveBank b p = s.setBank b
      (if (s.bank b).dwellExpired = some true then
        { s.bank b with holds := [], upgrade := none, phase := .closing, endsAt := some (s.now + 28) }
      else { s.bank b with holds := [], upgrade := none, phase := .closeWait }) := by
  unfold State.leaveBank State.afterLeaving
  rw [bank_setBank_same]
  refine (if_pos (List.isEmpty_iff.2 hlast)).trans ((if_pos h).trans ?_)
  rw [setBank_setBank]
  unfold BankRecord.dropRecord
  rw [hlast]
  rfl

/-- The upgrade of the only record that is left completes (R44). -/
theorem leaveBank_upgrade {u : PendingUpgrade} {y : HoldRecord} (hu : (s.bank b).upgrade = some u)
    (hy : (s.bank b).holds.filter (fun y => y.port != p) = [y]) (hp : y.port = u.port) :
    s.leaveBank b p =
      (s.setBank b { s.bank b with holds := [{ y with mode := .exclusive }], upgrade := none }).answerWork u.port u.tag
        (.granted b (s.bank b).openRow .exclusive) := by
  rw [leaveBank_others (by rw [hy]; simp), completeUpgrade_alone (u := u) (h := y)
    (by rw [bank_setBank_same]; exact hu) (by rw [bank_setBank_same]; exact hy) hp, setBank_setBank, bank_setBank_same]
  rfl

/-- While other records are left and no upgrade completes, the record is all that goes. -/
theorem leaveBank_stays (h : (s.bank b).holds.filter (fun y => y.port != p) ≠ [])
    (hu : ∀ u, (s.bank b).upgrade = some u →
      ((s.bank b).holds.filter (fun y => y.port != p)).map (fun y => y.port) ≠ [u.port]) :
    s.leaveBank b p = s.setBank b ((s.bank b).dropRecord p) := by
  rw [leaveBank_others h, completeUpgrade_otherwise]
  rw [bank_setBank_same]
  exact hu

theorem leaveBank_bursts (s : State) (b : Bank) (p : Port) : (s.leaveBank b p).bursts = s.bursts := by
  by_cases hlast : (s.bank b).holds.filter (fun y => y.port != p) = []
  · by_cases h : (s.bank b).phase = .opened
    · rw [leaveBank_last hlast h, setBank_bursts]
    · rw [leaveBank_last_shut hlast h, setBank_bursts]
  · rw [leaveBank_others hlast, completeUpgrade_bursts, setBank_bursts]

/-- The leaving answers nothing to its own port: the upgrade that it may complete is another port's. -/
theorem leaveBank_replied_own (s : State) (b : Bank) (p : Port) : s.RepliedTo (s.leaveBank b p) p [] := by
  by_cases hlast : (s.bank b).holds.filter (fun y => y.port != p) = []
  · by_cases h : (s.bank b).phase = .opened
    · rw [leaveBank_last hlast h]
      exact repliedTo_of_eq rfl rfl
    · rw [leaveBank_last_shut hlast h]
      exact repliedTo_of_eq rfl rfl
  · rw [leaveBank_others hlast]
    refine completeUpgrade_others (s := s.setBank b _) fun u _ hp hmap => ?_
    rw [bank_setBank_same] at hmap
    obtain ⟨y, hy, hport⟩ := List.map_eq_singleton_iff.1 hmap
    have mem : y ∈ (s.bank b).holds.filter (fun y => y.port != p) := by
      show y ∈ ((s.bank b).dropRecord p).holds
      rw [hy]
      exact List.mem_cons_self
    exact absurd (hport.trans hp) (by simpa using (List.mem_filter.1 mem).2)

/-- The port whose upgrade completes at a leaving is answered GRANTED, and is not the one that left. -/
theorem leaveBank_replied_upgrader {u : PendingUpgrade} {y : HoldRecord} (hu : (s.bank b).upgrade = some u)
    (hy : (s.bank b).holds.filter (fun y => y.port != p) = [y]) (hp : y.port = u.port) :
    s.RepliedTo (s.leaveBank b p) u.port [(u.tag, .granted b (s.bank b).openRow .exclusive)] := by
  rw [leaveBank_upgrade hu hy hp]
  have r := answerWork_replied (s.setBank b { s.bank b with holds := [{ y with mode := .exclusive }], upgrade := none })
    u.port u.tag (.granted b (s.bank b).openRow .exclusive) u.port
  rwa [if_pos rfl] at r

theorem upgrader_ne_leaver {u : PendingUpgrade} {y : HoldRecord}
    (hy : (s.bank b).holds.filter (fun y => y.port != p) = [y]) (hp : y.port = u.port) : u.port ≠ p := by
  have mem : y ∈ (s.bank b).holds.filter (fun y => y.port != p) := by rw [hy]; exact List.mem_cons_self
  rw [← hp]
  simpa using (List.mem_filter.1 mem).2

end

/-! ## The bank at the end of the event -/

/-- The end of an event leaves a bank's records, waits and upgrade as they are. -/
theorem settle_work (s : State) (b : Bank) :
    (s.settle.bank b).holds = (s.bank b).holds ∧ (s.settle.bank b).upgrade = (s.bank b).upgrade := by
  rcases settle_bank s b with e | ⟨-, e⟩ <;> rw [e] <;> exact ⟨rfl, rfl⟩

section
variable {s v : State} {b : Bank} {p : Port} (hv : v.bank b = (s.leaveBank b p).bank b)
include hv

theorem settle_left_last (hopen : (s.bank b).phase = .opened) (hlast : (s.bank b).holds.filter (fun y => y.port != p) = []) :
    v.settle.bank b =
      (if (s.bank b).dwellExpired = some true then
        { s.bank b with holds := [], upgrade := none, phase := .closing, endsAt := some (s.now + 28) }
      else { s.bank b with holds := [], upgrade := none, phase := .closeWait }) := by
  rw [leaveBank_last hlast hopen, bank_setBank_same] at hv
  rw [settle_bank_of_not_closed, hv]
  rw [hv]
  split <;> simp

theorem settle_left_stays (hopen : (s.bank b).phase = .opened) (hothers : (s.bank b).holds.filter (fun y => y.port != p) ≠ [])
    (hu : ∀ u, (s.bank b).upgrade = some u →
      ((s.bank b).holds.filter (fun y => y.port != p)).map (fun y => y.port) ≠ [u.port]) :
    v.settle.bank b = (s.bank b).dropRecord p := by
  rw [leaveBank_stays hothers hu, bank_setBank_same] at hv
  rw [settle_bank_of_not_closed, hv]
  rw [hv]
  simp [BankRecord.dropRecord, hopen]

theorem settle_left_upgrade {u : PendingUpgrade} {y : HoldRecord} (hu : (s.bank b).upgrade = some u)
    (hy : (s.bank b).holds.filter (fun y => y.port != p) = [y]) (hp : y.port = u.port) :
    (v.settle.bank b).holds = [{ y with mode := .exclusive }] ∧ (v.settle.bank b).upgrade = none
      ∧ ((s.bank b).phase = .opened →
          v.settle.bank b = { s.bank b with holds := [{ y with mode := .exclusive }], upgrade := none }) := by
  rw [leaveBank_upgrade hu hy hp, answerWork_bank, bank_setBank_same] at hv
  obtain ⟨hholds, hupgrade⟩ := settle_work v b
  refine ⟨by rw [hholds, hv], by rw [hupgrade, hv], fun hopen => ?_⟩
  rw [settle_bank_of_not_closed, hv]
  rw [hv]
  simp [hopen]

theorem settle_left_no_upgrade (hu : (s.bank b).upgrade = none) :
    (v.settle.bank b).holds = (s.bank b).holds.filter (fun y => y.port != p) := by
  rw [leaveBank_of_no_upgrade p hu, bank_setBank_same] at hv
  rw [(settle_work v b).1, hv, left_holds]
  rfl

end

/-! ## The end of the event, seen at one port -/

theorem repliedTo_silent {s t : State} {p : Port} {es : List (Tag × Answer)} (h : s.RepliedTo t p es)
    (hp : s.answerable p = false) : t.link p = s.link p ∧ t.session p = s.session p := by
  simpa [State.RepliedTo, hp] using h

theorem answerable_false {s : State} {p : Port} (h : (s.session p).state = .none ∨ (s.session p).state = .teardown) :
    s.answerable p = false := by
  unfold State.answerable
  rcases h with h | h <;> rw [h]

theorem settle_none {s : State} {p : Port} (h : (s.session p).state = .none) : s.settle.link p = s.link p := by
  obtain ⟨u, hl, hs, -, hlink, -⟩ := settle_port s p
  rw [hlink, finishSession_idle (Or.inl (hs ▸ h)), hl]

theorem settle_attached_session {s : State} {p : Port} (h : (s.session p).state = .attached) :
    s.settle.session p = s.session p := by
  obtain ⟨u, -, hs, -, -, hsession⟩ := settle_port s p
  rw [hsession, finishSession_idle (Or.inr (hs ▸ h)), hs]

/-- A session that receives no answers: its link stays, and where it is in TEARDOWN it ends once no work is left. -/
theorem settle_silent {s v : State} {p : Port} (hl : v.link p = s.link p) (hs : v.session p = s.session p) :
    ((s.session p).state = .none ∨ (s.session p).state = .teardown → v.settle.link p = s.link p)
      ∧ ((s.session p).state = .teardown →
          v.settle.session p = { s.session p with state := if v.settle.outstanding p = true then .teardown else .none }) := by
  refine ⟨?_, fun h => ?_⟩
  · rintro (h | h)
    · rw [settle_none (by rw [hs]; exact h), hl]
    · rw [(settle_teardown (by rw [hs]; exact h)).1, hl]
  · rw [(settle_teardown (by rw [hs]; exact h)).2, hs]

/-- A DETACHING session whose tags have received these final answers in the event. -/
theorem settle_answered_detaching {s v : State} {p : Port} {d : Tag} {es : List (Tag × Answer)}
    (hv : v.session p = (s.session p).answered es) (hfinal : ∀ e ∈ es, e.2.tagAfter = .free) (hup : (v.link p).up = true)
    (hs : (s.session p).state = .detaching) (hd : (s.session p).detachTag = some d) :
    (v.settle.outstanding p = true →
        (v.settle.session p).state = .detaching ∧ (v.settle.link p).queue = (v.link p).queue)
      ∧ (v.settle.outstanding p = false →
          (∀ i, i ≠ d → (∀ e ∈ es, e.1 ≠ i) → sixteenGet (s.session p).tags i = .free) →
          (v.settle.link p).queue = (v.link p).queue ++ [.response d (.ok .plain)] ∧ v.settle.session p = endedSession) := by
  have state : (v.session p).state = .detaching := by rw [hv]; exact hs
  refine ⟨fun hout => ?_, fun hout hfree => ?_⟩
  · obtain ⟨hlink, hsame⟩ := settle_detaching_busy state hout
    rw [hlink, hsame]
    exact ⟨state, rfl⟩
  · have free : ∀ i, i ≠ d → sixteenGet (v.session p).tags i = .free := by
      intro i hi
      rw [hv, session_answered_tag i es _ hfinal]
      split
      · rfl
      · next hnone =>
        exact hfree i hi fun e he hc => hnone (List.any_eq_true.2 ⟨e, he, beq_iff_eq.2 hc⟩)
    obtain ⟨hlink, hended⟩ := settle_detaching_done state (by rw [hv]; exact hd) hout free
    rw [hlink, hended]
    exact ⟨by simp [Link.answered, hup, responses], rfl⟩

/-! ## The report of a burst completion (R38, R48, R65) -/

/-- The record leaves at the completion of its port's burst: it is releasing and no further burst of the port to the bank is
queued, or it is revoke pending (R38, R48). -/
def State.recordLeaves (s : State) (p : Port) (b : Bank) (x : HoldRecord) : Prop :=
  (x.releasing = true ∧ s.queuedOn p b = false) ∨ (x.releasing = false ∧ x.revokePending = true)

section
variable {s : State} {b : Bank} {p : Port} {x : HoldRecord} (hx : (s.bank b).recordOf p = some x)
include hx

theorem reportCompletion_kept
    (h : (x.releasing = false ∧ x.revokePending = false) ∨ (x.releasing = true ∧ s.queuedOn p b = true)) :
    s.reportCompletion p b = s := by
  unfold State.reportCompletion
  rw [hx]
  rcases h with ⟨hr, hv⟩ | ⟨hr, hq⟩
  · simp [hr, hv]
  · simp [hr, hq]

theorem reportCompletion_released (hr : x.releasing = true) (hq : s.queuedOn p b = false) :
    s.reportCompletion p b = (s.leaveBank b p).answerTag p x.closeTag (.ok (.close false)) := by
  unfold State.reportCompletion
  rw [hx]
  simp [hr, hq]

theorem reportCompletion_revoked (hr : x.releasing = false) (hv : x.revokePending = true) :
    s.reportCompletion p b = (s.leaveBank b p).notify p (.revoked b (s.bank b).openRow 1) := by
  unfold State.reportCompletion
  rw [hx]
  simp [hr, hv]

theorem reportCompletion_leaves_bank (h : s.recordLeaves p b x) :
    (s.reportCompletion p b).bank b = (s.leaveBank b p).bank b := by
  rcases h with ⟨hr, hq⟩ | ⟨hr, hv⟩
  · rw [reportCompletion_released hx hr hq, answerTag_bank]
  · rw [reportCompletion_revoked hx hr hv, notify_bank]

/-- No other port is answered more than the leaving itself answers it. -/
theorem reportCompletion_leaves_others (h : s.recordLeaves p b x) {q : Port} (hq : q ≠ p) :
    (s.leaveBank b p).RepliedTo (s.reportCompletion p b) q [] := by
  rcases h with ⟨hr, hno⟩ | ⟨hr, hv⟩
  · rw [reportCompletion_released hx hr hno]
    have answered := answerTag_replied (s.leaveBank b p) p x.closeTag (.ok (.close false)) q
    rwa [if_neg (Ne.symm hq)] at answered
  · rw [reportCompletion_revoked hx hr hv]
    unfold State.notify State.enqueue
    split
    · split
      · exact repliedTo_of_eq (link_setLink_ne _ _ hq) rfl
      · exact repliedTo_refl _ q
    · exact repliedTo_refl _ q

end

theorem reportCompletion_bursts (s : State) (p : Port) (b : Bank) : (s.reportCompletion p b).bursts = s.bursts := by
  unfold State.reportCompletion
  split
  · rfl
  · split
    · split
      · rfl
      · rw [(onlyAnswers_keeps (answerTag_answers _ _ _ _)).2.1, leaveBank_bursts]
    · split
      · rw [(onlyAnswers_keeps (notify_answers _ _ _)).2.1, leaveBank_bursts]
      · rfl

/-- A torn-down session sees nothing of a report (R138, R148). -/
theorem reportCompletion_silent {s : State} {p : Port} (b : Bank) (hp : s.answerable p = false) :
    (s.reportCompletion p b).link p = s.link p ∧ (s.reportCompletion p b).session p = s.session p := by
  have left := leaveBank_replied_own s b p
  unfold State.reportCompletion
  split
  · exact ⟨rfl, rfl⟩
  · split
    · split
      · exact ⟨rfl, rfl⟩
      · exact repliedTo_silent (repliedTo_trans left (answerTag_replied _ p _ _ p)) hp
    · split
      · unfold State.notify
        rw [repliedTo_answerable left, hp]
        exact repliedTo_silent left hp
      · exact ⟨rfl, rfl⟩

/-! ## The end of a burst (R61, R64, R65) -/

/-- The state after a burst's response, with the data path free. -/
def State.responded (s : State) (e : Execution) : State :=
  (s.answerWork e.burst.port e.burst.tag (burstAnswer e.burst (s.lapseOf e.burst) e.results)).setExecuting none

theorem finishBurst_eq (s : State) (e : Execution) :
    s.finishBurst e = (s.responded e).reportCompletion e.burst.port e.burst.bank := rfl

@[simp] theorem responded_bank (s : State) (e : Execution) (b : Bank) : (s.responded e).bank b = s.bank b := by
  simp [State.responded]

@[simp] theorem responded_bursts (s : State) (e : Execution) :
    (s.responded e).bursts = { s.bursts with executing := none } := by
  unfold State.responded State.setExecuting
  simp only [(onlyAnswers_keeps (answerWork_answers s _ _ _)).2.1]

@[simp] theorem responded_queuedOn (s : State) (e : Execution) (p : Port) (b : Bank) :
    (s.responded e).queuedOn p b = s.queuedOn p b := by
  unfold State.queuedOn State.burstQueue
  rw [responded_bursts]

theorem responded_leaves {s : State} {p : Port} {b : Bank} {x : HoldRecord} (e : Execution) (h : s.recordLeaves p b x) :
    (s.responded e).recordLeaves p b x := by
  unfold State.recordLeaves at h ⊢
  rwa [responded_queuedOn]

theorem responded_now (s : State) (e : Execution) : (s.responded e).now = s.now :=
  (onlyHolds_keeps (onlyHolds_of_answers (answerWork_answers s _ _ _))).1

theorem responded_replied (s : State) (e : Execution) (q : Port) : s.RepliedTo (s.responded e) q
    (if e.burst.port = q then [(e.burst.tag, burstAnswer e.burst (s.lapseOf e.burst) e.results)] else []) :=
  answerWork_replied s e.burst.port e.burst.tag _ q

theorem burstAnswer_final (x : QueuedBurst) (lapse : Bool) (results : List UnitResult) :
    (burstAnswer x lapse results).tagAfter = .free := by
  unfold burstAnswer
  split <;> rfl

theorem finishBurst_bursts (s : State) (e : Execution) : (s.finishBurst e).bursts = { s.bursts with executing := none } := by
  rw [finishBurst_eq, reportCompletion_bursts, responded_bursts]

theorem finishBurst_holds (s : State) (e : Execution) : s.OnlyHolds (s.finishBurst e) :=
  onlyHolds_trans (t := s.responded e)
    (onlyHolds_trans (onlyHolds_of_answers (answerWork_answers s e.burst.port e.burst.tag _)) rfl)
    (reportCompletion_holds _ _ _)

theorem finishBurst_silent {s : State} {e : Execution} (hp : s.answerable e.burst.port = false) :
    (s.finishBurst e).link e.burst.port = s.link e.burst.port
      ∧ (s.finishBurst e).session e.burst.port = s.session e.burst.port := by
  have replied := responded_replied s e e.burst.port
  obtain ⟨hl, hs⟩ := repliedTo_silent replied hp
  obtain ⟨hlink, hsession⟩ := reportCompletion_silent e.burst.bank ((repliedTo_answerable replied).trans hp)
  exact ⟨hlink.trans hl, hsession.trans hs⟩

section
variable {s : State} {e : Execution} {x : HoldRecord} (hx : (s.bank e.burst.bank).recordOf e.burst.port = some x)
include hx

theorem responded_record : ((s.responded e).bank e.burst.bank).recordOf e.burst.port = some x := by rwa [responded_bank]

theorem finishBurst_kept (h : (x.releasing = false ∧ x.revokePending = false)
      ∨ (x.releasing = true ∧ s.queuedOn e.burst.port e.burst.bank = true)) : s.finishBurst e = s.responded e := by
  rw [finishBurst_eq, reportCompletion_kept (responded_record hx) (by simpa using h)]

theorem finishBurst_leaves_bank (h : s.recordLeaves e.burst.port e.burst.bank x) :
    (s.finishBurst e).bank e.burst.bank = ((s.responded e).leaveBank e.burst.bank e.burst.port).bank e.burst.bank :=
  reportCompletion_leaves_bank (responded_record hx) (responded_leaves e h)

/-- Each port's upgrade that the leaving completes is answered, and nothing else of that port (R44). -/
theorem finishBurst_replied_upgrader {u : PendingUpgrade} {y : HoldRecord} (h : s.recordLeaves e.burst.port e.burst.bank x)
    (hu : (s.bank e.burst.bank).upgrade = some u)
    (hy : (s.bank e.burst.bank).holds.filter (fun y => y.port != e.burst.port) = [y]) (hp : y.port = u.port) :
    s.RepliedTo (s.finishBurst e) u.port [(u.tag, .granted e.burst.bank (s.bank e.burst.bank).openRow .exclusive)] := by
  have other := upgrader_ne_leaver hy hp
  have responded := responded_replied s e u.port
  rw [if_neg (Ne.symm other)] at responded
  have left := leaveBank_replied_upgrader (s := s.responded e) (b := e.burst.bank) (p := e.burst.port)
    (by rw [responded_bank]; exact hu) (by rw [responded_bank]; exact hy) hp
  rw [responded_bank] at left
  have reported := reportCompletion_leaves_others (responded_record hx) (responded_leaves e h) other
  exact repliedTo_trans (repliedTo_trans responded left) reported

/-- The answers to the port of a releasing record that leaves: the response, then OK for the close tag if there is one
(R38, R65). -/
theorem finishBurst_replied_released (hr : x.releasing = true) (hq : s.queuedOn e.burst.port e.burst.bank = false) :
    s.RepliedTo (s.finishBurst e) e.burst.port
      ((e.burst.tag, burstAnswer e.burst (s.lapseOf e.burst) e.results)
        :: x.closeTag.toList.map (·, .ok (.close false))) := by
  have responded := responded_replied s e e.burst.port
  have closed := answerTag_replied ((s.responded e).leaveBank e.burst.bank e.burst.port) e.burst.port x.closeTag
    (.ok (.close false)) e.burst.port
  rw [if_pos rfl] at responded closed
  rw [finishBurst_eq, reportCompletion_released (responded_record hx) hr (by simpa using hq)]
  exact repliedTo_trans (repliedTo_trans responded (leaveBank_replied_own _ _ _)) closed

/-- What the port of a revoke pending record that leaves is sent: the response, then the REVOKED notice (R48, R65). -/
theorem finishBurst_revoked (hr : x.releasing = false) (hv : x.revokePending = true)
    (ha : s.answerable e.burst.port = true) (hup : (s.link e.burst.port).up = true) :
    (s.finishBurst e).link e.burst.port =
        { s.link e.burst.port with
          queue := placeEntry ((s.link e.burst.port).queue
              ++ [.response e.burst.tag (burstAnswer e.burst (s.lapseOf e.burst) e.results)])
            (.revoked e.burst.bank (s.bank e.burst.bank).openRow 1) }
      ∧ (s.finishBurst e).session e.burst.port =
        (s.session e.burst.port).answered [(e.burst.tag, burstAnswer e.burst (s.lapseOf e.burst) e.results)] := by
  have responded := responded_replied s e e.burst.port
  rw [if_pos rfl] at responded
  have left := repliedTo_trans responded (leaveBank_replied_own (s.responded e) e.burst.bank e.burst.port)
  have answerable := (repliedTo_answerable left).trans ha
  obtain ⟨hl, hs⟩ := left
  rw [if_pos ha] at hl hs
  have up : (((s.responded e).leaveBank e.burst.bank e.burst.port).link e.burst.port).up = true := by
    rw [hl]
    simp [Link.answered, hup]
  rw [finishBurst_eq, reportCompletion_revoked (responded_record hx) hr hv, responded_bank]
  unfold State.notify State.enqueue
  rw [if_pos answerable, if_pos up, link_setLink_same, setLink_session, hl, hs]
  exact ⟨by simp [Link.answered, hup, responses], rfl⟩

end

section
variable {s : State} {e : Execution} {x : HoldRecord} (hx : (s.bank e.burst.bank).recordOf e.burst.port = some x)
include hx

/-- The record stays: an ATTACHED session sees the response alone. -/
theorem completion_kept_attached (h : (x.releasing = false ∧ x.revokePending = false)
      ∨ (x.releasing = true ∧ s.queuedOn e.burst.port e.burst.bank = true))
    (hs : (s.session e.burst.port).state = .attached) (hup : (s.link e.burst.port).up = true) :
    ((s.finishBurst e).settle.link e.burst.port).queue = (s.link e.burst.port).queue
        ++ [.response e.burst.tag (burstAnswer e.burst (s.lapseOf e.burst) e.results)]
      ∧ ((s.finishBurst e).settle.session e.burst.port).tags =
        sixteenSet (s.session e.burst.port).tags e.burst.tag .free := by
  have replied := responded_replied s e e.burst.port
  rw [if_pos rfl, ← finishBurst_kept hx h] at replied
  refine ⟨settle_replied_attached replied hs hup, ?_⟩
  have session := replied.2
  rw [if_pos (show s.answerable e.burst.port = true by unfold State.answerable; rw [hs])] at session
  rw [settle_attached_session (by rw [session]; exact hs), session]
  simp [Session.answered, burstAnswer_final]

/-- A DETACHING session whose record leaves with its burst: it is sent what an ATTACHED one would be, and ends where no work and
no other tag is left (R145). -/
theorem completion_detaching {d : Tag} (hs : (s.session e.burst.port).state = .detaching)
    (hd : (s.session e.burst.port).detachTag = some d) (hup : (s.link e.burst.port).up = true)
    (h : s.recordLeaves e.burst.port e.burst.bank x) {response : OutEntry} {answers : List OutEntry}
    (hresponse : response = .response e.burst.tag (burstAnswer e.burst (s.lapseOf e.burst) e.results))
    (hanswers : answers =
      (if x.releasing = true then
        (s.link e.burst.port).queue
          ++ response :: x.closeTag.toList.map (fun ct => .response ct (.ok (.close false)))
      else placeEntry ((s.link e.burst.port).queue ++ [response])
        (.revoked e.burst.bank (s.bank e.burst.bank).openRow 1))) :
    ((s.finishBurst e).settle.outstanding e.burst.port = true →
        ((s.finishBurst e).settle.session e.burst.port).state = .detaching
          ∧ ((s.finishBurst e).settle.link e.burst.port).queue = answers)
      ∧ ((s.finishBurst e).settle.outstanding e.burst.port = false →
          (∀ i, i ≠ d → i ≠ e.burst.tag → (x.releasing = true → x.closeTag ≠ some i) →
            sixteenGet (s.session e.burst.port).tags i = .free) →
          ((s.finishBurst e).settle.link e.burst.port).queue = answers ++ [.response d (.ok .plain)]
            ∧ (s.finishBurst e).settle.session e.burst.port = endedSession) := by
  have answerable : s.answerable e.burst.port = true := by unfold State.answerable; rw [hs]
  have final := burstAnswer_final e.burst (s.lapseOf e.burst) e.results
  rcases h with ⟨hr, hq⟩ | ⟨hr, hv⟩
  · obtain ⟨hl, hsession⟩ := finishBurst_replied_released hx hr hq
    rw [if_pos answerable] at hl hsession
    have queue : ((s.finishBurst e).link e.burst.port).queue = answers := by
      rw [hanswers, if_pos hr, hresponse, hl]
      simp [Link.answered, hup, responses]
    obtain ⟨busy, done⟩ := settle_answered_detaching hsession (d := d) (by
      simp only [List.mem_cons, List.mem_map]
      rintro _ (rfl | ⟨_, -, rfl⟩)
      · exact final
      · rfl) (by rw [hl]; simp [Link.answered, hup]) hs hd
    rw [queue] at busy done
    refine ⟨busy, fun hout hfree => done hout fun i hi hnone => hfree i hi ?_ fun _ hc => ?_⟩
    · exact fun hc => hnone _ List.mem_cons_self hc.symm
    · exact hnone (i, .ok (.close false)) (by simp [hc]) rfl
  · obtain ⟨hl, hsession⟩ := finishBurst_revoked hx hr hv answerable hup
    have queue : ((s.finishBurst e).link e.burst.port).queue = answers := by
      rw [hanswers, if_neg (by simp [hr]), hresponse, hl]
    obtain ⟨busy, done⟩ := settle_answered_detaching hsession (d := d) (by simpa using final) (by rw [hl]; exact hup) hs hd
    rw [queue] at busy done
    refine ⟨busy, fun hout hfree => done hout fun i hi hnone => hfree i hi ?_ fun hc => ?_⟩
    · exact fun hc => hnone _ List.mem_cons_self hc.symm
    · rw [hr] at hc
      cases hc

end

/-! ## EXECUTION_COMPLETION -/

/-- The completion of a burst whose units are all stepped. -/
theorem executionCompletion_exec {s : State} {e : Execution} (he : s.bursts.executing = some e) (hcut : e.cut = none)
    (hdone : e.results.length = e.burst.units) :
    exec .executionCompletion s = .next ((s.reach e.endsAt).finishBurst e).settle := by
  have left : e.unitsLeft = 0 := by unfold Execution.unitsLeft; omega
  show execExecutionCompletion s = _
  unfold execExecutionCompletion
  simp only [he, hcut, left, State.stepUnits, reach_bursts]
  rfl

/-- The burst engine after an event that has ended its burst. -/
theorem settle_choseFrom {s v : State} (h : v.bursts = { s.bursts with executing := none }) :
    v.settle.choseFrom s.bursts.queues s.bursts.lastServed := by
  have chosen := (settle_engine v).2 (by rw [h])
  rwa [h] at chosen

/-- Settles O38: the response, the report and the end of the event, each seen at the bank and at the ports that they touch. -/
theorem executionCompletionAnswersInOrder : Obligations.ExecutionCompletionAnswersInOrder := by
  rintro s e b p x response he hcut hdone rfl rfl hx hresponse
  have response_eq : response =
      .response e.burst.tag (burstAnswer e.burst ((s.reach e.endsAt).lapseOf e.burst) e.results) := by
    rw [hresponse]
    unfold burstAnswer State.lapseOf
    cases e.burst.kind <;> rfl
  have store := keepsStore_trans (keepsStore_of_holds (finishBurst_holds (s.reach e.endsAt) e)) (settle_store _)
  obtain ⟨-, -, -, hquads, -, -, -, hconfig, -⟩ := onlyHolds_keeps (finishBurst_holds (s.reach e.endsAt) e)
  have record : ((s.reach e.endsAt).bank e.burst.bank).recordOf e.burst.port = some x := hx
  have kept := finishBurst_kept record
  have leaves := finishBurst_leaves_bank record
  have respondedNow : ((s.reach e.endsAt).responded e).now = ((s.reach e.endsAt).finishBurst e).settle.now := by
    rw [store.1, responded_now]
  refine ⟨((s.reach e.endsAt).finishBurst e).settle, executionCompletion_exec he hcut hdone, store.1,
    settle_choseFrom (finishBurst_bursts _ e), store.2.1, store.2.2.2.1, ?_, ?_, store.2.2.1, store.2.2.2.2, fun h => ?_,
    fun h hu => ?_, fun others h hopen hothers => ⟨fun hlast => ?_, fun u hu hne hport => ?_⟩, fun u y h hu hy hp => ?_,
    fun h => ?_, fun h => ?_, fun d hs hd hup h answers hanswers => ?_, fun hs hup => ⟨fun hr hv => ?_, fun hr hq => ?_,
    fun hr hq => ?_, fun hr hv => ?_⟩⟩
  · rw [settle_quads, hquads]; rfl
  · rw [settle_config, hconfig]; rfl
  · rw [(settle_work _ _).1, kept h, responded_bank]; rfl
  · rw [settle_left_no_upgrade (leaves h) (by rw [responded_bank]; exact hu), responded_bank]; rfl
  · rw [hothers] at hlast
    rw [settle_left_last (leaves h) (by rw [responded_bank]; exact hopen) (by rw [responded_bank]; exact hlast),
      responded_bank, respondedNow]
    rfl
  · rw [hothers] at hne hport
    have stays : ∀ v, (s.bank e.burst.bank).upgrade = some v →
        ((s.bank e.burst.bank).holds.filter (fun y => y.port != e.burst.port)).map (fun y => y.port) ≠ [v.port] := by
      intro v hv
      obtain rfl := Option.some.inj (hu.symm.trans hv)
      exact hport
    rw [settle_left_stays (leaves h) (by rw [responded_bank]; exact hopen) (by rw [responded_bank]; exact hne)
      (by rw [responded_bank]; exact stays), responded_bank, hothers]
    rfl
  · obtain ⟨hholds, hnone, -⟩ := settle_left_upgrade (leaves h) (by rw [responded_bank]; exact hu)
      (by rw [responded_bank]; exact hy) hp
    refine ⟨hholds, hnone, fun hs hup => ?_⟩
    exact settle_replied_attached (finishBurst_replied_upgrader record h hu hy hp) hs hup
  · obtain ⟨hl, hs⟩ := finishBurst_silent (s := s.reach e.endsAt) (e := e) (answerable_false h)
    exact (settle_silent hl hs).1 h
  · obtain ⟨hl, hs⟩ := finishBurst_silent (s := s.reach e.endsAt) (e := e) (answerable_false (Or.inr h))
    exact (settle_silent hl hs).2 h
  · exact completion_detaching record hs hd hup h response_eq (by rw [hanswers]; cases x.closeTag <;> rfl)
  · rw [response_eq]
    exact completion_kept_attached record (Or.inl ⟨hr, hv⟩) hs hup
  · rw [response_eq]
    exact (completion_kept_attached record (Or.inr ⟨hr, hq⟩) hs hup).1
  · rw [settle_replied_attached (finishBurst_replied_released record hr hq) hs hup, response_eq]
    cases x.closeTag <;> rfl
  · have answerable : s.answerable e.burst.port = true := by unfold State.answerable; rw [hs]
    obtain ⟨hl, hsession⟩ := finishBurst_revoked record hr hv answerable hup
    rw [settle_attached (by rw [hsession]; exact hs), hl, response_eq]
    rfl

/-! ## CUT_COMPLETION (R69) -/

theorem recordOf_none_filter {r : BankRecord} {p : Port} (h : r.recordOf p = none) :
    r.holds.filter (fun y => y.port != p) = r.holds :=
  List.filter_eq_self.2 fun y hy => by simpa using List.find?_eq_none.1 h y hy

theorem endCut_record {s : State} {q : QueuedBurst} {x : HoldRecord} (h : (s.bank q.bank).recordOf q.port = some x) :
    s.endCut q = (s.setExecuting none).leaveBank q.bank q.port := by
  unfold State.endCut
  simp only [setExecuting_bank, h]

theorem endCut_without_record {s : State} {q : QueuedBurst} (h : (s.bank q.bank).recordOf q.port = none) :
    s.endCut q = s.setExecuting none := by
  unfold State.endCut
  simp only [setExecuting_bank, h]

theorem endCut_bursts (s : State) (q : QueuedBurst) : (s.endCut q).bursts = { s.bursts with executing := none } := by
  cases h : (s.bank q.bank).recordOf q.port with
  | none => rw [endCut_without_record h]; rfl
  | some x => rw [endCut_record h, leaveBank_bursts]; rfl

/-- The port of a cut burst is sent nothing (R69). -/
theorem endCut_replied_own (s : State) (q : QueuedBurst) : s.RepliedTo (s.endCut q) q.port [] := by
  cases h : (s.bank q.bank).recordOf q.port with
  | none => rw [endCut_without_record h]; exact repliedTo_of_eq rfl rfl
  | some x => rw [endCut_record h]; exact leaveBank_replied_own (s.setExecuting none) q.bank q.port

/-- What the step of a unit does to the array and the integrity unit depends on these two alone. -/
theorem unitStep_congr {s t : State} (ha : t.array = s.array) (hi : t.integrity = s.integrity) (x : QueuedBurst) (k : Nat) :
    (t.unitStep x k).1.array = (s.unitStep x k).1.array
      ∧ (t.unitStep x k).1.integrity = (s.unitStep x k).1.integrity := by
  unfold State.unitStep
  split
  · cases hclass : s.array.classify (unitIndex x.bank x.row (x.column + k)) with
    | clean =>
      rw [readUnitStep_clean hclass, readUnitStep_clean (s := t) (by rw [ha]; exact hclass)]
      exact ⟨ha, hi⟩
    | correctable d =>
      rw [readUnitStep_correctable hclass, readUnitStep_correctable (s := t) (by rw [ha]; exact hclass)]
      simp [State.countCorrected, ha, hi]
    | uncorrectable =>
      rw [readUnitStep_uncorrectable hclass, readUnitStep_uncorrectable (s := t) (by rw [ha]; exact hclass)]
      simp [ha, hi]
  · generalize x.data.getD k ⟨0, 0⟩ = w
    by_cases hfull : w.mask = 0xFF
    · rw [writeUnitStep_full hfull, writeUnitStep_full hfull]
      simp [State.fullWriteStep, State.unlist, State.writeUnit, ha, hi]
    by_cases hempty : w.mask = 0
    · rw [writeUnitStep_empty hempty, writeUnitStep_empty hempty]
      exact ⟨ha, hi⟩
    have same : t.listed x.bank x.row (x.column + k) = s.listed x.bank x.row (x.column + k) := by
      unfold State.listed
      rw [hi]
    cases hlisted : s.listed x.bank x.row (x.column + k) with
    | true =>
      rw [writeUnitStep_listed hfull hempty hlisted, writeUnitStep_listed hfull hempty (same.trans hlisted)]
      exact ⟨ha, hi⟩
    | false =>
      have unlisted := same.trans hlisted
      cases hclass : s.array.classify (unitIndex x.bank x.row (x.column + k)) with
      | clean =>
        rw [writeUnitStep_merge_clean hfull hempty hlisted hclass,
          writeUnitStep_merge_clean hfull hempty unlisted (by rw [ha]; exact hclass)]
        simp [State.writeUnit, ha, hi]
      | correctable d =>
        rw [writeUnitStep_merge_correctable hfull hempty hlisted hclass,
          writeUnitStep_merge_correctable hfull hempty unlisted (by rw [ha]; exact hclass)]
        simp [State.countCorrected, ha, hi]
      | uncorrectable =>
        rw [writeUnitStep_merge_uncorrectable hfull hempty hlisted hclass,
          writeUnitStep_merge_uncorrectable hfull hempty unlisted (by rw [ha]; exact hclass)]
        simp [ha, hi]

theorem cutCompletion_exec {s : State} {e : Execution} {ends : Nat} (he : s.bursts.executing = some e)
    (hcut : e.cut = some ends) : exec .cutCompletion s =
      .next ((((s.reach ends).unitStep e.burst e.results.length).1.endCut e.burst).settle) := by
  show execCutCompletion s = _
  unfold execCutCompletion
  simp only [he, hcut]

/-- Settles O39: the unit's step touches no record and no link, so that the cut's end is the leaving of the record alone. -/
theorem cutCompletionEndsTheBurst : Obligations.CutCompletionEndsTheBurst := by
  intro s e cutAt he hcut hs
  have ran := cutCompletion_exec he hcut
  have frame := unitStep_onlyUnits (s.reach cutAt) e.burst e.results.length
  have effect := unitStep_congr (s := s.reach cutAt)
    (t := State.reach { s with bursts := { s.bursts with executing := some { e with cut := none } } } e.nextUnitEnds)
    rfl rfl e.burst e.results.length
  generalize ((s.reach cutAt).unitStep e.burst e.results.length).1 = w at ran frame effect
  unfold State.OnlyUnits at frame
  have bank (b : Bank) : (w.setExecuting none).bank b = s.bank b := by rw [frame]; rfl
  have port (p : Port) : s.RepliedTo (w.setExecuting none) p [] := by rw [frame]; exact repliedTo_of_eq rfl rfl
  have holds := endCut_holds w e.burst
  have store := keepsStore_trans (keepsStore_of_holds holds) (settle_store _)
  obtain ⟨-, -, -, hquads, -, -, -, hconfig, -⟩ := onlyHolds_keeps holds
  have now : (w.endCut e.burst).settle.now = max s.now cutAt := by rw [store.1, frame]; rfl
  refine ⟨(w.endCut e.burst).settle, ran, now, ?_, ?_, fun hu => ?_, ?_, fun hleft => ?_, ?_, ?_, ?_, ?_⟩
  · exact settle_choseFrom (by rw [endCut_bursts, frame]; rfl)
  · have own : s.RepliedTo (w.endCut e.burst) e.burst.port [] :=
      repliedTo_trans (t := w) (port e.burst.port) (endCut_replied_own w e.burst)
    obtain ⟨hl, hsession⟩ := repliedTo_silent own (answerable_false hs)
    exact (settle_silent hl hsession).1 hs
  · cases hx : (s.bank e.burst.bank).recordOf e.burst.port with
    | none =>
      rw [(settle_work _ _).1, endCut_without_record (by rw [← hx, ← bank]; rfl), bank, recordOf_none_filter hx]
    | some x =>
      have left : w.endCut e.burst = _ := endCut_record (x := x) (by rw [← hx, ← bank]; rfl)
      rw [settle_left_no_upgrade (by rw [left]) (by rw [bank]; exact hu), bank]
  · rintro b x others rfl hx hopen rfl
    have left : w.endCut e.burst = _ := endCut_record (x := x) (by rw [← hx, ← bank]; rfl)
    refine ⟨fun hlast => ?_, fun u hu hne hport => ?_, fun u y hu hy hp => ?_⟩
    · rw [settle_left_last (by rw [left]) (by rw [bank]; exact hopen) (by rw [bank]; exact hlast), bank, now]
      rw [show (w.setExecuting none).now = max s.now cutAt by rw [frame]; rfl]
    · have stays : ∀ v, (s.bank e.burst.bank).upgrade = some v →
          ((s.bank e.burst.bank).holds.filter (fun y => y.port != e.burst.port)).map (fun y => y.port) ≠ [v.port] := by
        intro v hv
        obtain rfl := Option.some.inj (hu.symm.trans hv)
        exact hport
      rw [settle_left_stays (by rw [left]) (by rw [bank]; exact hopen) (by rw [bank]; exact hne)
        (by rw [bank]; exact stays), bank]
      rfl
    · refine ⟨?_, fun hattached hup => ?_⟩
      · have upgraded := (settle_left_upgrade (v := w.endCut e.burst) (s := w.setExecuting none) (by rw [left])
          (by rw [bank]; exact hu) (by rw [bank]; exact hy) hp).2.2 (by rw [bank]; exact hopen)
        rw [upgraded, bank]
      · have granted := leaveBank_replied_upgrader (s := w.setExecuting none) (by rw [bank]; exact hu)
          (by rw [bank]; exact hy) hp
        rw [← left, bank] at granted
        exact settle_replied_attached (repliedTo_trans (port u.port) granted) hattached hup
  · have stepped := burstUnitStep_exec
      (s := { s with bursts := { s.bursts with executing := some { e with cut := none } } }) rfl rfl hleft
    exact ⟨_, stepped, (store.2.1.trans effect.1.symm), (store.2.2.2.1.trans effect.2.symm)⟩
  · rw [settle_quads, hquads, frame]; rfl
  · rw [settle_config, hconfig, frame]; rfl
  · rw [store.2.2.1, frame]; rfl
  · rw [store.2.2.2.2, frame]; rfl

end Sys2Proof.Machine
end
section
/-!
SUPPORT. The accounts of the quads: what an evaluation, an expiry, a refresh and a clear make of them, and that every command keeps the
debts in their range and the maintenance states at what debt and RECLAIM_LEVEL give (R73, R74).
-/

namespace Sys2Proof.Machine

open Sys2Proof

/-! ## What an operation makes of the accounts -/

theorem onlyHolds_quad {s t : State} (h : s.OnlyHolds t) (q : Quad) : t.quad q = s.quad q := by
  obtain ⟨-, -, -, hquads, -⟩ := onlyHolds_keeps h
  unfold State.quad
  rw [hquads]

/-- An account at a debt, with the maintenance state that the debt gives (R74). -/
def QuadAccount.atDebt (a : QuadAccount) (level : Nat) (d : Int) : QuadAccount :=
  { a with debt := d, state := maintenanceOf level d }

theorem evaluateQuad_config (s : State) (q : Quad) : (s.evaluateQuad q).config = s.config := by
  obtain ⟨-, -, -, -, -, -, -, hconfig, -⟩ := onlyHolds_keeps (evaluateQuad_holds s q)
  exact hconfig

theorem evaluateQuad_refresh (s : State) (q : Quad) : (s.evaluateQuad q).refresh = s.refresh := by
  obtain ⟨-, -, -, -, -, hrefresh, -⟩ := onlyHolds_keeps (evaluateQuad_holds s q)
  exact hrefresh

/-- An evaluation sets the maintenance state of its quad, and no other account (R74). -/
theorem evaluateQuad_quad (s : State) (q r : Quad) : (s.evaluateQuad q).quad r =
    if r = q then (s.quad q).atDebt s.config.reclaimLevel (s.quad q).debt else s.quad r :=
  (onlyHolds_quad (evaluateQuad_holds s q) r).trans (quad_setQuad s q r _)

theorem evaluateQuad_setDebt_quad (s : State) (q r : Quad) (d : Int) : ((s.setDebt q d).evaluateQuad q).quad r =
    if r = q then (s.quad q).atDebt s.config.reclaimLevel d else s.quad r := by
  rw [evaluateQuad_quad]
  unfold State.setDebt
  split
  · rw [quad_setQuad_same]
    rfl
  · next h => exact quad_setQuad_ne _ _ h

theorem evaluateAll_config (s : State) : s.evaluateAll.config = s.config :=
  foldl_keeps (P := fun t : State => t.config = s.config) (fun t q h => (evaluateQuad_config t q).trans h) allFour rfl

theorem evaluateAll_refresh (s : State) : s.evaluateAll.refresh = s.refresh :=
  foldl_keeps (P := fun t : State => t.refresh = s.refresh) (fun t q h => (evaluateQuad_refresh t q).trans h) allFour rfl

/-- After the evaluation of every quad, every maintenance state is the one that the level in force gives (R81, R98). -/
theorem evaluateAll_quad (s : State) (q : Quad) :
    s.evaluateAll.quad q = (s.quad q).atDebt s.config.reclaimLevel (s.quad q).debt := by
  have all (qs : List Quad) : ∀ t : State, t.config = s.config →
      (t.quad q = s.quad q ∧ q ∈ qs ∨ t.quad q = (s.quad q).atDebt s.config.reclaimLevel (s.quad q).debt) →
      (qs.foldl (fun t q => t.evaluateQuad q) t).quad q = (s.quad q).atDebt s.config.reclaimLevel (s.quad q).debt := by
    induction qs with
    | nil => exact fun t _ ht => ht.resolve_left fun h => nomatch h.2
    | cons r qs ih =>
      refine fun t hc ht => ih (t.evaluateQuad r) ((evaluateQuad_config t r).trans hc) ?_
      rw [evaluateQuad_quad, hc]
      by_cases hr : q = r
      · subst hr
        rw [if_pos rfl]
        rcases ht with ⟨ht, -⟩ | ht <;> rw [ht] <;> exact Or.inr rfl
      · rw [if_neg hr]
        exact ht.imp_left fun h => ⟨h.1, (List.mem_cons.1 h.2).resolve_left hr⟩
  exact all allFour s rfl (Or.inl ⟨rfl, mem_allFour q⟩)

/-- The account of a quad after an expiry: as before in an uncleared quad, else one higher, or at 12 with the lapse flag
(R73, R76, R84). -/
def State.expired (s : State) (q : Quad) : QuadAccount :=
  if s.cleared q then
    if (s.quad q).debt < forceLevel then (s.quad q).atDebt s.config.reclaimLevel ((s.quad q).debt + 1)
    else { s.quad q with lapse := true }
  else s.quad q

theorem expireQuad_quad (s : State) (q r : Quad) : (s.expireQuad q).quad r = if r = q then s.expired q else s.quad r := by
  unfold State.expireQuad State.expired
  cases s.cleared q with
  | false =>
    simp only [Bool.not_false, if_true, Bool.false_eq_true, if_false]
    split
    · next h => rw [h]
    · rfl
  | true =>
    simp only [Bool.not_true, Bool.false_eq_true, if_false, if_true]
    split
    · exact evaluateQuad_setDebt_quad s q r _
    · exact (onlyHolds_quad (onlyHolds_of_answers (lapseNotices_answers _ q)) r).trans (quad_setQuad s q r _)

theorem expireQuad_holds (s : State) (q : Quad) : (s.setQuad q (s.expired q)).OnlyHolds (s.expireQuad q) := by
  unfold State.expireQuad State.expired
  cases s.cleared q with
  | false =>
    have same : s.setQuad q (s.quad q) = s := by simp [State.setQuad, State.quad]
    simp only [Bool.not_false, if_true, Bool.false_eq_true, if_false, same]
    exact onlyHolds_refl s
  | true =>
    simp only [Bool.not_true, Bool.false_eq_true, if_false, if_true]
    split
    · have h := evaluateQuad_holds (s.setDebt q ((s.quad q).debt + 1)) q
      unfold State.setMaintenance State.setDebt at h
      simp only [quad_setQuad_same, setQuad_config, setQuad_setQuad] at h
      exact h
    · exact onlyHolds_of_answers (lapseNotices_answers _ q)

theorem finishRefresh_config (s : State) (q : Quad) : (s.finishRefresh q).config = s.config := by
  unfold State.finishRefresh
  simp only []
  rw [(onlyHolds_keeps (serveQuad_holds _ q)).2.2.2.2.2.2.2.1]
  show (if _ then _ else _ : State).config = _
  split
  · exact evaluateQuad_config _ q
  · rfl

/-- A refresh completion pays one refresh of debt where the quad is cleared (R93). -/
theorem finishRefresh_quad (s : State) (q r : Quad) : (s.finishRefresh q).quad r =
    if r = q ∧ s.cleared q = true then (s.quad q).atDebt s.config.reclaimLevel ((s.quad q).debt - 1) else s.quad r := by
  unfold State.finishRefresh
  simp only []
  refine (onlyHolds_quad (serveQuad_holds _ q) r).trans ?_
  rw [setQuadPhase_quad]
  cases s.cleared q with
  | false => rw [if_neg Bool.false_ne_true, if_neg fun h => Bool.false_ne_true h.2]
  | true =>
    rw [if_pos rfl, evaluateQuad_setDebt_quad]
    simp only [and_true]

theorem finishClear_config (s : State) (q : Quad) : (s.finishClear q).config = s.config :=
  (onlyHolds_keeps (serveQuad_holds _ q)).2.2.2.2.2.2.2.1

theorem finishClear_refresh (s : State) (q : Quad) : (s.finishClear q).refresh = s.refresh :=
  (onlyHolds_keeps (serveQuad_holds _ q)).2.2.2.2.2.1

/-- A clear leaves its quad without debt (R166). -/
theorem finishClear_quad (s : State) (q r : Quad) : (s.finishClear q).quad r =
    if r = q then { s.quad q with debt := 0, state := .current } else s.quad r :=
  (onlyHolds_quad (serveQuad_holds _ q) r).trans (quad_setQuad _ q r _)

/-! ## The law of the accounts -/

/-- The debts in their range and the maintenance states true to them (R73, R74). -/
def State.accountLaw (s : State) : Prop := s.debtLaw ∧ s.maintenanceLaw

/-- Debts and maintenance states, the refresh in progress and RECLAIM_LEVEL are the same. -/
structure State.KeepsAccounts (s t : State) : Prop where
  debt : ∀ q, (t.quad q).debt = (s.quad q).debt
  state : ∀ q, (t.quad q).state = (s.quad q).state
  refresh : t.refresh = s.refresh
  level : t.config.reclaimLevel = s.config.reclaimLevel

theorem keepsAccounts_refl (s : State) : s.KeepsAccounts s := ⟨fun _ => rfl, fun _ => rfl, rfl, rfl⟩

theorem keepsAccounts_trans {s t u : State} (h1 : s.KeepsAccounts t) (h2 : t.KeepsAccounts u) : s.KeepsAccounts u :=
  ⟨fun q => (h2.debt q).trans (h1.debt q), fun q => (h2.state q).trans (h1.state q), h2.refresh.trans h1.refresh,
    h2.level.trans h1.level⟩

theorem keepsAccounts_of_eq {s t : State} (hq : t.quads = s.quads) (hr : t.refresh = s.refresh)
    (hc : t.config.reclaimLevel = s.config.reclaimLevel) : s.KeepsAccounts t :=
  ⟨fun _ => by unfold State.quad; rw [hq], fun _ => by unfold State.quad; rw [hq], hr, hc⟩

theorem keepsAccounts_of_holds {s t : State} (h : s.OnlyHolds t) : s.KeepsAccounts t := by
  obtain ⟨-, -, -, hquads, -, hrefresh, -, hconfig, -⟩ := onlyHolds_keeps h
  exact keepsAccounts_of_eq hquads hrefresh (by rw [hconfig])

theorem keepsAccounts_of_answers {s t : State} (h : s.OnlyAnswers t) : s.KeepsAccounts t :=
  keepsAccounts_of_holds (onlyHolds_of_answers h)

/-- The law of the accounts sees no more of the state than this. -/
theorem accountLaw_of_accounts {s t : State} (h : s.KeepsAccounts t) (law : s.accountLaw) : t.accountLaw := by
  obtain ⟨⟨range, refreshed⟩, level, state⟩ := law
  refine ⟨⟨fun q => ?_, fun r hr => ?_⟩, ?_, fun q => ?_⟩
  · rw [h.debt]
    exact range q
  · rw [h.debt]
    exact refreshed r (h.refresh ▸ hr)
  · rw [h.level]
    exact level
  · rw [h.level, h.debt, h.state]
    exact state q

/-- The law after the account of one quad has been set to a debt of the range, at least −3 while that quad is refreshed. -/
theorem accountLaw_of_quad {s t : State} {q : Quad} (law : s.accountLaw) (level : t.config.reclaimLevel = s.config.reclaimLevel)
    (others : ∀ r, r ≠ q → t.quad r = s.quad r) (range : -4 ≤ (t.quad q).debt ∧ (t.quad q).debt ≤ 12)
    (state : (t.quad q).state = maintenanceOf s.config.reclaimLevel (t.quad q).debt)
    (refreshed : ∀ r, t.refresh = some r → s.refresh = some r ∧ (r.quad = q → -3 ≤ (t.quad q).debt)) : t.accountLaw := by
  obtain ⟨⟨hrange, hrefreshed⟩, hlevel, hstate⟩ := law
  refine ⟨⟨fun r => ?_, fun r hr => ?_⟩, by rw [level]; exact hlevel, fun r => ?_⟩
  · by_cases h : r = q
    · exact h ▸ range
    · rw [others r h]
      exact hrange r
  · obtain ⟨hs, hd⟩ := refreshed r hr
    by_cases h : r.quad = q
    · rw [h]
      exact hd h
    · rw [others _ h]
      exact hrefreshed r hs
  · rw [level]
    by_cases h : r = q
    · rw [h]
      exact state
    · rw [others r h]
      exact hstate r

theorem maintenanceOf_zero {level : Nat} (h : 1 ≤ level) : maintenanceOf level 0 = .current := by
  unfold maintenanceOf
  rw [if_pos (by omega)]

theorem accountLaw_expireQuad {s : State} (law : s.accountLaw) (q : Quad) : (s.expireQuad q).accountLaw := by
  obtain ⟨-, -, -, -, -, hrefresh, -, hconfig, -⟩ := onlyHolds_keeps (expireQuad_holds s q)
  have own : (s.expireQuad q).quad q = s.expired q := (expireQuad_quad s q q).trans (if_pos rfl)
  obtain ⟨⟨range, refreshed⟩, -, state⟩ := id law
  have paid : (s.quad q).debt ≤ (s.expired q).debt ∧ (s.expired q).debt ≤ 12
      ∧ (s.expired q).state = maintenanceOf s.config.reclaimLevel (s.expired q).debt := by
    have hi := (range q).2
    unfold State.expired forceLevel
    split
    · split
      · next h =>
        exact ⟨by simp only [QuadAccount.atDebt]; omega, by simp only [QuadAccount.atDebt]; omega, rfl⟩
      · exact ⟨le_refl _, hi, state q⟩
    · exact ⟨le_refl _, hi, state q⟩
  obtain ⟨hlow, hhigh, hstate⟩ := paid
  refine accountLaw_of_quad law (by rw [hconfig]; rfl) (fun r hr => (expireQuad_quad s q r).trans (if_neg hr)) ?_ ?_ ?_
  · rw [own]
    exact ⟨(range q).1.trans hlow, hhigh⟩
  · rw [own, hstate]
  · intro r hr
    rw [own]
    have hr' : s.refresh = some r := hrefresh.symm.trans hr
    exact ⟨hr', fun e => le_trans (e ▸ refreshed r hr') hlow⟩

theorem accountLaw_finishRefresh {s : State} {r : RefreshRun} (law : s.accountLaw) (hr : s.refresh = some r) :
    (s.finishRefresh r.quad).accountLaw := by
  obtain ⟨⟨range, refreshed⟩, -, state⟩ := id law
  have low := refreshed r hr
  have high := (range r.quad).2
  have own := finishRefresh_quad s r.quad r.quad
  refine accountLaw_of_quad (q := r.quad) law (by rw [finishRefresh_config])
    (fun x hx => (finishRefresh_quad s r.quad x).trans (if_neg fun h => hx h.1)) ?_ ?_ fun x hx => nomatch hx
  · rw [own]
    split
    · exact ⟨by simp only [QuadAccount.atDebt]; omega, by simp only [QuadAccount.atDebt]; omega⟩
    · exact range r.quad
  · rw [own]
    split
    · rfl
    · exact state r.quad

theorem accountLaw_finishClear {s : State} (law : s.accountLaw) (q : Quad) : (s.finishClear q).accountLaw := by
  have own : (s.finishClear q).quad q = { s.quad q with debt := 0, state := .current } :=
    (finishClear_quad s q q).trans (if_pos rfl)
  refine accountLaw_of_quad law (by rw [finishClear_config]) (fun x hx => (finishClear_quad s q x).trans (if_neg hx)) ?_ ?_ ?_
  · rw [own]
    exact show (-4 : Int) ≤ 0 ∧ (0 : Int) ≤ 12 by decide
  · rw [own]
    exact (maintenanceOf_zero law.2.1.1).symm
  · intro r hr
    rw [own]
    exact ⟨(finishClear_refresh s q).symm.trans hr, fun _ => show (-3 : Int) ≤ 0 by decide⟩

/-- An evaluation of every quad makes the maintenance states true to whatever level of the item's range is in force. -/
theorem accountLaw_evaluateAll {s : State} (debts : s.debtLaw)
    (level : 1 ≤ s.config.reclaimLevel ∧ s.config.reclaimLevel ≤ 11) : s.evaluateAll.accountLaw := by
  obtain ⟨range, refreshed⟩ := debts
  refine ⟨⟨fun q => ?_, fun r hr => ?_⟩, by rw [evaluateAll_config]; exact level, fun q => ?_⟩
  · rw [evaluateAll_quad]
    exact range q
  · rw [evaluateAll_quad]
    exact refreshed r ((evaluateAll_refresh s).symm.trans hr)
  · rw [evaluateAll_quad, evaluateAll_config]
    rfl

/-- A quad that is eligible for refresh has a debt that one refresh less leaves in its range (R73, R88, R89). -/
theorem eligible_debt {s : State} {q : Quad} (level : 1 ≤ s.config.reclaimLevel) (h : s.eligible q = true) :
    -3 ≤ (s.quad q).debt := by
  unfold State.eligible State.target pullInDebt at h
  split at h
  · next target ht =>
    have above : target < (s.quad q).debt := of_decide_eq_true (Bool.and_eq_true _ _ ▸ h).2
    split at ht
    · obtain rfl := Option.some.inj ht
      split at above
      · omega
      · split at above <;> omega
    · cases ht
  · cases h

/-- A refresh starts on an eligible quad, or none does. -/
theorem refreshChoice_eligible (s : State) : s.refreshChoice = s
    ∨ ∃ q, s.refresh = none ∧ s.eligible q = true ∧ s.refreshChoice = s.startRefresh q := by
  unfold State.refreshChoice
  split
  · exact Or.inl rfl
  · next idle =>
    split
    · next q hq => exact Or.inr ⟨q, idle, refreshPick_eligible hq, rfl⟩
    · exact Or.inl rfl

theorem accountLaw_refreshChoice {s : State} (law : s.accountLaw) : s.refreshChoice.accountLaw := by
  rcases refreshChoice_eligible s with e | ⟨q, -, eligible, e⟩ <;> rw [e]
  · exact law
  · obtain ⟨⟨range, -⟩, level, state⟩ := law
    refine ⟨⟨range, fun r hr => ?_⟩, level, state⟩
    obtain rfl := Option.some.inj hr
    exact eligible_debt (s := s) level.1 eligible

theorem accountLaw_enterRetention {s : State} (law : s.accountLaw) : s.enterRetention.accountLaw := by
  rw [enterRetention_frame]
  exact law

theorem accountLaw_tryClearStart {s : State} (law : s.accountLaw) : s.tryClearStart.accountLaw := by
  rw [tryClearStart_frame]
  exact law

theorem accountLaw_settle {s : State} (law : s.accountLaw) : s.settle.accountLaw :=
  accountLaw_enterRetention (accountLaw_refreshChoice (accountLaw_of_accounts
    (keepsAccounts_trans (keepsAccounts_of_holds (arbiterChoice_holds s))
      (keepsAccounts_of_answers (finishSessions_answers _))) law))

/-! ## Requests -/

theorem releaseRole_accounts (s : State) (p : Port) : s.KeepsAccounts (s.releaseRole p) := by
  unfold State.releaseRole
  split <;> exact keepsAccounts_of_eq rfl rfl rfl

theorem attachSession_accounts (s : State) (p : Port) (t : Tag) (role : Byte) : s.KeepsAccounts (s.attachSession p t role) := by
  unfold State.attachSession
  split
  · exact keepsAccounts_of_answers (answer_answers _ _ _ _)
  · next asked _ =>
    refine keepsAccounts_trans (t := State.setSession { s with config := _ } p _) (keepsAccounts_of_eq rfl rfl ?_)
      (keepsAccounts_of_answers (answer_answers _ _ _ _))
    show (if s.grantedRole asked = .maintainer then { s.config with maintainer := some p } else s.config).reclaimLevel = _
    split <;> rfl

/-- The first steps of a DETACH and of a teardown: the session's new record, its role, its bursts. -/
theorem sessionEnd_accounts (s : State) (p : Port) (x : Session) :
    s.KeepsAccounts (((s.setSession p x).releaseRole p).removePortBursts p .cancelled) :=
  keepsAccounts_trans (keepsAccounts_trans (keepsAccounts_of_answers (setSession_answers s p x)) (releaseRole_accounts _ p))
    (keepsAccounts_of_holds (removePortBursts_holds _ p _))

theorem detachSession_accounts (s : State) (p : Port) (t : Tag) : s.KeepsAccounts (s.detachSession p t) := by
  unfold State.detachSession
  exact keepsAccounts_trans (sessionEnd_accounts s p _) (keepsAccounts_of_holds (detachHolds_holds _ p))

theorem teardownSession_accounts (s : State) (p : Port) : s.KeepsAccounts (s.teardownSession p) := by
  unfold State.teardownSession
  split
  case h_1 | h_2 => exact keepsAccounts_trans (sessionEnd_accounts s p _) (keepsAccounts_of_holds (teardownHolds_holds _ p))
  case h_3 | h_4 => exact keepsAccounts_refl s

theorem accountLaw_linkFault {s : State} (p : Port) (reason : FaultReason) (law : s.accountLaw) :
    (s.linkFault p reason).accountLaw :=
  accountLaw_settle (accountLaw_of_accounts
    (keepsAccounts_trans (keepsAccounts_of_answers (setLink_answers s p _)) (teardownSession_accounts _ p)) law)

theorem cfgRead_accounts (s : State) (p : Port) (t : Tag) (code index : Byte) : s.KeepsAccounts (s.cfgRead p t code index) := by
  have answered (a : Answer) : s.KeepsAccounts (s.answer p t a) := keepsAccounts_of_answers (answer_answers s p t a)
  unfold State.cfgRead
  split
  · exact answered _
  · split <;> exact answered _

theorem inspect_accounts (s : State) (p : Port) (t : Tag) (code number : Byte) :
    s.KeepsAccounts (s.inspect p t code number) := by
  unfold State.inspect
  split <;> exact keepsAccounts_of_answers (answer_answers _ _ _ _)

/-- A request that first changes something beside the accounts and then answers. -/
theorem accounts_answered {s u : State} (h : s.KeepsAccounts u) (p : Port) (t : Tag) (a : Answer) :
    s.KeepsAccounts (u.answer p t a) :=
  keepsAccounts_trans h (keepsAccounts_of_answers (answer_answers u p t a))

theorem faultClear_accounts (s : State) (p : Port) (t : Tag) (index : Byte) : s.KeepsAccounts (s.faultClear p t index) := by
  have refused (a : Answer) : s.KeepsAccounts (s.answer p t a) := accounts_answered (keepsAccounts_refl s) p t a
  unfold State.faultClear
  split
  · exact refused _
  · split
    · exact accounts_answered (s := s) (u := s.clearFaults) (keepsAccounts_of_eq rfl rfl rfl) p t _
    · split
      · split
        · exact accounts_answered (s := s) (u := s.removeFault _) (keepsAccounts_of_eq rfl rfl rfl) p t _
        · exact refused _
      · exact refused _

/-- The lapse flag is not of the debt or the maintenance state (R85). -/
theorem clearLapse_accounts (s : State) (q : Quad) : s.KeepsAccounts (s.clearLapse q) := by
  unfold State.clearLapse
  refine ⟨fun r => ?_, fun r => ?_, rfl, rfl⟩ <;> rw [quad_setQuad] <;> split
  · next h => rw [h]
  · rfl
  · next h => rw [h]
  · rfl

theorem lapseClear_accounts (s : State) (p : Port) (t : Tag) (quad : Byte) : s.KeepsAccounts (s.lapseClear p t quad) := by
  unfold State.lapseClear
  split
  · exact accounts_answered (keepsAccounts_refl s) p t _
  · split
    · refine accounts_answered (s := s) (u := { s with quads := s.quads.map (fun a => { a with lapse := false }) })
        ⟨fun q => ?_, fun q => ?_, rfl, rfl⟩ p t _ <;> simp only [State.quad, four_get_map]
    · split
      · exact accounts_answered (clearLapse_accounts s _) p t _
      · exact accounts_answered (keepsAccounts_refl s) p t _

theorem countClear_accounts (s : State) (p : Port) (t : Tag) (bank : Byte) : s.KeepsAccounts (s.countClear p t bank) := by
  unfold State.countClear
  split
  · exact accounts_answered (keepsAccounts_refl s) p t _
  · split
    · exact accounts_answered (s := s) (u := s.clearAllCounts) (keepsAccounts_of_eq rfl rfl rfl) p t _
    · split
      · exact accounts_answered (s := s) (u := s.clearCount _) (keepsAccounts_of_eq rfl rfl rfl) p t _
      · exact accounts_answered (keepsAccounts_refl s) p t _

/-- A write that passes the checks of R152 is of a value in its item's range. -/
theorem cfgRefusal_none {s : State} {p : Port} {i : Item} {v : Nat} (h : s.cfgRefusal p (some i) v = none) :
    i.inRange v = true := by
  unfold State.cfgRefusal at h
  simp only [] at h
  split at h
  · cases h
  · split at h
    · cases h
    · next hv => simpa using hv

/-- RECLAIM_LEVEL is evaluated where it is written; no other item comes into the accounts (R81, R153). -/
theorem accountLaw_applyItem {s : State} {i : Item} {v : Nat} (law : s.accountLaw) (hv : i.inRange v = true) :
    (s.applyItem i v).accountLaw := by
  unfold State.applyItem
  split
  · exact law
  · cases i with
    | reclaimLevel =>
      simp only [Item.inRange, Bool.and_eq_true, decide_eq_true_eq] at hv
      exact accountLaw_refreshChoice (accountLaw_evaluateAll (s := s.setItem .reclaimLevel v) law.1 hv)
    | pullIn => exact accountLaw_refreshChoice (s := s.setItem _ v) law
    | retentionInterval | holdQuota | grantPolicy | idleEntry => exact law

theorem accountLaw_answer {s : State} (p : Port) (t : Tag) (a : Answer) (law : s.accountLaw) : (s.answer p t a).accountLaw :=
  accountLaw_of_accounts (keepsAccounts_of_answers (answer_answers s p t a)) law

theorem accountLaw_cfgWrite {s : State} (p : Port) (t : Tag) (code index value : Byte) (law : s.accountLaw) :
    (s.cfgWrite p t code index value).accountLaw := by
  unfold State.cfgWrite
  split
  · exact accountLaw_answer p t _ law
  · next i hrefusal hitem =>
    rw [hitem] at hrefusal
    have applied := accountLaw_answer p t (.ok (.cfgWrite i.code i.index value.toNat))
      (accountLaw_applyItem law (cfgRefusal_none hrefusal))
    simp only []
    split
    · exact accountLaw_enterRetention applied
    · exact applied
  · exact accountLaw_answer p t _ law

theorem accountLaw_ifAttached {s : State} {f : State → State} (p : Port) (t : Tag) (law : s.accountLaw) (h : (f s).accountLaw) :
    (s.ifAttached p t f).accountLaw := by
  unfold State.ifAttached
  split
  · exact h
  · exact accountLaw_answer p t _ law

theorem accountLaw_unlessNone {s : State} {f : State → State} (p : Port) (t : Tag) (law : s.accountLaw) (h : (f s).accountLaw) :
    (s.unlessNone p t f).accountLaw := by
  unfold State.unlessNone
  split
  · exact accountLaw_answer p t _ law
  · exact h

theorem accountLaw_withoutStart {s : State} (law : s.accountLaw) (q : Quad) : (s.withoutStart q).accountLaw := by
  obtain ⟨⟨range, -⟩, maintenance⟩ := law
  exact ⟨⟨range, fun _ h => nomatch h⟩, maintenance⟩

theorem accountLaw_orderedOpen {s : State} (p : Port) (t : Tag) (bank : Byte) (row : BitVec 16) (mode : HoldMode) (wait : Bool)
    (law : s.accountLaw) : (s.orderedOpen p t bank row mode wait).accountLaw := by
  have opened {u : State} (hu : u.accountLaw) : (u.holdOpen p t bank row mode wait).accountLaw :=
    accountLaw_of_accounts (keepsAccounts_of_holds (holdOpen_holds u p t bank row mode wait)) hu
  rcases orderedOpen_cases s p t bank row mode wait with e | ⟨q, -, -, e⟩ <;> rw [e]
  · exact opened law
  · exact accountLaw_refreshChoice (opened (accountLaw_withoutStart law q))

theorem accountLaw_dispatch {s : State} (p : Port) (t : Tag) (r : Request) (law : s.accountLaw) :
    (s.dispatch p t r).accountLaw := by
  have kept {u : State} (h : s.KeepsAccounts u) : u.accountLaw := accountLaw_of_accounts h law
  have holds {u : State} (h : s.OnlyHolds u) : u.accountLaw := kept (keepsAccounts_of_holds h)
  cases r with
  | attach role =>
    show (s.requestAttach p t role).accountLaw
    unfold State.requestAttach
    split
    · exact kept (attachSession_accounts s p t role)
    · exact accountLaw_answer p t _ law
  | detach =>
    show (s.ifAttached p t (fun s => (s.detachSession p t).settle)).accountLaw
    exact accountLaw_ifAttached p t law (accountLaw_settle (kept (detachSession_accounts s p t)))
  | idle =>
    refine accountLaw_ifAttached p t law (accountLaw_enterRetention (accountLaw_answer p t _ ?_))
    exact kept (keepsAccounts_of_answers (setSession_answers s p _))
  | openBank bank row mode wait => exact accountLaw_unlessNone p t law (accountLaw_orderedOpen p t bank row mode wait law)
  | upgrade bank => exact accountLaw_unlessNone p t law (holds (holdUpgrade_holds s p t bank))
  | closeBank bank =>
    refine accountLaw_unlessNone p t law ?_
    have closed := holds (holdClose_holds s p t bank)
    split
    · exact accountLaw_refreshChoice closed
    · exact closed
  | read bank column units ac =>
    exact accountLaw_unlessNone p t law (holds (acceptBurst_holds s p t .read bank column units ac []))
  | write bank column units ac data =>
    exact accountLaw_unlessNone p t law (holds (acceptBurst_holds s p t .write bank column units ac data))
  | cfgRead item index => exact accountLaw_ifAttached p t law (kept (cfgRead_accounts s p t item index))
  | cfgWrite item index value => exact accountLaw_ifAttached p t law (accountLaw_cfgWrite p t item index value law)
  | inspect target number =>
    show (s.requestInspect p t target number).accountLaw
    unfold State.requestInspect
    split
    · exact kept (inspect_accounts s p t target number)
    · exact accountLaw_ifAttached p t law (kept (inspect_accounts s p t target number))
  | faultClear index => exact accountLaw_ifAttached p t law (kept (faultClear_accounts s p t index))
  | lapseClear quad => exact accountLaw_ifAttached p t law (kept (lapseClear_accounts s p t quad))
  | countClear bank => exact accountLaw_ifAttached p t law (kept (countClear_accounts s p t bank))

theorem accountLaw_take {s : State} (p : Port) (t : Tag) (r : Request) (law : s.accountLaw) : (s.take p t r).accountLaw := by
  refine accountLaw_dispatch p t r (accountLaw_of_accounts ?_ law)
  unfold State.beginRequest
  split <;> exact keepsAccounts_of_eq rfl rfl rfl

theorem keptByPackets_accountLaw : KeptByPackets State.accountLaw where
  link _ _ _ law := law
  fault p reason law := accountLaw_linkFault p reason law
  take p t r law := accountLaw_take p t r law
  wake law := law
  stamp _ law := law
  retention law := accountLaw_enterRetention law

/-! ## Commands -/

/-- Every quad is evaluated against the default level at RESET_N fall (R98, R156). -/
theorem accountLaw_resetFall {s : State} (law : s.accountLaw) : s.resetFall.accountLaw := by
  obtain ⟨-, -, -, hbanks, -, hrefresh, -⟩ := onlyHolds_keeps (resetBanks_holds s.resetMode.quieted)
  have debts : s.resetMode.resetBlocks.debtLaw := by
    have quads : s.resetMode.resetBlocks.quads = s.quads := by
      rw [resetBlocks_eq]
      simp only [clearAllCounts_quads, hbanks]
      show s.resetMode.quads = s.quads
      rw [resetMode_frame]
    have refresh : s.resetMode.resetBlocks.refresh = s.refresh := by
      rw [resetBlocks_eq]
      simp only [clearAllCounts_refresh, hrefresh]
      show s.resetMode.refresh = s.refresh
      rw [resetMode_frame]
    unfold State.debtLaw State.quad
    rw [quads, refresh]
    exact law.1
  obtain ⟨-, -, -, hquads, -, hrefresh, -, hconfig, -⟩ := onlyHolds_keeps (cutAtOnce_holds s.resetMode.resetBlocks)
  have evaluated : s.resetMode.resetBlocks.cutAtOnce.evaluateAll.accountLaw := by
    refine accountLaw_evaluateAll ?_ ?_
    · unfold State.debtLaw State.quad
      rw [hquads, hrefresh]
      exact debts
    · rw [hconfig, resetBlocks_eq]
      show 1 ≤ ConfigTable.default.reclaimLevel ∧ ConfigTable.default.reclaimLevel ≤ 11
      decide
  exact accountLaw_refreshChoice (accountLaw_of_accounts (keepsAccounts_of_answers (finishSessions_answers _)) evaluated)

theorem accountLaw_unclearAll {s : State} (law : s.accountLaw) : s.unclearAll.accountLaw := by
  have quad (q : Quad) : s.unclearAll.quad q = { s.quad q with debt := 0, state := .current } := by
    simp [State.unclearAll, State.quad]
  obtain ⟨-, level, -⟩ := law
  refine ⟨⟨fun q => ?_, fun r _ => ?_⟩, level, fun q => ?_⟩
  · rw [quad]
    exact show (-4 : Int) ≤ 0 ∧ (0 : Int) ≤ 12 by decide
  · rw [quad]
    exact show (-3 : Int) ≤ 0 by decide
  · rw [quad]
    exact (maintenanceOf_zero level.1).symm

theorem accountLaw_resetRise {s : State} (law : s.accountLaw) : s.resetRise.accountLaw := by
  unfold State.resetRise
  simp only []
  split
  · exact accountLaw_tryClearStart (accountLaw_unclearAll (s := State.setMode _ .clearing) law)
  · exact accountLaw_enterRetention (s := State.setMode _ .active) law

theorem accountLaw_powerOn (high : Bool) (carrier : Four Bool) (now epoch : Nat) (marks : RecentMarks) (pending : List Instr) :
    (State.powerOn high carrier now epoch marks pending).accountLaw := by
  have quad (q : Quad) : (State.powerOn high carrier now epoch marks pending).quad q = QuadAccount.powerOn :=
    four_get_all QuadAccount.powerOn q
  refine ⟨⟨fun q => ?_, fun _ h => nomatch h⟩, ?_, fun q => ?_⟩
  · rw [quad]
    decide
  · show 1 ≤ ConfigTable.default.reclaimLevel ∧ ConfigTable.default.reclaimLevel ≤ 11
    decide
  · rw [quad]
    exact (maintenanceOf_zero (level := ConfigTable.default.reclaimLevel) (by decide)).symm

theorem unitStep_accounts (s : State) (b : QueuedBurst) (k : Nat) : s.KeepsAccounts (s.unitStep b k).1 := by
  have frame := unitStep_onlyUnits s b k
  unfold State.OnlyUnits at frame
  exact keepsAccounts_of_eq (by rw [frame]) (by rw [frame]) (by rw [frame])

theorem stepNextUnit_accounts (s : State) (e : Execution) : s.KeepsAccounts (s.stepNextUnit e) :=
  keepsAccounts_trans (unitStep_accounts s e.burst e.results.length) (keepsAccounts_of_eq rfl rfl rfl)

theorem stepUnits_accounts : ∀ (n : Nat) (s : State), s.KeepsAccounts (State.stepUnits n s)
  | 0, s => keepsAccounts_refl s
  | n + 1, s => by
    unfold State.stepUnits
    split
    · next e _ =>
      exact keepsAccounts_trans (keepsAccounts_trans (t := s.reach e.nextUnitEnds) (keepsAccounts_of_eq rfl rfl rfl)
        (stepNextUnit_accounts _ e)) (stepUnits_accounts n _)
    · exact keepsAccounts_refl s

theorem accountLaw_reach {s : State} (law : s.accountLaw) (ends : Nat) : (s.reach ends).accountLaw :=
  accountLaw_of_accounts (keepsAccounts_of_eq rfl rfl rfl) law

theorem nextPeriod_accounts (s : State) : s.KeepsAccounts s.nextPeriod := keepsAccounts_of_eq rfl rfl rfl

/-- The quads at an expiry (R76). -/
theorem accountLaw_expireAll {s : State} (law : s.accountLaw) :
    (allFour.foldl (fun s q => s.expireQuad q) (s.reach s.timer.endsAt)).nextPeriod.accountLaw := by
  have expired : (allFour.foldl (fun s q => s.expireQuad q) (s.reach s.timer.endsAt)).accountLaw :=
    foldl_keeps (P := State.accountLaw) (fun _ q hs => accountLaw_expireQuad hs q) allFour (accountLaw_reach law _)
  exact accountLaw_of_accounts (nextPeriod_accounts _) expired

/-- Every command keeps the debts in their range and the maintenance states true to them. -/
theorem exec_keeps_accountLaw {i : Instr} {s t : State} (h : s.accountLaw) (hx : exec i s = .next t) : t.accountLaw := by
  have law := keptByPackets_accountLaw
  have holds {u v : State} (k : u.OnlyHolds v) (hu : u.accountLaw) : v.accountLaw :=
    accountLaw_of_accounts (keepsAccounts_of_holds k) hu
  cases i
  case powerOn high carrier =>
    obtain rfl := Host.Outcome.next.inj hx
    exact accountLaw_powerOn _ _ _ _ _ _
  case resetNFall =>
    obtain rfl := Host.Outcome.next.inj hx
    split
    · exact h
    · exact accountLaw_resetFall h
  case resetNRise =>
    obtain rfl := Host.Outcome.next.inj hx
    split
    · exact accountLaw_resetRise h
    · exact h
  case carrierLoss p =>
    obtain rfl := Host.Outcome.next.inj hx
    exact loseCarrier_keeps law p h
  case carrierReturn p =>
    obtain rfl := Host.Outcome.next.inj hx
    exact h
  case unitCorruption bank row column data check =>
    obtain rfl := Host.Outcome.next.inj hx
    exact h
  case burstUnitStep =>
    obtain ⟨e, -, -, -, rfl⟩ := burstUnitStep_next hx
    exact accountLaw_of_accounts (stepNextUnit_accounts _ e) (accountLaw_reach h e.nextUnitEnds)
  case executionCompletion =>
    obtain ⟨e, done, -, -, -, rfl⟩ := executionCompletion_next hx
    have stepped := accountLaw_of_accounts (stepUnits_accounts e.unitsLeft s) h
    exact accountLaw_settle (holds (finishBurst_holds _ done) (accountLaw_reach stepped e.endsAt))
  case cutCompletion =>
    obtain ⟨e, ends, -, -, rfl⟩ := cutCompletion_next hx
    have stepped := accountLaw_of_accounts (unitStep_accounts (s.reach ends) e.burst e.results.length) (accountLaw_reach h _)
    exact accountLaw_settle (holds (endCut_holds _ _) stepped)
  case openCompletion b =>
    obtain ⟨-, rfl⟩ := openCompletion_next hx
    exact accountLaw_settle (holds (completeOpen_holds (s.reachBank b) b) h)
  case dwellExpiry b =>
    obtain ⟨-, rfl⟩ := dwellExpiry_next hx
    exact h
  case closeCompletion b =>
    obtain ⟨-, rfl⟩ := closeCompletion_next hx
    exact accountLaw_enterRetention (accountLaw_refreshChoice (accountLaw_tryClearStart
      (holds (completeClose_holds (s.reachBank b) b) h)))
  case retentionTimerExpiry =>
    obtain rfl := Host.Outcome.next.inj hx
    exact accountLaw_settle (accountLaw_expireAll h)
  case refreshCompletion =>
    obtain ⟨r, hr, rfl⟩ := refreshCompletion_next hx
    exact accountLaw_enterRetention (accountLaw_refreshChoice (accountLaw_tryClearStart
      (accountLaw_finishRefresh (accountLaw_reach h r.endsAt) hr)))
  case clearCompletion =>
    obtain ⟨r, -, rfl⟩ := clearCompletion_next hx
    have finished := accountLaw_refreshChoice (accountLaw_finishClear (accountLaw_reach h (r.startedAt + clearTime)) r.quad)
    refine accountLaw_enterRetention ?_
    unfold State.afterClear
    split
    · exact finished
    · exact accountLaw_tryClearStart finished
  case wakeCompletion =>
    obtain ⟨ends, -, rfl⟩ := wakeCompletion_next hx
    exact finishWake_keeps law h
  case transmission p =>
    obtain ⟨bytes, -, rfl⟩ := transmission_next hx
    exact accountLaw_enterRetention (s := s.setLink p _) h
  all_goals
    obtain rfl := Host.Outcome.next.inj hx
    exact receive_keeps law _ _ h

/-- Settles O55: an expiry raises a debt only below 12, a refresh starts only on a debt that may fall by one, and each change of a debt or
of RECLAIM_LEVEL is followed by an evaluation. -/
theorem stepKeepsDebtAndMaintenanceLaws : Obligations.StepKeepsDebtAndMaintenanceLaws :=
  fun _ _ debts maintenance hx =>
    step_keeps (P := State.accountLaw) (fun _ h => h) exec_keeps_accountLaw (fun h => h) ⟨debts, maintenance⟩ hx

end Sys2Proof.Machine
end
section
/-!
SUPPORT. The refresh arbiter: which quad is eligible, and which of the eligible quads it starts (R88 to R92).
-/

namespace Sys2Proof.Machine

open Sys2Proof

/-! ## Eligible quads (R88, R89) -/

theorem quadWaited_iff (s : State) (q : Quad) : s.quadWaited q = true ↔ ∃ b, groupOf b = q ∧ (s.bank b).waitQueue ≠ [] := by
  simp only [State.quadWaited, List.any_eq_true, mem_quadBanks, Bool.not_eq_true', List.isEmpty_eq_false_iff]

theorem quadWaited_false (s : State) (q : Quad) : s.quadWaited q = false ↔ ∀ b, groupOf b = q → (s.bank b).waitQueue = [] := by
  rw [← Bool.not_eq_true, quadWaited_iff]
  simp only [not_exists, not_and, not_not]

/-- Eligibility, target by target. -/
theorem eligible_iff (s : State) (q : Quad) : s.eligible q = true ↔
    s.cleared q = true ∧ (∀ b, groupOf b = q → (s.bank b).phase = .closed)
      ∧ ((∃ b, groupOf b = q ∧ (s.bank b).waitQueue ≠ []) → (s.config.reclaimLevel : Int) - 1 < (s.quad q).debt)
      ∧ ((∀ b, groupOf b = q → (s.bank b).waitQueue = []) →
          (if s.config.pullIn.get q then (-4 : Int) else 0) < (s.quad q).debt) := by
  rw [← quadWaited_iff, ← quadWaited_false, ← quadClosed_iff]
  unfold State.eligible State.target pullInDebt
  cases s.cleared q with
  | false => simp
  | true => cases s.quadWaited q <;> simp

/-! ## The arbiter's order (R90) -/

/-- One quad looked at after the best of those before it. -/
def State.pickStep (s : State) (best : Option Quad) (q : Quad) : Option Quad :=
  if s.eligible q then
    match best with
    | none => some q
    | some r => if s.refreshBefore q r then some q else some r
  else best

theorem refreshPick_eq (s : State) : s.refreshPick = allFour.foldl s.pickStep none := rfl

/-- The best quad of a list is one of the list, or the one it began with. -/
theorem pick_mem (s : State) : ∀ (qs : List Quad) (best : Option Quad) (r : Quad), qs.foldl s.pickStep best = some r →
    best = some r ∨ r ∈ qs ∧ s.eligible r = true
  | [], _, _, h => Or.inl h
  | q :: qs, best, r, h => by
    rcases pick_mem s qs (s.pickStep best q) r h with hp | ⟨hr, he⟩
    · unfold State.pickStep at hp
      split at hp
      · next hq =>
        split at hp
        · exact Or.inr (Option.some.inj hp ▸ ⟨List.mem_cons_self, hq⟩)
        · split at hp
          · exact Or.inr (Option.some.inj hp ▸ ⟨List.mem_cons_self, hq⟩)
          · exact Or.inl hp
      · exact Or.inl hp
    · exact Or.inr ⟨List.mem_cons_of_mem _ hr, he⟩

/-- The best quad so far stays where no later one comes before it. -/
theorem pick_stays {s : State} {q : Quad} : ∀ qs : List Quad,
    (∀ r ∈ qs, s.eligible r = true → s.refreshBefore r q = false) → qs.foldl s.pickStep (some q) = some q
  | [], _ => rfl
  | r :: qs, h => by
    have here : s.pickStep (some q) r = some q := by
      unfold State.pickStep
      split
      · next hr => simp only [h r List.mem_cons_self hr, Bool.false_eq_true, if_false]
      · rfl
    rw [List.foldl_cons, here]
    exact pick_stays qs fun r hr => h r (List.mem_cons_of_mem _ hr)

/-- The quads before and after one of the four. -/
theorem allFour_split (q : Quad) :
    ∃ before after, allFour = before ++ q :: after ∧ (∀ r ∈ before, r < q) ∧ ∀ r ∈ after, q < r := by
  refine ⟨allFour.take q.val, allFour.drop (q.val + 1), ?_⟩
  revert q
  decide

/-- The quad that comes before every other eligible one, by `refreshBefore` or by its number, is picked. -/
theorem refreshPick_first {s : State} {q : Quad} (hq : s.eligible q = true)
    (lower : ∀ r, r < q → s.eligible r = true → s.refreshBefore q r = true)
    (higher : ∀ r, q < r → s.eligible r = true → s.refreshBefore r q = false) : s.refreshPick = some q := by
  obtain ⟨before, after, hsplit, hbefore, hafter⟩ := allFour_split q
  have taken : s.pickStep (before.foldl s.pickStep none) q = some q := by
    unfold State.pickStep
    rw [if_pos hq]
    split
    · rfl
    · next r hr =>
      obtain ⟨hm, he⟩ := (pick_mem s before none r hr).resolve_left fun h => nomatch h
      rw [if_pos (lower r (hbefore r hm) he)]
  rw [refreshPick_eq, hsplit, List.foldl_append, List.foldl_cons, taken]
  exact pick_stays after fun r hr => higher r (hafter r hr)

theorem refreshPick_none {s : State} (h : ∀ q, s.eligible q = false) : s.refreshPick = none :=
  Option.eq_none_iff_forall_ne_some.2 fun q hq => by
    have eligible := refreshPick_eligible hq
    rw [h q] at eligible
    cases eligible

theorem refreshRank_forced (s : State) (q : Quad) : s.refreshRank q = 1 ↔ (s.quad q).state = .forced := by
  unfold State.refreshRank
  cases (s.quad q).state with
  | forced => simp
  | due => simp
  | current =>
    simp only [reduceCtorEq, iff_false]
    split <;> decide

/-- The arbiter's order as R90 puts it, ties by number among them. -/
def State.refreshFirst (s : State) (q r : Quad) : Prop :=
  s.refreshRank q < s.refreshRank r
    ∨ (s.refreshRank q = s.refreshRank r
        ∧ (((s.quad q).state = .forced ∧ q < r)
          ∨ ((s.quad q).state ≠ .forced
              ∧ ((s.quad r).debt < (s.quad q).debt ∨ ((s.quad r).debt = (s.quad q).debt ∧ q < r)))))

theorem refreshBefore_iff (s : State) (q r : Quad) : s.refreshBefore q r = true ↔
    s.refreshRank q < s.refreshRank r
      ∨ s.refreshRank q = s.refreshRank r ∧ (s.quad q).state ≠ .forced ∧ (s.quad r).debt < (s.quad q).debt := by
  unfold State.refreshBefore
  simp only [Bool.or_eq_true, Bool.and_eq_true, decide_eq_true_eq, beq_iff_eq, bne_iff_ne, ne_eq, refreshRank_forced,
    and_assoc]

theorem refreshBefore_of_first {s : State} {q r : Quad} (h : s.refreshFirst q r) (hr : r < q) : s.refreshBefore q r = true := by
  rw [refreshBefore_iff]
  rcases h with hrank | ⟨hrank, ⟨-, hn⟩ | ⟨hstate, hdebt | ⟨-, hn⟩⟩⟩
  · exact Or.inl hrank
  · exact absurd hn (lt_asymm hr)
  · exact Or.inr ⟨hrank, hstate, hdebt⟩
  · exact absurd hn (lt_asymm hr)

theorem not_refreshBefore_of_first {s : State} {q r : Quad} (h : s.refreshFirst q r) : s.refreshBefore r q = false := by
  rw [← Bool.not_eq_true, refreshBefore_iff]
  have forced : s.refreshRank q = s.refreshRank r → ((s.quad q).state = .forced ↔ (s.quad r).state = .forced) := fun e => by
    rw [← refreshRank_forced, ← refreshRank_forced, e]
  rintro (hrank' | ⟨hrank', hstate', hdebt'⟩)
  · rcases h with hrank | ⟨hrank, -⟩ <;> omega
  · rcases h with hrank | ⟨-, ⟨hstate, -⟩ | ⟨-, hdebt | ⟨hdebt, -⟩⟩⟩
    · omega
    · exact hstate' ((forced hrank'.symm).1 hstate)
    · omega
    · omega

/-! ## The arbiter's choice (R91, R92) -/

theorem refreshChoice_idle {s : State} (h : s.refresh ≠ none ∨ ∀ q, s.eligible q = false) : s.refreshChoice = s := by
  unfold State.refreshChoice
  split
  · rfl
  · next idle =>
    rw [refreshPick_none (h.resolve_left fun hn => hn idle)]

theorem refreshChoice_picked {s : State} {q : Quad} (idle : s.refresh = none) (h : s.refreshPick = some q) :
    s.refreshChoice = s.startRefresh q := by
  unfold State.refreshChoice
  rw [idle, h]

theorem startRefresh_bank (s : State) (q : Quad) (b : Bank) :
    (s.startRefresh q).bank b = if groupOf b = q then { s.bank b with phase := .refreshing } else s.bank b :=
  bank_setQuadPhase s q .refreshing b

/-- Settles O46: looking at the quads by number, the arbiter keeps the best so far, and the quad that R90 puts first replaces every
lower one and is replaced by no higher one. -/
theorem refreshArbiterStartsTheFirstEligibleQuad : Obligations.RefreshArbiterStartsTheFirstEligibleQuad := by
  intro s rank hrank
  obtain rfl : rank = s.refreshRank := funext hrank
  refine ⟨eligible_iff s, refreshChoice_idle, fun q idle eligible first => ?_⟩
  have before : ∀ r, r ≠ q → s.eligible r = true → s.refreshFirst q r := first
  have picked : s.refreshPick = some q := refreshPick_first eligible
    (fun r hr he => refreshBefore_of_first (before r hr.ne he) hr)
    (fun r hr he => not_refreshBefore_of_first (before r hr.ne' he))
  exact ⟨s.startRefresh q, refreshChoice_picked idle picked, rfl, startRefresh_bank s q⟩

end Sys2Proof.Machine
end
section
/-!
SUPPORT. REFRESH_COMPLETION: the debt that is paid, the banks that are CLOSED again and offered for queue service, and the choices that
follow (R93).
-/

namespace Sys2Proof.Machine

open Sys2Proof

/-! ## Maintenance states by debt (R74) -/

theorem maintenanceOf_current (level : Nat) (debt : Int) : maintenanceOf level debt = .current ↔ debt < level := by
  unfold maintenanceOf
  by_cases h : debt < level
  · simp [h]
  · rw [if_neg h]
    split <;> simp [h]

theorem maintenanceOf_due (level : Nat) (debt : Int) :
    maintenanceOf level debt = .due ↔ level ≤ debt ∧ debt < 12 := by
  unfold maintenanceOf forceLevel
  split
  · simp only [reduceCtorEq, false_iff]
    omega
  · split
    · simp only [true_iff]
      omega
    · simp only [reduceCtorEq, false_iff]
      omega

/-! ## Queue service of a quad (R32) -/

/-- At most bank records and the stamp of the next grant differ. -/
def State.OnlyGrants (s t : State) : Prop := t = { s with banks := t.banks, stamp := t.stamp }

theorem onlyGrants_trans {s t u : State} (h1 : s.OnlyGrants t) (h2 : t.OnlyGrants u) : s.OnlyGrants u := by
  unfold State.OnlyGrants at *
  rw [h2, h1]

theorem serveBank_grants (s : State) (b : Bank) : s.OnlyGrants (s.serveBank b) := by
  unfold State.serveBank
  split
  · split <;> rfl
  · rfl

theorem serveQuad_grants (s : State) (q : Quad) : s.OnlyGrants (s.serveQuad q) := by
  have all : ∀ (bs : List Bank) (s : State), s.OnlyGrants (bs.foldl (fun s b => s.serveBank b) s) := fun bs => by
    induction bs with
    | nil => exact fun _ => rfl
    | cons b bs ih => exact fun s => onlyGrants_trans (serveBank_grants s b) (ih (s.serveBank b))
  exact all (quadBanks q) s

theorem serveBank_not_closed {s : State} {b : Bank} (h : (s.bank b).phase ≠ .closed) : s.serveBank b = s := by
  unfold State.serveBank
  rw [if_neg fun hc => h hc.1]

/-- A quad without a CLOSED bank is not served. -/
theorem serveQuad_not_closed {s : State} {q : Quad} (h : ∀ b, groupOf b = q → (s.bank b).phase ≠ .closed) :
    s.serveQuad q = s := by
  have all (bs : List Bank) : (∀ b ∈ bs, groupOf b = q) → bs.foldl (fun s b => s.serveBank b) s = s := by
    induction bs with
    | nil => exact fun _ => rfl
    | cons b bs ih =>
      intro hbs
      rw [List.foldl_cons, serveBank_not_closed (h b (hbs b List.mem_cons_self))]
      exact ih fun c hc => hbs c (List.mem_cons_of_mem _ hc)
  exact all (quadBanks q) fun b hb => (mem_quadBanks q b).1 hb

theorem quadBanks_nodup (q : Quad) : (quadBanks q).Nodup := by
  revert q
  decide

/-- Each bank of a quad is served once, in a state that differs by the grants on the others. -/
theorem serveQuad_bank_mem (s : State) {q : Quad} {b : Bank} (hb : groupOf b = q) : ∃ u : State,
    s.OnlyHolds u ∧ u.bank b = s.bank b ∧ (s.serveQuad q).bank b = (u.serveBank b).bank b := by
  obtain ⟨before, after, hsplit⟩ := List.append_of_mem ((mem_quadBanks q b).2 hb)
  have nodup : (before ++ b :: after).Nodup := hsplit ▸ quadBanks_nodup q
  have hbefore : b ∉ before := fun hm => (List.nodup_append.1 nodup).2.2 b hm b List.mem_cons_self rfl
  have hafter : b ∉ after := (List.nodup_cons.1 (List.nodup_append.1 nodup).2.1).1
  refine ⟨before.foldl (fun s b => s.serveBank b) s, onlyHolds_foldl serveBank_holds before s,
    foldl_bank_ne serveBank_onlyBank before s b hbefore, ?_⟩
  unfold State.serveQuad
  rw [hsplit, List.foldl_append, List.foldl_cons]
  exact foldl_bank_ne serveBank_onlyBank after _ b hafter

theorem cleared_of_holds {s t : State} (h : s.OnlyHolds t) (q : Quad) : t.cleared q = s.cleared q := by
  obtain ⟨-, hmode, -⟩ := onlyHolds_keeps h
  unfold State.cleared State.clearState
  rw [hmode]

/-- A bank that queue service leaves as it is, seen after its quad has been served. -/
theorem serveQuad_unserved {s : State} {q : Quad} {b : Bank} (hb : groupOf b = q)
    (h : (s.bank b).waitQueue = [] ∨ s.cleared q = false ∨ (s.quad q).state ≠ .current) : (s.serveQuad q).bank b = s.bank b := by
  obtain ⟨u, hu, hbank, hserved⟩ := serveQuad_bank_mem s hb
  rw [hserved, serveBank_unserved, hbank]
  rw [hbank, hb, cleared_of_holds hu, onlyHolds_quad hu]
  exact h

/-- A bank that queue service grants, seen after its quad has been served. -/
theorem serveQuad_served {s : State} {q : Quad} {b : Bank} {w : WaitEntry} (hb : groupOf b = q)
    (hclosed : (s.bank b).phase = .closed) (hcleared : s.cleared q = true) (hcurrent : (s.quad q).state = .current)
    (h : s.servedFirst b w) : (s.bank b).grantedTo ((s.serveQuad q).bank b) w s.now := by
  obtain ⟨u, hu, hbank, hserved⟩ := serveQuad_bank_mem s hb
  obtain ⟨hnow, -, -, -, -, -, -, hconfig, -⟩ := onlyHolds_keeps hu
  have served : u.servedFirst b w := by
    unfold State.servedFirst
    rw [hbank, hconfig]
    exact h
  rw [hserved, serveBank_served (by rw [hbank]; exact hclosed) (by rw [hb, cleared_of_holds hu]; exact hcleared)
    (by rw [hb, onlyHolds_quad hu]; exact hcurrent) served, ← hbank, ← hnow]
  exact grantBatch_bank u b w

/-! ## The debt paid (R93) -/

/-- Where the debt has fallen, an evaluation revokes and reclaims nothing; and while no bank of the quad is CLOSED, it grants nothing. -/
theorem evaluateQuad_falling {s : State} {q : Quad} {d : Int} (level : s.config.reclaimLevel ≤ 11)
    (hstate : (s.quad q).state = maintenanceOf s.config.reclaimLevel d) (hd : (s.quad q).debt ≤ d)
    (shut : ∀ b, groupOf b = q → (s.bank b).phase ≠ .closed) :
    s.evaluateQuad q = s.setMaintenance q (maintenanceOf s.config.reclaimLevel (s.quad q).debt) := by
  have notRisen (hold : (s.quad q).state = .current) : maintenanceOf s.config.reclaimLevel (s.quad q).debt = .current :=
    (maintenanceOf_current _ _).2 (lt_of_le_of_lt hd ((maintenanceOf_current _ _).1 (hstate.symm.trans hold)))
  have notForced (hold : (s.quad q).state = .due) : maintenanceOf s.config.reclaimLevel (s.quad q).debt ≠ .forced := fun hnew => by
    have below := ((maintenanceOf_due _ d).1 (hstate.symm.trans hold)).2
    have above := (maintenanceOf_forced level _).1 hnew
    omega
  unfold State.evaluateQuad
  simp only []
  split
  case h_1 hold hnew => exact absurd (hnew.symm.trans (notRisen hold)) (by decide)
  case h_2 hold hnew => exact absurd (hnew.symm.trans (notRisen hold)) (by decide)
  case h_3 hold hnew => exact absurd hnew (notForced hold)
  case h_4 hold hnew => rw [hnew]; exact serveQuad_not_closed (s := s.setMaintenance q _) shut
  case h_5 hold hnew | h_6 hold hnew | h_7 hold hnew | h_8 hold hnew | h_9 hold hnew => rw [hnew]

/-- The account of a quad after its refresh (R73, R93). -/
def State.paid (s : State) (q : Quad) : QuadAccount :=
  if s.cleared q then (s.quad q).atDebt s.config.reclaimLevel ((s.quad q).debt - 1) else s.quad q

/-- The quad's banks CLOSED again and its debt paid, before they are offered (R93). -/
def State.refreshed (s : State) (q : Quad) : State := (s.setQuad q (s.paid q)).setQuadPhase q .closed

theorem finishRefresh_eq {s : State} {r : RefreshRun} (hr : s.refresh = some r) (level : s.maintenanceLaw) (law : s.phaseLaw) :
    s.finishRefresh r.quad = { (s.refreshed r.quad).serveQuad r.quad with refresh := none } := by
  have paid : (if s.cleared r.quad then (s.setDebt r.quad ((s.quad r.quad).debt - 1)).evaluateQuad r.quad else s)
      = s.setQuad r.quad (s.paid r.quad) := by
    unfold State.paid
    split
    · have shut (b : Bank) (hb : groupOf b = r.quad) : (s.bank b).phase ≠ .closed := by
        rw [law.2 r hr b hb]
        decide
      have own : (s.setDebt r.quad ((s.quad r.quad).debt - 1)).quad r.quad =
          { s.quad r.quad with debt := (s.quad r.quad).debt - 1 } := quad_setQuad_same s r.quad _
      rw [evaluateQuad_falling (s := s.setDebt r.quad _) (d := (s.quad r.quad).debt) level.1.2 (by rw [own]; exact level.2 r.quad)
        (by rw [own]; exact sub_le_self _ (by decide)) shut]
      unfold State.setMaintenance
      rw [own]
      exact setQuad_setQuad s r.quad _ _
    · simp [State.setQuad, State.quad]
  unfold State.finishRefresh State.refreshed
  simp only []
  rw [paid]

section
variable {s : State} {q : Quad}

theorem refreshed_bank (b : Bank) :
    (s.refreshed q).bank b = if groupOf b = q then { s.bank b with phase := .closed } else s.bank b :=
  bank_setQuadPhase _ q .closed b

theorem refreshed_quad : (s.refreshed q).quad q = s.paid q := quad_setQuad_same s q _

theorem paid_of_cleared (h : s.cleared q = true) :
    s.paid q = (s.quad q).atDebt s.config.reclaimLevel ((s.quad q).debt - 1) := if_pos h

theorem refreshed_served_other {b : Bank} (hb : groupOf b ≠ q) : ((s.refreshed q).serveQuad q).bank b = s.bank b := by
  rw [serveQuad_bank_ne _ q b hb, refreshed_bank, if_neg hb]

theorem refreshed_unserved {b : Bank} (hb : groupOf b = q)
    (h : (s.bank b).waitQueue = [] ∨ s.cleared q = false ∨ (s.paid q).state ≠ .current) :
    ((s.refreshed q).serveQuad q).bank b = { s.bank b with phase := .closed } := by
  have closed : (s.refreshed q).bank b = { s.bank b with phase := .closed } := (refreshed_bank b).trans (if_pos hb)
  rw [serveQuad_unserved hb, closed]
  rw [closed, refreshed_quad]
  exact h

theorem refreshed_served {b : Bank} {w : WaitEntry} (hb : groupOf b = q) (hcleared : s.cleared q = true)
    (hcurrent : (s.paid q).state = .current) (h : s.servedFirst b w) :
    (s.bank b).grantedTo (((s.refreshed q).serveQuad q).bank b) w s.now := by
  have closed : (s.refreshed q).bank b = { s.bank b with phase := .closed } := (refreshed_bank b).trans (if_pos hb)
  have served : (s.refreshed q).servedFirst b w := by
    unfold State.servedFirst
    rw [closed]
    exact h
  have granted := serveQuad_served (s := s.refreshed q) hb (by rw [closed]) hcleared (by rw [refreshed_quad]; exact hcurrent) served
  rw [closed] at granted
  exact granted

end

/-! ## The choices that follow -/

/-- A bank that is not CLOSED is past the clear start, the refresh arbiter and retention entry. -/
theorem choices_bank_of_not_closed {s : State} {b : Bank} (h : (s.bank b).phase ≠ .closed) :
    s.tryClearStart.refreshChoice.enterRetention.bank b = s.bank b := by
  have cleared := tryClearStart_bank_of_not_closed h
  rw [enterRetention_bank, refreshChoice_bank_of_not_closed (by rw [cleared]; exact h), cleared]

theorem choices_quad (s : State) (q : Quad) : s.tryClearStart.refreshChoice.enterRetention.quad q = s.quad q := by
  unfold State.quad
  rw [enterRetention_quads, refreshChoice_quads, tryClearStart_quads]

theorem choices_refresh {s : State} (h : s.refresh = none) : s.tryClearStart.refreshChoice.enterRetention.refresh = none
    ∨ ∃ q, s.tryClearStart.refreshChoice.enterRetention.refresh = some { quad := q, endsAt := s.now + 560 } := by
  rw [enterRetention_frame]
  rcases refreshChoice_cases s.tryClearStart with e | ⟨q, -, -, e⟩ <;> rw [e]
  · rw [tryClearStart_frame]
    exact Or.inl h
  · refine Or.inr ⟨q, ?_⟩
    show some (RefreshRun.mk q (s.tryClearStart.now + refreshTime)) = _
    rw [tryClearStart_now]
    rfl

theorem choices_store (s : State) : s.tryClearStart.refreshChoice.enterRetention.now = s.now
    ∧ s.tryClearStart.refreshChoice.enterRetention.array =
        { s.array with epoch := s.tryClearStart.refreshChoice.enterRetention.array.epoch }
    ∧ s.tryClearStart.refreshChoice.enterRetention.timer = s.timer
    ∧ s.tryClearStart.refreshChoice.enterRetention.integrity = s.integrity
    ∧ s.tryClearStart.refreshChoice.enterRetention.pending = s.pending := by
  obtain ⟨hnow, harray, htimer, hintegrity, hpending⟩ :=
    keepsStore_trans (refreshChoice_store s.tryClearStart) (enterRetention_store _)
  rw [hnow, harray, htimer, hintegrity, hpending, tryClearStart_frame]
  exact ⟨rfl, rfl, rfl, rfl, rfl⟩

/-! ## The obligation -/

theorem refreshCompletion_exec {s : State} {r : RefreshRun} (hr : s.refresh = some r) : exec .refreshCompletion s =
    .next ((s.reach r.endsAt).finishRefresh r.quad).tryClearStart.refreshChoice.enterRetention := by
  show execRefreshCompletion s = _
  unfold execRefreshCompletion
  rw [hr]

/-- Settles O45: a falling debt neither revokes nor reclaims, and the banks are not CLOSED yet when it is evaluated, so that all grants
are those of the offer after it. -/
theorem refreshCompletionPaysDebt : Obligations.RefreshCompletionPaysDebt := by
  intro s r hr
  have quad (q : Quad) : ((s.reach r.endsAt).finishRefresh r.quad).tryClearStart.refreshChoice.enterRetention.quad q =
      if q = r.quad ∧ s.cleared r.quad = true then
        (s.quad r.quad).atDebt s.config.reclaimLevel ((s.quad r.quad).debt - 1)
      else s.quad q :=
    (choices_quad _ q).trans (finishRefresh_quad (s.reach r.endsAt) r.quad q)
  have own : ((s.reach r.endsAt).finishRefresh r.quad).tryClearStart.refreshChoice.enterRetention.quad r.quad =
      s.paid r.quad := by
    rw [quad]
    unfold State.paid
    simp only [true_and]
  obtain ⟨hnow, harray, htimer, hintegrity, hpending⟩ := choices_store ((s.reach r.endsAt).finishRefresh r.quad)
  obtain ⟨now, array, timer, integrity, pending⟩ := finishRefresh_store (s.reach r.endsAt) r.quad
  refine ⟨_, (s.reach r.endsAt).finishRefresh r.quad, _, refreshCompletion_exec hr, rfl, tryClearStart_evaluated _, rfl,
    hnow.trans now, fun hc => own.trans (paid_of_cleared hc), fun hc => own.trans (if_neg (by rw [hc]; decide)),
    fun q hq => (quad q).trans (if_neg fun h => hq h.1), ?_, fun level law => ?_, ?_, hintegrity.trans integrity, ?_,
    htimer.trans timer, hpending.trans pending⟩
  · rw [hnow]
    exact choices_refresh rfl
  · have finished := finishRefresh_eq (s := s.reach r.endsAt) hr level law
    have bank (b : Bank) : ((s.reach r.endsAt).finishRefresh r.quad).bank b =
        (((s.reach r.endsAt).refreshed r.quad).serveQuad r.quad).bank b := by
      rw [finished]
      rfl
    rw [own]
    refine ⟨?_, fun b hb => ?_, fun b hb hunserved => ?_, fun b w hb hcleared hcurrent hserved => ?_⟩
    · have quads : ((s.reach r.endsAt).finishRefresh r.quad).tryClearStart.refreshChoice.enterRetention.quads =
          ((s.reach r.endsAt).finishRefresh r.quad).quads := by
        rw [enterRetention_quads, refreshChoice_quads, tryClearStart_quads]
      have granted := serveQuad_grants ((s.reach r.endsAt).refreshed r.quad) r.quad
      unfold State.OnlyGrants at granted
      rw [hnow, quads, finished, granted]
      rfl
    · rw [bank]
      exact refreshed_served_other (s := s.reach r.endsAt) hb
    · rw [bank]
      exact refreshed_unserved (s := s.reach r.endsAt) hb hunserved
    · have granted : (s.bank b).grantedTo (((s.reach r.endsAt).finishRefresh r.quad).bank b) w
          (s.reach r.endsAt).now := by
        rw [bank]
        exact refreshed_served (s := s.reach r.endsAt) hb hcleared hcurrent hserved
      rw [hnow, now]
      refine ⟨granted, choices_bank_of_not_closed ?_⟩
      obtain ⟨joins, -, opening, -⟩ := granted
      rw [opening]
      exact BankPhase.noConfusion
  · rw [harray, array]
    rfl
  · rw [enterRetention_config, refreshChoice_config, tryClearStart_config, finishRefresh_config]
    rfl

end Sys2Proof.Machine
end
section
/-!
SUPPORT. Entries generated for a port: where a notice enters its queue, and which entries the retention controller and the hold
controller generate (R46, R78, R84, R127, R128).
-/

namespace Sys2Proof.Machine

open Sys2Proof

/-! ## One entry placed (R128) -/

theorem placeEntry_new {queue : List OutEntry} {e : OutEntry} (h : ∀ x ∈ queue, x.sameSubject e = false) :
    placeEntry queue e = queue ++ [e] := by
  unfold placeEntry
  rw [if_neg]
  rw [List.any_eq_true]
  rintro ⟨x, hx, hs⟩
  rw [h x hx] at hs
  cases hs

theorem placeEntry_repeated {before after : List OutEntry} {x e : OutEntry} (hx : x.sameSubject e = true)
    (h : ∀ y ∈ before ++ after, y.sameSubject e = false) :
    placeEntry (before ++ x :: after) e = before ++ x.updateBy e :: after := by
  have others (l : List OutEntry) (hl : ∀ y ∈ l, y.sameSubject e = false) :
      l.map (fun y => if y.sameSubject e then y.updateBy e else y) = l :=
    (List.map_congr_left fun y hy => by rw [hl y hy, if_neg Bool.false_ne_true]; rfl).trans (List.map_id l)
  unfold placeEntry
  rw [if_pos (List.any_eq_true.2 ⟨x, by simp, hx⟩), List.map_append, List.map_cons, if_pos hx,
    others before fun y hy => h y (List.mem_append_left _ hy), others after fun y hy => h y (List.mem_append_right _ hy)]

/-- A queued entry keeps its place; one of another subject keeps its content too. -/
theorem placeEntry_at (before after : List OutEntry) (x e : OutEntry) : ∃ before' after',
    placeEntry (before ++ x :: after) e = before' ++ (if x.sameSubject e then x.updateBy e else x) :: after'
      ∧ before'.length = before.length := by
  unfold placeEntry
  split
  · exact ⟨_, _, by rw [List.map_append, List.map_cons], List.length_map _⟩
  · next h =>
    have other : ¬ x.sameSubject e = true := fun hx => h (List.any_eq_true.2 ⟨x, by simp, hx⟩)
    exact ⟨before, after ++ [e], by rw [if_neg other, List.append_assoc, List.cons_append], rfl⟩

theorem placeEntries_at {x : OutEntry} : ∀ (es before after : List OutEntry), (∀ e ∈ es, x.sameSubject e = false) →
    ∃ before' after', es.foldl placeEntry (before ++ x :: after) = before' ++ x :: after' ∧ before'.length = before.length
  | [], before, after, _ => ⟨before, after, rfl, rfl⟩
  | e :: es, before, after, h => by
    obtain ⟨before1, after1, heq, hlen⟩ := placeEntry_at before after x e
    rw [if_neg (by rw [h e List.mem_cons_self]; decide)] at heq
    obtain ⟨before2, after2, heq2, hlen2⟩ := placeEntries_at (x := x) es before1 after1 fun y hy => h y (List.mem_cons_of_mem _ hy)
    exact ⟨before2, after2, by rw [List.foldl_cons, heq, heq2], hlen2.trans hlen⟩

/-- A notice with another count. -/
def OutEntry.recount : OutEntry → Nat → OutEntry
  | .reclaim b row debt _, n => .reclaim b row debt n
  | .revoked b row _, n => .revoked b row n
  | .lapse q _, n => .lapse q n
  | .response t a, _ => .response t a

/-- An updated notice has the new one's content, and a count of its own. -/
theorem updateBy_recount {x e : OutEntry} (h : x.sameSubject e = true) : ∃ n, x.updateBy e = e.recount n := by
  cases x <;> cases e <;> simp only [OutEntry.sameSubject, beq_iff_eq, Bool.false_eq_true] at h <;> subst h <;> exact ⟨_, rfl⟩

/-- A notice is in its queue once it has been placed. -/
theorem placeEntry_self (queue : List OutEntry) (e : OutEntry) : ∃ n, e.recount n ∈ placeEntry queue e := by
  by_cases h : ∀ x ∈ queue, x.sameSubject e = false
  · rw [placeEntry_new h]
    obtain ⟨n, hn⟩ : ∃ n, e.recount n = e := by
      cases e with
      | response t a => exact ⟨0, rfl⟩
      | reclaim b row debt n => exact ⟨n, rfl⟩
      | revoked b row n => exact ⟨n, rfl⟩
      | lapse q n => exact ⟨n, rfl⟩
    exact ⟨n, List.mem_append_right _ (List.mem_singleton.2 hn)⟩
  · simp only [not_forall, Bool.not_eq_false] at h
    obtain ⟨x, hx, hs⟩ := h
    obtain ⟨n, hn⟩ := updateBy_recount hs
    refine ⟨n, ?_⟩
    unfold placeEntry
    rw [if_pos (List.any_eq_true.2 ⟨x, hx, hs⟩), ← hn]
    exact List.mem_map.2 ⟨x, hx, if_pos hs⟩

theorem sameSubject_recount (e : OutEntry) (n : Nat) (x : OutEntry) : (e.recount n).sameSubject x = e.sameSubject x := by
  cases e <;> cases x <;> rfl

theorem sameSubject_comm (e x : OutEntry) : e.sameSubject x = x.sameSubject e := by
  cases e <;> cases x <;> simp only [OutEntry.sameSubject, Bool.beq_comm]

/-- A notice stays in its queue while no other one of its subject comes. -/
theorem placeEntries_mem {e : OutEntry} : ∀ (es queue : List OutEntry), (∀ x ∈ es, x.sameSubject e = true → x = e) →
    (e ∈ es ∨ ∃ n, e.recount n ∈ queue) → ∃ n, e.recount n ∈ es.foldl placeEntry queue
  | [], _, _, hm => hm.resolve_left fun h => nomatch h
  | x :: es, queue, h, hm => by
    refine placeEntries_mem es _ (fun y hy => h y (List.mem_cons_of_mem _ hy)) ?_
    by_cases hx : x = e
    · subst hx
      exact Or.inr (placeEntry_self queue x)
    · rcases hm with hm | ⟨n, hn⟩
      · exact Or.inl ((List.mem_cons.1 hm).resolve_left (Ne.symm hx))
      · have other : (e.recount n).sameSubject x = false := by
          rw [sameSubject_recount, sameSubject_comm, ← Bool.not_eq_true]
          exact fun hs => hx (h x List.mem_cons_self hs)
        obtain ⟨before, after, rfl⟩ := List.append_of_mem hn
        obtain ⟨before', after', heq, -⟩ := placeEntry_at before after (e.recount n) x
        rw [other, if_neg Bool.false_ne_true] at heq
        exact Or.inr ⟨n, by rw [heq]; simp⟩

/-! ## Entries generated for a port (R127) -/

/-- A link after entries generated for its port: "An entry generated for a port whose link is DOWN is discarded" (R127). -/
def Link.posted (l : Link) (es : List OutEntry) : Link :=
  if l.up then { l with queue := es.foldl placeEntry l.queue } else l

/-- `t` is `s`, in the link of a port, after these entries; the session of the port is in the same state. -/
def State.Posted (s t : State) (p : Port) (es : List OutEntry) : Prop :=
  t.link p = (s.link p).posted es ∧ (t.session p).state = (s.session p).state

theorem posted_of_eq {s t : State} {p : Port} (hl : t.link p = s.link p) (hs : t.session p = s.session p) : s.Posted t p [] := by
  refine ⟨?_, by rw [hs]⟩
  rw [hl]
  exact (ite_self _).symm

theorem posted_refl (s : State) (p : Port) : s.Posted s p [] := posted_of_eq rfl rfl

theorem posted_trans {s t u : State} {p : Port} {es fs : List OutEntry} (h1 : s.Posted t p es) (h2 : t.Posted u p fs) :
    s.Posted u p (es ++ fs) := by
  refine ⟨?_, h2.2.trans h1.2⟩
  rw [h2.1, h1.1]
  unfold Link.posted
  cases h : (s.link p).up <;> simp [h]

theorem posted_up {s t : State} {p : Port} {es : List OutEntry} (h : s.Posted t p es) (hup : (s.link p).up = true) :
    (t.link p).queue = es.foldl placeEntry (s.link p).queue := by
  rw [h.1, Link.posted, if_pos hup]

theorem posted_answerable {s t : State} {p : Port} {es : List OutEntry} (h : s.Posted t p es) :
    t.answerable p = s.answerable p :=
  answerable_congr h.2

/-- One operation after another, each with its entries, while an invariant holds. -/
theorem posted_foldl {α : Type} {f : State → α → State} {g : α → List OutEntry} {p : Port} {I : State → Prop}
    (keep : ∀ (t : State) x, I t → I (f t x)) (post : ∀ (t : State) x, I t → t.Posted (f t x) p (g x)) :
    ∀ (xs : List α) (t : State), I t → t.Posted (xs.foldl f t) p (xs.flatMap g)
  | [], t, _ => posted_refl t p
  | x :: xs, t, h => by
    rw [List.flatMap_cons]
    exact posted_trans (post t x h) (posted_foldl keep post xs (f t x) (keep t x h))

theorem placeEntries_responses : ∀ (es : List (Tag × Answer)) (queue : List OutEntry),
    (responses es).foldl placeEntry queue = queue ++ responses es
  | [], queue => (List.append_nil queue).symm
  | e :: es, queue => by
    have rest := placeEntries_responses es (queue ++ [.response e.1 e.2])
    simpa [responses] using rest

/-- Answers are entries at the tail. -/
theorem posted_of_replied {s t : State} {p : Port} {es : List (Tag × Answer)} (h : s.RepliedTo t p es) :
    s.Posted t p (if s.answerable p then responses es else []) := by
  obtain ⟨hl, hs⟩ := h
  refine ⟨?_, ?_⟩
  · rw [hl]
    unfold Link.answered Link.posted
    cases s.answerable p with
    | false => exact (ite_self _).symm
    | true => simp only [if_true, placeEntries_responses]
  · rw [hs]
    split <;> rfl

theorem enqueue_posted (s : State) (q p : Port) (e : OutEntry) : s.Posted (s.enqueue q e) p (if q = p then [e] else []) := by
  unfold State.enqueue
  by_cases hq : q = p
  · subst hq
    rw [if_pos rfl]
    cases hup : (s.link q).up with
    | false => exact ⟨by simp [Link.posted, hup], by simp⟩
    | true => exact ⟨by simp [Link.posted, hup], by simp⟩
  · rw [if_neg hq]
    split
    · exact posted_of_eq (link_setLink_ne s _ (Ne.symm hq)) rfl
    · exact posted_refl s p

theorem notify_posted (s : State) (q p : Port) (e : OutEntry) :
    s.Posted (s.notify q e) p (if q = p ∧ s.answerable p = true then [e] else []) := by
  have posted := enqueue_posted s q p e
  unfold State.notify
  by_cases hq : q = p
  · subst hq
    cases s.answerable q with
    | false => simpa using posted_refl s q
    | true => simpa using posted
  · rw [if_neg hq] at posted
    simp only [hq, false_and, if_false]
    split
    · exact posted
    · exact posted_refl s p

/-! ## Entries of a kind -/

/-- `t` is `s`, in the link of a port, after entries that all meet the condition. -/
def State.Posts (s t : State) (p : Port) (Q : OutEntry → Prop) : Prop := ∃ es, s.Posted t p es ∧ ∀ e ∈ es, Q e

section
variable {p : Port} {Q : OutEntry → Prop}

theorem posts_of_eq {s t : State} (hl : t.link p = s.link p) (hs : t.session p = s.session p) : s.Posts t p Q :=
  ⟨[], posted_of_eq hl hs, fun _ h => nomatch h⟩

theorem posts_refl (s : State) : s.Posts s p Q := posts_of_eq rfl rfl

theorem posts_trans {s t u : State} (h1 : s.Posts t p Q) (h2 : t.Posts u p Q) : s.Posts u p Q := by
  obtain ⟨es, h1, hes⟩ := h1
  obtain ⟨fs, h2, hfs⟩ := h2
  exact ⟨es ++ fs, posted_trans h1 h2, fun e he => (List.mem_append.1 he).elim (hes e) (hfs e)⟩

theorem posts_foldl {α : Type} {f : State → α → State} (hf : ∀ (s : State) x, s.Posts (f s x) p Q) :
    ∀ (xs : List α) (s : State), s.Posts (xs.foldl f s) p Q
  | [], s => posts_refl s
  | x :: xs, s => posts_trans (hf s x) (posts_foldl hf xs (f s x))

theorem posts_mono {s t : State} {R : OutEntry → Prop} (h : s.Posts t p Q) (hQ : ∀ e, Q e → R e) : s.Posts t p R := by
  obtain ⟨es, h, hes⟩ := h
  exact ⟨es, h, fun e he => hQ e (hes e he)⟩

end

/-- What a revocation sends: answers and REVOKED notices, no RECLAIM and no LAPSE (R46). -/
def OutEntry.ofRevocation : OutEntry → Prop
  | .response .. | .revoked .. => True
  | .reclaim .. | .lapse .. => False

theorem posts_of_replied {s t : State} {p : Port} {es : List (Tag × Answer)} (h : s.RepliedTo t p es) :
    s.Posts t p OutEntry.ofRevocation := by
  refine ⟨_, posted_of_replied h, fun e he => ?_⟩
  split at he
  · obtain ⟨x, -, rfl⟩ := List.mem_map.1 he
    trivial
  · cases he

theorem revokeRecord_posts (b : Bank) (s : State) (h : HoldRecord) (p : Port) :
    s.Posts (revokeRecord b s h).1 p OutEntry.ofRevocation := by
  unfold revokeRecord
  split
  · exact posts_refl s
  · split
    · exact posts_refl s
    · split
      · exact posts_refl s
      · split
        · exact posts_of_replied (answerTag_replied s _ _ _ p)
        · refine ⟨_, notify_posted s _ p _, fun e he => ?_⟩
          split at he
          · obtain rfl := List.mem_singleton.1 he
            trivial
          · cases he

theorem sweep_posts {f : State → HoldRecord → State × Option HoldRecord} {p : Port} {Q : OutEntry → Prop}
    (hf : ∀ (s : State) h, s.Posts (f s h).1 p Q) : ∀ (hs : List HoldRecord) (s : State), s.Posts (sweep f hs s).1 p Q
  | [], s => posts_refl s
  | h :: hs, s => posts_trans (hf s h) (sweep_posts hf hs _)

theorem afterLeaving_posts (s : State) (b : Bank) (p : Port) : s.Posts (s.afterLeaving b) p OutEntry.ofRevocation := by
  unfold State.afterLeaving
  simp only []
  split
  · split
    · exact posts_of_eq rfl rfl
    · exact posts_refl s
  · obtain ⟨es, replied⟩ := completeUpgrade_answers s b p
    exact posts_of_replied replied

theorem dropUpgrade_posts (s : State) (b : Bank) (q : Port) (a : Answer) (p : Port) :
    s.Posts (s.dropUpgrade b q a) p OutEntry.ofRevocation := by
  unfold State.dropUpgrade
  split
  · split
    · exact posts_trans (t := s.setBank b _) (posts_of_eq rfl rfl) (posts_of_replied (answerWork_replied _ _ _ _ p))
    · exact posts_refl s
  · exact posts_refl s

/-- The steps of a bank's revocation: its bursts, its upgrade, its records (R46). -/
theorem revokeBank_posts (s : State) (b : Bank) (p : Port) : s.Posts (s.revokeBank b) p OutEntry.ofRevocation := by
  have removed : s.Posts (allFour.foldl (fun s q => s.removeBankBursts q b .revoked) s) p OutEntry.ofRevocation :=
    posts_foldl (fun s q => posts_of_replied (removeBankBursts_replied s q b .revoked p)) allFour s
  unfold State.revokeBank
  simp only []
  refine posts_trans removed (posts_trans ?_ (posts_trans (sweep_posts (fun s h => revokeRecord_posts b s h p) _ _)
    (posts_trans (t := State.setBank _ b _) (posts_of_eq rfl rfl) (afterLeaving_posts _ b p))))
  split
  · exact dropUpgrade_posts _ b _ _ p
  · exact posts_refl _

theorem revokeQuad_posts (s : State) (q : Quad) (p : Port) : s.Posts (s.revokeQuad q) p OutEntry.ofRevocation :=
  posts_foldl (fun s b => revokeBank_posts s b p) _ s

theorem serveQuad_posts (s : State) (q : Quad) (p : Port) : s.Posts (s.serveQuad q) p OutEntry.ofRevocation := by
  have granted := serveQuad_grants s q
  unfold State.OnlyGrants at granted
  exact posts_of_eq (by rw [granted]; rfl) (by rw [granted]; rfl)

/-! ## RECLAIM and LAPSE (R78, R84) -/

/-- The RECLAIM notices of a bank to one port (R78). -/
def State.reclaims (s : State) (b : Bank) (debt : Int) (p : Port) : List OutEntry :=
  (s.bank b).holds.flatMap (fun h =>
    if h.revokePending = false ∧ h.port = p ∧ s.answerable p = true then [.reclaim b (s.bank b).openRow debt 1] else [])

theorem mem_reclaims (s : State) (b : Bank) (debt : Int) (p : Port) (e : OutEntry) : e ∈ s.reclaims b debt p ↔
    e = .reclaim b (s.bank b).openRow debt 1 ∧ s.answerable p = true
      ∧ ∃ h ∈ (s.bank b).holds, h.revokePending = false ∧ h.port = p := by
  unfold State.reclaims
  rw [List.mem_flatMap]
  constructor
  · rintro ⟨h, hm, he⟩
    split at he
    · next hc => exact ⟨List.mem_singleton.1 he, hc.2.2, h, hm, hc.1, hc.2.1⟩
    · cases he
  · rintro ⟨rfl, ha, h, hm, hr, hp⟩
    exact ⟨h, hm, by rw [if_pos ⟨hr, hp, ha⟩]; exact List.mem_singleton.2 rfl⟩

theorem reclaims_congr {s t : State} {b : Bank} {p : Port} (hb : t.bank b = s.bank b) (ha : t.answerable p = s.answerable p)
    (debt : Int) : t.reclaims b debt p = s.reclaims b debt p := by
  unfold State.reclaims
  rw [hb, ha]

theorem reclaimBank_posted (s : State) (b : Bank) (debt : Int) (p : Port) :
    s.Posted (s.reclaimBank b debt) p (s.reclaims b debt p) := by
  have one (t : State) (h : HoldRecord) (ha : t.answerable p = s.answerable p) :
      t.Posted (if h.revokePending then t else t.notify h.port (.reclaim b (s.bank b).openRow debt 1)) p
        (if h.revokePending = false ∧ h.port = p ∧ s.answerable p = true then
          [.reclaim b (s.bank b).openRow debt 1] else []) := by
    cases h.revokePending with
    | true => exact posted_refl t p
    | false =>
      have posted := notify_posted t h.port p (.reclaim b (s.bank b).openRow debt 1)
      rw [ha] at posted
      simpa only [true_and, Bool.false_eq_true, if_false] using posted
  exact posted_foldl (I := fun t => t.answerable p = s.answerable p)
    (fun t h ha => (posted_answerable (one t h ha)).trans ha) one (s.bank b).holds s rfl

theorem reclaimQuad_posted (s : State) (q : Quad) (p : Port) :
    s.Posted (s.reclaimQuad q) p ((quadBanks q).flatMap (fun b => s.reclaims b (s.quad q).debt p)) := by
  refine posted_foldl (I := fun t => t.answerable p = s.answerable p ∧ ∀ b, t.bank b = s.bank b)
    (fun t b ht => ⟨(posted_answerable (reclaimBank_posted t b _ p)).trans ht.1,
      fun c => (onlyAnswers_bank (reclaimBank_answers t b _) c).trans (ht.2 c)⟩) (fun t b ht => ?_) (quadBanks q) s
    ⟨rfl, fun _ => rfl⟩
  rw [← reclaims_congr (ht.2 b) ht.1]
  exact reclaimBank_posted t b _ p

/-- What is done for one port of the four is done once. -/
theorem flatMap_port (p : Port) (es : List OutEntry) : allFour.flatMap (fun r => if r = p then es else []) = es := by
  fin_cases p <;> simp [allFour]

/-- A LAPSE to every ATTACHED session (R84). -/
theorem lapseNotices_posted (s : State) (q : Quad) (p : Port) :
    s.Posted (s.lapseNotices q) p (if (s.session p).state = .attached then [.lapse q 1] else []) := by
  have one (t : State) (r : Port) (ht : (t.session p).state = (s.session p).state) :
      t.Posted (if (t.session r).state = .attached then t.enqueue r (.lapse q 1) else t) p
        (if r = p then (if (s.session p).state = .attached then [.lapse q 1] else []) else []) := by
    have posted := enqueue_posted t r p (.lapse q 1)
    by_cases hr : r = p
    · subst hr
      rw [if_pos rfl] at posted ⊢
      rw [ht]
      split
      · exact posted
      · exact posted_refl t r
    · rw [if_neg hr] at posted ⊢
      split
      · exact posted
      · exact posted_refl t p
  rw [← flatMap_port p (if (s.session p).state = .attached then [.lapse q 1] else [])]
  exact posted_foldl (I := fun t => (t.session p).state = (s.session p).state)
    (fun t r ht => (one t r ht).2.trans ht) one allFour s rfl

end Sys2Proof.Machine
end
section
/-!
SUPPORT. RETENTION_TIMER_EXPIRY: the four quads in turn, each in a state that the others have left alone in all that is its own; then
the next period and the choices at the end of the event (R75, R76, R84).
-/

namespace Sys2Proof.Machine

open Sys2Proof

/-! ## The bursts of a quad that enters FORCED (R66) -/

/-- The burst engine with the queued bursts of a kind alone. -/
def BurstEngine.keeping (e : BurstEngine) (keep : QueuedBurst → Bool) : BurstEngine :=
  { e with queues := e.queues.map (fun l => l.filter keep) }

theorem keeping_keeping (e : BurstEngine) (k k' : QueuedBurst → Bool) :
    (e.keeping k).keeping k' = e.keeping (fun x => k x && k' x) := by
  simp only [BurstEngine.keeping, Four.map, List.filter_filter, Bool.and_comm]

theorem keeping_all {e : BurstEngine} {keep : QueuedBurst → Bool} (h : ∀ x, keep x = true) : e.keeping keep = e := by
  have all (l : List QueuedBurst) : l.filter keep = l := List.filter_eq_self.2 fun x _ => h x
  simp only [BurstEngine.keeping, Four.map, all]

theorem bursts_of_answers {s t : State} (h : s.OnlyAnswers t) : t.bursts = s.bursts := (onlyAnswers_keeps h).2.1

theorem dropUpgrade_bursts (s : State) (b : Bank) (p : Port) (a : Answer) : (s.dropUpgrade b p a).bursts = s.bursts := by
  unfold State.dropUpgrade
  split
  · split
    · exact (bursts_of_answers (answerWork_answers _ _ _ _)).trans (setBank_bursts s b _)
    · rfl
  · rfl

theorem revokeRecord_answers (b : Bank) (s : State) (h : HoldRecord) : s.OnlyAnswers (revokeRecord b s h).1 := by
  unfold revokeRecord
  split
  · exact onlyAnswers_refl s
  · split
    · exact onlyAnswers_refl s
    · split
      · exact onlyAnswers_refl s
      · split
        · exact answerTag_answers _ _ _ _
        · exact notify_answers _ _ _

theorem sweep_answers {f : State → HoldRecord → State × Option HoldRecord} (hf : ∀ (s : State) h, s.OnlyAnswers (f s h).1) :
    ∀ (hs : List HoldRecord) (s : State), s.OnlyAnswers (sweep f hs s).1
  | [], s => onlyAnswers_refl s
  | h :: hs, s => onlyAnswers_trans (hf s h) (sweep_answers hf hs _)

theorem afterLeaving_bursts (s : State) (b : Bank) : (s.afterLeaving b).bursts = s.bursts := by
  unfold State.afterLeaving
  simp only []
  split
  · split <;> rfl
  · exact completeUpgrade_bursts s b

/-- A bank's queued bursts leave every queue (R66). -/
theorem removeBursts_bursts (s : State) (b : Bank) :
    (allFour.foldl (fun s p => s.removeBankBursts p b .revoked) s).bursts = s.bursts.keeping (fun x => x.bank != b) := by
  simp only [allFour, List.foldl_cons, List.foldl_nil, removeBankBursts_bursts, State.burstQueue]
  rfl

theorem revokeBank_bursts (s : State) (b : Bank) : (s.revokeBank b).bursts = s.bursts.keeping (fun x => x.bank != b) := by
  rw [← removeBursts_bursts]
  unfold State.revokeBank
  simp only []
  rw [afterLeaving_bursts, setBank_bursts, bursts_of_answers (sweep_answers (revokeRecord_answers b) _ _)]
  split
  · exact dropUpgrade_bursts _ b _ _
  · rfl

theorem revokeQuad_bursts (s : State) (q : Quad) :
    (s.revokeQuad q).bursts = s.bursts.keeping (fun x => decide (groupOf x.bank ≠ q)) := by
  have mem (b : Bank) : decide (groupOf b ≠ q) = (((b != quadBank q 0 && b != quadBank q 1) && b != quadBank q 2)
      && b != quadBank q 3) := by
    revert b q
    decide
  simp only [State.revokeQuad, quadBanks, List.foldl_cons, List.foldl_nil, revokeBank_bursts, keeping_keeping, mem]

theorem serveQuad_bursts (s : State) (q : Quad) : (s.serveQuad q).bursts = s.bursts := by
  have granted := serveQuad_grants s q
  unfold State.OnlyGrants at granted
  rw [granted]

/-- An evaluation takes bursts away at FORCED entry alone. -/
theorem evaluateQuad_bursts (s : State) (q : Quad) : (s.evaluateQuad q).bursts = s.bursts.keeping (fun x =>
    !(decide ((s.quad q).state ≠ .forced ∧ maintenanceOf s.config.reclaimLevel (s.quad q).debt = .forced)
      && decide (groupOf x.bank = q))) := by
  unfold State.evaluateQuad
  simp only []
  split
  case h_2 hold hnew | h_3 hold hnew => rw [revokeQuad_bursts, hold, hnew]; simp
  case h_1 hold hnew =>
    rw [bursts_of_answers (reclaimQuad_answers _ q), keeping_all (by simp [hold, hnew])]
    rfl
  case h_4 hold hnew =>
    rw [serveQuad_bursts, keeping_all (by simp [hold, hnew])]
    rfl
  case h_5 hold hnew | h_6 hold hnew | h_7 hold hnew | h_8 hold hnew | h_9 hold hnew =>
    rw [keeping_all (by simp [hold, hnew])]
    rfl

/-- The quad enters FORCED at an expiry: where its maintenance state is true to its debt, its debt goes from 11 to 12 (R73, R74). -/
def State.entersForced (s : State) (q : Quad) : Bool := s.cleared q && decide ((s.quad q).debt = 11)

theorem expireQuad_bursts {s : State} {q : Quad} (level : s.config.reclaimLevel ≤ 11)
    (state : (s.quad q).state = maintenanceOf s.config.reclaimLevel (s.quad q).debt) :
    (s.expireQuad q).bursts = s.bursts.keeping (fun x => !(s.entersForced q && decide (groupOf x.bank = q))) := by
  unfold State.expireQuad State.entersForced forceLevel
  cases s.cleared q with
  | false => exact (keeping_all fun _ => rfl).symm
  | true =>
    simp only [Bool.not_true, Bool.false_eq_true, if_false, Bool.true_and]
    split
    · next low =>
      have own : (s.setDebt q ((s.quad q).debt + 1)).quad q = { s.quad q with debt := (s.quad q).debt + 1 } :=
        quad_setQuad_same s q _
      have entry : ((s.quad q).state ≠ .forced ∧ maintenanceOf s.config.reclaimLevel ((s.quad q).debt + 1) = .forced)
          ↔ (s.quad q).debt = 11 := by
        rw [state, ne_eq, maintenanceOf_forced level, maintenanceOf_forced level]
        omega
      rw [evaluateQuad_bursts, own]
      simp only [setDebt_config, entry]
      rfl
    · next high =>
      rw [keeping_all]
      · exact (bursts_of_answers (lapseNotices_answers _ q)).trans (setQuad_bursts s q _)
      · have other : (s.quad q).debt ≠ 11 := by omega
        simp [other]

/-! ## What the expiry of one quad leaves to another -/

/-- An entry that is no RECLAIM of a bank of the quad and no LAPSE of the quad. -/
def OutEntry.sparesQuad (q : Quad) : OutEntry → Prop
  | .response .. | .revoked .. => True
  | .reclaim b .. => groupOf b ≠ q
  | .lapse r _ => r ≠ q

theorem sparesQuad_of_revocation {e : OutEntry} (q : Quad) (h : e.ofRevocation) : e.sparesQuad q := by
  cases e with
  | response | revoked => trivial
  | reclaim | lapse => exact h.elim

theorem posted_beginning {s u t : State} {p : Port} {es : List OutEntry} (h : u.Posted t p es)
    (hl : u.link p = s.link p) (hs : u.session p = s.session p) : s.Posted t p es := by
  have both := posted_trans (posted_of_eq hl hs) h
  rwa [List.nil_append] at both

theorem evaluateQuad_spares (s : State) {r q : Quad} (hr : r ≠ q) (p : Port) :
    s.Posts (s.evaluateQuad r) p (OutEntry.sparesQuad q) := by
  have set {t : State} {Q : OutEntry → Prop} (m : Maintenance) (h : (s.setMaintenance r m).Posts t p Q) : s.Posts t p Q :=
    posts_trans (posts_of_eq rfl rfl) h
  have revoked {t : State} (h : s.Posts t p OutEntry.ofRevocation) : s.Posts t p (OutEntry.sparesQuad q) :=
    posts_mono h fun _ he => sparesQuad_of_revocation q he
  unfold State.evaluateQuad
  simp only []
  split
  case h_1 =>
    refine set _ ⟨_, reclaimQuad_posted _ r p, fun e he => ?_⟩
    obtain ⟨b, hb, he⟩ := List.mem_flatMap.1 he
    obtain ⟨rfl, -⟩ := (mem_reclaims _ _ _ _ _).1 he
    show groupOf b ≠ q
    rwa [(mem_quadBanks r b).1 hb]
  case h_2 | h_3 => exact revoked (set _ (revokeQuad_posts _ r p))
  case h_4 => exact revoked (set _ (serveQuad_posts _ r p))
  case h_5 | h_6 | h_7 | h_8 | h_9 => exact posts_of_eq rfl rfl

theorem evaluateQuad_bank_ne (s : State) {q : Quad} {b : Bank} (hb : groupOf b ≠ q) : (s.evaluateQuad q).bank b = s.bank b := by
  unfold State.evaluateQuad
  simp only []
  split
  case h_1 => exact onlyAnswers_bank (reclaimQuad_answers _ q) b
  case h_2 | h_3 => exact revokeQuad_bank_ne _ q b hb
  case h_4 => exact serveQuad_bank_ne _ q b hb
  case h_5 | h_6 | h_7 | h_8 | h_9 => rfl

/-- `t` is `s` after what leaves the account, the banks and the notices of the quad alone. -/
structure State.SparesQuad (s t : State) (q : Quad) : Prop where
  quad : t.quad q = s.quad q
  modeCtl : t.modeCtl = s.modeCtl
  config : t.config = s.config
  bank : ∀ b, groupOf b = q → t.bank b = s.bank b
  posts : ∀ p, s.Posts t p (OutEntry.sparesQuad q)

theorem sparesQuad_refl (s : State) (q : Quad) : s.SparesQuad s q := ⟨rfl, rfl, rfl, fun _ _ => rfl, fun _ => posts_refl s⟩

theorem sparesQuad_trans {s t u : State} {q : Quad} (h1 : s.SparesQuad t q) (h2 : t.SparesQuad u q) : s.SparesQuad u q :=
  ⟨h2.quad.trans h1.quad, h2.modeCtl.trans h1.modeCtl, h2.config.trans h1.config,
    fun b hb => (h2.bank b hb).trans (h1.bank b hb), fun p => posts_trans (h1.posts p) (h2.posts p)⟩

theorem expireQuad_modeCtl (s : State) (q : Quad) : (s.expireQuad q).modeCtl = s.modeCtl := by
  obtain ⟨-, hmode, -⟩ := onlyHolds_keeps (expireQuad_holds s q)
  exact hmode

theorem expireQuad_config (s : State) (q : Quad) : (s.expireQuad q).config = s.config := by
  obtain ⟨-, -, -, -, -, -, -, hconfig, -⟩ := onlyHolds_keeps (expireQuad_holds s q)
  exact hconfig

theorem expireQuad_spares (s : State) {r q : Quad} (hr : r ≠ q) : s.SparesQuad (s.expireQuad r) q := by
  refine ⟨(expireQuad_quad s r q).trans (if_neg (Ne.symm hr)), expireQuad_modeCtl s r, expireQuad_config s r,
    fun b hb => ?_, fun p => ?_⟩
  · have hne : groupOf b ≠ r := hb ▸ Ne.symm hr
    unfold State.expireQuad
    split
    · rfl
    · split
      · exact evaluateQuad_bank_ne (s.setDebt r _) hne
      · exact onlyAnswers_bank (lapseNotices_answers (s.setQuad r _) r) b
  · unfold State.expireQuad
    split
    · exact posts_refl s
    · split
      · exact posts_trans (t := s.setDebt r _) (posts_of_eq rfl rfl) (evaluateQuad_spares _ hr p)
      · refine posts_trans (t := s.setQuad r _) (posts_of_eq rfl rfl) ⟨_, lapseNotices_posted _ r p, fun e he => ?_⟩
        split at he
        · obtain rfl := List.mem_singleton.1 he
          exact hr
        · cases he

/-! ## The expiry of one quad -/

/-- A quad at debt 12 sends LAPSE to every ATTACHED session and nothing else (R84). -/
theorem expireQuad_lapse {s : State} {q : Quad} (hc : s.cleared q = true) (hd : 12 ≤ (s.quad q).debt) (p : Port) :
    s.Posted (s.expireQuad q) p (if (s.session p).state = .attached then [.lapse q 1] else []) := by
  have lapsed : s.expireQuad q = s.lapseQuad q := by
    unfold State.expireQuad forceLevel
    rw [hc, if_neg (by decide), if_neg (by omega)]
  rw [lapsed]
  exact posted_beginning (lapseNotices_posted (s.setQuad q _) q p) rfl rfl

/-- A quad that enters DUE sends RECLAIM for its banks and nothing else (R78). -/
theorem expireQuad_reclaim {s : State} {q : Quad} (hc : s.cleared q = true) (hstate : (s.quad q).state = .current)
    (hdue : maintenanceOf s.config.reclaimLevel ((s.quad q).debt + 1) = .due) (p : Port) :
    s.Posted (s.expireQuad q) p ((quadBanks q).flatMap (fun b => s.reclaims b ((s.quad q).debt + 1) p)) := by
  have low : (s.quad q).debt < forceLevel := by
    have := ((maintenanceOf_due _ _).1 hdue).2
    unfold forceLevel
    omega
  have own : (s.setDebt q ((s.quad q).debt + 1)).quad q = { s.quad q with debt := (s.quad q).debt + 1 } :=
    quad_setQuad_same s q _
  have reclaimed : s.expireQuad q = ((s.setDebt q ((s.quad q).debt + 1)).setMaintenance q .due).reclaimQuad q := by
    unfold State.expireQuad State.evaluateQuad
    simp only [own, setDebt_config]
    rw [hc, if_neg (by decide), if_pos low, hstate, hdue]
  have debt : (((s.setDebt q ((s.quad q).debt + 1)).setMaintenance q .due).quad q).debt = (s.quad q).debt + 1 := by
    unfold State.setMaintenance
    rw [quad_setQuad_same, own]
  have posted := reclaimQuad_posted ((s.setDebt q ((s.quad q).debt + 1)).setMaintenance q .due) q p
  rw [debt] at posted
  rw [reclaimed]
  exact posted_beginning posted rfl rfl

/-! ## The four quads (R76) -/

/-- The four quads at an expiry. -/
@[irreducible] def State.expireAll (s : State) : State := allFour.foldl (fun s q => s.expireQuad q) s

/-- Each quad's own expiry, between what the others' leave to it. -/
theorem expireAll_split (s : State) (q : Quad) : ∃ u, s.SparesQuad u q ∧ (u.expireQuad q).SparesQuad s.expireAll q := by
  have all (rs : List Quad) : q ∉ rs → ∀ u : State, u.SparesQuad (rs.foldl (fun s r => s.expireQuad r) u) q := by
    induction rs with
    | nil => exact fun _ u => sparesQuad_refl u q
    | cons r rs ih =>
      intro hq u
      obtain ⟨hr, hrs⟩ := not_or.1 (mt List.mem_cons.2 hq)
      exact sparesQuad_trans (expireQuad_spares u (Ne.symm hr)) (ih hrs _)
  obtain ⟨before, after, hsplit, hbefore, hafter⟩ := allFour_split q
  refine ⟨before.foldl (fun s r => s.expireQuad r) s, all before (fun h => lt_irrefl q (hbefore q h)) s, ?_⟩
  unfold State.expireAll
  rw [hsplit, List.foldl_append, List.foldl_cons]
  exact all after (fun h => lt_irrefl q (hafter q h)) _

theorem expireAll_quad (s : State) (q : Quad) : s.expireAll.quad q = s.expired q := by
  obtain ⟨u, hu, hall⟩ := expireAll_split s q
  rw [hall.quad, expireQuad_quad, if_pos rfl]
  unfold State.expired State.cleared State.clearState
  rw [hu.quad, hu.modeCtl, hu.config]

theorem expireAll_config (s : State) : s.expireAll.config = s.config := by
  unfold State.expireAll
  exact foldl_keeps (P := fun t : State => t.config = s.config) (fun t q h => (expireQuad_config t q).trans h) allFour rfl

theorem expireAll_store (s : State) : s.KeepsStore s.expireAll := by
  unfold State.expireAll
  exact keepsStore_foldl expireQuad_store allFour s

section
variable {s : State} {q : Quad} {p : Port}

/-- At debt 12 a LAPSE of the quad enters an ATTACHED port's queue, once. -/
theorem expireAll_lapse (hc : s.cleared q = true) (hd : 12 ≤ (s.quad q).debt) (hp : (s.session p).state = .attached) :
    ∃ before after, s.Posted s.expireAll p (before ++ .lapse q 1 :: after)
      ∧ ∀ e ∈ before ++ after, e.sparesQuad q := by
  obtain ⟨u, hu, hall⟩ := expireAll_split s q
  obtain ⟨before, hfirst, hbefore⟩ := hu.posts p
  obtain ⟨after, hlast, hafter⟩ := hall.posts p
  have cleared : u.cleared q = true := by
    unfold State.cleared State.clearState at hc ⊢
    rw [hu.modeCtl, hc]
  have own := expireQuad_lapse cleared (by rw [hu.quad]; exact hd) p
  rw [hfirst.2, if_pos hp] at own
  refine ⟨before, after, ?_, fun e he => (List.mem_append.1 he).elim (hbefore e) (hafter e)⟩
  have posted := posted_trans hfirst (posted_trans own hlast)
  rwa [List.singleton_append] at posted

/-- At DUE entry a RECLAIM of the bank, with its row and the new debt, enters the queue of a port with a record there that is not
marked revoke pending; and every RECLAIM of the bank is this one. -/
theorem expireAll_reclaim {b : Bank} {h : HoldRecord} (hb : groupOf b = q) (hc : s.cleared q = true)
    (hstate : (s.quad q).state = .current) (hdue : maintenanceOf s.config.reclaimLevel ((s.quad q).debt + 1) = .due)
    (hm : h ∈ (s.bank b).holds) (hr : h.revokePending = false) (ha : s.answerable h.port = true) :
    ∃ es, s.Posted s.expireAll h.port es
      ∧ .reclaim b (s.bank b).openRow ((s.quad q).debt + 1) 1 ∈ es
      ∧ ∀ e ∈ es, e.sameSubject (.reclaim b (s.bank b).openRow ((s.quad q).debt + 1) 1) = true →
          e = .reclaim b (s.bank b).openRow ((s.quad q).debt + 1) 1 := by
  obtain ⟨u, hu, hall⟩ := expireAll_split s q
  obtain ⟨before, hfirst, hbefore⟩ := hu.posts h.port
  obtain ⟨after, hlast, hafter⟩ := hall.posts h.port
  have cleared : u.cleared q = true := by
    unfold State.cleared State.clearState at hc ⊢
    rw [hu.modeCtl, hc]
  have own := expireQuad_reclaim cleared (by rw [hu.quad]; exact hstate) (by rw [hu.config, hu.quad]; exact hdue) h.port
  rw [hu.quad] at own
  have spares (e : OutEntry) (he : e.sparesQuad q) :
      e.sameSubject (.reclaim b (s.bank b).openRow ((s.quad q).debt + 1) 1) = false := by
    cases e with
    | response | revoked | lapse => rfl
    | reclaim c => exact beq_false_of_ne fun hcb => he (hcb ▸ hb)
  refine ⟨_, posted_trans hfirst (posted_trans own hlast), ?_, fun e he hs => ?_⟩
  · refine List.mem_append_right _ (List.mem_append_left _ (List.mem_flatMap.2 ⟨b, (mem_quadBanks q b).2 hb, ?_⟩))
    rw [mem_reclaims, hu.bank b hb]
    exact ⟨rfl, (posted_answerable hfirst).trans ha, h, hm, hr, rfl⟩
  · rcases List.mem_append.1 he with he | he
    · rw [spares e (hbefore e he)] at hs
      cases hs
    · rcases List.mem_append.1 he with he | he
      · obtain ⟨c, -, hce⟩ := List.mem_flatMap.1 he
        obtain ⟨rfl, -⟩ := (mem_reclaims _ _ _ _ _).1 hce
        obtain rfl : c = b := eq_of_beq hs
        rw [hu.bank c hb]
      · rw [spares e (hafter e he)] at hs
        cases hs

end

/-- The bursts of the quads that enter FORCED leave their queues, and no others (R66). -/
theorem expireAll_bursts {s : State} (law : s.maintenanceLaw) :
    s.expireAll.bursts = s.bursts.keeping (fun x => !(s.entersForced (groupOf x.bank))) := by
  have all (qs : List Quad) : qs.Nodup → ∀ u : State, u.config.reclaimLevel ≤ 11 →
      (∀ q ∈ qs, (u.quad q).state = maintenanceOf u.config.reclaimLevel (u.quad q).debt) →
      (qs.foldl (fun s q => s.expireQuad q) u).bursts =
        u.bursts.keeping (fun x => !(u.entersForced (groupOf x.bank) && decide (groupOf x.bank ∈ qs))) := by
    induction qs with
    | nil => exact fun _ u _ _ => (keeping_all fun x => by simp).symm
    | cons q qs ih =>
      intro nodup u level state
      obtain ⟨hq, hqs⟩ := List.nodup_cons.1 nodup
      have spares (r : Quad) (hr : r ∈ qs) : u.SparesQuad (u.expireQuad q) r :=
        expireQuad_spares u fun e => hq (e ▸ hr)
      have rest := ih hqs (u.expireQuad q) (by rw [expireQuad_config]; exact level) fun r hr => by
        rw [(spares r hr).quad, (spares r hr).config]
        exact state r (List.mem_cons_of_mem _ hr)
      rw [List.foldl_cons, rest, expireQuad_bursts level (state q List.mem_cons_self), keeping_keeping]
      congr 1
      funext x
      by_cases hx : groupOf x.bank = q
      · rw [hx]
        simp [hq]
      · by_cases hm : groupOf x.bank ∈ qs
        · have same : (u.expireQuad q).entersForced (groupOf x.bank) = u.entersForced (groupOf x.bank) := by
            unfold State.entersForced State.cleared State.clearState
            rw [(spares _ hm).quad, (spares _ hm).modeCtl]
          simp [hx, hm, same]
        · simp [hx, hm]
  have four := all allFour (by decide) s law.1.2 fun q _ => law.2 q
  unfold State.expireAll
  simpa only [mem_allFour, decide_true, Bool.and_true] using four

/-! ## The end of the event, seen at one port's queue -/

/-- The end of an event answers a DETACH at most, so that what is queued stays (R127, R145). -/
theorem settle_queue_mem {s : State} {p : Port} {e : OutEntry} (h : e ∈ (s.link p).queue) : e ∈ (s.settle.link p).queue := by
  obtain ⟨u, hl, -, -, hlink, -⟩ := settle_port s p
  rw [hlink]
  rw [← hl] at h
  have answered (d : Option Tag) (x : Session) :
      e ∈ (((u.answerTag p d (.ok .plain)).setSession p x).link p).queue := by
    rw [setSession_link, (answerTag_replied u p d (.ok .plain) p).1]
    split
    · unfold Link.answered
      split
      · exact List.mem_append_left _ h
      · exact h
    · exact h
  unfold State.finishSession
  simp only []
  split
  · split
    · exact answered _ _
    · exact h
  · split
    · exact h
    · exact h
  · exact h
  · exact h

/-! ## The obligation -/

theorem retentionTimerExpiry_exec (s : State) : exec .retentionTimerExpiry s =
    .next ((s.reach s.timer.endsAt).expireAll.nextPeriod).settle := by
  unfold State.expireAll
  rfl

/-- A notice with count 1 that repeats a queued one takes its place, or else the tail. -/
theorem placeEntry_notices (before after : List OutEntry) (e : OutEntry) (h : ∀ x ∈ before ++ after, x.sameSubject e = false) :
    placeEntry (before ++ after) e = before ++ after ++ [e]
      ∧ ∀ (b : Bank) (q : Quad) (row row' : Row) (debt debt' : Int) (n : Nat),
        (e = .reclaim b row' debt' 1 →
          placeEntry (before ++ .reclaim b row debt n :: after) e =
            before ++ .reclaim b row' debt' (min (n + 1) 255) :: after)
        ∧ (e = .revoked b row' 1 →
          placeEntry (before ++ .revoked b row n :: after) e = before ++ .revoked b row' (n + 1) :: after)
        ∧ (e = .lapse q 1 → placeEntry (before ++ .lapse q n :: after) e = before ++ .lapse q (min (n + 1) 255) :: after) := by
  refine ⟨placeEntry_new h, fun b q row row' debt debt' n => ⟨?_, ?_, ?_⟩⟩ <;> rintro rfl
  · exact placeEntry_repeated (beq_self_eq_true b) h
  · exact placeEntry_repeated (beq_self_eq_true b) h
  · exact placeEntry_repeated (beq_self_eq_true q) h

/-- Two notices are of one kind and subject, and a response is none. -/
theorem sameSubject_iff (x : OutEntry) (b : Bank) (q : Quad) (row : Row) (debt : Int) (n : Nat) (tag : Tag) (a : Answer) :
    (x.sameSubject (.reclaim b row debt n) = true ↔ ∃ row' debt' n', x = .reclaim b row' debt' n')
      ∧ (x.sameSubject (.revoked b row n) = true ↔ ∃ row' n', x = .revoked b row' n')
      ∧ (x.sameSubject (.lapse q n) = true ↔ ∃ n', x = .lapse q n')
      ∧ x.sameSubject (.response tag a) = false := by
  cases x with
  | response | reclaim | revoked | lapse => simp [OutEntry.sameSubject]

/-- The LAPSE notices of a quad at debt 12, in the queue of an ATTACHED port whose link is UP. -/
theorem expiry_lapse {s : State} {q : Quad} {p : Port} (hc : s.cleared q = true) (hd : 12 ≤ (s.quad q).debt)
    (hp : (s.session p).state = .attached) (hup : (s.link p).up = true) :
    (∃ n, OutEntry.lapse q n ∈ (s.expireAll.nextPeriod.settle.link p).queue)
      ∧ ∀ before n after, (s.link p).queue = before ++ .lapse q n :: after →
          ∃ before' after', (s.expireAll.nextPeriod.settle.link p).queue = before' ++ .lapse q (min (n + 1) 255) :: after'
            ∧ before'.length = before.length := by
  obtain ⟨first, last, posted, spares⟩ := expireAll_lapse hc hd hp
  have attached : (s.expireAll.nextPeriod.session p).state = .attached := posted.2.trans hp
  have queue : (s.expireAll.nextPeriod.settle.link p).queue = (first ++ .lapse q 1 :: last).foldl placeEntry (s.link p).queue := by
    rw [settle_attached attached]
    exact posted_up posted hup
  have other (e : OutEntry) (he : e.sparesQuad q) (n : Nat) : (OutEntry.lapse q n).sameSubject e = false := by
    cases e with
    | response | revoked | reclaim => rfl
    | lapse r m => exact beq_false_of_ne (Ne.symm he)
  have hfirst (n : Nat) (e : OutEntry) (he : e ∈ first) := other e (spares e (List.mem_append_left _ he)) n
  have hlast (n : Nat) (e : OutEntry) (he : e ∈ last) := other e (spares e (List.mem_append_right _ he)) n
  rw [queue]
  refine ⟨placeEntries_mem (e := .lapse q 1) _ _ (fun x hx hs => ?_) (Or.inl (by simp)), fun before n after hq => ?_⟩
  · rcases List.mem_append.1 hx with hx | hx
    · rw [sameSubject_comm, hfirst 1 x hx] at hs
      cases hs
    · rcases List.mem_cons.1 hx with rfl | hx
      · rfl
      · rw [sameSubject_comm, hlast 1 x hx] at hs
        cases hs
  · obtain ⟨before1, after1, heq1, hlen1⟩ := placeEntries_at (x := .lapse q n) first before after (hfirst n)
    obtain ⟨before2, after2, heq2, hlen2⟩ := placeEntry_at before1 after1 (.lapse q n) (.lapse q 1)
    obtain ⟨before3, after3, heq3, hlen3⟩ :=
      placeEntries_at (x := .lapse q (min (n + 1) 255)) last before2 after2 (hlast _)
    have same : (OutEntry.lapse q n).sameSubject (.lapse q 1) = true := beq_self_eq_true q
    rw [if_pos same] at heq2
    refine ⟨before3, after3, ?_, hlen3.trans (hlen2.trans hlen1)⟩
    rw [hq, List.foldl_append, List.foldl_cons, heq1, heq2]
    exact heq3

/-- The RECLAIM notice of a bank whose quad enters DUE, in the queue of a port with an unrevoked record there. -/
theorem expiry_reclaim {s : State} {b : Bank} {h : HoldRecord} (hc : s.cleared (groupOf b) = true)
    (hstate : (s.quad (groupOf b)).state = .current) (hdebt : (s.quad (groupOf b)).debt + 1 = s.config.reclaimLevel)
    (hlevel : s.config.reclaimLevel < 12) (hm : h ∈ (s.bank b).holds) (hr : h.revokePending = false)
    (hs : (s.session h.port).state = .attached ∨ (s.session h.port).state = .detaching) (hup : (s.link h.port).up = true) :
    ∃ n, OutEntry.reclaim b (s.bank b).openRow ((s.quad (groupOf b)).debt + 1) n
      ∈ (s.expireAll.nextPeriod.settle.link h.port).queue := by
  have hdue : maintenanceOf s.config.reclaimLevel ((s.quad (groupOf b)).debt + 1) = .due := by
    rw [maintenanceOf_due, hdebt]
    omega
  have answerable : s.answerable h.port = true := by
    unfold State.answerable
    rcases hs with hs | hs <;> rw [hs]
  obtain ⟨es, posted, hin, honly⟩ := expireAll_reclaim rfl hc hstate hdue hm hr answerable
  obtain ⟨n, hn⟩ := placeEntries_mem es (s.link h.port).queue honly (Or.inl hin)
  rw [← posted_up posted hup] at hn
  exact ⟨n, settle_queue_mem (s := s.expireAll.nextPeriod) hn⟩

/-- Settles O43: a quad's own expiry finds its account and banks as they were and its notices undisturbed, and the end of the event
leaves accounts and queued notices alone. -/
theorem retentionTimerExpiryByDebt : Obligations.RetentionTimerExpiryByDebt := by
  refine ⟨placeEntry_notices, sameSubject_iff, fun s => ?_⟩
  obtain ⟨now, array, timer, integrity, pending⟩ := expireAll_store (s.reach s.timer.endsAt)
  obtain ⟨hnow, harray, htimer, hintegrity, hpending⟩ := settle_store (s.reach s.timer.endsAt).expireAll.nextPeriod
  have config := expireAll_config (s.reach s.timer.endsAt)
  have quad (q : Quad) : (s.reach s.timer.endsAt).expireAll.nextPeriod.settle.quad q = s.expired q := by
    unfold State.quad
    rw [settle_quads]
    exact expireAll_quad (s.reach s.timer.endsAt) q
  have raised (q : Quad) (hc : s.cleared q = true) (hd : (s.quad q).debt < 12) :
      s.expired q = (s.quad q).atDebt s.config.reclaimLevel ((s.quad q).debt + 1) := by
    unfold State.expired
    rw [if_pos hc, if_pos (by exact hd)]
  have lapsed (q : Quad) (hc : s.cleared q = true) (hd : 12 ≤ (s.quad q).debt) :
      s.expired q = { s.quad q with lapse := true } := by
    unfold State.expired
    rw [if_pos hc, if_neg (by exact not_lt.2 hd)]
  refine ⟨_, retentionTimerExpiry_exec s, hnow.trans now, ?_, fun q hc => ?_, fun q hc hd => ?_, fun q hc hd => ⟨?_, ?_⟩, ?_, ?_,
    harray.trans array, hintegrity.trans integrity, ?_, hpending.trans pending⟩
  · rw [htimer, hnow]
    unfold State.nextPeriod
    simp only [config, now]
    rfl
  · rw [quad]
    exact if_neg (by rw [hc]; decide)
  · rw [quad, raised q hc hd]
    rfl
  · rw [quad, lapsed q hc hd]
  · intro p hp hup
    obtain ⟨present, counted⟩ := expiry_lapse (s := s.reach s.timer.endsAt) hc hd hp hup
    exact ⟨present, fun before n after hq _ => counted before n after hq⟩
  · intro b h hc hstate hdebt hlevel hm hr hs hup
    exact expiry_reclaim (s := s.reach s.timer.endsAt) hc hstate hdebt hlevel hm hr hs hup
  · intro law queues hqueues
    have bursts : (s.reach s.timer.endsAt).expireAll.nextPeriod.bursts = { s.bursts with queues := queues } := by
      rw [nextPeriod_bursts, expireAll_bursts (s := s.reach s.timer.endsAt) law, reach_bursts]
      unfold BurstEngine.keeping
      congr 1
      refine four_ext fun p => ?_
      rw [four_get_map, hqueues]
      rfl
    have engine := settle_engine (s.reach s.timer.endsAt).expireAll.nextPeriod
    unfold State.engineGoesOn at engine ⊢
    rw [bursts] at engine
    exact engine
  · rw [settle_config, nextPeriod_config, config]
    rfl

end Sys2Proof.Machine
end
section
/-!
SUPPORT. The integrity unit under every step: the units of bursts, the clear requests and RESET_N fall are all that change it, each in
a way that keeps the fault unit list and the corrected counts in their bounds (R107, R108, R110, R111, R113, R114).
-/

namespace Sys2Proof.Machine

open Sys2Proof

/-! ## What becomes of the integrity unit -/

/-- The bounds of `State.integrityLaw`, said of the integrity unit alone. -/
def IntegrityUnit.bounded (i : IntegrityUnit) : Prop :=
  i.faults.length ≤ 16 ∧ i.faults.Pairwise (fun x y => x.names y.bank y.row y.column = false)
    ∧ ∀ b, sixteenGet i.counts b ≤ 255

theorem integrityLaw_iff (s : State) : s.integrityLaw ↔ s.integrity.bounded := Iff.rfl

theorem integrityLaw_of_eq {s t : State} (e : t.integrity = s.integrity) (law : s.integrityLaw) : t.integrityLaw := by
  rw [integrityLaw_iff, e]
  exact law

theorem integrityLaw_of_store {s t : State} (h : s.KeepsStore t) (law : s.integrityLaw) : t.integrityLaw := by
  obtain ⟨-, -, -, hintegrity, -⟩ := h
  exact integrityLaw_of_eq hintegrity law

theorem integrityLaw_of_holds {s t : State} (h : s.OnlyHolds t) (law : s.integrityLaw) : t.integrityLaw :=
  integrityLaw_of_store (keepsStore_of_holds h) law

section
variable {i j : IntegrityUnit}

/-- Entries may leave the list from any place, whatever the overflow flag is (R110, R111). -/
theorem bounded_sublist (h : i.bounded) {faults : List FaultEntry} (sub : faults.Sublist i.faults) (overflow : Bool) :
    ({ i with faults := faults, overflow := overflow } : IntegrityUnit).bounded := by
  obtain ⟨room, apart, counts⟩ := h
  exact ⟨sub.length_le.trans room, apart.sublist sub, counts⟩

/-- A detection enters a unit that is not listed, and only where there is room (R107, R108). -/
theorem bounded_detectedIn (h : i.bounded) (e : FaultEntry) : (detectedIn i e).bounded := by
  obtain ⟨room, apart, counts⟩ := h
  unfold detectedIn
  split
  · exact ⟨room, apart, counts⟩
  · next unlisted =>
    split
    · next free =>
      refine ⟨?_, List.pairwise_append.2 ⟨apart, List.pairwise_singleton _ e, fun x hx y hy => ?_⟩, counts⟩
      · rw [List.length_append, List.length_singleton]
        omega
      · obtain rfl := List.mem_singleton.1 hy
        exact Bool.eq_false_iff.2 fun named => unlisted (List.any_eq_true.2 ⟨x, hx, named⟩)
    · exact ⟨room, apart, counts⟩

/-- "at 255 it stays 255" (R113). -/
theorem bounded_countedUp (h : i.bounded) {b : Bank} (up : countedUp i j b) : j.bounded := by
  obtain ⟨room, apart, counts⟩ := h
  obtain ⟨frame, raised⟩ := up
  rw [frame]
  refine ⟨room, apart, fun c => ?_⟩
  rw [raised]
  split
  · exact Nat.min_le_right _ _
  · exact counts c

theorem bounded_zeroCount (h : i.bounded) (b : Bank) :
    ({ i with counts := sixteenSet i.counts b 0 } : IntegrityUnit).bounded := by
  obtain ⟨room, apart, counts⟩ := h
  refine ⟨room, apart, fun c => ?_⟩
  rw [sixteen_get_set]
  split
  · exact Nat.zero_le _
  · exact counts c

theorem bounded_zeroCounts (h : i.bounded) : ({ i with counts := sixteenAll 0 } : IntegrityUnit).bounded := by
  obtain ⟨room, apart, -⟩ := h
  refine ⟨room, apart, fun c => ?_⟩
  rw [sixteen_get_all]
  exact Nat.zero_le _

end

/-! ## The step of a unit -/

/-- All that the step of a unit can do to the integrity unit: nothing, one corrected read more of the burst's bank, a detection, or the
entries of the unit, mended by a full write, leave (R106, R107, R110). -/
theorem unitStep_integrity (s : State) (x : QueuedBurst) (k : Nat) :
    (s.unitStep x k).1.integrity = s.integrity
      ∨ countedUp s.integrity (s.unitStep x k).1.integrity x.bank
      ∨ (∃ e, (s.unitStep x k).1.integrity = detectedIn s.integrity e)
      ∨ (s.unitStep x k).1.integrity =
          { s.integrity with faults := s.integrity.faults.filter (fun y => !y.names x.bank x.row (x.column + k)) } := by
  unfold State.unitStep
  split
  · cases hclass : s.array.classify (unitIndex x.bank x.row (x.column + k)) with
    | clean =>
      rw [readUnitStep_clean hclass]
      exact Or.inl rfl
    | correctable d =>
      rw [readUnitStep_correctable hclass]
      exact Or.inr (Or.inl (countedUp_countCorrected (s.rewriteUnit _ d) x.bank))
    | uncorrectable =>
      rw [readUnitStep_uncorrectable hclass]
      exact Or.inr (Or.inr (Or.inl ⟨_, rfl⟩))
  · generalize x.data.getD k ⟨0, 0⟩ = w
    by_cases hfull : w.mask = 0xFF
    · rw [writeUnitStep_full hfull]
      exact Or.inr (Or.inr (Or.inr rfl))
    by_cases hempty : w.mask = 0
    · rw [writeUnitStep_empty hempty]
      exact Or.inl rfl
    cases hlisted : s.listed x.bank x.row (x.column + k) with
    | true =>
      rw [writeUnitStep_listed hfull hempty hlisted]
      exact Or.inl rfl
    | false =>
      cases hclass : s.array.classify (unitIndex x.bank x.row (x.column + k)) with
      | clean =>
        rw [writeUnitStep_merge_clean hfull hempty hlisted hclass]
        exact Or.inl rfl
      | correctable d =>
        rw [writeUnitStep_merge_correctable hfull hempty hlisted hclass]
        exact Or.inr (Or.inl (countedUp_countCorrected (s.rewriteUnit _ _) x.bank))
      | uncorrectable =>
        rw [writeUnitStep_merge_uncorrectable hfull hempty hlisted hclass]
        exact Or.inr (Or.inr (Or.inl ⟨_, rfl⟩))

theorem integrityLaw_unitStep {s : State} (law : s.integrityLaw) (x : QueuedBurst) (k : Nat) :
    (s.unitStep x k).1.integrityLaw := by
  rcases unitStep_integrity s x k with e | up | ⟨entry, e⟩ | e
  · exact integrityLaw_of_eq e law
  · exact bounded_countedUp law up
  · rw [integrityLaw_iff, e]
    exact bounded_detectedIn law entry
  · rw [integrityLaw_iff, e]
    exact bounded_sublist law List.filter_sublist s.integrity.overflow

theorem integrityLaw_stepNextUnit {s : State} (law : s.integrityLaw) (e : Execution) : (s.stepNextUnit e).integrityLaw :=
  integrityLaw_unitStep law e.burst e.results.length

theorem integrityLaw_stepUnits : ∀ (n : Nat) {s : State}, s.integrityLaw → (State.stepUnits n s).integrityLaw
  | 0, _, law => law
  | n + 1, s, law => by
    unfold State.stepUnits
    split
    · next e _ => exact integrityLaw_stepUnits n (integrityLaw_stepNextUnit (s := s.reach e.nextUnitEnds) law e)
    · exact law

/-! ## Requests -/

theorem answer_store (s : State) (p : Port) (t : Tag) (a : Answer) : s.KeepsStore (s.answer p t a) :=
  keepsStore_of_holds (onlyHolds_of_answers (answer_answers s p t a))

/-- What holds of a refusal and of what the owner of the request makes of it holds of a request that is for ATTACHED sessions. -/
theorem ifAttached_keeps {P : State → Prop} {s : State} {f : State → State} (p : Port) (t : Tag)
    (refused : P (s.answer p t (.refused .notAttached))) (owner : P (f s)) : P (s.ifAttached p t f) := by
  unfold State.ifAttached
  split
  · exact owner
  · exact refused

/-- The same of a request that reaches its owner in every session but NONE. -/
theorem unlessNone_keeps {P : State → Prop} {s : State} {f : State → State} (p : Port) (t : Tag)
    (refused : P (s.answer p t (.refused .notAttached))) (owner : P (f s)) : P (s.unlessNone p t f) := by
  unfold State.unlessNone
  split
  · exact refused
  · exact owner

theorem ifAttached_store {s : State} {f : State → State} (p : Port) (t : Tag) (h : s.KeepsStore (f s)) :
    s.KeepsStore (s.ifAttached p t f) := ifAttached_keeps p t (answer_store s p t _) h

theorem unlessNone_store {s : State} {f : State → State} (p : Port) (t : Tag) (h : s.KeepsStore (f s)) :
    s.KeepsStore (s.unlessNone p t f) := unlessNone_keeps p t (answer_store s p t _) h

theorem applyItem_store (s : State) (i : Item) (v : Nat) : s.KeepsStore (s.applyItem i v) := by
  have stored : s.KeepsStore (s.setItem i v) := ⟨rfl, rfl, rfl, rfl, rfl⟩
  unfold State.applyItem
  split
  · exact keepsStore_refl s
  · refine keepsStore_trans stored ?_
    cases i with
    | reclaimLevel => exact keepsStore_trans (evaluateAll_store _) (refreshChoice_store _)
    | pullIn => exact refreshChoice_store _
    | retentionInterval | holdQuota | grantPolicy | idleEntry => exact keepsStore_refl _

theorem cfgWrite_store (s : State) (p : Port) (t : Tag) (code index value : Byte) :
    s.KeepsStore (s.cfgWrite p t code index value) := by
  unfold State.cfgWrite
  split
  · exact answer_store s p t _
  · next i _ _ =>
    have written := keepsStore_trans (applyItem_store s i value.toNat)
      (answer_store _ p t (.ok (.cfgWrite i.code i.index value.toNat)))
    simp only []
    split
    · exact keepsStore_trans written (enterRetention_store _)
    · exact written
  · exact answer_store s p t _

theorem cfgRead_store (s : State) (p : Port) (t : Tag) (code index : Byte) : s.KeepsStore (s.cfgRead p t code index) := by
  unfold State.cfgRead
  split
  · exact answer_store s p t _
  · split <;> exact answer_store s p t _

theorem inspect_store (s : State) (p : Port) (t : Tag) (code number : Byte) :
    s.KeepsStore (s.inspect p t code number) := by
  unfold State.inspect
  split <;> exact answer_store s p t _

theorem lapseClear_store (s : State) (p : Port) (t : Tag) (quad : Byte) : s.KeepsStore (s.lapseClear p t quad) := by
  unfold State.lapseClear
  split
  · exact answer_store s p t _
  · split
    · exact keepsStore_trans (s := s) ⟨rfl, rfl, rfl, rfl, rfl⟩ (answer_store _ p t _)
    · split
      · next q _ => exact keepsStore_trans (t := s.clearLapse q) ⟨rfl, rfl, rfl, rfl, rfl⟩ (answer_store _ p t _)
      · exact answer_store s p t _

theorem requestClose_store (s : State) (p : Port) (t : Tag) (bank : Byte) : s.KeepsStore (s.requestClose p t bank) := by
  have closed := keepsStore_of_holds (holdClose_holds s p t bank)
  refine unlessNone_store p t ?_
  split
  · exact keepsStore_trans closed (refreshChoice_store _)
  · exact closed

theorem requestAttach_store (s : State) (p : Port) (t : Tag) (role : Byte) : s.KeepsStore (s.requestAttach p t role) := by
  unfold State.requestAttach
  split
  · exact attachSession_store s p t role
  · exact answer_store s p t _

theorem requestDetach_store (s : State) (p : Port) (t : Tag) : s.KeepsStore (s.requestDetach p t) :=
  ifAttached_store (f := fun s => (s.detachSession p t).settle) p t
    (keepsStore_trans (detachSession_store s p t) (settle_store _))

theorem requestIdle_store (s : State) (p : Port) (t : Tag) : s.KeepsStore (s.requestIdle p t) := by
  have voted : s.KeepsStore (s.setVote p true) := ⟨rfl, rfl, rfl, rfl, rfl⟩
  exact ifAttached_store p t (keepsStore_trans (keepsStore_trans voted (answer_store _ p t _)) (enterRetention_store _))

theorem requestInspect_store (s : State) (p : Port) (t : Tag) (target number : Byte) :
    s.KeepsStore (s.requestInspect p t target number) := by
  unfold State.requestInspect
  split
  · exact inspect_store s p t target number
  · exact ifAttached_store p t (inspect_store s p t target number)

theorem integrityLaw_answer {s : State} (law : s.integrityLaw) (p : Port) (t : Tag) (a : Answer) :
    (s.answer p t a).integrityLaw := integrityLaw_of_store (answer_store s p t a) law

theorem integrityLaw_faultClear {s : State} (p : Port) (t : Tag) (index : Byte) (law : s.integrityLaw) :
    (s.faultClear p t index).integrityLaw := by
  have emptied : s.clearFaults.integrityLaw := bounded_sublist law (List.nil_sublist _) false
  have removed : (s.removeFault index.toNat).integrityLaw :=
    bounded_sublist law (List.eraseIdx_sublist _ index.toNat) s.integrity.overflow
  unfold State.faultClear
  split
  · exact integrityLaw_answer law p t _
  · split
    · exact integrityLaw_answer emptied p t _
    · split
      · split
        · exact integrityLaw_answer removed p t _
        · exact integrityLaw_answer law p t _
      · exact integrityLaw_answer law p t _

theorem integrityLaw_clearAllCounts {s : State} (law : s.integrityLaw) : s.clearAllCounts.integrityLaw :=
  bounded_zeroCounts law

theorem integrityLaw_countClear {s : State} (p : Port) (t : Tag) (bank : Byte) (law : s.integrityLaw) :
    (s.countClear p t bank).integrityLaw := by
  unfold State.countClear
  split
  · exact integrityLaw_answer law p t _
  · split
    · exact integrityLaw_answer (integrityLaw_clearAllCounts law) p t _
    · split
      · next b _ => exact integrityLaw_answer (s := s.clearCount b) (bounded_zeroCount law b) p t _
      · exact integrityLaw_answer law p t _

/-- Of all requests FAULT_CLEAR and COUNT_CLEAR alone change the integrity unit (R111, R113). -/
theorem integrityLaw_dispatch {s : State} (p : Port) (t : Tag) (r : Request) (law : s.integrityLaw) :
    (s.dispatch p t r).integrityLaw := by
  have burst (kind : BurstKind) (bank column units : Byte) (ac : Bool) (data : List WriteUnit) :
      s.KeepsStore (s.requestBurst p t kind bank column units ac data) :=
    unlessNone_store p t (keepsStore_of_holds (acceptBurst_holds s p t kind bank column units ac data))
  cases r with
  | faultClear index => exact ifAttached_keeps p t (integrityLaw_answer law p t _) (integrityLaw_faultClear p t index law)
  | countClear bank => exact ifAttached_keeps p t (integrityLaw_answer law p t _) (integrityLaw_countClear p t bank law)
  | attach role => exact integrityLaw_of_store (requestAttach_store s p t role) law
  | detach => exact integrityLaw_of_store (requestDetach_store s p t) law
  | idle => exact integrityLaw_of_store (requestIdle_store s p t) law
  | openBank bank row mode wait =>
    exact integrityLaw_of_store (unlessNone_store p t (orderedOpen_store s p t bank row mode wait)) law
  | upgrade bank =>
    exact integrityLaw_of_store (unlessNone_store p t (keepsStore_of_holds (holdUpgrade_holds s p t bank))) law
  | closeBank bank => exact integrityLaw_of_store (requestClose_store s p t bank) law
  | read bank column units ac => exact integrityLaw_of_store (burst .read bank column units ac []) law
  | write bank column units ac data => exact integrityLaw_of_store (burst .write bank column units ac data) law
  | cfgRead item index => exact integrityLaw_of_store (ifAttached_store p t (cfgRead_store s p t item index)) law
  | cfgWrite item index value =>
    exact integrityLaw_of_store (ifAttached_store p t (cfgWrite_store s p t item index value)) law
  | inspect target number => exact integrityLaw_of_store (requestInspect_store s p t target number) law
  | lapseClear quad => exact integrityLaw_of_store (ifAttached_store p t (lapseClear_store s p t quad)) law

theorem integrityLaw_take {s : State} (p : Port) (t : Tag) (r : Request) (law : s.integrityLaw) :
    (s.take p t r).integrityLaw := by
  refine integrityLaw_dispatch p t r (integrityLaw_of_eq ?_ law)
  unfold State.beginRequest
  split <;> rfl

theorem keptByPackets_integrityLaw : KeptByPackets State.integrityLaw where
  link _ _ _ law := law
  fault p reason law := integrityLaw_of_store (linkFault_store _ p reason) law
  take p t r law := integrityLaw_take p t r law
  wake law := law
  stamp _ law := law
  retention law := integrityLaw_of_store (enterRetention_store _) law

/-! ## Commands -/

/-- At RESET_N fall the corrected counts go to 0, and the fault unit list stays (R113, R114). -/
theorem integrityLaw_resetFall {s : State} (law : s.integrityLaw) : s.resetFall.integrityLaw := by
  have mode : s.resetMode.integrityLaw := by
    rw [resetMode_frame]
    exact law
  have blocks : s.resetMode.resetBlocks.integrityLaw := by
    rw [resetBlocks_eq]
    have quieted : s.resetMode.quieted.integrityLaw := integrityLaw_of_eq (s := s.resetMode) rfl mode
    have banked := integrityLaw_of_holds (resetBanks_holds _) quieted
    exact integrityLaw_of_eq (s := s.resetMode.quieted.resetBanks.clearAllCounts) rfl (integrityLaw_clearAllCounts banked)
  have evaluated : s.resetMode.resetBlocks.cutAtOnce.evaluateAll.integrityLaw :=
    integrityLaw_of_store (keepsStore_trans (keepsStore_of_holds (cutAtOnce_holds _)) (evaluateAll_store _)) blocks
  exact integrityLaw_of_store
    (keepsStore_trans (keepsStore_of_holds (onlyHolds_of_answers (finishSessions_answers _))) (refreshChoice_store _))
    evaluated

theorem integrityLaw_tryClearStart {s : State} (law : s.integrityLaw) : s.tryClearStart.integrityLaw := by
  rw [tryClearStart_frame]
  exact law

theorem integrityLaw_resetRise {s : State} (law : s.integrityLaw) : s.resetRise.integrityLaw := by
  unfold State.resetRise
  simp only []
  split
  · exact integrityLaw_tryClearStart law
  · exact integrityLaw_of_store (enterRetention_store _) (s := State.setMode _ .active) law

theorem integrityLaw_powerOn (high : Bool) (carrier : Four Bool) (now epoch : Nat) (marks : RecentMarks)
    (pending : List Instr) : (State.powerOn high carrier now epoch marks pending).integrityLaw :=
  bounded_zeroCounts (i := { faults := [], overflow := false, counts := sixteenAll 0 })
    ⟨Nat.zero_le _, List.Pairwise.nil, fun b => by rw [sixteen_get_all]; exact Nat.zero_le _⟩

theorem finishClear_integrity (s : State) (q : Quad) : (s.finishClear q).integrity = s.integrity := by
  obtain ⟨-, -, -, hintegrity, -⟩ := keepsStore_of_holds (serveQuad_holds _ q)
  exact hintegrity

/-- The end of an event that may let a clear start. -/
theorem integrityLaw_choices {s : State} (law : s.integrityLaw) :
    s.tryClearStart.refreshChoice.enterRetention.integrityLaw := by
  obtain ⟨-, -, -, hintegrity, -⟩ := choices_store s
  exact integrityLaw_of_eq hintegrity law

/-- Every command keeps the fault unit list and the corrected counts in their bounds. -/
theorem exec_keeps_integrityLaw {i : Instr} {s t : State} (h : s.integrityLaw) (hx : exec i s = .next t) :
    t.integrityLaw := by
  have law := keptByPackets_integrityLaw
  have settled {u v : State} (k : u.KeepsStore v) (hu : u.integrityLaw) : v.settle.integrityLaw :=
    integrityLaw_of_store (keepsStore_trans k (settle_store v)) hu
  cases i
  case powerOn high carrier =>
    obtain rfl := Host.Outcome.next.inj hx
    exact integrityLaw_powerOn _ _ _ _ _ _
  case resetNFall =>
    obtain rfl := Host.Outcome.next.inj hx
    split
    · exact h
    · exact integrityLaw_resetFall h
  case resetNRise =>
    obtain rfl := Host.Outcome.next.inj hx
    split
    · exact integrityLaw_resetRise h
    · exact h
  case carrierLoss p =>
    obtain rfl := Host.Outcome.next.inj hx
    exact loseCarrier_keeps law p h
  case carrierReturn p =>
    obtain rfl := Host.Outcome.next.inj hx
    exact h
  case unitCorruption bank row column data check =>
    obtain rfl := Host.Outcome.next.inj hx
    exact h
  case burstUnitStep =>
    obtain ⟨e, -, -, -, rfl⟩ := burstUnitStep_next hx
    exact integrityLaw_stepNextUnit (s := s.reach _) h e
  case executionCompletion =>
    obtain ⟨e, done, -, -, -, rfl⟩ := executionCompletion_next hx
    exact settled (u := (State.stepUnits e.unitsLeft s).reach e.endsAt) (finishBurst_store _ done)
      (integrityLaw_stepUnits e.unitsLeft h)
  case cutCompletion =>
    obtain ⟨e, ends, -, -, rfl⟩ := cutCompletion_next hx
    exact settled (keepsStore_of_holds (endCut_holds _ _)) (integrityLaw_unitStep (s := s.reach ends) h _ _)
  case openCompletion b =>
    obtain ⟨-, rfl⟩ := openCompletion_next hx
    exact settled (u := s.reachBank b) (keepsStore_of_holds (completeOpen_holds _ b)) h
  case dwellExpiry b =>
    obtain ⟨-, rfl⟩ := dwellExpiry_next hx
    exact integrityLaw_of_holds (s := s.reachBank b) (expireDwell_holds _ b) h
  case closeCompletion b =>
    obtain ⟨-, rfl⟩ := closeCompletion_next hx
    exact integrityLaw_choices (integrityLaw_of_holds (s := s.reachBank b) (completeClose_holds _ b) h)
  case retentionTimerExpiry =>
    obtain rfl := Host.Outcome.next.inj ((retentionTimerExpiry_exec s).symm.trans hx)
    have expired := integrityLaw_of_store (expireAll_store (s.reach s.timer.endsAt)) h
    exact integrityLaw_of_store (settle_store _)
      (integrityLaw_of_eq (nextPeriod_integrity (s.reach s.timer.endsAt).expireAll) expired)
  case refreshCompletion =>
    obtain ⟨r, -, rfl⟩ := refreshCompletion_next hx
    exact integrityLaw_choices (integrityLaw_of_store (s := s.reach r.endsAt) (finishRefresh_store _ r.quad) h)
  case clearCompletion =>
    obtain ⟨r, -, rfl⟩ := clearCompletion_next hx
    have finished : ((s.reach (r.startedAt + clearTime)).finishClear r.quad).integrityLaw :=
      integrityLaw_of_eq (s := s.reach (r.startedAt + clearTime)) (finishClear_integrity _ r.quad) h
    have chosen := integrityLaw_of_store (refreshChoice_store _) finished
    refine integrityLaw_of_store (enterRetention_store _) ?_
    unfold State.afterClear
    split
    · exact chosen
    · exact integrityLaw_tryClearStart chosen
  case wakeCompletion =>
    obtain ⟨ends, -, rfl⟩ := wakeCompletion_next hx
    exact finishWake_keeps law h
  case transmission p =>
    obtain ⟨bytes, -, rfl⟩ := transmission_next hx
    exact integrityLaw_of_store (enterRetention_store _) (s := s.setLink p _) h
  all_goals
    obtain rfl := Host.Outcome.next.inj hx
    exact receive_keeps law _ _ h

/-- Settles O58: the list grows by a detection alone, of a unit not listed and below 16 entries, and a count rises to 255 at most. -/
theorem stepKeepsIntegrityLaw : Obligations.StepKeepsIntegrityLaw :=
  fun _ _ h hx => step_keeps (fun _ h => h) exec_keeps_integrityLaw (fun h => h) h hx

end Sys2Proof.Machine
end
section
/-!
SUPPORT. A corruption of stored bits: the unit struck as it stands, within and outside a clear in progress, and what one and two changed
bits make of a unit (R103, R104, R106, R167).
-/

namespace Sys2Proof.Machine

open Sys2Proof

/-! ## A unit with bits changed -/

/-- The unit with stored bits changed; changes of the same bit cancel. -/
def UnitBits.struck (x : UnitBits) (data : UnitData) (check : BitVec 8) : UnitBits :=
  { x with changedData := x.changedData ^^^ data, changedCheck := x.changedCheck ^^^ check }

theorem struck_data (x : UnitBits) (data : UnitData) (check : BitVec 8) : (x.struck data check).data = x.data ^^^ data :=
  (BitVec.xor_assoc _ _ _).symm

theorem struck_check (x : UnitBits) (data : UnitData) (check : BitVec 8) :
    (x.struck data check).check = x.check ^^^ check := (BitVec.xor_assoc _ _ _).symm

section
variable {x : UnitBits} (h : x.changed = 0)
include h

/-- A unit with no changed bit holds what was written. -/
theorem data_of_unchanged : x.data = x.written := by
  obtain ⟨hdata, -⟩ := weight_eq_zero (d := x.changedData) (c := x.changedCheck) h
  unfold UnitBits.data
  rw [hdata]
  exact BitVec.xor_zero

/-- Of a unit with no changed bit the changed bits are those just struck. -/
theorem struck_changed (data : UnitData) (check : BitVec 8) :
    (x.struck data check).changed = countBits data 64 + countBits check 8 := by
  obtain ⟨hdata, hcheck⟩ := weight_eq_zero (d := x.changedData) (c := x.changedCheck) h
  unfold UnitBits.struck UnitBits.changed
  rw [hdata, hcheck]
  simp only [BitVec.ofNat_eq_ofNat, BitVec.zero_xor]

theorem struck_verdict_one {data : UnitData} {check : BitVec 8} (one : countBits data 64 + countBits check 8 = 1) :
    (x.struck data check).verdict = .correctable x.data := by
  unfold UnitBits.verdict
  rw [struck_changed h, one, data_of_unchanged h]
  rfl

theorem struck_verdict_two {data : UnitData} {check : BitVec 8} (two : countBits data 64 + countBits check 8 = 2) :
    (x.struck data check).verdict = .uncorrectable := by
  unfold UnitBits.verdict
  rw [struck_changed h, two]
  rfl

end

/-! ## The array struck -/

/-- The state with bits of a unit changed: past the clear in progress where that has written the unit, else as the array holds it. -/
def State.struckAt (s : State) (u : Nat) (data : UnitData) (check : BitVec 8) : State :=
  { s with
    marks := { s.marks with corruptions := s.marks.corruptions + 1 }
    array :=
      if clearHasWritten s.modeCtl.clearRun s.now u then s.array.corruptLate u data check
      else s.array.corrupt u data check }

/-- A corruption strikes the unit, or is replaced by the unit's rewrite of the same moment (R106). -/
theorem unitCorruption_cases (s : State) (bank : Bank) (row : Row) (column : Fin 128) (data : UnitData) (check : BitVec 8) :
    ∃ t, exec (.unitCorruption bank row column data check) s = .next t
      ∧ (t = s.struckAt (unitIndex bank row column.val) data check
        ∨ (s.marks.rewritten = some (unitIndex bank row column.val, s.now)
          ∧ t = { s with marks := { s.marks with corruptions := s.marks.corruptions + 1 } })) := by
  refine ⟨_, rfl, ?_⟩
  cases hover : s.rewrittenOver (unitIndex bank row column.val) with
  | false => exact Or.inl rfl
  | true =>
    have marked := hover
    unfold State.rewrittenOver at marked
    rw [Bool.and_eq_true, beq_iff_eq] at marked
    exact Or.inr ⟨marked.1, rfl⟩

section
variable {s : State} {u : Nat} (data : UnitData) (check : BitVec 8)

theorem struckAt_array_late (h : clearHasWritten s.modeCtl.clearRun s.now u = true) :
    (s.struckAt u data check).array = s.array.corruptLate u data check := if_pos h

theorem struckAt_array (h : clearHasWritten s.modeCtl.clearRun s.now u = false) :
    (s.struckAt u data check).array = s.array.corrupt u data check := if_neg (by rw [h]; decide)

theorem unitNow_written {v : Nat} (h : clearHasWritten s.modeCtl.clearRun s.now v = true) :
    s.unitNow v = { written := 0, changedData := s.array.lateData v, changedCheck := s.array.lateCheck v } := if_pos h

theorem unitNow_unwritten {v : Nat} (h : clearHasWritten s.modeCtl.clearRun s.now v = false) :
    s.unitNow v = s.array.unit v := if_neg (by rw [h]; decide)

/-- The unit struck as it stands has the bits named changed, and every other unit is as before (R103). -/
theorem unitNow_struckAt (law : s.arrayLaw) (v : Nat) :
    (s.struckAt u data check).unitNow v = if v = u then (s.unitNow u).struck data check else s.unitNow v := by
  cases hu : clearHasWritten s.modeCtl.clearRun s.now u with
  | true =>
    obtain ⟨lateData, lateCheck⟩ := late_corruptLate law u v data check
    cases hv : clearHasWritten s.modeCtl.clearRun s.now v with
    | true =>
      rw [unitNow_written (s := s.struckAt u data check) hv, struckAt_array_late data check hu, lateData, lateCheck,
        unitNow_written hu, unitNow_written hv]
      split <;> rfl
    | false =>
      have other : v ≠ u := by
        rintro rfl
        cases hu.symm.trans hv
      rw [unitNow_unwritten (s := s.struckAt u data check) hv, struckAt_array_late data check hu, unitNow_unwritten hv,
        if_neg other]
      rfl
  | false =>
    cases hv : clearHasWritten s.modeCtl.clearRun s.now v with
    | true =>
      have other : v ≠ u := by
        rintro rfl
        cases hv.symm.trans hu
      rw [unitNow_written (s := s.struckAt u data check) hv, struckAt_array data check hu, unitNow_written hv, if_neg other]
      rfl
    | false =>
      rw [unitNow_unwritten (s := s.struckAt u data check) hv, struckAt_array data check hu, unit_corrupt law,
        unitNow_unwritten hu, unitNow_unwritten hv]
      rfl

theorem unitNow_struckAt_same (law : s.arrayLaw) :
    (s.struckAt u data check).unitNow u = (s.unitNow u).struck data check :=
  (unitNow_struckAt data check law u).trans (if_pos rfl)

end

/-! ## The obligation -/

/-- Settles O48: the corruption falls on the unit as it stands, in the array or past the clear's write of it, and is classified by the
bits that it changes. -/
theorem unitCorruptionChangesTheNamedBits : Obligations.UnitCorruptionChangesTheNamedBits := by
  rintro s bank row column data check u law rfl
  obtain ⟨t, ran, outcome⟩ := unitCorruption_cases s bank row column data check
  refine ⟨t, s.struckAt (unitIndex bank row column.val) data check, ran, outcome, rfl, unitNow_struckAt data check law, ?_, ?_,
    fun written => ?_, fun unwritten => ?_, fun clean one => ?_, fun clean two => ?_, fun x y hdata hcheck => ?_⟩
  · rw [unitNow_struckAt_same data check law, struck_data]
  · rw [unitNow_struckAt_same data check law, struck_check]
  · obtain ⟨lateData, lateCheck⟩ := late_corruptLate law (unitIndex bank row column.val) (unitIndex bank row column.val) data check
    rw [if_pos rfl] at lateData lateCheck
    rw [struckAt_array_late data check written]
    exact ⟨rfl, lateData, lateCheck⟩
  · rw [struckAt_array data check unwritten]
    rfl
  · rw [unitNow_struckAt_same data check law]
    exact struck_verdict_one clean one
  · rw [unitNow_struckAt_same data check law]
    exact struck_verdict_two clean two
  · rw [UnitBits.verdict_of_stored, UnitBits.verdict_of_stored, hdata, hcheck]

end Sys2Proof.Machine
end
section
/-!
SUPPORT. What an operation makes of the links: each operation of the session unit, the hold controller, the burst engine and the retention
controller changes the links in their outbound queues at most, by entries placed there (R127, R128); and that every step keeps one notice
for each kind and subject.
-/

namespace Sys2Proof.Machine

open Sys2Proof

/-! ## Entries placed in the outbound queues -/

/-- At most the outbound queues of the links differ, by entries placed there. Sessions and all else may differ. -/
def State.OnlyEntries (s t : State) : Prop :=
  ∀ p, ∃ es : List OutEntry, t.link p = { s.link p with queue := es.foldl placeEntry (s.link p).queue }

theorem entries_of_links {s t : State} (h : t.links = s.links) : s.OnlyEntries t :=
  fun p => ⟨[], by unfold State.link; rw [h]; rfl⟩

theorem entries_refl (s : State) : s.OnlyEntries s := entries_of_links rfl

theorem entries_trans {s t u : State} (h1 : s.OnlyEntries t) (h2 : t.OnlyEntries u) : s.OnlyEntries u := fun p => by
  obtain ⟨es, h1⟩ := h1 p
  obtain ⟨fs, h2⟩ := h2 p
  exact ⟨es ++ fs, by rw [h2, h1, List.foldl_append]⟩

theorem entries_foldl {α : Type} {f : State → α → State} (hf : ∀ (s : State) x, s.OnlyEntries (f s x)) :
    ∀ (xs : List α) (s : State), s.OnlyEntries (xs.foldl f s)
  | [], s => entries_refl s
  | x :: xs, s => entries_trans (hf s x) (entries_foldl hf xs (f s x))

theorem entries_of_posts {s t : State} {Q : Port → OutEntry → Prop} (h : ∀ p, s.Posts t p (Q p)) : s.OnlyEntries t := fun p => by
  obtain ⟨es, ⟨hlink, -⟩, -⟩ := h p
  rw [hlink]
  unfold Link.posted
  split
  · exact ⟨es, rfl⟩
  · exact ⟨[], rfl⟩

theorem entries_of_posted {s t : State} {es : Port → List OutEntry} (h : ∀ p, s.Posted t p (es p)) : s.OnlyEntries t :=
  entries_of_posts (Q := fun p e => e ∈ es p) fun p => ⟨es p, h p, fun _ he => he⟩

theorem entries_of_replied {s t : State} (h : ∀ p, ∃ es, s.RepliedTo t p es) : s.OnlyEntries t :=
  entries_of_posts fun p => posts_of_replied (h p).choose_spec

/-! ## Answers and notices -/

theorem enqueue_entries (s : State) (p : Port) (e : OutEntry) : s.OnlyEntries (s.enqueue p e) :=
  entries_of_posted fun q => enqueue_posted s p q e

theorem answer_entries (s : State) (p : Port) (t : Tag) (a : Answer) : s.OnlyEntries (s.answer p t a) :=
  entries_trans (t := s.setTag p t a.tagAfter) (entries_of_links rfl) (enqueue_entries _ p _)

theorem answerWork_entries (s : State) (p : Port) (t : Tag) (a : Answer) : s.OnlyEntries (s.answerWork p t a) :=
  entries_of_replied fun q => ⟨_, answerWork_replied s p t a q⟩

theorem answerTag_entries (s : State) (p : Port) (t : Option Tag) (a : Answer) : s.OnlyEntries (s.answerTag p t a) :=
  entries_of_replied fun q => ⟨_, answerTag_replied s p t a q⟩

theorem notify_entries (s : State) (p : Port) (e : OutEntry) : s.OnlyEntries (s.notify p e) :=
  entries_of_posted fun q => notify_posted s p q e

/-- A change beside the links, and then an answer. -/
theorem entries_answered {s u : State} (h : s.OnlyEntries u) (p : Port) (t : Tag) (a : Answer) : s.OnlyEntries (u.answer p t a) :=
  entries_trans h (answer_entries u p t a)

/-! ## The burst engine -/

theorem arbiterChoice_entries (s : State) : s.OnlyEntries s.arbiterChoice :=
  entries_of_links (by rw [arbiterChoice_frame])

theorem removePortBursts_entries (s : State) (p : Port) (a : Answer) : s.OnlyEntries (s.removePortBursts p a) :=
  entries_trans (t := s.setBurstQueue p []) (entries_of_links rfl)
    (entries_of_replied fun q => ⟨_, answerBursts_replied p a q _ _⟩)

theorem unitStep_entries (s : State) (b : QueuedBurst) (k : Nat) : s.OnlyEntries (s.unitStep b k).1 := by
  have frame := unitStep_onlyUnits s b k
  unfold State.OnlyUnits at frame
  exact entries_of_links (by rw [frame])

theorem stepNextUnit_entries (s : State) (e : Execution) : s.OnlyEntries (s.stepNextUnit e) :=
  entries_trans (unitStep_entries s e.burst e.results.length) (entries_of_links rfl)

theorem stepUnits_entries : ∀ (n : Nat) (s : State), s.OnlyEntries (State.stepUnits n s)
  | 0, s => entries_refl s
  | n + 1, s => by
    unfold State.stepUnits
    split
    · next e _ =>
      exact entries_trans (entries_trans (t := s.reach e.nextUnitEnds) (entries_of_links rfl) (stepNextUnit_entries _ e))
        (stepUnits_entries n _)
    · exact entries_refl s

/-! ## The hold controller -/

theorem setBank_entries (s : State) (b : Bank) (r : BankRecord) : s.OnlyEntries (s.setBank b r) := entries_of_links rfl

theorem afterLeaving_entries (s : State) (b : Bank) : s.OnlyEntries (s.afterLeaving b) :=
  entries_of_posts (afterLeaving_posts s b)

theorem leaveBank_entries (s : State) (b : Bank) (p : Port) : s.OnlyEntries (s.leaveBank b p) :=
  entries_trans (setBank_entries s b _) (afterLeaving_entries _ b)

theorem dropUpgrade_entries (s : State) (b : Bank) (p : Port) (a : Answer) : s.OnlyEntries (s.dropUpgrade b p a) :=
  entries_of_posts (dropUpgrade_posts s b p a)

theorem dropWait_entries (s : State) (b : Bank) (p : Port) (a : Answer) : s.OnlyEntries (s.dropWait b p a) := by
  unfold State.dropWait
  split
  · exact entries_trans (setBank_entries s b _) (answerWork_entries _ _ _ _)
  · exact entries_refl s

theorem serveBank_entries (s : State) (b : Bank) : s.OnlyEntries (s.serveBank b) := by
  have granted := serveBank_grants s b
  unfold State.OnlyGrants at granted
  exact entries_of_links (by rw [granted])

theorem serveQuad_entries (s : State) (q : Quad) : s.OnlyEntries (s.serveQuad q) := entries_foldl serveBank_entries _ s

theorem joinBank_entries (s : State) (b : Bank) (p : Port) (t : Tag) : s.OnlyEntries (s.joinBank b p t) := by
  unfold State.joinBank
  split
  · exact entries_of_links rfl
  · exact entries_answered (entries_of_links rfl) p t _

theorem rejoinBank_entries (s : State) (b : Bank) (p : Port) (t : Tag) (mode : HoldMode) :
    s.OnlyEntries (s.rejoinBank b p t mode) := entries_answered (entries_of_links rfl) p t _

theorem placeOpen_entries (s : State) (b : Bank) (p : Port) (t : Tag) (row : Row) (mode : HoldMode) :
    s.OnlyEntries (s.placeOpen b p t row mode) := by
  unfold State.placeOpen
  split
  case h_1 => exact entries_of_links rfl
  case h_2 | h_3 => exact joinBank_entries s b p t
  case h_4 => exact rejoinBank_entries s b p t mode
  case h_5 | h_6 | h_7 => exact entries_refl s

theorem addWait_entries (s : State) (b : Bank) (p : Port) (t : Tag) (row : Row) (mode : HoldMode) :
    s.OnlyEntries (s.addWait b p t row mode) := entries_answered (entries_of_links rfl) p t _

theorem holdOpen_entries (s : State) (p : Port) (t : Tag) (bank : Byte) (row : BitVec 16) (mode : HoldMode) (wait : Bool) :
    s.OnlyEntries (s.holdOpen p t bank row mode wait) := by
  unfold State.holdOpen
  split
  · exact answer_entries s p t _
  · split
    · exact placeOpen_entries s _ p t _ mode
    · split
      · exact addWait_entries s _ p t _ mode
      · exact answer_entries s p t _
  · exact answer_entries s p t _

theorem closeRecord_entries (s : State) (b : Bank) (p : Port) (t : Tag) : s.OnlyEntries (s.closeRecord b p t) := by
  have marked := entries_trans (setBank_entries s b _) (dropUpgrade_entries
    (s.markRecord b p (fun h => { h with releasing := true, closeTag := some t })) b p .cancelled)
  unfold State.closeRecord
  simp only []
  split
  · exact entries_answered (entries_trans marked (leaveBank_entries _ b p)) p t _
  · exact marked

theorem holdClose_entries (s : State) (p : Port) (t : Tag) (bank : Byte) : s.OnlyEntries (s.holdClose p t bank) := by
  unfold State.holdClose
  split
  · exact answer_entries s p t _
  · split
    · exact answer_entries s p t _
    · split
      · exact entries_answered (dropWait_entries s _ p _) p t _
      · split
        · split
          · exact closeRecord_entries s _ p t
          · exact answer_entries s p t _
        · exact answer_entries s p t _

theorem holdUpgrade_entries (s : State) (p : Port) (t : Tag) (bank : Byte) : s.OnlyEntries (s.holdUpgrade p t bank) := by
  unfold State.holdUpgrade
  split
  · exact answer_entries s p t _
  · split
    · exact answer_entries s p t _
    · split
      · exact answer_entries s p t _
      · split
        · exact answer_entries s p t _
        · split
          · exact answer_entries s p t _
          · split
            · exact entries_answered (setBank_entries s _ _) p t _
            · split
              · exact answer_entries s p t _
              · exact entries_answered (setBank_entries s _ _) p t _

theorem acceptBurst_entries (s : State) (p : Port) (t : Tag) (kind : BurstKind) (bank column units : Byte) (ac : Bool)
    (data : List WriteUnit) : s.OnlyEntries (s.acceptBurst p t kind bank column units ac data) := by
  have queued (x : QueuedBurst) : s.OnlyEntries (s.queueBurst x) := entries_of_links rfl
  unfold State.acceptBurst
  split
  · exact answer_entries s p t _
  · simp only []
    refine entries_trans ?_ (arbiterChoice_entries _)
    split
    · exact entries_trans (queued _) (entries_trans (setBank_entries _ _ _) (dropUpgrade_entries _ _ p _))
    · exact queued _
  · exact answer_entries s p t _

theorem completeOpen_entries (s : State) (b : Bank) : s.OnlyEntries (s.completeOpen b) :=
  entries_of_replied fun p => completeOpen_answers p

theorem reportCompletion_entries (s : State) (p : Port) (b : Bank) : s.OnlyEntries (s.reportCompletion p b) := by
  unfold State.reportCompletion
  split
  · exact entries_refl s
  · split
    · split
      · exact entries_refl s
      · exact entries_trans (leaveBank_entries s b p) (answerTag_entries _ _ _ _)
    · split
      · exact entries_trans (leaveBank_entries s b p) (notify_entries _ _ _)
      · exact entries_refl s

theorem finishBurst_entries (s : State) (e : Execution) : s.OnlyEntries (s.finishBurst e) :=
  entries_trans (t := s.responded e) (entries_of_replied fun q => ⟨_, responded_replied s e q⟩) (reportCompletion_entries _ _ _)

theorem endCut_entries (s : State) (x : QueuedBurst) : s.OnlyEntries (s.endCut x) := by
  have freed : s.OnlyEntries (s.setExecuting none) := entries_of_links rfl
  unfold State.endCut
  simp only []
  split
  · exact entries_trans freed (leaveBank_entries _ _ _)
  · exact freed

theorem detachRecord_entries (s : State) (p : Port) (b : Bank) : s.OnlyEntries (s.detachRecord p b) := by
  unfold State.detachRecord
  split
  · exact entries_refl s
  · split
    · exact entries_refl s
    · split
      · exact entries_trans (leaveBank_entries s b p) (answerTag_entries _ _ _ _)
      · exact setBank_entries s b _

theorem teardownRecord_entries (s : State) (p : Port) (b : Bank) : s.OnlyEntries (s.teardownRecord p b) := by
  unfold State.teardownRecord
  split
  · exact entries_refl s
  · split
    · exact entries_refl s
    · split
      · exact leaveBank_entries s b p
      · exact setBank_entries s b _

theorem detachHolds_entries (s : State) (p : Port) : s.OnlyEntries (s.detachHolds p) :=
  entries_trans (entries_trans (entries_foldl (fun s b => dropWait_entries s b p _) _ s)
    (entries_foldl (fun s b => dropUpgrade_entries s b p _) _ _))
    (entries_foldl (fun s b => detachRecord_entries s p b) _ _)

theorem teardownHolds_entries (s : State) (p : Port) : s.OnlyEntries (s.teardownHolds p) :=
  entries_trans (entries_trans (entries_foldl (fun s b => dropWait_entries s b p _) _ s)
    (entries_foldl (fun s b => dropUpgrade_entries s b p _) _ _))
    (entries_foldl (fun s b => teardownRecord_entries s p b) _ _)

theorem resetBanks_entries (s : State) : s.OnlyEntries s.resetBanks :=
  entries_foldl (fun s b => entries_trans (setBank_entries s b _) (afterLeaving_entries _ b)) allBanks s

theorem cutAtOnce_entries (s : State) : s.OnlyEntries s.cutAtOnce := by
  unfold State.cutAtOnce
  split
  · split
    · exact endCut_entries s _
    · exact entries_refl s
  · exact entries_refl s

/-! ## The retention controller -/

/-- What an evaluation sends depends on the change of state (R74). -/
theorem evaluateQuad_entries (s : State) (q : Quad) : s.OnlyEntries (s.evaluateQuad q) := by
  have set (m : Maintenance) : s.OnlyEntries (s.setMaintenance q m) := entries_of_links rfl
  have revoked (m : Maintenance) : s.OnlyEntries ((s.setMaintenance q m).revokeQuad q) :=
    entries_trans (set m) (entries_of_posts (revokeQuad_posts _ q))
  unfold State.evaluateQuad
  simp only []
  split
  case h_1 => exact entries_trans (set _) (entries_of_posted (reclaimQuad_posted _ q))
  case h_2 | h_3 => exact revoked _
  case h_4 => exact entries_trans (set _) (serveQuad_entries _ q)
  case h_5 | h_6 | h_7 | h_8 | h_9 => exact set _

theorem evaluateAll_entries (s : State) : s.OnlyEntries s.evaluateAll := entries_foldl evaluateQuad_entries allFour s

theorem expireQuad_entries (s : State) (q : Quad) : s.OnlyEntries (s.expireQuad q) := by
  unfold State.expireQuad
  split
  · exact entries_refl s
  · split
    · exact entries_trans (t := s.setDebt q _) (entries_of_links rfl) (evaluateQuad_entries _ q)
    · exact entries_trans (t := s.setQuad q _) (entries_of_links rfl) (entries_of_posted (lapseNotices_posted _ q))

theorem refreshChoice_entries (s : State) : s.OnlyEntries s.refreshChoice := entries_of_links (refreshChoice_links s)

theorem finishRefresh_entries (s : State) (q : Quad) : s.OnlyEntries (s.finishRefresh q) := by
  have paid : s.OnlyEntries (if s.cleared q then (s.setDebt q ((s.quad q).debt - 1)).evaluateQuad q else s) := by
    split
    · exact entries_trans (t := s.setDebt q _) (entries_of_links rfl) (evaluateQuad_entries _ q)
    · exact entries_refl s
  exact entries_trans (entries_trans paid (t := State.setQuadPhase _ q .closed) (entries_of_links rfl))
    (entries_trans (serveQuad_entries _ q) (entries_of_links rfl))

theorem finishClear_entries (s : State) (q : Quad) : s.OnlyEntries (s.finishClear q) :=
  entries_trans (t := State.setQuadPhase _ q .closed) (entries_of_links rfl) (serveQuad_entries _ q)

theorem tryClearStart_entries (s : State) : s.OnlyEntries s.tryClearStart := entries_of_links (tryClearStart_links s)

theorem enterRetention_entries (s : State) : s.OnlyEntries s.enterRetention := entries_of_links (enterRetention_links s)

/-! ## The session unit -/

theorem finishSession_entries (s : State) (p : Port) : s.OnlyEntries (s.finishSession p) := by
  unfold State.finishSession
  simp only []
  split
  · split
    · exact entries_trans (answerTag_entries s p _ _) (entries_of_links rfl)
    · exact entries_refl s
  · split
    · exact entries_refl s
    · exact entries_of_links rfl
  · exact entries_refl s
  · exact entries_refl s

theorem finishSessions_entries (s : State) : s.OnlyEntries s.finishSessions := entries_foldl finishSession_entries allFour s

theorem settle_entries (s : State) : s.OnlyEntries s.settle :=
  entries_trans (entries_trans (arbiterChoice_entries s) (finishSessions_entries _))
    (entries_trans (refreshChoice_entries _) (enterRetention_entries _))

theorem releaseRole_entries (s : State) (p : Port) : s.OnlyEntries (s.releaseRole p) := by
  unfold State.releaseRole
  split <;> exact entries_of_links rfl

theorem attachSession_entries (s : State) (p : Port) (t : Tag) (role : Byte) : s.OnlyEntries (s.attachSession p t role) := by
  unfold State.attachSession
  split
  · exact answer_entries s p t _
  · exact entries_answered (entries_of_links rfl) p t _

/-- The first steps of a DETACH and of a teardown. -/
theorem sessionEnd_entries (s : State) (p : Port) (x : Session) :
    s.OnlyEntries (((s.setSession p x).releaseRole p).removePortBursts p .cancelled) :=
  entries_trans (entries_trans (t := s.setSession p x) (entries_of_links rfl) (releaseRole_entries _ p))
    (removePortBursts_entries _ p _)

theorem detachSession_entries (s : State) (p : Port) (t : Tag) : s.OnlyEntries (s.detachSession p t) := by
  unfold State.detachSession
  exact entries_trans (sessionEnd_entries s p _) (detachHolds_entries _ p)

theorem teardownSession_entries (s : State) (p : Port) : s.OnlyEntries (s.teardownSession p) := by
  unfold State.teardownSession
  split
  case h_1 | h_2 => exact entries_trans (sessionEnd_entries s p _) (teardownHolds_entries _ p)
  case h_3 | h_4 => exact entries_refl s

/-- After its own link's steps a link fault places entries for other ports alone. -/
theorem linkFault_entries (s : State) (p : Port) (reason : FaultReason) :
    (s.setLink p ((s.link p).faulted reason)).OnlyEntries (s.linkFault p reason) :=
  entries_trans (teardownSession_entries _ p) (settle_entries _)

/-! ## Requests -/

theorem orderedOpen_entries (s : State) (p : Port) (t : Tag) (bank : Byte) (row : BitVec 16) (mode : HoldMode) (wait : Bool) :
    s.OnlyEntries (s.orderedOpen p t bank row mode wait) := by
  rcases orderedOpen_cases s p t bank row mode wait with e | ⟨q, -, -, e⟩ <;> rw [e]
  · exact holdOpen_entries s p t bank row mode wait
  · exact entries_trans (entries_trans (t := s.withoutStart q) (entries_of_links rfl) (holdOpen_entries _ p t bank row mode wait))
      (refreshChoice_entries _)

theorem applyItem_entries (s : State) (i : Item) (v : Nat) : s.OnlyEntries (s.applyItem i v) := by
  have set : s.OnlyEntries (s.setItem i v) := entries_of_links rfl
  unfold State.applyItem
  split
  · exact entries_refl s
  · refine entries_trans set ?_
    cases i with
    | reclaimLevel => exact entries_trans (evaluateAll_entries _) (refreshChoice_entries _)
    | pullIn => exact refreshChoice_entries _
    | retentionInterval | holdQuota | grantPolicy | idleEntry => exact entries_refl _

theorem cfgWrite_entries (s : State) (p : Port) (t : Tag) (code index value : Byte) :
    s.OnlyEntries (s.cfgWrite p t code index value) := by
  unfold State.cfgWrite
  split
  · exact answer_entries s p t _
  · next i _ _ =>
    have written := entries_answered (applyItem_entries s i value.toNat) p t (.ok (.cfgWrite i.code i.index value.toNat))
    simp only []
    split
    · exact entries_trans written (enterRetention_entries _)
    · exact written
  · exact answer_entries s p t _

theorem cfgRead_entries (s : State) (p : Port) (t : Tag) (code index : Byte) : s.OnlyEntries (s.cfgRead p t code index) := by
  unfold State.cfgRead
  split
  · exact answer_entries s p t _
  · split <;> exact answer_entries s p t _

theorem inspect_entries (s : State) (p : Port) (t : Tag) (code number : Byte) : s.OnlyEntries (s.inspect p t code number) := by
  unfold State.inspect
  split <;> exact answer_entries s p t _

theorem faultClear_entries (s : State) (p : Port) (t : Tag) (index : Byte) : s.OnlyEntries (s.faultClear p t index) := by
  unfold State.faultClear
  split
  · exact answer_entries s p t _
  · split
    · exact entries_answered (entries_of_links rfl) p t _
    · split
      · split
        · exact entries_answered (entries_of_links rfl) p t _
        · exact answer_entries s p t _
      · exact answer_entries s p t _

theorem lapseClear_entries (s : State) (p : Port) (t : Tag) (quad : Byte) : s.OnlyEntries (s.lapseClear p t quad) := by
  unfold State.lapseClear
  split
  · exact answer_entries s p t _
  · split
    · exact entries_answered (entries_of_links rfl) p t _
    · split
      · exact entries_answered (entries_of_links rfl) p t _
      · exact answer_entries s p t _

theorem countClear_entries (s : State) (p : Port) (t : Tag) (bank : Byte) : s.OnlyEntries (s.countClear p t bank) := by
  unfold State.countClear
  split
  · exact answer_entries s p t _
  · split
    · exact entries_answered (entries_of_links rfl) p t _
    · split
      · exact entries_answered (entries_of_links rfl) p t _
      · exact answer_entries s p t _

section
variable {s : State} {f : State → State} (p : Port) (t : Tag) (h : s.OnlyEntries (f s))
include h

theorem ifAttached_entries : s.OnlyEntries (s.ifAttached p t f) :=
  ifAttached_keeps p t (answer_entries s p t _) h

theorem unlessNone_entries : s.OnlyEntries (s.unlessNone p t f) :=
  unlessNone_keeps p t (answer_entries s p t _) h

end

theorem requestAttach_entries (s : State) (p : Port) (t : Tag) (role : Byte) : s.OnlyEntries (s.requestAttach p t role) := by
  unfold State.requestAttach
  split
  · exact attachSession_entries s p t role
  · exact answer_entries s p t _

theorem requestClose_entries (s : State) (p : Port) (t : Tag) (bank : Byte) : s.OnlyEntries (s.requestClose p t bank) := by
  refine unlessNone_entries p t ?_
  split
  · exact entries_trans (holdClose_entries s p t bank) (refreshChoice_entries _)
  · exact holdClose_entries s p t bank

theorem requestInspect_entries (s : State) (p : Port) (t : Tag) (target number : Byte) :
    s.OnlyEntries (s.requestInspect p t target number) := by
  unfold State.requestInspect
  split
  · exact inspect_entries s p t target number
  · exact ifAttached_entries p t (inspect_entries s p t target number)

/-- What any request makes of the links: entries in their outbound queues. -/
theorem dispatch_entries (s : State) (p : Port) (t : Tag) (r : Request) : s.OnlyEntries (s.dispatch p t r) := by
  cases r with
  | attach role => exact requestAttach_entries s p t role
  | detach =>
    exact ifAttached_entries (f := fun s => (s.detachSession p t).settle) p t
      (entries_trans (detachSession_entries s p t) (settle_entries _))
  | idle =>
    exact ifAttached_entries p t
      (entries_trans (entries_answered (u := s.setVote p true) (entries_of_links rfl) p t _) (enterRetention_entries _))
  | openBank bank row mode wait => exact unlessNone_entries p t (orderedOpen_entries s p t bank row mode wait)
  | upgrade bank => exact unlessNone_entries p t (holdUpgrade_entries s p t bank)
  | closeBank bank => exact requestClose_entries s p t bank
  | read bank column units ac => exact unlessNone_entries p t (acceptBurst_entries s p t .read bank column units ac [])
  | write bank column units ac data => exact unlessNone_entries p t (acceptBurst_entries s p t .write bank column units ac data)
  | cfgRead item index => exact ifAttached_entries p t (cfgRead_entries s p t item index)
  | cfgWrite item index value => exact ifAttached_entries p t (cfgWrite_entries s p t item index value)
  | inspect target number => exact requestInspect_entries s p t target number
  | faultClear index => exact ifAttached_entries p t (faultClear_entries s p t index)
  | lapseClear quad => exact ifAttached_entries p t (lapseClear_entries s p t quad)
  | countClear bank => exact ifAttached_entries p t (countClear_entries s p t bank)

theorem take_entries (s : State) (p : Port) (t : Tag) (r : Request) : s.OnlyEntries (s.take p t r) := by
  refine entries_trans (t := s.beginRequest p t r) (entries_of_links ?_) (dispatch_entries _ p t r)
  unfold State.beginRequest
  split <;> rfl

/-! ## One notice for each kind and subject (R128) -/

/-- No two notices of a queue are of the same kind and subject. -/
def distinctNotices (queue : List OutEntry) : Prop := queue.Pairwise (fun x y => x.sameSubject y = false)

/-- An update changes the content of a notice, not its subject. -/
theorem sameSubject_updateBy (x e y : OutEntry) :
    (x.updateBy e).sameSubject y = x.sameSubject y ∧ y.sameSubject (x.updateBy e) = y.sameSubject x := by
  have left (y : OutEntry) : (x.updateBy e).sameSubject y = x.sameSubject y := by
    unfold OutEntry.updateBy
    split
    case h_1 | h_2 | h_3 => cases y <;> rfl
    case h_4 => rfl
  exact ⟨left y, by rw [sameSubject_comm, left, sameSubject_comm]⟩

theorem distinctNotices_placeEntry {queue : List OutEntry} (h : distinctNotices queue) (e : OutEntry) :
    distinctNotices (placeEntry queue e) := by
  have subject (x y : OutEntry) : (if x.sameSubject e then x.updateBy e else x).sameSubject
      (if y.sameSubject e then y.updateBy e else y) = x.sameSubject y := by
    split <;> split <;> simp only [sameSubject_updateBy]
  unfold placeEntry
  split
  · exact List.pairwise_map.2 (h.imp fun {x y} hxy => (subject x y).trans hxy)
  · next absent =>
    refine List.pairwise_append.2 ⟨h, List.pairwise_singleton _ _, fun x hx y hy => ?_⟩
    obtain rfl := List.mem_singleton.1 hy
    exact Bool.eq_false_iff.2 fun hs => absent (List.any_eq_true.2 ⟨x, hx, hs⟩)

theorem distinctNotices_placeEntries : ∀ (es : List OutEntry) {queue : List OutEntry}, distinctNotices queue →
    distinctNotices (es.foldl placeEntry queue)
  | [], _, h => h
  | e :: es, _, h => distinctNotices_placeEntries es (distinctNotices_placeEntry h e)

theorem noticeLaw_of_entries {s t : State} (h : s.OnlyEntries t) (law : s.noticeLaw) : t.noticeLaw := fun p => by
  obtain ⟨es, hlink⟩ := h p
  rw [hlink]
  exact distinctNotices_placeEntries es (law p)

/-- The law sees no more of a link than its outbound queue. -/
theorem noticeLaw_setLink {s : State} (p : Port) {l : Link} (law : s.noticeLaw) (h : distinctNotices l.queue) :
    (s.setLink p l).noticeLaw := fun q => by
  rw [link_setLink]
  split
  · exact h
  · exact law q

theorem noticeLaw_of_empty {s : State} (h : ∀ p, (s.link p).queue = []) : s.noticeLaw := fun p => by
  rw [h p]
  exact List.Pairwise.nil

theorem noticeLaw_linkFault {s : State} (p : Port) (reason : FaultReason) (law : s.noticeLaw) :
    (s.linkFault p reason).noticeLaw :=
  noticeLaw_of_entries (linkFault_entries s p reason) (noticeLaw_setLink p law List.Pairwise.nil)

theorem keptByPackets_noticeLaw : KeptByPackets State.noticeLaw where
  link p _ same law := noticeLaw_setLink p law (by rw [same]; exact law p)
  fault p reason law := noticeLaw_linkFault p reason law
  take p t r law := noticeLaw_of_entries (take_entries _ p t r) law
  wake law := law
  stamp _ law := law
  retention law := noticeLaw_of_entries (enterRetention_entries _) law

/-- A transmission takes the head of the queue at most (R130). -/
theorem transmitted_queue (l : Link) (bytes : List Byte) : (l.transmitted bytes).queue.Sublist l.queue := by
  unfold Link.transmitted
  simp only []
  split
  · exact List.Sublist.refl _
  · exact List.drop_sublist 1 _

theorem resetBlocks_links (s : State) : s.resetBlocks.links = s.quieted.resetBanks.links := by
  simp only [resetBlocks_eq, clearAllCounts_links]

theorem quieted_queue (s : State) (p : Port) : (s.quieted.link p).queue = [] := by
  show ((s.links.map Link.atReset).get p).queue = []
  rw [four_get_map]
  rfl

/-- What follows the emptied queues in the fall, at the links. -/
theorem resetFall_entries (s : State) : s.resetMode.quieted.OnlyEntries s.resetFall := by
  have blocks (u : State) : u.quieted.OnlyEntries u.resetBlocks :=
    entries_trans (resetBanks_entries _) (entries_of_links (resetBlocks_links u))
  have after (u : State) : u.OnlyEntries u.cutAtOnce.evaluateAll.finishSessions.refreshChoice :=
    entries_trans (entries_trans (cutAtOnce_entries u) (evaluateAll_entries _))
      (entries_trans (finishSessions_entries _) (refreshChoice_entries _))
  unfold State.resetFall
  exact entries_trans (blocks _) (after _)

/-- At RESET_N fall every outbound queue is emptied (R132), and what the fall then makes of the records may fill it anew. -/
theorem noticeLaw_resetFall (s : State) : s.resetFall.noticeLaw :=
  noticeLaw_of_entries (resetFall_entries s) (noticeLaw_of_empty (quieted_queue s.resetMode))

theorem noticeLaw_resetRise {s : State} (law : s.noticeLaw) : s.resetRise.noticeLaw := by
  unfold State.resetRise
  simp only []
  split
  · exact noticeLaw_of_entries (tryClearStart_entries _) (s := State.unclearAll _) law
  · exact noticeLaw_of_entries (enterRetention_entries _) (s := State.setMode _ .active) law

theorem noticeLaw_powerOn (high : Bool) (carrier : Four Bool) (now epoch : Nat) (marks : RecentMarks) (pending : List Instr) :
    (State.powerOn high carrier now epoch marks pending).noticeLaw :=
  noticeLaw_of_empty fun p => by
    show ((carrier.map Link.powerOn).get p).queue = []
    rw [four_get_map]
    rfl

/-- Every command keeps one notice for each kind and subject. -/
theorem exec_keeps_noticeLaw {i : Instr} {s t : State} (h : s.noticeLaw) (hx : exec i s = .next t) : t.noticeLaw := by
  have law := keptByPackets_noticeLaw
  have settled {u v : State} (k : u.OnlyEntries v) (hu : u.noticeLaw) : v.settle.noticeLaw :=
    noticeLaw_of_entries (entries_trans k (settle_entries v)) hu
  have chosen (u : State) : u.OnlyEntries u.tryClearStart.refreshChoice.enterRetention :=
    entries_trans (entries_trans (tryClearStart_entries u) (refreshChoice_entries _)) (enterRetention_entries _)
  cases i
  case powerOn high carrier =>
    obtain rfl := Host.Outcome.next.inj hx
    exact noticeLaw_powerOn _ _ _ _ _ _
  case resetNFall =>
    obtain rfl := Host.Outcome.next.inj hx
    split
    · exact h
    · exact noticeLaw_resetFall s
  case resetNRise =>
    obtain rfl := Host.Outcome.next.inj hx
    split
    · exact noticeLaw_resetRise h
    · exact h
  case carrierLoss p =>
    obtain rfl := Host.Outcome.next.inj hx
    exact loseCarrier_keeps law p h
  case carrierReturn p =>
    obtain rfl := Host.Outcome.next.inj hx
    exact law.link p rfl h
  case unitCorruption bank row column data check =>
    obtain rfl := Host.Outcome.next.inj hx
    exact h
  case burstUnitStep =>
    obtain ⟨e, -, -, -, rfl⟩ := burstUnitStep_next hx
    exact noticeLaw_of_entries (s := s.reach e.nextUnitEnds) (stepNextUnit_entries _ e) h
  case executionCompletion =>
    obtain ⟨e, done, -, -, -, rfl⟩ := executionCompletion_next hx
    have stepped := noticeLaw_of_entries (stepUnits_entries e.unitsLeft s) h
    exact settled (u := (State.stepUnits e.unitsLeft s).reach e.endsAt) (finishBurst_entries _ done) stepped
  case cutCompletion =>
    obtain ⟨e, ends, -, -, rfl⟩ := cutCompletion_next hx
    exact settled (u := s.reach ends) (entries_trans (unitStep_entries _ _ _) (endCut_entries _ _)) h
  case openCompletion b =>
    obtain ⟨-, rfl⟩ := openCompletion_next hx
    exact settled (u := s.reachBank b) (completeOpen_entries _ b) h
  case dwellExpiry b =>
    obtain ⟨-, rfl⟩ := dwellExpiry_next hx
    exact h
  case closeCompletion b =>
    obtain ⟨-, rfl⟩ := closeCompletion_next hx
    have closed : (s.reachBank b).OnlyEntries ((s.reachBank b).completeClose b) :=
      entries_trans (setBank_entries _ b _) (serveBank_entries _ b)
    exact noticeLaw_of_entries (s := s.reachBank b) (entries_trans closed (chosen _)) h
  case retentionTimerExpiry =>
    obtain rfl := Host.Outcome.next.inj hx
    exact settled (u := s.reach s.timer.endsAt)
      (entries_trans (entries_foldl expireQuad_entries allFour _) (entries_of_links (nextPeriod_links _))) h
  case refreshCompletion =>
    obtain ⟨r, -, rfl⟩ := refreshCompletion_next hx
    exact noticeLaw_of_entries (s := s.reach r.endsAt) (entries_trans (finishRefresh_entries _ r.quad) (chosen _)) h
  case clearCompletion =>
    obtain ⟨r, -, rfl⟩ := clearCompletion_next hx
    have after (u : State) (q : Quad) : u.OnlyEntries (u.afterClear q) := by
      unfold State.afterClear
      split
      · exact entries_of_links rfl
      · exact tryClearStart_entries u
    exact noticeLaw_of_entries (s := s.reach (r.startedAt + clearTime))
      (entries_trans (entries_trans (finishClear_entries _ r.quad) (refreshChoice_entries _))
        (entries_trans (after _ r.quad) (enterRetention_entries _))) h
  case wakeCompletion =>
    obtain ⟨ends, -, rfl⟩ := wakeCompletion_next hx
    refine finishWake_keeps law fun p => ?_
    show distinctNotices ((s.links.map (fun l : Link => { l with held := [] })).get p).queue
    rw [four_get_map]
    exact h p
  case transmission p =>
    obtain ⟨bytes, -, rfl⟩ := transmission_next hx
    exact law.retention (noticeLaw_setLink p h ((h p).sublist (transmitted_queue _ bytes)))
  all_goals
    obtain rfl := Host.Outcome.next.inj hx
    exact receive_keeps law _ _ h

/-- Settles O59: an entry is placed at the tail only where no notice of its kind and subject is queued, and else takes that one's place. -/
theorem stepKeepsNoticeLaw : Obligations.StepKeepsNoticeLaw :=
  fun _ _ h hx => step_keeps (P := State.noticeLaw) (fun _ h => h) exec_keeps_noticeLaw (fun h => h) h hx

end Sys2Proof.Machine
end
section
/-!
SUPPORT. Arrivals and transmissions at the link units: what becomes of a packet by mode, carrier and link state, packets held through a
wake, and what is sent (R117 to R120, R130 to R132, R171).
-/

namespace Sys2Proof.Machine

open Sys2Proof

/-! ## What an arrival does in each mode (R117, R131, R132) -/

section
variable {s : State} {p : Port} (a : Arrival)

theorem receive_without_carrier (h : (s.link p).carrier = false) : s.receive p a = s := by
  unfold State.receive
  rw [h]
  rfl

theorem receive_reset (h : s.mode = .reset) : s.receive p a = s := by
  unfold State.receive
  rw [h]
  exact ite_self s

theorem receive_retention (hc : (s.link p).carrier = true) (h : s.mode = .retention) :
    s.receive p a = s.startWake.holdPacket p a := by
  unfold State.receive
  rw [hc, h]
  rfl

theorem receive_waking (hc : (s.link p).carrier = true) (h : s.mode = .waking) : s.receive p a = s.holdPacket p a := by
  unfold State.receive
  rw [hc, h]
  rfl

/-! ## The checks on a DOWN and on an UP link (R118, R120) -/

theorem accept_hello (hup : (s.link p).up = false) (h : isHelloPacket a = true) :
    s.accept p a = s.setLink p (s.link p).broughtUp := by
  unfold State.accept
  rw [hup, h]
  rfl

theorem accept_ignored (hup : (s.link p).up = false) (h : isHelloPacket a = false) : s.accept p a = s := by
  unfold State.accept
  rw [hup, h]
  rfl

theorem accept_fault {reason : FaultReason} (hup : (s.link p).up = true) (h : s.linkCheck p a = some reason) :
    s.accept p a = s.linkFault p reason := by
  unfold State.accept
  rw [hup, h]
  rfl

theorem accept_good (hup : (s.link p).up = true) (h : s.linkCheck p a = none) : s.accept p a = s.goodPacket p a := by
  unfold State.accept
  rw [hup, h]
  rfl

theorem isHelloPacket_iff :
    isHelloPacket a = true ↔ a.checkAgrees = true ∧ a.content = .hello true ∧ a.sequence = 0 := by
  unfold isHelloPacket
  simp only [Bool.and_eq_true, beq_iff_eq, and_assoc]

end

/-- Settles O9: on a DOWN link the HELLO check alone decides, and before it the mode and the carrier. -/
theorem downLinkHearsHelloAlone : Obligations.DownLinkHearsHelloAlone := by
  unfold Obligations.DownLinkHearsHelloAlone
  intro s p bytes
  refine ⟨fun hl hup => ?_, fun hm hup hno => ?_, fun hm => ?_, fun hc => ?_⟩
  · show Host.Outcome.next (s.receive p helloArrival) = _
    rw [receive_listens hl, accept_hello helloArrival hup rfl]
    rfl
  · show Host.Outcome.next (s.receive p (decodePacket bytes)) = _
    cases hc : (s.link p).carrier with
    | false => rw [receive_without_carrier _ hc]
    | true =>
      rw [receive_listens ⟨hm, hc⟩, accept_ignored _ hup]
      exact Bool.eq_false_iff.2 fun h => hno ((isHelloPacket_iff _).1 h)
  · exact congrArg Host.Outcome.next (receive_reset _ hm)
  · exact congrArg Host.Outcome.next (receive_without_carrier _ hc)

/-! ## Packets held through a wake (R131, R171) -/

theorem holdPacket_held {s : State} {p : Port} (a : Arrival) (h : (s.link p).held.length < 32) :
    s.holdPacket p a = (({ s with stamp := s.stamp + 1 } : State).setLink p
      { s.link p with held := (s.link p).held ++ [{ stamp := s.stamp, packet := a }] }) := by
  unfold State.holdPacket
  exact if_pos h

theorem holdPacket_overrun {s : State} {p : Port} (a : Arrival) (h : 32 ≤ (s.link p).held.length) :
    s.holdPacket p a = s.setLink p { s.link p with overrun := true } := by
  unfold State.holdPacket
  exact if_neg (not_lt.2 h)

/-- Settles O13: outside CLEARING and ACTIVE an arrival is held, whatever it is, while there is room. -/
theorem arrivalsAroundTheWakeAreHeld : Obligations.ArrivalsAroundTheWakeAreHeld := by
  unfold Obligations.ArrivalsAroundTheWakeAreHeld
  intro s p bytes hc
  refine ⟨fun hm hroom => ?_, fun hm hroom => ?_, fun hm hfull => ?_⟩
  · show Host.Outcome.next (s.receive p (decodePacket bytes)) = _
    rw [receive_retention _ hc hm, holdPacket_held (s := s.startWake) _ hroom]
    rfl
  · exact congrArg Host.Outcome.next ((receive_waking _ hc hm).trans (holdPacket_held _ hroom))
  · exact congrArg Host.Outcome.next ((receive_waking _ hc hm).trans (holdPacket_overrun _ hfull))

/-! ## Transmission (R130) -/

theorem transmission_exec {s : State} {p : Port} {bytes : List Byte} (h : s.transmittable p = some bytes) :
    exec (.transmission p) s = .next (s.setLink p ((s.link p).transmitted bytes)).enterRetention := by
  show execTransmission p s = _
  unfold execTransmission
  rw [h]

theorem transmission_nothing {s : State} {p : Port} (h : s.transmittable p = none) :
    exec (.transmission p) s = .fault (.nothingToSend p) := by
  show execTransmission p s = _
  unfold execTransmission
  rw [h]

section
variable {s : State} {p : Port}

theorem transmittable_control {c : ControlPacket} (hc : (s.link p).carrier = true) (hm : s.mode ≠ .reset)
    (h : (s.link p).control = some c) : s.transmittable p = some (c.packet (s.link p).outboundSeq p) := by
  unfold State.transmittable
  simp [hc, hm, h]

theorem transmittable_queue {e : OutEntry} {rest : List OutEntry} (hc : (s.link p).carrier = true) (hm : s.mode ≠ .reset)
    (hnone : (s.link p).control = none) (hup : (s.link p).up = true) (h : (s.link p).queue = e :: rest) :
    s.transmittable p = some (e.packet (s.link p).outboundSeq) := by
  unfold State.transmittable
  simp [hc, hm, hnone, hup, h]

theorem transmittable_none (h : (s.link p).carrier = false ∨ s.mode = .reset
    ∨ ((s.link p).control = none ∧ (s.link p).queue = []) ∨ ((s.link p).control = none ∧ (s.link p).up = false)) :
    s.transmittable p = none := by
  unfold State.transmittable
  simp only []
  rcases h with hc | hm | ⟨hnone, hempty⟩ | ⟨hnone, hdown⟩
  · simp [hc]
  · simp [hm]
  · simp [hnone, hempty]
  · cases hq : (s.link p).queue <;> simp [hnone, hdown]

end

/-- Settles O16: what may be sent is the control slot's packet, then the queue's head, and sending takes it away. -/
theorem transmissionSendsTheFrontPacket : Obligations.TransmissionSendsTheFrontPacket := by
  unfold Obligations.TransmissionSendsTheFrontPacket
  intro s p
  refine ⟨fun c hc hm h => ?_, fun e rest hc hm hnone hup h => ?_, fun h => transmission_nothing (transmittable_none h)⟩
  · rw [transmission_exec (transmittable_control hc hm h)]
    simp [Link.transmitted, h]
  · rw [transmission_exec (transmittable_queue hc hm hnone hup h)]
    simp [Link.transmitted, hnone, h]

/-! ## The overrun mark (R131) -/

theorem overrun_of_entries {s t : State} (h : s.OnlyEntries t) (q : Port) : (t.link q).overrun = (s.link q).overrun := by
  obtain ⟨es, hlink⟩ := h q
  rw [hlink]

theorem overrun_setLink (s : State) (p q : Port) {l : Link} (h : l.overrun = (s.link p).overrun) :
    ((s.setLink p l).link q).overrun = (s.link q).overrun := by
  rw [link_setLink]
  split
  · next hq => rw [h, hq]
  · rfl

theorem linkFault_overrun (s : State) (p : Port) (reason : FaultReason) (q : Port) :
    ((s.linkFault p reason).link q).overrun = (s.link q).overrun :=
  (overrun_of_entries (linkFault_entries s p reason) q).trans (overrun_setLink s p q rfl)

/-- A packet taken by its link unit sets and clears no overrun mark. -/
theorem accept_overrun (s : State) (p : Port) (a : Arrival) (q : Port) :
    ((s.accept p a).link q).overrun = (s.link q).overrun := by
  have advanced : ((s.advanceSeq p).link q).overrun = (s.link q).overrun := overrun_setLink s p q rfl
  cases hup : (s.link p).up with
  | false =>
    cases hello : isHelloPacket a with
    | false => rw [accept_ignored a hup hello]
    | true =>
      rw [accept_hello a hup hello]
      exact overrun_setLink s p q rfl
  | true =>
    cases hcheck : s.linkCheck p a with
    | some reason =>
      rw [accept_fault a hup hcheck]
      exact linkFault_overrun s p reason q
    | none =>
      rw [accept_good a hup hcheck]
      unfold State.goodPacket
      split
      · exact (linkFault_overrun _ p .reset q).trans advanced
      · exact (overrun_of_entries (take_entries _ p _ _) q).trans advanced
      · rfl
      · rfl
      · rfl

/-- Without the mark nothing follows a link's last held packet. -/
theorem endHeld_unmarked {s : State} {p : Port} (h : (s.link p).overrun = false) : s.endHeld p = s := by
  have same : s.setLink p { s.link p with overrun := false } = s := by
    rw [← h]
    exact setLink_link s p
  unfold State.endHeld
  rw [same, h]
  exact if_neg fun hc => Bool.false_ne_true hc.1

/-! ## A single held packet (R131, R171) -/

/-- The part awake, its held packets taken up. -/
def State.awake (s : State) : State :=
  { s with
    modeCtl := { s.modeCtl with mode := .active, wakeEndsAt := none }
    links := s.links.map (fun l => { l with held := [] }) }

theorem finishWake_eq (s : State) : s.finishWake =
    (allFour.foldl (fun s p => s.endHeld p) (State.takeHeld s.heldOrder s.awake)).enterRetention := rfl

theorem heldOrder_single {s : State} {p : Port} {h : HeldPacket} (hp : (s.link p).held = [h])
    (others : ∀ q, q ≠ p → (s.link q).held = []) : s.heldOrder = [(p, h)] := by
  obtain ⟨before, after, hsplit, hbefore, hafter⟩ := allFour_split p
  have none (qs : List Port) (hqs : ∀ q ∈ qs, q ≠ p) :
      qs.flatMap (fun q => (s.link q).held.map (fun x => (q, x))) = [] :=
    List.flatMap_eq_nil_iff.2 fun q hq => by rw [others q (hqs q hq)]; rfl
  unfold State.heldOrder
  rw [hsplit, List.flatMap_append, List.flatMap_cons, none before fun q hq => ne_of_lt (hbefore q hq),
    none after fun q hq => ne_of_gt (hafter q hq), hp]
  rfl

theorem takeHeld_single {s : State} {p : Port} {h : HeldPacket} (clear : (s.link p).overrun = false) :
    State.takeHeld [(p, h)] s = s.accept p h.packet :=
  endHeld_unmarked ((accept_overrun s p h.packet p).trans clear)

theorem awake_single {s : State} {p : Port} (others : ∀ q, q ≠ p → (s.link q).held = []) :
    s.awake = ({ s with modeCtl := { s.modeCtl with mode := .active, wakeEndsAt := none } } : State).setLink p
      { s.link p with held := [] } := by
  have links : s.links.map (fun l => { l with held := [] }) = s.links.set p { s.link p with held := [] } := by
    refine four_ext fun q => ?_
    rw [four_get_map, four_get_set]
    split
    · next hq => rw [hq]; rfl
    · next hq =>
      rw [← others q hq]
      rfl
  unfold State.awake
  rw [links]
  rfl

/-- Where no overrun mark is set, a single held packet is taken and nothing else of the wake remains. -/
theorem finishWake_single {s : State} {p : Port} {h : HeldPacket} (hp : (s.link p).held = [h])
    (others : ∀ q, q ≠ p → (s.link q).held = []) (clear : ∀ q, (s.link q).overrun = false) :
    s.finishWake = (s.awake.accept p h.packet).enterRetention := by
  have awake (q : Port) : (s.awake.link q).overrun = false := by
    show ((s.links.map (fun l : Link => { l with held := [] })).get q).overrun = false
    rw [four_get_map]
    exact clear q
  have settled : ∀ qs : List Port, qs.foldl (fun s q => s.endHeld q) (s.awake.accept p h.packet) = s.awake.accept p h.packet := by
    intro qs
    induction qs with
    | nil => rfl
    | cons q qs ih => rw [List.foldl_cons, endHeld_unmarked ((accept_overrun _ p _ q).trans (awake q)), ih]
  rw [finishWake_eq, heldOrder_single hp others, takeHeld_single (awake p), settled]

/-- Settles O15: the order of one held packet is that packet, and no overrun mark adds to it. -/
theorem heldPacketIsTakenAtWake : Obligations.HeldPacketIsTakenAtWake := by
  unfold Obligations.HeldPacketIsTakenAtWake
  intro s p h e hw hp others clear hc
  refine ⟨(s.reach e).finishWake, ?_, ?_⟩
  · show execWakeCompletion s = _
    unfold execWakeCompletion
    rw [hw]
  · rw [finishWake_single (s := s.reach e) hp others clear, awake_single (s := s.reach e) others]
    refine congrArg State.enterRetention (receive_listens ⟨Or.inr rfl, ?_⟩ h.packet).symm
    rw [link_setLink_same]
    exact hc

end Sys2Proof.Machine
end
section
/-!
SUPPORT. The end of a port's session at a link fault: its bursts, waits and upgrades go, its records leave or are marked, and no other
port's work is touched but for the upgrade that a leaving completes (R13, R44, R50, R68, R148).
-/

namespace Sys2Proof.Machine

open Sys2Proof

/-! ## Lists of records in grant order -/

theorem insertBy_perm {α : Type} (stampOf : α → Nat) (x : α) : ∀ xs : List α, (insertBy stampOf x xs).Perm (x :: xs)
  | [] => List.Perm.refl _
  | y :: ys => by
    unfold insertBy
    split
    · exact List.Perm.refl _
    · exact ((insertBy_perm stampOf x ys).cons y).trans (List.Perm.swap x y ys)

theorem sortBy_perm {α : Type} (stampOf : α → Nat) : ∀ xs : List α, (sortBy stampOf xs).Perm xs
  | [] => List.Perm.refl _
  | x :: xs => (insertBy_perm stampOf x _).trans ((sortBy_perm stampOf xs).cons x)

/-- The banks on which a port has a record, oldest grant first (R22). -/
def State.heldBanks (s : State) (p : Port) : List Bank := (s.holdView p).map (fun x => x.1)

theorem heldBanks_perm (s : State) (p : Port) : (s.heldBanks p).Perm
    (allBanks.flatMap (fun b => ((s.bank b).holds.filter (fun h => h.port == p)).map (fun _ => b))) := by
  have view := (sortBy_perm (fun x : Bank × HoldRecord => x.2.stamp)
    (allBanks.flatMap (fun b => ((s.bank b).holds.filter (fun h => h.port == p)).map (fun h => (b, h))))).map (fun x => x.1)
  rw [List.map_flatMap] at view
  simp only [List.map_map] at view
  exact view

theorem mem_heldBanks (s : State) (p : Port) (b : Bank) : b ∈ s.heldBanks p ↔ ∃ h ∈ (s.bank b).holds, h.port = p := by
  have mem : b ∈ allBanks := by revert b; decide
  rw [(heldBanks_perm s p).mem_iff, List.mem_flatMap]
  constructor
  · rintro ⟨c, -, hc⟩
    obtain ⟨h, hh, rfl⟩ := List.mem_map.1 hc
    exact ⟨h, (List.mem_filter.1 hh).1, by simpa using (List.mem_filter.1 hh).2⟩
  · rintro ⟨h, hh, hp⟩
    exact ⟨b, mem, List.mem_map.2 ⟨h, List.mem_filter.2 ⟨hh, by simpa using hp⟩, rfl⟩⟩

/-- A bank with one record at most for each port (R23). -/
def BankRecord.oneRecord (r : BankRecord) : Prop := ∀ p, (r.holds.filter (fun h => h.port == p)).length ≤ 1

theorem oneRecord_of_placeLaw {s : State} (law : s.placeLaw) (b : Bank) : (s.bank b).oneRecord := fun p =>
  (Nat.le_add_right _ _).trans (law b p)

theorem oneRecord_unique {r : BankRecord} (law : r.oneRecord) {x y : HoldRecord} (hx : x ∈ r.holds) (hy : y ∈ r.holds)
    (h : x.port = y.port) : x = y := by
  have one := law y.port
  have mem {z : HoldRecord} (hz : z ∈ r.holds) (hp : z.port = y.port) : z ∈ r.holds.filter (fun h => h.port == y.port) :=
    List.mem_filter.2 ⟨hz, by simpa using hp⟩
  have mx := mem hx h
  have my := mem hy rfl
  obtain ⟨a, ha⟩ := List.length_eq_one_iff.1 (le_antisymm one (List.length_pos_of_mem my))
  rw [ha] at mx my
  exact (List.mem_singleton.1 mx).trans (List.mem_singleton.1 my).symm

theorem heldBanks_nodup {s : State} (law : ∀ b, (s.bank b).oneRecord) (p : Port) : (s.heldBanks p).Nodup := by
  rw [(heldBanks_perm s p).nodup_iff, List.nodup_flatMap]
  refine ⟨fun b _ => ?_, ?_⟩
  · rw [List.map_const']
    exact List.nodup_replicate.2 (law b p)
  · have apart : allBanks.Nodup := by decide
    refine apart.imp fun {b c} hbc x hb hc => hbc ?_
    obtain ⟨-, -, rfl⟩ := List.mem_map.1 hb
    obtain ⟨-, -, h⟩ := List.mem_map.1 hc
    exact h.symm


/-! ## Answers of a list of operations -/

theorem replied_foldl {α : Type} {f : State → α → State} {q : Port} (hf : ∀ (s : State) x, ∃ es, s.RepliedTo (f s x) q es) :
    ∀ (xs : List α) (s : State), ∃ es, s.RepliedTo (xs.foldl f s) q es
  | [], s => ⟨[], repliedTo_refl s q⟩
  | x :: xs, s => by
    obtain ⟨es, first⟩ := hf s x
    obtain ⟨fs, rest⟩ := replied_foldl hf xs (f s x)
    exact ⟨es ++ fs, repliedTo_trans first rest⟩

/-! ## A port that is answered no more (R50, R148) -/

/-- A bank without the waits and the upgrade of a port. -/
def BankRecord.withdrawn (r : BankRecord) (p : Port) : BankRecord :=
  { r with
    waitQueue := r.waitQueue.filter (fun w => w.port != p)
    upgrade := r.upgrade.filter (fun u => u.port != p) }

theorem withdrawn_upgrade (r : BankRecord) (p : Port) (u : PendingUpgrade) :
    (r.withdrawn p).upgrade = some u ↔ r.upgrade = some u ∧ u.port ≠ p := by
  refine Option.filter_eq_some_iff.trans (and_congr_right fun _ => ?_)
  simp

section
variable {s : State} {p : Port} (silent : s.answerable p = false)
include silent

theorem answerWork_silent (t : Tag) (a : Answer) : s.answerWork p t a = s := by
  unfold State.answerWork
  rw [silent]
  rfl

theorem removePortBursts_silent (a : Answer) : s.removePortBursts p a = s.setBurstQueue p [] := by
  have answers (bs : List QueuedBurst) : ∀ u : State, u.answerable p = false → u.answerBursts p a bs = u := by
    induction bs with
    | nil => exact fun _ _ => rfl
    | cons b bs ih =>
      intro u hu
      have rest := ih u hu
      unfold State.answerBursts at rest ⊢
      rw [List.foldl_cons, answerWork_silent hu, rest]
  exact answers _ (s.setBurstQueue p []) silent

theorem dropWait_silent (b : Bank) (a : Answer) : s.dropWait b p a = s.setBank b ((s.bank b).dropWait p) := by
  unfold State.dropWait
  split
  · exact answerWork_silent (s := s.setBank b _) silent _ a
  · next hnone =>
    have kept : (s.bank b).dropWait p = s.bank b := by
      have all : (s.bank b).waitQueue.filter (fun w => w.port != p) = (s.bank b).waitQueue :=
        List.filter_eq_self.2 fun w hw => by simpa using List.find?_eq_none.1 hnone w hw
      unfold BankRecord.dropWait
      rw [all]
    rw [kept, setBank_bank]

theorem dropUpgrade_silent (b : Bank) (a : Answer) : s.dropUpgrade b p a =
    s.setBank b { s.bank b with upgrade := (s.bank b).upgrade.filter (fun u => u.port != p) } := by
  unfold State.dropUpgrade
  cases hu : (s.bank b).upgrade with
  | none =>
    have same : s.setBank b { s.bank b with upgrade := none } = s := by rw [← hu, setBank_bank]
    exact same.symm
  | some u =>
    simp only []
    by_cases hp : u.port = p
    · rw [if_pos hp, hp, answerWork_silent (s := s.setBank b _) silent]
      simp [hp, Option.filter]
    · have kept : (some u).filter (fun u => u.port != p) = some u := by simp [hp, Option.filter]
      rw [if_neg hp, kept, ← hu, setBank_bank]

/-- One change of each bank's record in turn, while the port is answered nothing. -/
theorem foldl_setBank {f : State → Bank → State} {g : BankRecord → BankRecord}
    (hf : ∀ (u : State) b, u.answerable p = false → f u b = u.setBank b (g (u.bank b))) :
    allBanks.foldl f s = { s with banks := (allBanks.foldl f s).banks }
      ∧ ∀ b, (allBanks.foldl f s).bank b = g (s.bank b) := by
  have all (bs : List Bank) : bs.Nodup → ∀ u : State, u.answerable p = false →
      bs.foldl f u = { u with banks := (bs.foldl f u).banks }
        ∧ ∀ b, (bs.foldl f u).bank b = if b ∈ bs then g (u.bank b) else u.bank b := by
    induction bs with
    | nil => exact fun _ u _ => ⟨rfl, fun b => rfl⟩
    | cons c bs ih =>
      intro hn u hu
      obtain ⟨hc, hbs⟩ := List.nodup_cons.1 hn
      rw [List.foldl_cons, hf u c hu]
      obtain ⟨frame, banks⟩ := ih hbs (u.setBank c (g (u.bank c))) hu
      refine ⟨frame, fun b => ?_⟩
      rw [banks, bank_setBank]
      by_cases hb : b = c
      · subst hb
        simp [hc]
      · simp [hb]
  obtain ⟨frame, banks⟩ := all allBanks (by decide) s silent
  refine ⟨frame, fun b => (banks b).trans (if_pos ?_)⟩
  revert b
  decide

/-- The hold controller at a teardown: waits and upgrades go, nothing is answered, and then the records are looked at in grant order
(R50). -/
theorem teardownHolds_silent : ∃ v : State, v = { s with banks := v.banks } ∧ (∀ b, v.bank b = (s.bank b).withdrawn p)
    ∧ s.teardownHolds p = (v.heldBanks p).foldl (fun s b => s.teardownRecord p b) v := by
  obtain ⟨waits, waited⟩ := foldl_setBank silent (f := fun s b => s.dropWait b p .cancelled)
    (g := fun r => r.dropWait p) fun u b hu => dropWait_silent hu b .cancelled
  generalize hw : allBanks.foldl (fun s b => s.dropWait b p .cancelled) s = w at waits waited
  have still : w.answerable p = false := by
    rw [waits]
    exact silent
  obtain ⟨upgrades, upgraded⟩ := foldl_setBank still (f := fun s b => s.dropUpgrade b p .cancelled)
    (g := fun r => { r with upgrade := r.upgrade.filter (fun u => u.port != p) }) fun u b hu => dropUpgrade_silent hu b .cancelled
  generalize hv : allBanks.foldl (fun s b => s.dropUpgrade b p .cancelled) w = v at upgrades upgraded
  refine ⟨v, upgrades.trans (by rw [waits]), fun b => ?_, ?_⟩
  · rw [upgraded, waited]
    rfl
  · unfold State.teardownHolds
    simp only [hw, hv]
    rfl

end

/-! ## One record at a teardown (R50) -/

theorem teardownRecord_bursts (s : State) (p : Port) (b : Bank) : (s.teardownRecord p b).bursts = s.bursts := by
  unfold State.teardownRecord
  split
  · rfl
  · split
    · rfl
    · split
      · exact leaveBank_bursts s b p
      · rfl

theorem leaveBank_answers (s : State) (b : Bank) (p q : Port) : ∃ es, s.RepliedTo (s.leaveBank b p) q es := by
  by_cases hlast : (s.bank b).holds.filter (fun y => y.port != p) = []
  · by_cases h : (s.bank b).phase = .opened
    · exact ⟨[], by rw [leaveBank_last hlast h]; exact repliedTo_of_eq rfl rfl⟩
    · exact ⟨[], by rw [leaveBank_last_shut hlast h]; exact repliedTo_of_eq rfl rfl⟩
  · rw [leaveBank_others hlast]
    exact completeUpgrade_answers _ b q

theorem teardownRecord_answers (s : State) (p : Port) (b : Bank) (q : Port) :
    ∃ es, s.RepliedTo (s.teardownRecord p b) q es := by
  unfold State.teardownRecord
  split
  · exact ⟨[], repliedTo_refl s q⟩
  · split
    · exact ⟨[], repliedTo_refl s q⟩
    · split
      · exact leaveBank_answers s b p q
      · exact ⟨[], repliedTo_of_eq rfl rfl⟩

section
variable {s t : State} {b : Bank} (hb : t.bank b = s.bank b) (hnow : t.now = s.now)
include hb

theorem completeUpgrade_bank_congr : (t.completeUpgrade b).bank b = (s.completeUpgrade b).bank b := by
  unfold State.completeUpgrade
  rw [hb]
  split
  · split
    · rw [answerWork_bank, answerWork_bank, bank_setBank_same, bank_setBank_same]
    · exact hb
  · exact hb

include hnow

theorem leaveBank_bank_congr (p : Port) : (t.leaveBank b p).bank b = (s.leaveBank b p).bank b := by
  by_cases hlast : (s.bank b).holds.filter (fun y => y.port != p) = []
  · by_cases h : (s.bank b).phase = .opened
    · rw [leaveBank_last hlast h, leaveBank_last (by rw [hb]; exact hlast) (by rw [hb]; exact h), bank_setBank_same,
        bank_setBank_same, hb, hnow]
    · rw [leaveBank_last_shut hlast h, leaveBank_last_shut (by rw [hb]; exact hlast) (by rw [hb]; exact h),
        bank_setBank_same, bank_setBank_same, hb]
  · rw [leaveBank_others hlast, leaveBank_others (by rw [hb]; exact hlast)]
    exact completeUpgrade_bank_congr (by rw [bank_setBank_same, bank_setBank_same, hb])

/-- What becomes of a bank's record at a teardown is seen in that bank, the executing burst and the time. -/
theorem teardownRecord_bank_congr (hbursts : t.bursts = s.bursts) (p : Port) :
    (t.teardownRecord p b).bank b = (s.teardownRecord p b).bank b := by
  have executing : t.executingOn p b = s.executingOn p b := by
    unfold State.executingOn
    rw [hbursts]
  unfold State.teardownRecord State.markRecord
  rw [hb, executing]
  split
  · exact hb
  · split
    · exact hb
    · split
      · exact leaveBank_bank_congr hb hnow p
      · rw [bank_setBank_same, bank_setBank_same]

end

theorem teardownRecord_absent {s : State} {p : Port} {b : Bank} (h : ∀ x ∈ (s.bank b).holds, x.port ≠ p) :
    s.teardownRecord p b = s := by
  have none : (s.bank b).recordOf p = none := List.find?_eq_none.2 fun x hx => by simpa using h x hx
  unfold State.teardownRecord
  rw [none]

/-- Each bank's own record at a teardown is treated as though it were the only one. -/
theorem teardownRecords_bank {s : State} (law : ∀ b, (s.bank b).oneRecord) (p : Port) (b : Bank) :
    ((s.heldBanks p).foldl (fun s b => s.teardownRecord p b) s).bank b = (s.teardownRecord p b).bank b := by
  have only (s : State) (b : Bank) := teardownRecord_onlyBank s p b
  by_cases hm : b ∈ s.heldBanks p
  · refine foldl_bank_mem only (fun u c d hd => ?_) (heldBanks_nodup law p) s hm
    exact teardownRecord_bank_congr (only u c d hd) (keepsStore_of_holds (teardownRecord_holds u p c)).1
      (teardownRecord_bursts u p c) p
  · rw [foldl_bank_ne only _ s b hm, teardownRecord_absent fun x hx hp => hm ((mem_heldBanks s p b).2 ⟨x, hx, hp⟩)]

/-! ## The record that leaves and the record that stays (R50) -/

/-- The record of the port leaves at its teardown: it is not revoke pending, the bank is OPEN and no burst of the port executes there. -/
def State.leavesAtTeardown (s : State) (p : Port) (b : Bank) (h : HoldRecord) : Prop :=
  h.port = p ∧ h.revokePending = false ∧ (s.bank b).phase = .opened ∧ s.executingOn p b = false

theorem leavesAtTeardown_congr {s t : State} {b : Bank} (hb : t.bank b = s.bank b) (hbursts : t.bursts = s.bursts) (p : Port)
    (h : HoldRecord) : t.leavesAtTeardown p b h ↔ s.leavesAtTeardown p b h := by
  unfold State.leavesAtTeardown State.executingOn
  rw [hb, hbursts]

/-- The mark of a record that stays at its port's teardown. -/
def HoldRecord.markedFor (p : Port) (h : HoldRecord) : HoldRecord :=
  if h.port = p ∧ h.releasing = false then { h with revokePending := true } else h

theorem markedFor_other {p : Port} {h : HoldRecord} (hp : h.port ≠ p) : h.markedFor p = h := if_neg fun hc => hp hc.1

theorem revoke_markedFor (p : Port) (h : HoldRecord) : (if h.port = p then h.revoke else h) = h.markedFor p := by
  unfold HoldRecord.markedFor HoldRecord.revoke
  by_cases hp : h.port = p <;> cases h.releasing <;> simp [hp]

section
variable {s : State} {p : Port} {b : Bank} (law : (s.bank b).oneRecord)
include law

theorem teardownRecord_leaves {h : HoldRecord} (hm : h ∈ (s.bank b).holds) (hl : s.leavesAtTeardown p b h) :
    s.teardownRecord p b = s.leaveBank b p := by
  obtain ⟨hp, hr, hopen, hidle⟩ := hl
  have found : (s.bank b).recordOf p = some h := by
    cases hf : (s.bank b).recordOf p with
    | none => exact absurd hp (by simpa using List.find?_eq_none.1 hf h hm)
    | some x =>
      have hx : x.port = p := by simpa using List.find?_some hf
      rw [oneRecord_unique law (List.mem_of_find?_eq_some hf) hm (hx.trans hp.symm)]
  unfold State.teardownRecord
  simp [found, hr, hopen, hidle]

/-- A record that stays is marked revoke pending, or is releasing already. -/
theorem teardownRecord_stays (hs : ∀ h ∈ (s.bank b).holds, ¬ s.leavesAtTeardown p b h) :
    (s.teardownRecord p b).bank b = { s.bank b with holds := (s.bank b).holds.map (HoldRecord.markedFor p) } := by
  cases hf : (s.bank b).recordOf p with
  | none =>
    have other : ∀ x ∈ (s.bank b).holds, x.port ≠ p := fun x hx => by simpa using List.find?_eq_none.1 hf x hx
    rw [teardownRecord_absent other, (List.map_congr_left fun x hx => markedFor_other (other x hx)).trans (List.map_id _)]
  | some h =>
    have hm : h ∈ (s.bank b).holds := List.mem_of_find?_eq_some hf
    have hp : h.port = p := by simpa using List.find?_some hf
    unfold State.teardownRecord
    simp only [hf]
    by_cases hr : h.revokePending = true
    · have same : (s.bank b).holds.map (HoldRecord.markedFor p) = (s.bank b).holds := by
        refine (List.map_congr_left fun x hx => ?_).trans (List.map_id _)
        by_cases hx' : x.port = p
        · obtain rfl := oneRecord_unique law hx hm (hx'.trans hp.symm)
          unfold HoldRecord.markedFor
          split
          · rw [← hr]; rfl
          · rfl
        · exact markedFor_other hx'
      rw [if_pos hr, same]
    · have busy : ¬ ((s.bank b).phase = .opened ∧ (!s.executingOn p b) = true) := fun hc =>
        hs h hm ⟨hp, by simpa using hr, hc.1, by simpa using hc.2⟩
      rw [if_neg hr, if_neg busy]
      unfold State.markRecord BankRecord.updRecord
      rw [bank_setBank_same]
      simp only [revoke_markedFor]

/-- The records that stay where one leaves are the other ports'. -/
theorem kept_of_leaves {h : HoldRecord} {leaves : HoldRecord → Bool} (hl : ∀ x, leaves x = true ↔ s.leavesAtTeardown p b x)
    (hm : h ∈ (s.bank b).holds) (hh : leaves h = true) :
    ((s.bank b).holds.filter (fun x => !leaves x)).map (HoldRecord.markedFor p)
      = (s.bank b).holds.filter (fun x => x.port != p) := by
  have own := (hl h).1 hh
  have same : (s.bank b).holds.filter (fun x => !leaves x) = (s.bank b).holds.filter (fun x => x.port != p) := by
    refine List.filter_congr fun x hx => ?_
    by_cases hp : x.port = p
    · obtain rfl := oneRecord_unique law hx hm (hp.trans own.1.symm)
      simp [hh, hp]
    · have stays : leaves x = false := Bool.eq_false_iff.2 fun hc => hp ((hl x).1 hc).1
      simp [stays, hp]
  rw [same]
  refine (List.map_congr_left fun x hx => markedFor_other ?_).trans (List.map_id _)
  simpa using (List.mem_filter.1 hx).2

end

end Sys2Proof.Machine
end
section
/-!
SUPPORT. A link fault as a whole: the link's own steps, the session torn down with its port's work, and the end of the event; and the
commands that bring one about (R117, R120, R123, R124, R147, R148).
-/

namespace Sys2Proof.Machine

open Sys2Proof

/-! ## The teardown of a live session -/

/-- `v` is `s` with the work of a port taken away but for its records, its session torn down and its role released (R50, R148). -/
structure State.Withdrawn (s v : State) (p : Port) : Prop where
  bank : ∀ b, v.bank b = (s.bank b).withdrawn p
  bursts : v.bursts = { s.bursts with queues := s.bursts.queues.set p [] }
  now : v.now = s.now
  quads : v.quads = s.quads
  config : v.config = if s.config.maintainer = some p then { s.config with maintainer := none } else s.config
  links : v.links = s.links
  sessions : v.sessions = s.sessions.set p tornDownSession

theorem releaseRole_frame (s : State) (p : Port) : s.releaseRole p = { s with
    config := if s.config.maintainer = some p then { s.config with maintainer := none } else s.config } := by
  unfold State.releaseRole
  split <;> rfl

/-- The teardown of a session that is ATTACHED or DETACHING: all but the records first, and then the records in grant order. -/
theorem teardownSession_live {s : State} {p : Port} (live : (s.session p).state = .attached ∨ (s.session p).state = .detaching) :
    ∃ v, s.Withdrawn v p ∧ s.teardownSession p = (v.heldBanks p).foldl (fun s b => s.teardownRecord p b) v := by
  have ended : s.teardownSession p =
      (((s.setSession p tornDownSession).releaseRole p).removePortBursts p .cancelled).teardownHolds p := by
    unfold State.teardownSession
    rcases live with h | h <;> rw [h]
  have silent : ((s.setSession p tornDownSession).releaseRole p).answerable p = false := by
    rw [releaseRole_frame]
    exact answerable_false (Or.inr (congrArg Session.state (session_setSession_same s p tornDownSession)))
  rw [removePortBursts_silent silent] at ended
  obtain ⟨v, frame, banks, holds⟩ := teardownHolds_silent
    (s := ((s.setSession p tornDownSession).releaseRole p).setBurstQueue p []) silent
  rw [releaseRole_frame] at frame banks
  refine ⟨v, ⟨banks, ?_, ?_, ?_, ?_, ?_, ?_⟩, ended.trans holds⟩ <;> rw [frame] <;> rfl

theorem teardownSession_dead {s : State} {p : Port} (dead : (s.session p).state = .none ∨ (s.session p).state = .teardown) :
    s.teardownSession p = s := by
  unfold State.teardownSession
  rcases dead with h | h <;> rw [h]

section
variable {s v : State} {p : Port} (w : s.Withdrawn v p)
include w

theorem State.Withdrawn.link (q : Port) : v.link q = s.link q := by
  unfold State.link
  rw [w.links]

theorem State.Withdrawn.session_same : v.session p = tornDownSession := by
  unfold State.session
  rw [w.sessions, four_get_set_same]

theorem State.Withdrawn.session_ne {q : Port} (hq : q ≠ p) : v.session q = s.session q := by
  unfold State.session
  rw [w.sessions, four_get_set_ne _ _ hq]

theorem State.Withdrawn.silent : v.answerable p = false :=
  answerable_false (Or.inr (by rw [w.session_same]; rfl))

theorem State.Withdrawn.holds (b : Bank) : (v.bank b).holds = (s.bank b).holds := by
  rw [w.bank]
  rfl

theorem State.Withdrawn.upgrade (b : Bank) (x : PendingUpgrade) :
    (v.bank b).upgrade = some x ↔ (s.bank b).upgrade = some x ∧ x.port ≠ p := by
  rw [w.bank]
  exact withdrawn_upgrade _ p x

theorem State.Withdrawn.leaves (b : Bank) (h : HoldRecord) : v.leavesAtTeardown p b h ↔ s.leavesAtTeardown p b h := by
  have executing : v.executingOn p b = s.executingOn p b := by
    unfold State.executingOn
    rw [w.bursts]
  unfold State.leavesAtTeardown
  rw [executing, w.bank]
  rfl

theorem State.Withdrawn.opened {b : Bank} {h : HoldRecord} (hl : s.leavesAtTeardown p b h) : (v.bank b).phase = .opened := by
  obtain ⟨-, -, hopen, -⟩ := hl
  rw [w.bank]
  exact hopen

end

/-! ## The records of the port, one after another -/

/-- The records of a port at its teardown, in grant order (R50). -/
def State.tearRecords (v : State) (p : Port) : State := (v.heldBanks p).foldl (fun s b => s.teardownRecord p b) v

theorem tearRecords_holds (v : State) (p : Port) : v.OnlyHolds (v.tearRecords p) :=
  onlyHolds_foldl (fun s b => teardownRecord_holds s p b) _ v

theorem tearRecords_bursts (v : State) (p : Port) : (v.tearRecords p).bursts = v.bursts :=
  foldl_keeps (P := fun t : State => t.bursts = v.bursts) (fun t b h => (teardownRecord_bursts t p b).trans h) _ rfl

theorem tearRecords_answers (v : State) (p q : Port) : ∃ es, v.RepliedTo (v.tearRecords p) q es :=
  replied_foldl (fun s b => teardownRecord_answers s p b q) _ v

/-- The port itself is answered nothing. -/
theorem tearRecords_silent {v : State} {p : Port} (silent : v.answerable p = false) :
    (v.tearRecords p).link p = v.link p ∧ (v.tearRecords p).session p = v.session p := by
  obtain ⟨es, replied⟩ := tearRecords_answers v p p
  exact repliedTo_silent replied silent

/-- What the leaving of one record leaves of the bank's waits and upgrade. -/
theorem leaveBank_rest (s : State) (b : Bank) (p : Port) :
    ((s.leaveBank b p).bank b).waitQueue = (s.bank b).waitQueue
      ∧ ∀ u, ((s.leaveBank b p).bank b).upgrade = some u → (s.bank b).upgrade = some u := by
  by_cases hlast : (s.bank b).holds.filter (fun y => y.port != p) = []
  · by_cases h : (s.bank b).phase = .opened
    · rw [leaveBank_last hlast h, bank_setBank_same]
      split <;> exact ⟨rfl, fun u hu => nomatch hu⟩
    · rw [leaveBank_last_shut hlast h, bank_setBank_same]
      exact ⟨rfl, fun u hu => hu⟩
  · rw [leaveBank_others hlast]
    rcases completeUpgrade_cases (s.setBank b ((s.bank b).dropRecord p)) b with ⟨u, h, hu, hh, hp⟩ | none
    · rw [completeUpgrade_alone hu hh hp, answerWork_bank, bank_setBank_same, bank_setBank_same]
      exact ⟨rfl, fun u hu => nomatch hu⟩
    · rw [completeUpgrade_otherwise none, bank_setBank_same]
      exact ⟨rfl, fun u hu => hu⟩

theorem teardownRecord_rest (s : State) (p : Port) (b : Bank) :
    ((s.teardownRecord p b).bank b).waitQueue = (s.bank b).waitQueue
      ∧ ∀ u, ((s.teardownRecord p b).bank b).upgrade = some u → (s.bank b).upgrade = some u := by
  unfold State.teardownRecord
  split
  · exact ⟨rfl, fun _ hu => hu⟩
  · split
    · exact ⟨rfl, fun _ hu => hu⟩
    · split
      · exact leaveBank_rest s b p
      · unfold State.markRecord
        rw [bank_setBank_same]
        exact ⟨rfl, fun _ hu => hu⟩

/-- The answer that an upgrade's completion sends stays in its port's queue (R44). -/
theorem tearRecords_granted {v : State} {p : Port} {b : Bank} {h y : HoldRecord} {u : PendingUpgrade} (law : ∀ b, (v.bank b).oneRecord)
    (hm : h ∈ (v.bank b).holds) (hl : v.leavesAtTeardown p b h) (hu : (v.bank b).upgrade = some u)
    (hy : (v.bank b).holds.filter (fun y => y.port != p) = [y]) (hp : y.port = u.port)
    (hs : (v.session u.port).state = .attached) (hup : (v.link u.port).up = true) :
    .response u.tag (.granted b (v.bank b).openRow .exclusive) ∈ ((v.tearRecords p).link u.port).queue := by
  obtain ⟨before, after, hsplit⟩ := List.append_of_mem ((mem_heldBanks v p b).2 ⟨h, hm, hl.1⟩)
  have nodup : (before ++ b :: after).Nodup := hsplit ▸ heldBanks_nodup law p
  have hbefore : b ∉ before := fun hc => (List.nodup_append.1 nodup).2.2 b hc b List.mem_cons_self rfl
  obtain ⟨es, first⟩ := replied_foldl (fun s c => teardownRecord_answers s p c u.port) before v
  have bank := foldl_bank_ne (fun s c => teardownRecord_onlyBank s p c) before v b hbefore
  have bursts : (before.foldl (fun s c => s.teardownRecord p c) v).bursts = v.bursts :=
    foldl_keeps (P := fun t : State => t.bursts = v.bursts) (fun t c h => (teardownRecord_bursts t p c).trans h) _ rfl
  obtain ⟨fs, last⟩ := replied_foldl (fun s c => teardownRecord_answers s p c u.port) after
    ((before.foldl (fun s c => s.teardownRecord p c) v).teardownRecord p b)
  have torn : v.tearRecords p = after.foldl (fun s c => s.teardownRecord p c)
      ((before.foldl (fun s c => s.teardownRecord p c) v).teardownRecord p b) := by
    unfold State.tearRecords
    rw [hsplit, List.foldl_append, List.foldl_cons]
  generalize before.foldl (fun s c => s.teardownRecord p c) v = m at first bank bursts last torn
  have left : m.teardownRecord p b = m.leaveBank b p := by
    refine teardownRecord_leaves (h := h) (by rw [bank]; exact law b) (by rw [bank]; exact hm) ?_
    exact (leavesAtTeardown_congr bank bursts p h).2 hl
  rw [left] at last
  have all := repliedTo_trans first (repliedTo_trans
    (leaveBank_replied_upgrader (s := m) (by rw [bank]; exact hu) (by rw [bank]; exact hy) hp) last)
  have live : v.answerable u.port = true := by
    unfold State.answerable
    rw [hs]
  rw [torn, left, all.1, if_pos live, Link.answered, if_pos hup, bank]
  simp [responses]

/-! ## The port's work is ended (R50, R68) -/

theorem engineGoesOn_of_bursts {s u t : State} {queues : Four (List QueuedBurst)} (h : u.engineGoesOn t u.bursts.queues)
    (hb : u.bursts = { s.bursts with queues := queues }) : s.engineGoesOn t queues := by
  unfold State.engineGoesOn at h ⊢
  rwa [hb] at h

theorem settle_waitQueue (s : State) (b : Bank) : (s.settle.bank b).waitQueue = (s.bank b).waitQueue := by
  rcases settle_bank s b with e | ⟨-, e⟩ <;> rw [e]

section
variable {s v u : State} {p : Port} (w : s.Withdrawn v p) (law : ∀ b, (s.bank b).oneRecord)
  (hu : u = v.tearRecords p)
include w law hu

theorem torn_bank (b : Bank) : u.bank b = (v.teardownRecord p b).bank b := by
  rw [hu]
  refine teardownRecords_bank (fun b => ?_) p b
  rw [w.bank]
  exact law b

/-- Waits and upgrades of the port are gone, and no other's wait is. -/
theorem torn_rest (b : Bank) : (u.settle.bank b).waitQueue = (s.bank b).waitQueue.filter (fun x => x.port != p)
    ∧ ∀ x, (u.settle.bank b).upgrade = some x → x.port ≠ p := by
  obtain ⟨waits, upgrades⟩ := teardownRecord_rest v p b
  rw [settle_waitQueue, (settle_work u b).2, torn_bank w law hu, waits]
  rw [w.bank] at upgrades ⊢
  exact ⟨rfl, fun x hx => ((withdrawn_upgrade _ p x).1 (upgrades x hx)).2⟩

section
variable {b : Bank} {h : HoldRecord} (hm : h ∈ (s.bank b).holds) (hl : s.leavesAtTeardown p b h)
include hm hl

/-- A bank that the port's record leaves. -/
theorem torn_left : u.bank b = (v.leaveBank b p).bank b := by
  rw [torn_bank w law hu, teardownRecord_leaves (h := h) (by rw [w.bank]; exact law b) (by rw [w.holds]; exact hm)
    ((w.leaves b h).2 hl)]

/-- Where no other port's upgrade is pending, the other records are what is left. -/
theorem torn_left_alone (only : ∀ x, (s.bank b).upgrade = some x → x.port = p) :
    (u.settle.bank b).holds = (s.bank b).holds.filter (fun y => y.port != p) := by
  rw [settle_left_no_upgrade (torn_left w law hu hm hl), w.holds]
  refine Option.eq_none_iff_forall_ne_some.2 fun x hx => ?_
  obtain ⟨pending, other⟩ := (w.upgrade b x).1 hx
  exact other (only x pending)

/-- The last record's leaving sets the bank going (R13). -/
theorem torn_left_last (hlast : (s.bank b).holds.filter (fun y => y.port != p) = []) :
    (u.settle.bank b).phase = (if (s.bank b).dwellExpired = some true then .closing else .closeWait)
      ∧ ((s.bank b).dwellExpired = some true → (u.settle.bank b).endsAt = some (s.now + 28)) := by
  have expired : (v.bank b).dwellExpired = (s.bank b).dwellExpired := by
    rw [w.bank]
    rfl
  rw [settle_left_last (torn_left w law hu hm hl) (w.opened hl) (by rw [w.holds]; exact hlast), expired, w.now]
  by_cases hd : (s.bank b).dwellExpired = some true
  · rw [if_pos hd, if_pos hd]
    exact ⟨rfl, fun _ => rfl⟩
  · rw [if_neg hd, if_neg hd]
    exact ⟨rfl, fun hc => absurd hc hd⟩

section
variable {x : PendingUpgrade} (hx : (s.bank b).upgrade = some x) (hp : x.port ≠ p)
include hx hp

/-- Another port's upgrade stays pending while its record is not alone. -/
theorem torn_left_pending (hothers : (s.bank b).holds.filter (fun y => y.port != p) ≠ [])
    (hmap : ((s.bank b).holds.filter (fun y => y.port != p)).map (fun y => y.port) ≠ [x.port]) :
    (u.settle.bank b).holds = (s.bank b).holds.filter (fun y => y.port != p)
      ∧ (u.settle.bank b).upgrade = some x := by
  have pending := (w.upgrade b x).2 ⟨hx, hp⟩
  rw [settle_left_stays (torn_left w law hu hm hl) (w.opened hl) (by rw [w.holds]; exact hothers) fun y hy => ?_]
  · exact ⟨by rw [← w.holds b]; rfl, pending⟩
  · obtain rfl := Option.some.inj (pending.symm.trans hy)
    rwa [w.holds]

/-- Another port's upgrade completes where its record is left alone (R44). -/
theorem torn_left_completes {y : HoldRecord} (hy : (s.bank b).holds.filter (fun y => y.port != p) = [y])
    (hport : y.port = x.port) :
    (u.settle.bank b).holds = [{ y with mode := .exclusive }] ∧ (u.settle.bank b).upgrade = none
      ∧ ((s.session x.port).state = .attached → (s.link x.port).up = true →
          .response x.tag (.granted b (s.bank b).openRow .exclusive) ∈ (u.settle.link x.port).queue) := by
  have pending := (w.upgrade b x).2 ⟨hx, hp⟩
  rw [← w.holds b] at hy
  obtain ⟨holds, gone, -⟩ := settle_left_upgrade (torn_left w law hu hm hl) pending hy hport
  refine ⟨holds, gone, fun hs hup => settle_queue_mem ?_⟩
  have granted := tearRecords_granted (v := v) (fun b => by rw [w.bank]; exact law b) (by rw [w.holds]; exact hm)
    ((w.leaves b h).2 hl) pending hy hport (by rw [w.session_ne hp]; exact hs) (by rw [w.link]; exact hup)
  rw [w.bank] at granted
  rw [hu]
  exact granted

end

end

/-- A bank that no record leaves keeps its records, marked, and another port's upgrade. -/
theorem torn_stays {b : Bank} (hs : ∀ h ∈ (s.bank b).holds, ¬ s.leavesAtTeardown p b h) :
    u.bank b = { (s.bank b).withdrawn p with holds := (s.bank b).holds.map (HoldRecord.markedFor p) } := by
  rw [torn_bank w law hu, teardownRecord_stays (by rw [w.bank]; exact law b) fun h hm hl =>
    hs h (by rwa [w.holds] at hm) ((w.leaves b h).1 hl), w.bank]
  rfl

end

/-- The teardown of a live session ends its port's work. -/
theorem teardownSession_workEnded {s : State} {p : Port}
    (live : (s.session p).state = .attached ∨ (s.session p).state = .detaching) (law : s.placeLaw) :
    s.workEnded (s.teardownSession p).settle p := by
  obtain ⟨v, w, hu⟩ := teardownSession_live live
  have one := oneRecord_of_placeLaw law
  have bursts : (s.teardownSession p).bursts = { s.bursts with queues := s.bursts.queues.set p [] } := by
    rw [hu]
    exact (tearRecords_bursts v p).trans w.bursts
  refine ⟨?_, fun b => (torn_rest w one hu b).1, fun b => (torn_rest w one hu b).2, fun b leaves kept hl hk => ?_⟩
  · refine engineGoesOn_of_bursts ?_ bursts
    have settled := settle_engine (s.teardownSession p)
    rwa [bursts] at settled ⊢
  · by_cases goes : ∃ h ∈ (s.bank b).holds, leaves h = true
    · obtain ⟨h, hm, hh⟩ := goes
      have own := (hl h).1 hh
      have others := hk.trans (kept_of_leaves (one b) hl hm hh)
      rw [others]
      refine ⟨torn_left_alone w one hu hm own, fun x hx hp stays => ?_,
        fun x y hx hp _ => torn_left_completes w one hu hm own hx hp, fun _ => torn_left_last w one hu hm own⟩
      obtain ⟨hothers, hmap⟩ := stays.resolve_left fun nobody => Bool.false_ne_true ((nobody h hm).symm.trans hh)
      exact torn_left_pending w one hu hm own hx hp hothers hmap
    · have nobody : ∀ h ∈ (s.bank b).holds, leaves h = false := fun h hm =>
        Bool.eq_false_iff.2 fun hh => goes ⟨h, hm, hh⟩
      have all : (s.bank b).holds.filter (fun h => !leaves h) = (s.bank b).holds :=
        List.filter_eq_self.2 fun h hm => by rw [nobody h hm]; rfl
      obtain ⟨holds, upgrade⟩ := settle_work (s.teardownSession p) b
      rw [torn_stays w one hu fun h hm hc => goes ⟨h, hm, (hl h).2 hc⟩] at holds upgrade
      rw [all] at hk
      have marked := holds.trans hk.symm
      exact ⟨fun _ => marked, fun x hx hp _ => ⟨marked, upgrade.trans ((withdrawn_upgrade _ p x).2 ⟨hx, hp⟩)⟩,
        fun _ _ _ _ hc => absurd hc goes, fun hc => absurd hc goes⟩

/-- The link of the port itself does not come into the end of its work. -/
theorem workEnded_of_setLink {s t : State} {p : Port} {l : Link} (h : (s.setLink p l).workEnded t p) : s.workEnded t p := by
  obtain ⟨engine, waits, upgrades, records⟩ := h
  refine ⟨engine, waits, upgrades, fun b leaves kept hl hk => ?_⟩
  obtain ⟨own, stays, completes, closes⟩ := records b leaves kept hl hk
  refine ⟨own, stays, fun u x hu hp hm hx hport => ?_, closes⟩
  obtain ⟨holds, gone, granted⟩ := completes u x hu hp hm hx hport
  rw [link_setLink_ne _ _ hp] at granted
  exact ⟨holds, gone, granted⟩

/-! ## The link fault (R124, R147) -/

theorem settle_session_none {s : State} {p : Port} (h : (s.session p).state = .none) : s.settle.session p = s.session p := by
  obtain ⟨u, -, hs, -, -, hsession⟩ := settle_port s p
  rw [hsession, finishSession_idle (Or.inl (hs ▸ h)), hs]

/-- A teardown and the end of its event, seen at the port, its quads and the configuration. -/
theorem teardown_settled (s : State) (p : Port) :
    (s.teardownSession p).settle.link p = s.link p
      ∧ (s.teardownSession p).settle.session p = tornDown (s.session p) ((s.teardownSession p).settle.outstanding p)
      ∧ (s.teardownSession p).settle.config =
        (if ((s.session p).state = .attached ∨ (s.session p).state = .detaching) ∧ s.config.maintainer = some p then
          { s.config with maintainer := none }
        else s.config)
      ∧ (s.teardownSession p).settle.quads = s.quads := by
  rw [settle_config, settle_quads]
  by_cases live : (s.session p).state = .attached ∨ (s.session p).state = .detaching
  · obtain ⟨v, w, hu⟩ := teardownSession_live live
    change _ = v.tearRecords p at hu
    obtain ⟨-, -, -, quads, -, -, -, config, -⟩ := onlyHolds_keeps (tearRecords_holds v p)
    obtain ⟨link, session⟩ := tearRecords_silent w.silent
    rw [w.session_same] at session
    obtain ⟨settled, ended⟩ := settle_teardown (s := v.tearRecords p) (p := p) (by rw [session]; rfl)
    rw [hu, settled, ended, link, session, w.link, config, quads, w.config, w.quads]
    refine ⟨rfl, ?_, ?_, rfl⟩
    · unfold tornDown
      rcases live with h | h <;> rw [h] <;> rfl
    · simp [live]
  · have dead : (s.session p).state = .none ∨ (s.session p).state = .teardown := by
      cases h : (s.session p).state with
      | none => exact Or.inl rfl
      | attached => exact absurd (Or.inl h) live
      | detaching => exact absurd (Or.inr h) live
      | teardown => exact Or.inr rfl
    rw [teardownSession_dead dead, if_neg fun hc => live hc.1]
    refine ⟨?_, ?_, rfl, rfl⟩
    · rcases dead with h | h
      · exact settle_none h
      · exact (settle_teardown h).1
    · unfold tornDown
      rcases dead with h | h
      · rw [settle_session_none h, h]
      · rw [(settle_teardown h).2, h]

/-- A link fault is what R124, R147 and R148 make of it. -/
theorem linkFault_faulted (s : State) (p : Port) (reason : FaultReason) : s.faulted (s.linkFault p reason) p reason := by
  obtain ⟨link, session, config, quads⟩ := teardown_settled (s.setLink p ((s.link p).faulted reason)) p
  refine ⟨?_, session, config, fun live law => ?_, fun dead b => ?_, fun q hq => ?_, linkFault_store s p reason, fun q => ?_⟩
  · exact link.trans (link_setLink_same _ _ _)
  · exact workEnded_of_setLink (teardownSession_workEnded (s := s.setLink p _) live law)
  · have kept : (s.linkFault p reason).bank b = (s.setLink p ((s.link p).faulted reason)).settle.bank b := by
      unfold State.linkFault
      rw [teardownSession_dead (s := s.setLink p _) dead]
    obtain ⟨holds, upgrade⟩ := settle_work (s.setLink p ((s.link p).faulted reason)) b
    rw [kept]
    exact ⟨holds, settle_waitQueue _ b, upgrade⟩
  · obtain ⟨es, entries⟩ := linkFault_entries s p reason q
    rw [entries, link_setLink_ne _ _ hq]
  · unfold State.quad
    exact congrArg (fun quads : Four QuadAccount => quads.get q) quads

/-! ## The commands that bring a link fault about -/

/-- A link fault makes nothing of how far its link's expected sequence number has come. -/
theorem linkFault_advanced (s : State) (p : Port) (reason : FaultReason) :
    (s.advanceSeq p).linkFault p reason = s.linkFault p reason := by
  have same : (s.advanceSeq p).setLink p (((s.advanceSeq p).link p).faulted reason)
      = s.setLink p ((s.link p).faulted reason) := by
    unfold State.advanceSeq
    rw [setLink_setLink, link_setLink_same]
    rfl
  unfold State.linkFault
  rw [same]

/-- Settles O8: on an UP link the loss of carrier is a link fault of the link that has lost it, on a DOWN link it ends at the link. -/
theorem carrierEventsByLinkState : Obligations.CarrierEventsByLinkState := by
  unfold Obligations.CarrierEventsByLinkState
  intro s p
  refine ⟨fun hdown => ?_, fun hup => ⟨s.loseCarrier p, rfl, ?_⟩, rfl⟩
  · refine congrArg Host.Outcome.next ?_
    unfold State.loseCarrier
    exact if_neg (by simp [hdown])
  · have lost : s.loseCarrier p =
        (s.setLink p { s.link p with carrier := false, held := [], overrun := false }).linkFault p .carrier := by
      unfold State.loseCarrier
      exact if_pos hup
    rw [lost]
    exact linkFault_faulted _ p .carrier

section
variable {s : State} {p : Port} {a : Arrival}

theorem receive_fault {reason : FaultReason} (hl : s.listens p) (hup : (s.link p).up = true)
    (h : s.linkCheck p a = some reason) : s.faulted (s.receive p a) p reason := by
  rw [receive_listens hl, accept_fault a hup h]
  exact linkFault_faulted s p reason

theorem receive_link_reset (hl : s.listens p) (hup : (s.link p).up = true) (h : s.linkCheck p a = none)
    (hr : a.content = .linkReset) : s.faulted (s.receive p a) p .reset := by
  have good : s.goodPacket p a = (s.advanceSeq p).linkFault p .reset := by
    unfold State.goodPacket
    rw [hr]
  rw [receive_listens hl, accept_good a hup h, good, linkFault_advanced]
  exact linkFault_faulted s p .reset

theorem linkCheck_check (h : a.checkAgrees = false) : s.linkCheck p a = some .check := by
  unfold State.linkCheck
  rw [h]
  rfl

theorem linkCheck_sequence (h : a.checkAgrees = true) (hs : a.sequence ≠ (s.link p).expectedSeq) :
    s.linkCheck p a = some .sequence := by
  unfold State.linkCheck
  rw [h]
  exact if_pos hs

end

/-! The later checks look at the content (R120). -/

section
variable {s : State} {p : Port} {a : Arrival} (h : a.checkAgrees = true) (hs : a.sequence = (s.link p).expectedSeq)
include h hs

theorem linkCheck_kind (hc : a.content = .notAllowed ∨ ∃ l, a.content = .hello l) : s.linkCheck p a = some .kind := by
  unfold State.linkCheck
  rcases hc with hc | ⟨l, hc⟩ <;> simp [h, hs, hc]

theorem linkCheck_length (hc : a.content = .badLength) : s.linkCheck p a = some .length := by
  unfold State.linkCheck
  simp [h, hs, hc]

theorem linkCheck_tag {r : Request} (hc : a.content = .request r) (hf : s.inFlight p a.tag = true) :
    s.linkCheck p a = some .tag := by
  unfold State.linkCheck
  simp [h, hs, hc, hf]

theorem linkCheck_reset (hc : a.content = .linkReset) : s.linkCheck p a = none := by
  unfold State.linkCheck
  simp [h, hs, hc]

end

/-- Settles O10: the first check that fails names the reason, and the fault is as R124 has it. -/
theorem inboundChecksInOrder : Obligations.InboundChecksInOrder := by
  unfold Obligations.InboundChecksInOrder
  intro s p bytes hl hup
  refine ⟨s.receive p (decodePacket bytes), rfl, fun hc => receive_fault hl hup (linkCheck_check hc),
    fun hc => ⟨fun hs => receive_fault hl hup (linkCheck_sequence hc hs), fun hs => ?_⟩⟩
  exact ⟨fun h => receive_fault hl hup (linkCheck_kind hc hs (Or.inl h)),
    fun l h => receive_fault hl hup (linkCheck_kind hc hs (Or.inr ⟨l, h⟩)),
    fun h => receive_fault hl hup (linkCheck_length hc hs h),
    fun r h hf => receive_fault hl hup (linkCheck_tag hc hs h hf)⟩

/-- Settles O11: a LINK_RESET meets the checks of every packet, and one that passes them is a fault itself. -/
theorem linkResetFaultsTheLink : Obligations.LinkResetFaultsTheLink := by
  unfold Obligations.LinkResetFaultsTheLink
  intro s p n hl
  refine ⟨fun hup hn => ⟨s.receive p (linkResetArrival n), rfl, ?_⟩, fun hup hn => ⟨s.receive p (linkResetArrival n), rfl, ?_⟩,
    fun hdown => ?_, fun hup bytes _ hc => ⟨s.receive p (decodePacket bytes), rfl, ?_⟩⟩
  · exact receive_link_reset hl hup (linkCheck_reset (a := linkResetArrival n) rfl hn.symm rfl) rfl
  · exact receive_fault hl hup (linkCheck_sequence (a := linkResetArrival n) rfl (Ne.symm hn))
  · refine congrArg Host.Outcome.next ?_
    rw [receive_listens hl, accept_ignored (linkResetArrival n) hdown rfl]
  · exact receive_fault hl hup (linkCheck_check hc)

end Sys2Proof.Machine
end
section
/-!
SUPPORT. Requests that the session unit decides by itself: the refusals outside ATTACHED, ATTACH and IDLE (R135, R136, R140, R141, R143).
-/

namespace Sys2Proof.Machine

open Sys2Proof

/-! ## From a request command to its taking -/

/-- A well-formed request command is the arrival of its packet, which can be spelled. -/
theorem exec_request {i : Instr} {h : Header} {r : Request} (hwf : i.wf = true) (hr : requestOf i = some (h, r)) (s : State) :
    exec i s = .next (s.request h r) ∧ r.encodable = true := by
  cases i with
  | write => cases hr; exact ⟨rfl, hwf⟩
  | _ => cases hr <;> exact ⟨rfl, rfl⟩

/-- `State.taken`, with the idle vote as given: what the taking makes of an IDLE too (R135, R143). -/
def State.takenVoting (s : State) (h : Header) (vote : Bool) : State :=
  (s.taken h).setSession h.port { (s.taken h).session h.port with idleVote := vote }

theorem takenVoting_session (s : State) (h : Header) (vote : Bool) : (s.takenVoting h vote).session h.port =
    { s.session h.port with idleVote := vote, tags := sixteenSet (s.session h.port).tags h.tag .busy } := by
  simp [State.takenVoting, State.taken]

theorem takenVoting_false (s : State) (h : Header) : s.takenVoting h false = s.taken h := by
  simp [State.takenVoting, State.taken]

theorem takenVoting_setVote (s : State) (h : Header) (vote v : Bool) :
    (s.takenVoting h vote).setVote h.port v = s.takenVoting h v := by
  simp [State.setVote, State.takenVoting]

theorem begin_voting (s : State) (h : Header) (r : Request) : (s.advanceSeq h.port).beginRequest h.port h.tag r =
    s.takenVoting h (if r = .idle then (s.session h.port).idleVote else false) := by
  by_cases hr : r = .idle
  · subst hr
    simp [State.beginRequest, State.setTag, State.advanceSeq, State.takenVoting, State.taken]
    rfl
  · rw [begin_taken s h hr, if_neg hr, takenVoting_false]

/-- A good request comes to its owner with its tag BUSY and, unless it is an IDLE, the idle vote clear. -/
theorem request_voting {s : State} {h : Header} (hh : s.hears h) {r : Request} (he : r.encodable = true) :
    s.request h r =
      (s.takenVoting h (if r = .idle then (s.session h.port).idleVote else false)).dispatch h.port h.tag r := by
  rw [request_good hh he, State.take, begin_voting]

/-- An answer on a link that is UP (R127, R138). -/
theorem answer_up {s : State} {p : Port} (hup : (s.link p).up = true) (t : Tag) (a : Answer) :
    s.answer p t a =
      (s.setLink p { s.link p with queue := (s.link p).queue ++ [.response t a] }).setSession p
        { s.session p with tags := sixteenSet (s.session p).tags t a.tagAfter } := by
  unfold State.answer State.enqueue
  rw [setTag_link, if_pos hup, placeEntry_response]
  rfl

theorem takenVoting_link (s : State) (h : Header) (vote : Bool) :
    (s.takenVoting h vote).link h.port = { s.link h.port with expectedSeq := (s.link h.port).expectedSeq + 1 } := by
  simp [State.takenVoting, State.taken]

/-- A final answer as the request is taken, whatever the idle vote (R138). -/
theorem takenVoting_answer {s : State} {h : Header} (hh : s.hears h) (vote : Bool) {a : Answer} (ha : a.tagAfter = .free) :
    (s.takenVoting h vote).answer h.port h.tag a = s.answered h vote a := by
  have tags : sixteenSet (sixteenSet (s.session h.port).tags h.tag .busy) h.tag .free = (s.session h.port).tags := by
    rw [sixteen_set_set, ← tag_free_of_hears hh, sixteen_set_get]
  rw [answer_up (by rw [takenVoting_link]; exact hh.2.1), takenVoting_link, takenVoting_session, ha, tags]
  simp [State.takenVoting, State.taken, State.answered, State.replied, State.setLink, State.setSession, State.link, State.session]

/-! ## Refusals outside ATTACHED (R136) -/

theorem unlessNone_refused {s : State} {p : Port} {t : Tag} {f : State → State} (hf : f s = s.answer p t (.refused .notAttached)) :
    s.unlessNone p t f = s.answer p t (.refused .notAttached) := by
  unfold State.unlessNone
  rw [hf, ite_self]

section
variable {s : State} {p : Port} (hs : (s.session p).state ≠ .attached)
include hs

theorem ifAttached_refused (t : Tag) (f : State → State) : s.ifAttached p t f = s.answer p t (.refused .notAttached) := by
  unfold State.ifAttached State.attached
  exact if_neg (by simpa using hs)

theorem openRefusal_notAttached (bank : Option Bank) (row : Option Row) : s.openRefusal p bank row = some .notAttached :=
  if_pos hs

theorem orderedOpen_notAttached (t : Tag) (bank : Byte) (row : BitVec 16) (mode : HoldMode) (wait : Bool) :
    s.orderedOpen p t bank row mode wait = s.answer p t (.refused .notAttached) := by
  have refused := openRefusal_notAttached hs
  have held : s.holdOpen p t bank row mode wait = s.answer p t (.refused .notAttached) := by
    unfold State.holdOpen
    rw [refused]
  rcases orderedOpen_cases s p t bank row mode wait with e | ⟨q, -, takes, -⟩
  · rw [e, held]
  · unfold State.takesBankFrom at takes
    rw [refused] at takes
    exact absurd takes (by simp)

theorem requestClose_notAttached (t : Tag) (bank : Byte) :
    s.requestClose p t bank = s.answer p t (.refused .notAttached) := by
  have stays : s.withdraws p bank = false := by
    unfold State.withdraws State.attached
    rw [beq_false_of_ne hs, Bool.false_and]
  refine unlessNone_refused ?_
  rw [stays]
  exact if_pos hs

theorem acceptBurst_notAttached (t : Tag) (kind : BurstKind) (bank column units : Byte) (ac : Bool) (data : List WriteUnit) :
    s.acceptBurst p t kind bank column units ac data = s.answer p t (.refused .notAttached) := by
  have refused : s.burstRefusal p kind (bankOf bank) column units = some .notAttached := if_pos hs
  unfold State.acceptBurst
  rw [refused]

/-- Every owner of a request looks at the session first, but for ATTACH and INSPECT DEVICE. -/
theorem dispatch_notAttached (t : Tag) {r : Request} (hattach : ∀ role, r ≠ .attach role) (hdevice : ∀ n, r ≠ .inspect 0x06 n) :
    s.dispatch p t r = s.answer p t (.refused .notAttached) := by
  cases r with
  | attach role => exact absurd rfl (hattach role)
  | openBank bank row mode wait =>
    exact unlessNone_refused (f := fun s => s.orderedOpen p t bank row mode wait)
      (orderedOpen_notAttached hs t bank row mode wait)
  | upgrade bank => exact unlessNone_refused (f := fun s => s.holdUpgrade p t bank) (if_pos hs)
  | closeBank bank => exact requestClose_notAttached hs t bank
  | read bank column units ac =>
    exact unlessNone_refused (f := fun s => s.acceptBurst p t .read bank column units ac [])
      (acceptBurst_notAttached hs t .read bank column units ac [])
  | write bank column units ac data =>
    exact unlessNone_refused (f := fun s => s.acceptBurst p t .write bank column units ac data)
      (acceptBurst_notAttached hs t .write bank column units ac data)
  | inspect target number =>
    have other : target ≠ deviceTarget := fun e => hdevice number (e ▸ rfl)
    exact (if_neg other).trans (ifAttached_refused hs t _)
  | detach => exact ifAttached_refused hs t fun s => (s.detachSession p t).settle
  | idle => exact ifAttached_refused hs t fun s => ((s.setVote p true).answer p t (.ok .plain)).enterRetention
  | cfgRead item index => exact ifAttached_refused hs t fun s => s.cfgRead p t item index
  | cfgWrite item index value => exact ifAttached_refused hs t fun s => s.cfgWrite p t item index value
  | faultClear index => exact ifAttached_refused hs t fun s => s.faultClear p t index
  | lapseClear quad => exact ifAttached_refused hs t fun s => s.lapseClear p t quad
  | countClear bank => exact ifAttached_refused hs t fun s => s.countClear p t bank

end

/-- Settles O17: the request is taken as in every session, and its owner refuses it before it looks at anything else. -/
theorem requestWithoutSessionIsRefused : Obligations.RequestWithoutSessionIsRefused := by
  unfold Obligations.RequestWithoutSessionIsRefused
  intro s i h r hwf hr hh hs hattach hdevice
  obtain ⟨ran, spelled⟩ := exec_request hwf hr s
  have state : ((s.takenVoting h (if r = .idle then (s.session h.port).idleVote else false)).session h.port).state
      ≠ .attached := by
    rw [takenVoting_session]
    exact hs
  rw [ran, request_voting hh spelled, dispatch_notAttached state h.tag hattach hdevice, takenVoting_answer hh _ rfl]

/-! ## IDLE (R143) -/

/-- An answered request keeps the part out of retention mode: its response waits in the queue (R169). -/
theorem answered_enterRetention (s : State) (h : Header) (vote : Bool) (a : Answer) :
    (s.answered h vote a).enterRetention = s.answered h vote a := by
  have waiting : ((s.answered h vote a).link h.port).queue ≠ [] := by simp [State.answered, State.replied]
  have held : (s.answered h vote a).outboundEmpty h.port = false := by
    unfold State.outboundEmpty
    rw [List.isEmpty_eq_false_iff.2 waiting, Bool.false_and]
  have awake : (s.answered h vote a).retentionEntry = false := by
    unfold State.retentionEntry
    rw [Bool.and_eq_false_iff]
    refine Or.inr (List.all_eq_false.2 ⟨h.port, mem_allFour h.port, ?_⟩)
    rw [held]
    exact Bool.false_ne_true
  unfold State.enterRetention
  rw [awake]
  rfl

/-- Settles O19: the vote is set before the answer, which keeps the part out of retention mode. -/
theorem idleSetsVote : Obligations.IdleSetsVote := by
  unfold Obligations.IdleSetsVote
  intro s h hh hs
  have attached : (s.takenVoting h (s.session h.port).idleVote).attached h.port = true := by
    unfold State.attached
    rw [takenVoting_session]
    simpa using hs
  have taken : s.request h .idle =
      (((s.takenVoting h (s.session h.port).idleVote).setVote h.port true).answer h.port h.tag (.ok .plain)).enterRetention :=
    (request_voting hh rfl).trans (if_pos attached)
  refine congrArg Host.Outcome.next (taken.trans ?_)
  rw [takenVoting_setVote, takenVoting_answer hh true rfl, answered_enterRetention]

/-! ## ATTACH (R140, R141, R142) -/

theorem roleOf_iff (b : Byte) : (roleOf b = some .user ↔ b = 0) ∧ (roleOf b = some .maintainer ↔ b = 1)
    ∧ (roleOf b = none ↔ b ≠ 0 ∧ b ≠ 1) := by
  revert b
  decide

/-- MAINTAINER is granted where it is asked for and free (R141). -/
theorem grantedRole_eq (s : State) (asked : Role) :
    s.grantedRole asked = if asked = .maintainer ∧ s.config.maintainer = none then .maintainer else .user := by
  unfold State.grantedRole
  cases asked <;> cases hm : s.config.maintainer <;> simp

/-- The answer to an ATTACH finds its session begun, its own tag BUSY and its link UP, and leaves every tag FREE (R138, R140). -/
theorem attached_answer {s : State} {h : Header} (hh : s.hears h) (table : ConfigTable) (role : Role) (body : OkBody) :
    ((({ s.taken h with config := table } : State).setSession h.port (attachedSession role h.tag)).answer h.port h.tag (.ok body)) =
      (({ s.countRequest with config := table } : State).setSession h.port
          { state := .attached, role := some role, tags := sixteenAll .free, idleVote := false, detachTag := none }).setLink h.port
        { s.link h.port with
          expectedSeq := (s.link h.port).expectedSeq + 1
          queue := (s.link h.port).queue ++ [.response h.tag (.ok body)] } := by
  have free : sixteenSet (sixteenAll TagState.free) h.tag .free = sixteenAll .free := by
    have get := sixteen_set_get (sixteenAll TagState.free) h.tag
    rwa [sixteen_get_all] at get
  have link : (({ s.taken h with config := table } : State).setSession h.port (attachedSession role h.tag)).link h.port =
      { s.link h.port with expectedSeq := (s.link h.port).expectedSeq + 1 } := by
    rw [← takenVoting_link s h false, takenVoting_false]
    rfl
  rw [answer_up (by rw [link]; exact hh.2.1), link, session_setSession_same]
  simp [attachedSession, Answer.tagAfter, free, State.taken, State.setLink, State.setSession, State.link]

/-- An ATTACH that names a role begins a session with the role that it is granted (R140). -/
theorem attachSession_begins {s : State} {h : Header} (hh : s.hears h) {role : Byte} {asked granted : Role}
    (hrole : roleOf role = some asked) (hgranted : (s.taken h).grantedRole asked = granted) :
    (s.taken h).attachSession h.port h.tag role =
      (({ s.countRequest with
            config := if granted = .maintainer then { s.config with maintainer := some h.port } else s.config } : State).setSession
          h.port { state := .attached, role := some granted, tags := sixteenAll .free, idleVote := false, detachTag := none }).setLink
        h.port
        { s.link h.port with
          expectedSeq := (s.link h.port).expectedSeq + 1
          queue := (s.link h.port).queue ++
            [.response h.tag (.ok (.attach granted (asked == .maintainer && granted == .user)
              (s.config.holdQuota.get h.port) h.port s.mode))] } := by
  unfold State.attachSession
  rw [hrole]
  simp only [hgranted]
  exact attached_answer hh _ granted _

/-- Settles O18: the role field decides between a refusal and a session, and the note of the configuration table between the roles. -/
theorem attachBeginsSession : Obligations.AttachBeginsSession := by
  unfold Obligations.AttachBeginsSession
  intro s h role hh
  have taken : s.request h (.attach role) = (s.taken h).requestAttach h.port h.tag role := request_taken hh rfl (by simp)
  have state := taken_session_state s h
  refine ⟨fun hnone => ?_, fun hbusy => ?_⟩
  · have begins : s.request h (.attach role) = (s.taken h).attachSession h.port h.tag role :=
      taken.trans (if_pos (state.trans hnone))
    refine ⟨fun h0 h1 => ?_, fun hrole granted hgranted => ?_⟩
    · have noRole : roleOf role = none := (roleOf_iff role).2.2.2 ⟨h0, h1⟩
      refine congrArg Host.Outcome.next (begins.trans ?_)
      unfold State.attachSession
      rw [noRole]
      exact taken_answer hh rfl
    · refine congrArg Host.Outcome.next (begins.trans ?_)
      rcases hrole with rfl | rfl
      · exact attachSession_begins hh (asked := .user) rfl ((grantedRole_eq _ _).trans (by simp [hgranted]))
      · exact attachSession_begins hh (asked := .maintainer) rfl ((grantedRole_eq _ _).trans (by simp [hgranted]))
  · refine congrArg Host.Outcome.next (taken.trans ((if_neg fun hn => hbusy (state.symm.trans hn)).trans ?_))
    exact taken_answer hh rfl

end Sys2Proof.Machine
end
section
/-!
SUPPORT. Every command that brings a link fault about ends the work of the link's port (R117, R120, R123, R147, R148).
-/

namespace Sys2Proof.Machine

open Sys2Proof

/-- A packet that passes every check is a LINK_RESET or a request whose tag is not in flight (R120). -/
theorem linkCheck_passed {s : State} {p : Port} {a : Arrival} (h : s.linkCheck p a = none) :
    a.checkAgrees = true ∧ a.sequence = (s.link p).expectedSeq
      ∧ (a.content = .linkReset ∨ ∃ r, a.content = .request r ∧ s.inFlight p a.tag = false) := by
  have agrees : a.checkAgrees = true := by
    by_contra hc
    exact nomatch (linkCheck_check (Bool.eq_false_iff.2 hc)).symm.trans h
  have expected : a.sequence = (s.link p).expectedSeq := by
    by_contra hc
    exact nomatch (linkCheck_sequence agrees hc).symm.trans h
  refine ⟨agrees, expected, ?_⟩
  cases hc : a.content with
  | notAllowed => exact nomatch (linkCheck_kind agrees expected (Or.inl hc)).symm.trans h
  | hello l => exact nomatch (linkCheck_kind agrees expected (Or.inr ⟨l, hc⟩)).symm.trans h
  | badLength => exact nomatch (linkCheck_length agrees expected hc).symm.trans h
  | linkReset => exact Or.inl rfl
  | request r =>
    refine Or.inr ⟨r, rfl, ?_⟩
    by_contra hf
    exact nomatch (linkCheck_tag agrees expected hc (by simpa using hf)).symm.trans h

/-- A packet on an UP link that is no good request is a link fault of some reason. -/
theorem receive_not_request {s : State} {p : Port} {a : Arrival} (hl : s.listens p) (hup : (s.link p).up = true)
    (h : ∀ r, a.content = .request r → a.checkAgrees = true → a.sequence = (s.link p).expectedSeq → s.inFlight p a.tag = true) :
    ∃ reason, s.faulted (s.receive p a) p reason := by
  cases hc : s.linkCheck p a with
  | some reason => exact ⟨reason, receive_fault hl hup hc⟩
  | none =>
    obtain ⟨agrees, expected, hreset | ⟨r, hr, free⟩⟩ := linkCheck_passed hc
    · exact ⟨.reset, receive_link_reset hl hup hc hreset⟩
    · exact absurd (h r hr agrees expected) (by rw [free]; exact Bool.false_ne_true)

/-- What a link fault makes of its port's link and work. -/
theorem faulted_ends_work {s t : State} {p : Port} {reason : FaultReason} (h : s.faulted t p reason) :
    (t.link p).up = false
      ∧ ((s.session p).state = .attached ∨ (s.session p).state = .detaching → s.placeLaw → s.workEnded t p)
      ∧ ((s.session p).state = .none ∨ (s.session p).state = .teardown → s.keepsRecords t) := by
  obtain ⟨link, -, -, live, dead, -⟩ := h
  exact ⟨by rw [link], live, dead⟩

/-- Settles O12: each of the commands is a link fault of its own reason, and every link fault ends the work. -/
theorem linkFaultEndsThePortsWork : Obligations.LinkFaultEndsThePortsWork := by
  unfold Obligations.LinkFaultEndsThePortsWork
  rintro s p c hup (rfl | ⟨hl, n, rfl⟩ | ⟨hl, bytes, rfl, hbad⟩)
  · obtain ⟨t, ran, fault⟩ := (carrierEventsByLinkState s p).2.1 hup
    obtain ⟨down, live, dead⟩ := faulted_ends_work fault
    exact ⟨t, ran, down, fun hs law => workEnded_of_setLink (live hs law), dead⟩
  · obtain ⟨right, wrong, -⟩ := linkResetFaultsTheLink s p n hl
    by_cases hn : (s.link p).expectedSeq = n
    · obtain ⟨t, ran, fault⟩ := right hup hn
      exact ⟨t, ran, faulted_ends_work fault⟩
    · obtain ⟨t, ran, fault⟩ := wrong hup hn
      exact ⟨t, ran, faulted_ends_work fault⟩
  · obtain ⟨reason, fault⟩ := receive_not_request hl hup hbad
    exact ⟨s.receive p (decodePacket bytes), rfl, faulted_ends_work fault⟩

end Sys2Proof.Machine
end
section
/-!
SUPPORT. The end of a session at its DETACH: what each step answers the port and leaves of its work, bank by bank (R13, R44, R49, R67,
R144).
-/

namespace Sys2Proof.Machine

open Sys2Proof

/-! ## One operation for each bank in turn, and what a port is answered -/

/-- The answers of an operation on one bank after another, where what it answers is seen in that bank and the burst engine. -/
theorem replied_foldl_banks {f : State → Bank → State} {g : State → Bank → Option (Tag × Answer)} {p : Port}
    (only : ∀ (s : State) b, s.OnlyBank (f s b) b) (bursts : ∀ (s : State) b, (f s b).bursts = s.bursts)
    (replied : ∀ (s : State) b, s.RepliedTo (f s b) p (g s b).toList)
    (seen : ∀ (s t : State) b, t.bank b = s.bank b → t.bursts = s.bursts → g t b = g s b) :
    ∀ {bs : List Bank}, bs.Nodup → ∀ s : State, s.RepliedTo (bs.foldl f s) p (bs.filterMap (g s))
  | [], _, s => repliedTo_refl s p
  | b :: bs, nodup, s => by
    obtain ⟨hb, hbs⟩ := List.nodup_cons.1 nodup
    have rest := replied_foldl_banks only bursts replied seen hbs (f s b)
    have same : bs.filterMap (g (f s b)) = bs.filterMap (g s) := List.filterMap_congr fun c hc =>
      seen s (f s b) c (only s b c fun e => hb (e ▸ hc)) (bursts s b)
    rw [same] at rest
    have all := repliedTo_trans (replied s b) rest
    rw [List.filterMap_cons]
    cases hg : g s b <;> simpa [hg] using all

/-- An answer that the operation on one of the banks sends is among those of all of them. -/
theorem replied_foldl_mem {f : State → Bank → State} {q : Port} {b : Bank} {e : Tag × Answer}
    (only : ∀ (s : State) c, s.OnlyBank (f s c) c) (bursts : ∀ (s : State) c, (f s c).bursts = s.bursts)
    (answers : ∀ (s : State) c, ∃ es, s.RepliedTo (f s c) q es) :
    ∀ {bs : List Bank}, b ∈ bs → ∀ v : State,
      (∀ m : State, m.bank b = v.bank b → m.bursts = v.bursts → ∃ es, m.RepliedTo (f m b) q es ∧ e ∈ es) →
      ∃ es, v.RepliedTo (bs.foldl f v) q es ∧ e ∈ es
  | c :: bs, hb, v, here => by
    by_cases hc : b = c
    · subst hc
      obtain ⟨es, first, mem⟩ := here v rfl rfl
      obtain ⟨fs, rest⟩ := replied_foldl answers bs (f v b)
      exact ⟨es ++ fs, repliedTo_trans first rest, List.mem_append_left fs mem⟩
    · obtain ⟨es, first⟩ := answers v c
      obtain ⟨fs, rest, mem⟩ := replied_foldl_mem only bursts answers ((List.mem_cons.1 hb).resolve_left hc) (f v c)
        fun m bank engine => here m (bank.trans (only v c b hc)) (engine.trans (bursts v c))
      exact ⟨es ++ fs, repliedTo_trans first rest, List.mem_append_right es mem⟩

theorem repliedTo_nil {s t : State} {p : Port} (h : s.RepliedTo t p []) : t.link p = s.link p ∧ t.session p = s.session p := by
  obtain ⟨link, session⟩ := h
  rw [link_answered_nil, ite_self] at link
  exact ⟨link, session.trans (ite_self _)⟩

theorem mem_allBanks (b : Bank) : b ∈ allBanks := by revert b; decide

theorem allBanks_nodup : allBanks.Nodup := by decide

/-- The answers of an operation on every bank in turn, where they go to one port alone. -/
theorem replied_allBanks {f : State → Bank → State} {g : State → Bank → Option (Tag × Answer)} {p q : Port}
    (only : ∀ (s : State) b, s.OnlyBank (f s b) b) (bursts : ∀ (s : State) b, (f s b).bursts = s.bursts)
    (replied : ∀ (s : State) b, s.RepliedTo (f s b) q (if p = q then g s b else none).toList)
    (seen : ∀ (s t : State) b, t.bank b = s.bank b → g t b = g s b) (s : State) :
    s.RepliedTo (allBanks.foldl f s) q (if p = q then allBanks.filterMap (g s) else []) := by
  have all := replied_foldl_banks (g := fun s b => if p = q then g s b else none) only bursts replied
    (fun s t b hb _ => by rw [seen s t b hb]) allBanks_nodup s
  by_cases hq : p = q
  · simpa only [if_pos hq] using all
  · simpa [hq] using all

/-- Each bank after an operation on every bank, where what it makes of a bank is seen in that bank. -/
theorem foldl_allBanks {f : State → Bank → State} {g : BankRecord → BankRecord} (only : ∀ (s : State) b, s.OnlyBank (f s b) b)
    (own : ∀ (s : State) b, (f s b).bank b = g (s.bank b)) (s : State) (b : Bank) :
    (allBanks.foldl f s).bank b = g (s.bank b) := by
  rw [foldl_bank_mem only (fun u c d hd => ?_) allBanks_nodup s (mem_allBanks b), own]
  rw [own, own, only u c d hd]

/-! ## Waits and upgrades (R23, R45) -/

theorem dropWait_bank (s : State) (b : Bank) (p : Port) (a : Answer) :
    (s.dropWait b p a).bank b = (s.bank b).dropWait p := by
  unfold State.dropWait
  split
  · rw [answerWork_bank, bank_setBank_same]
  · next hnone =>
    have all : (s.bank b).waitQueue.filter (fun w => w.port != p) = (s.bank b).waitQueue :=
      List.filter_eq_self.2 fun w hw => by simpa using List.find?_eq_none.1 hnone w hw
    unfold BankRecord.dropWait
    rw [all]

theorem dropWait_bursts (s : State) (b : Bank) (p : Port) (a : Answer) : (s.dropWait b p a).bursts = s.bursts := by
  unfold State.dropWait
  split
  · exact bursts_of_answers (s := s.setBank b _) (answerWork_answers _ _ _ a)
  · rfl

theorem setBank_answerWork_replied (s : State) (b : Bank) (r : BankRecord) (p : Port) (t : Tag) (a : Answer) (q : Port) :
    s.RepliedTo ((s.setBank b r).answerWork p t a) q (if p = q then some (t, a) else none).toList := by
  have replied : s.RepliedTo _ q _ := answerWork_replied (s.setBank b r) p t a q
  by_cases hq : p = q <;> simpa [hq] using replied

/-- What a port is answered for its wait on a bank at its DETACH (R49). -/
def State.waitAnswer (s : State) (p : Port) (b : Bank) : Option (Tag × Answer) :=
  ((s.bank b).waitOf p).map (fun w => (w.tag, .cancelled))

/-- What a port is answered for its upgrade on a bank at its DETACH (R49). -/
def State.upgradeAnswer (s : State) (p : Port) (b : Bank) : Option (Tag × Answer) :=
  ((s.bank b).upgrade.filter (fun u => u.port == p)).map (fun u => (u.tag, .cancelled))

theorem dropWait_replied (s : State) (p : Port) (b : Bank) (q : Port) :
    s.RepliedTo (s.dropWait b p .cancelled) q (if p = q then s.waitAnswer p b else none).toList := by
  unfold State.dropWait State.waitAnswer
  cases (s.bank b).waitOf p with
  | none => simpa using repliedTo_refl s q
  | some w => exact setBank_answerWork_replied s b _ p w.tag .cancelled q

theorem dropUpgrade_bank (s : State) (b : Bank) (p : Port) (a : Answer) :
    (s.dropUpgrade b p a).bank b = { s.bank b with upgrade := (s.bank b).upgrade.filter (fun u => u.port != p) } := by
  unfold State.dropUpgrade
  cases hu : (s.bank b).upgrade with
  | none => exact congrArg (fun u => { s.bank b with upgrade := u }) hu
  | some u =>
    by_cases hp : u.port = p
    · simp [hp, Option.filter]
    · have kept : (some u).filter (fun u => u.port != p) = (s.bank b).upgrade := by simp [hp, Option.filter, hu]
      rw [kept]
      exact congrArg (fun s : State => s.bank b) (if_neg hp)

theorem dropUpgrade_replied (s : State) (p : Port) (b : Bank) (q : Port) :
    s.RepliedTo (s.dropUpgrade b p .cancelled) q (if p = q then s.upgradeAnswer p b else none).toList := by
  unfold State.dropUpgrade State.upgradeAnswer
  cases (s.bank b).upgrade with
  | none => simpa using repliedTo_refl s q
  | some u =>
    by_cases hp : u.port = p
    · have replied := setBank_answerWork_replied s b { s.bank b with upgrade := none } u.port u.tag .cancelled q
      simpa [hp, Option.filter] using replied
    · simpa [hp, Option.filter] using repliedTo_refl s q

/-- The waits of a port, in bank order (R49). -/
def State.dropWaits (s : State) (p : Port) : State := allBanks.foldl (fun s b => s.dropWait b p .cancelled) s

/-- The upgrades of a port, in bank order (R49). -/
def State.dropUpgrades (s : State) (p : Port) : State := allBanks.foldl (fun s b => s.dropUpgrade b p .cancelled) s

theorem dropWaits_bank (s : State) (p : Port) (b : Bank) : (s.dropWaits p).bank b = (s.bank b).dropWait p :=
  foldl_allBanks (g := fun r => r.dropWait p) (fun s b => dropWait_onlyBank s b p _) (fun s b => dropWait_bank s b p _) s b

theorem dropUpgrades_bank (s : State) (p : Port) (b : Bank) :
    (s.dropUpgrades p).bank b = { s.bank b with upgrade := (s.bank b).upgrade.filter (fun u => u.port != p) } :=
  foldl_allBanks (g := fun r => { r with upgrade := r.upgrade.filter (fun u => u.port != p) })
    (fun s b => dropUpgrade_onlyBank s b p _) (fun s b => dropUpgrade_bank s b p _) s b

theorem dropWaits_bursts (s : State) (p : Port) : (s.dropWaits p).bursts = s.bursts :=
  foldl_keeps (P := fun t : State => t.bursts = s.bursts) (fun t b h => (dropWait_bursts t b p _).trans h) _ rfl

theorem dropUpgrades_bursts (s : State) (p : Port) : (s.dropUpgrades p).bursts = s.bursts :=
  foldl_keeps (P := fun t : State => t.bursts = s.bursts) (fun t b h => (dropUpgrade_bursts t b p _).trans h) _ rfl

theorem dropWaits_replied (s : State) (p q : Port) :
    s.RepliedTo (s.dropWaits p) q (if p = q then allBanks.filterMap (s.waitAnswer p) else []) :=
  replied_allBanks (g := fun s => s.waitAnswer p) (fun s b => dropWait_onlyBank s b p _) (fun s b => dropWait_bursts s b p _)
    (fun s b => dropWait_replied s p b q) (fun s t b hb => by unfold State.waitAnswer; rw [hb]) s

theorem dropUpgrades_replied (s : State) (p q : Port) :
    s.RepliedTo (s.dropUpgrades p) q (if p = q then allBanks.filterMap (s.upgradeAnswer p) else []) :=
  replied_allBanks (g := fun s => s.upgradeAnswer p) (fun s b => dropUpgrade_onlyBank s b p _)
    (fun s b => dropUpgrade_bursts s b p _) (fun s b => dropUpgrade_replied s p b q)
    (fun s t b hb => by unfold State.upgradeAnswer; rw [hb]) s

/-! ## All of the port's work but its records -/

/-- What a port is answered for its queued bursts, its waits and its upgrades at its DETACH (R144). -/
def State.withdrawalAnswers (s : State) (p : Port) : List (Tag × Answer) :=
  (s.burstQueue p).map (fun x => (x.tag, Answer.cancelled))
    ++ (allBanks.filterMap (s.waitAnswer p) ++ allBanks.filterMap (s.upgradeAnswer p))

/-- `v` is `s` after the bursts, waits and upgrades of a port have been taken away and answered; its records stay (R49, R67). -/
structure State.Relieved (s v : State) (p : Port) : Prop where
  bank : ∀ b, v.bank b = (s.bank b).withdrawn p
  bursts : v.bursts = { s.bursts with queues := s.bursts.queues.set p [] }
  frame : s.OnlyHolds v
  replied : ∀ q, s.RepliedTo v q (if p = q then s.withdrawalAnswers p else [])

/-- The records of a port at its DETACH, in grant order (R49). -/
def State.detachRecords (v : State) (p : Port) : State := (v.heldBanks p).foldl (fun s b => s.detachRecord p b) v

/-- The release of a port's work: all but the records first, and then the records (R49, R144). -/
theorem detachHolds_relieved (s : State) (p : Port) :
    ∃ v, s.Relieved v p ∧ (s.removePortBursts p .cancelled).detachHolds p = v.detachRecords p := by
  refine ⟨((s.removePortBursts p .cancelled).dropWaits p).dropUpgrades p, ⟨fun b => ?_, ?_, ?_, fun q => ?_⟩, rfl⟩
  · rw [dropUpgrades_bank, dropWaits_bank, removePortBursts_bank]
    rfl
  · rw [dropUpgrades_bursts, dropWaits_bursts]
    exact bursts_of_answers (answerBursts_answers (s.setBurstQueue p []) p .cancelled _)
  · exact onlyHolds_trans (removePortBursts_holds s p _) (onlyHolds_trans
      (onlyHolds_foldl (fun s b => dropWait_holds s b p _) _ _) (onlyHolds_foldl (fun s b => dropUpgrade_holds s b p _) _ _))
  · have bursts : s.RepliedTo (s.removePortBursts p .cancelled) q _ :=
      answerBursts_replied p .cancelled q _ (s.setBurstQueue p [])
    have waits := dropWaits_replied (s.removePortBursts p .cancelled) p q
    have upgrades := dropUpgrades_replied ((s.removePortBursts p .cancelled).dropWaits p) p q
    have sameWaits : (s.removePortBursts p .cancelled).waitAnswer p = s.waitAnswer p := by
      funext b
      unfold State.waitAnswer
      rw [removePortBursts_bank]
    have sameUpgrades : ((s.removePortBursts p .cancelled).dropWaits p).upgradeAnswer p = s.upgradeAnswer p := by
      funext b
      unfold State.upgradeAnswer
      rw [dropWaits_bank, removePortBursts_bank]
      rfl
    rw [sameWaits] at waits
    rw [sameUpgrades] at upgrades
    have all := repliedTo_trans bursts (repliedTo_trans waits upgrades)
    by_cases hq : p = q
    · simp only [if_pos hq] at all ⊢
      exact all
    · simp only [if_neg hq] at all ⊢
      exact all

/-! ## One record at a DETACH (R49) -/

/-- The record of the port leaves at its DETACH: it is not revoke pending, the bank is OPEN and no burst of the port executes there. -/
def State.leavesAtDetach (s : State) (p : Port) (b : Bank) (x : HoldRecord) : Bool :=
  x.port == p && !x.revokePending && (s.bank b).phase == .opened && !s.executingOn p b

/-- The mark of a record that stays at its port's DETACH. -/
def HoldRecord.releasedFor (p : Port) (x : HoldRecord) : HoldRecord :=
  if x.port = p ∧ x.revokePending = false then { x with releasing := true } else x

/-- What a record's close tag is answered at a DETACH: OK where the record leaves. -/
def State.closingAnswer (s : State) (p : Port) (b : Bank) (x : HoldRecord) : Option (Tag × Answer) :=
  if s.leavesAtDetach p b x = true then x.closeTag.map (fun ct => (ct, .ok (.close false))) else none

theorem leavesAtDetach_iff (s : State) (p : Port) (b : Bank) (x : HoldRecord) : s.leavesAtDetach p b x = true ↔
    x.port = p ∧ x.revokePending = false ∧ (s.bank b).phase = .opened ∧ s.executingOn p b = false := by
  unfold State.leavesAtDetach
  simp only [Bool.and_eq_true, beq_iff_eq, Bool.not_eq_true', and_assoc]

theorem leavesAtDetach_congr {s t : State} {b : Bank} (hphase : (t.bank b).phase = (s.bank b).phase)
    (hexecuting : t.bursts.executing = s.bursts.executing) (p : Port) : t.leavesAtDetach p b = s.leavesAtDetach p b := by
  funext x
  unfold State.leavesAtDetach State.executingOn
  rw [hphase, hexecuting]

theorem releasedFor_other {p : Port} {x : HoldRecord} (hp : x.port ≠ p) : x.releasedFor p = x := if_neg fun hc => hp hc.1

theorem detachRecord_absent {s : State} {p : Port} {b : Bank} (h : (s.bank b).recordOf p = none) : s.detachRecord p b = s := by
  unfold State.detachRecord
  rw [h]

theorem detachRecord_revokePending {s : State} {p : Port} {b : Bank} {x : HoldRecord} (h : (s.bank b).recordOf p = some x)
    (hr : x.revokePending = true) : s.detachRecord p b = s := by
  unfold State.detachRecord
  rw [h]
  exact if_pos hr

theorem detachRecord_leaves {s : State} {p : Port} {b : Bank} {x : HoldRecord} (h : (s.bank b).recordOf p = some x)
    (hl : s.leavesAtDetach p b x = true) :
    s.detachRecord p b = (s.leaveBank b p).answerTag p x.closeTag (.ok (.close false)) := by
  obtain ⟨-, hr, hopen, hidle⟩ := (leavesAtDetach_iff s p b x).1 hl
  unfold State.detachRecord
  simp [h, hr, hopen, hidle]

theorem detachRecord_releases {s : State} {p : Port} {b : Bank} {x : HoldRecord} (h : (s.bank b).recordOf p = some x)
    (hr : x.revokePending = false) (hl : s.leavesAtDetach p b x = false) :
    s.detachRecord p b = s.markRecord b p HoldRecord.release := by
  have hp : x.port = p := by simpa using List.find?_some h
  have busy : ¬ ((s.bank b).phase = .opened ∧ (!s.executingOn p b) = true) := fun hc =>
    Bool.eq_false_iff.1 hl ((leavesAtDetach_iff s p b x).2 ⟨hp, hr, hc.1, by simpa using hc.2⟩)
  unfold State.detachRecord
  simp only [h]
  rw [if_neg (by rw [hr]; exact Bool.false_ne_true), if_neg busy]

/-- At a DETACH a bank is left as it is, or the port's record on it is marked releasing, or the record leaves. -/
theorem detachRecord_cases (s : State) (p : Port) (b : Bank) :
    s.detachRecord p b = s ∨ s.detachRecord p b = s.markRecord b p HoldRecord.release
      ∨ ∃ x, (s.bank b).recordOf p = some x ∧ s.leavesAtDetach p b x = true := by
  cases h : (s.bank b).recordOf p with
  | none => exact Or.inl (detachRecord_absent h)
  | some x =>
    cases hr : x.revokePending with
    | true => exact Or.inl (detachRecord_revokePending h hr)
    | false =>
      cases hl : s.leavesAtDetach p b x with
      | true => exact Or.inr (Or.inr ⟨x, rfl, hl⟩)
      | false => exact Or.inr (Or.inl (detachRecord_releases h hr hl))

theorem detachRecord_bursts (s : State) (p : Port) (b : Bank) : (s.detachRecord p b).bursts = s.bursts := by
  rcases detachRecord_cases s p b with e | e | ⟨x, hx, hl⟩
  · rw [e]
  · rw [e]
    rfl
  · rw [detachRecord_leaves hx hl, bursts_of_answers (answerTag_answers _ _ _ _), leaveBank_bursts]

theorem detachRecord_answers (s : State) (p : Port) (b : Bank) (q : Port) : ∃ es, s.RepliedTo (s.detachRecord p b) q es := by
  rcases detachRecord_cases s p b with e | e | ⟨x, hx, hl⟩
  · exact ⟨[], by rw [e]; exact repliedTo_refl s q⟩
  · exact ⟨[], by rw [e]; exact repliedTo_of_eq rfl rfl⟩
  · obtain ⟨es, left⟩ := leaveBank_answers s b p q
    rw [detachRecord_leaves hx hl]
    exact ⟨_, repliedTo_trans left (answerTag_replied _ p _ _ q)⟩

/-- The port itself is answered for the close tag of the record that leaves. -/
theorem detachRecord_replied_own (s : State) (p : Port) (b : Bank) :
    s.RepliedTo (s.detachRecord p b) p (((s.bank b).recordOf p).bind (s.closingAnswer p b)).toList := by
  cases h : (s.bank b).recordOf p with
  | none =>
    rw [detachRecord_absent h]
    exact repliedTo_refl s p
  | some x =>
    rw [Option.bind_some]
    unfold State.closingAnswer
    cases hl : s.leavesAtDetach p b x with
    | true =>
      have all := repliedTo_trans (leaveBank_replied_own s b p) (answerTag_replied _ p x.closeTag (.ok (.close false)) p)
      rw [detachRecord_leaves h hl]
      simpa [Option.toList_map] using all
    | false =>
      rcases detachRecord_cases s p b with e | e | ⟨y, hy, hly⟩
      · rw [e]
        exact repliedTo_refl s p
      · rw [e]
        exact repliedTo_of_eq rfl rfl
      · obtain rfl := Option.some.inj (h.symm.trans hy)
        exact absurd (hl.symm.trans hly) Bool.false_ne_true

/-- What becomes of a bank's record at a DETACH is seen in that bank, the executing burst and the time. -/
theorem detachRecord_bank_congr {s t : State} {b : Bank} (hb : t.bank b = s.bank b) (hnow : t.now = s.now)
    (hbursts : t.bursts = s.bursts) (p : Port) : (t.detachRecord p b).bank b = (s.detachRecord p b).bank b := by
  have executing : t.executingOn p b = s.executingOn p b := by
    unfold State.executingOn
    rw [hbursts]
  unfold State.detachRecord State.markRecord
  rw [hb, executing]
  split
  · exact hb
  · split
    · exact hb
    · split
      · rw [answerTag_bank, answerTag_bank]
        exact leaveBank_bank_congr hb hnow p
      · rw [bank_setBank_same, bank_setBank_same]

/-- What a DETACH of one record leaves of the bank's waits and upgrade. -/
theorem detachRecord_rest (s : State) (p : Port) (b : Bank) :
    ((s.detachRecord p b).bank b).waitQueue = (s.bank b).waitQueue
      ∧ ∀ u, ((s.detachRecord p b).bank b).upgrade = some u → (s.bank b).upgrade = some u := by
  rcases detachRecord_cases s p b with e | e | ⟨x, hx, hl⟩
  · rw [e]
    exact ⟨rfl, fun _ hu => hu⟩
  · rw [e]
    unfold State.markRecord
    rw [bank_setBank_same]
    exact ⟨rfl, fun _ hu => hu⟩
  · rw [detachRecord_leaves hx hl, answerTag_bank]
    exact leaveBank_rest s b p

/-! ## The record that leaves and the record that stays (R49) -/

section
variable {s : State} {p : Port} {b : Bank} (law : (s.bank b).oneRecord)
include law

theorem recordOf_of_mem {x : HoldRecord} (hm : x ∈ (s.bank b).holds) (hp : x.port = p) : (s.bank b).recordOf p = some x := by
  cases hf : (s.bank b).recordOf p with
  | none => exact absurd hp (by simpa using List.find?_eq_none.1 hf x hm)
  | some y =>
    have hy : y.port = p := by simpa using List.find?_some hf
    rw [oneRecord_unique law (List.mem_of_find?_eq_some hf) hm (hy.trans hp.symm)]

/-- A record that stays is marked releasing, or is revoke pending and unchanged. -/
theorem detachRecord_stays (hs : ∀ x ∈ (s.bank b).holds, s.leavesAtDetach p b x = false) :
    (s.detachRecord p b).bank b = { s.bank b with holds := (s.bank b).holds.map (HoldRecord.releasedFor p) } := by
  cases hf : (s.bank b).recordOf p with
  | none =>
    have other : ∀ x ∈ (s.bank b).holds, x.port ≠ p := fun x hx => by simpa using List.find?_eq_none.1 hf x hx
    rw [detachRecord_absent hf, (List.map_congr_left fun x hx => releasedFor_other (other x hx)).trans (List.map_id _)]
  | some x =>
    have hm : x ∈ (s.bank b).holds := List.mem_of_find?_eq_some hf
    have hp : x.port = p := by simpa using List.find?_some hf
    have own {y : HoldRecord} (hy : y ∈ (s.bank b).holds) (hyp : y.port = p) : y = x :=
      oneRecord_unique law hy hm (hyp.trans hp.symm)
    cases hr : x.revokePending with
    | true =>
      have same : (s.bank b).holds.map (HoldRecord.releasedFor p) = (s.bank b).holds :=
        (List.map_congr_left fun y hy => if_neg fun hc => by
          rw [own hy hc.1, hr] at hc
          exact nomatch hc.2).trans (List.map_id _)
      rw [detachRecord_revokePending hf hr, same]
    | false =>
      have marked : (s.bank b).holds.map (HoldRecord.releasedFor p)
          = (s.bank b).holds.map (fun y => if y.port = p then y.release else y) :=
        List.map_congr_left fun y hy => by
          unfold HoldRecord.releasedFor HoldRecord.release
          by_cases hyp : y.port = p
          · rw [own hy hyp, hr]
            simp [hp]
          · rw [if_neg hyp, if_neg fun hc => hyp hc.1]
      rw [detachRecord_releases hf hr (hs x hm), marked]
      unfold State.markRecord BankRecord.updRecord
      rw [bank_setBank_same]

/-- The records that stay where one leaves are the other ports'. -/
theorem released_of_leaves {x : HoldRecord} (hm : x ∈ (s.bank b).holds) (hx : s.leavesAtDetach p b x = true) :
    (s.bank b).holds.filter (fun y => !s.leavesAtDetach p b y) = (s.bank b).holds.filter (fun y => y.port != p)
      ∧ ((s.bank b).holds.filter (fun y => !s.leavesAtDetach p b y)).map (HoldRecord.releasedFor p)
        = (s.bank b).holds.filter (fun y => y.port != p) := by
  have own := ((leavesAtDetach_iff s p b x).1 hx).1
  have same : (s.bank b).holds.filter (fun y => !s.leavesAtDetach p b y) = (s.bank b).holds.filter (fun y => y.port != p) := by
    refine List.filter_congr fun y hy => ?_
    by_cases hp : y.port = p
    · obtain rfl := oneRecord_unique law hy hm (hp.trans own.symm)
      simp [hx, hp]
    · have stays : s.leavesAtDetach p b y = false :=
        Bool.eq_false_iff.2 fun hc => hp ((leavesAtDetach_iff s p b y).1 hc).1
      simp [stays, hp]
  refine ⟨same, ?_⟩
  rw [same]
  refine (List.map_congr_left fun y hy => releasedFor_other ?_).trans (List.map_id _)
  simpa using (List.mem_filter.1 hy).2

end

/-! ## The records of the port, one after another -/

theorem detachRecords_holds (v : State) (p : Port) : v.OnlyHolds (v.detachRecords p) :=
  onlyHolds_foldl (fun s b => detachRecord_holds s p b) _ v

theorem detachRecords_bursts (v : State) (p : Port) : (v.detachRecords p).bursts = v.bursts :=
  foldl_keeps (P := fun t : State => t.bursts = v.bursts) (fun t b h => (detachRecord_bursts t p b).trans h) _ rfl

section
variable {v : State} (law : ∀ b, (v.bank b).oneRecord) (p : Port)
include law

/-- Each bank's own record at a DETACH is treated as though it were the only one. -/
theorem detachRecords_bank (b : Bank) : (v.detachRecords p).bank b = (v.detachRecord p b).bank b := by
  have only (s : State) (b : Bank) := detachRecord_onlyBank s p b
  unfold State.detachRecords
  by_cases hm : b ∈ v.heldBanks p
  · refine foldl_bank_mem only (fun u c d hd => ?_) (heldBanks_nodup law p) v hm
    exact detachRecord_bank_congr (only u c d hd) (keepsStore_of_holds (detachRecord_holds u p c)).1 (detachRecord_bursts u p c) p
  · have absent : (v.bank b).recordOf p = none := List.find?_eq_none.2 fun x hx hp =>
      hm ((mem_heldBanks v p b).2 ⟨x, hx, by simpa using hp⟩)
    rw [foldl_bank_ne only _ v b hm, detachRecord_absent absent]

/-- The port is answered for the close tags of the records that leave, in grant order (R49). -/
theorem detachRecords_replied_own :
    v.RepliedTo (v.detachRecords p) p ((v.holdView p).filterMap (fun x => v.closingAnswer p x.1 x.2)) := by
  have all := replied_foldl_banks (f := fun s b => s.detachRecord p b)
    (g := fun s b => ((s.bank b).recordOf p).bind (s.closingAnswer p b)) (p := p) (fun s b => detachRecord_onlyBank s p b)
    (fun s b => detachRecord_bursts s p b) (fun s b => detachRecord_replied_own s p b)
    (fun s t b hb hbursts => by
      unfold State.closingAnswer
      rw [hb, leavesAtDetach_congr (s := s) (t := t) (by rw [hb]) (by rw [hbursts])])
    (heldBanks_nodup law p) v
  have found : (v.heldBanks p).filterMap (fun b => ((v.bank b).recordOf p).bind (v.closingAnswer p b)) =
      (v.holdView p).filterMap (fun x => v.closingAnswer p x.1 x.2) := by
    unfold State.heldBanks
    rw [List.filterMap_map]
    refine List.filterMap_congr fun x hx => ?_
    have mem := (sortBy_perm _ _).mem_iff.1 hx
    obtain ⟨b, -, hb⟩ := List.mem_flatMap.1 mem
    obtain ⟨y, hy, rfl⟩ := List.mem_map.1 hb
    obtain ⟨hm, hp⟩ := List.mem_filter.1 hy
    have record : (v.bank b).recordOf p = some y := recordOf_of_mem (law b) hm (by simpa using hp)
    simp [record]
  rwa [found] at all

end

/-- The answer that an upgrade's completion sends stays in its port's queue (R44). -/
theorem detachRecords_granted {v : State} {p : Port} {b : Bank} {x y : HoldRecord} {u : PendingUpgrade}
    (law : ∀ b, (v.bank b).oneRecord) (hm : x ∈ (v.bank b).holds) (hl : v.leavesAtDetach p b x = true)
    (hu : (v.bank b).upgrade = some u) (hy : (v.bank b).holds.filter (fun y => y.port != p) = [y]) (hp : y.port = u.port)
    (hs : (v.session u.port).state = .attached) (hup : (v.link u.port).up = true) :
    .response u.tag (.granted b (v.bank b).openRow .exclusive) ∈ ((v.detachRecords p).link u.port).queue := by
  have own := ((leavesAtDetach_iff v p b x).1 hl).1
  obtain ⟨es, replied, mem⟩ := replied_foldl_mem (e := (u.tag, .granted b (v.bank b).openRow .exclusive))
    (fun s c => detachRecord_onlyBank s p c) (fun s c => detachRecord_bursts s p c)
    (fun s c => detachRecord_answers s p c u.port) ((mem_heldBanks v p b).2 ⟨x, hm, own⟩) v fun m bank bursts => by
      have leaving : m.leavesAtDetach p b x = true := by
        rw [leavesAtDetach_congr (s := v) (by rw [bank]) (by rw [bursts])]
        exact hl
      rw [detachRecord_leaves (recordOf_of_mem (by rw [bank]; exact law b) (by rw [bank]; exact hm) own) leaving, ← bank]
      exact ⟨_, repliedTo_trans (leaveBank_replied_upgrader (by rw [bank]; exact hu) (by rw [bank]; exact hy) hp)
        (answerTag_replied _ p x.closeTag (.ok (.close false)) u.port), List.mem_cons_self⟩
  have live : v.answerable u.port = true := by
    unfold State.answerable
    rw [hs]
  unfold State.detachRecords
  rw [replied.1, if_pos live, Link.answered, if_pos hup]
  exact List.mem_append_right _ (List.mem_map_of_mem mem)

/-! ## The banks after the DETACH -/

section
variable {s v : State} {p : Port} (w : s.Relieved v p)
include w

theorem State.Relieved.holds (b : Bank) : (v.bank b).holds = (s.bank b).holds := by
  rw [w.bank]
  rfl

theorem State.Relieved.upgrade (b : Bank) (x : PendingUpgrade) :
    (v.bank b).upgrade = some x ↔ (s.bank b).upgrade = some x ∧ x.port ≠ p := by
  rw [w.bank]
  exact withdrawn_upgrade _ p x

theorem State.Relieved.leaves (b : Bank) : v.leavesAtDetach p b = s.leavesAtDetach p b :=
  leavesAtDetach_congr (by rw [w.bank]; rfl) (by rw [w.bursts]) p

theorem State.Relieved.holdView : v.holdView p = s.holdView p := by
  unfold State.holdView
  simp only [w.holds]

theorem State.Relieved.closingAnswer (b : Bank) : v.closingAnswer p b = s.closingAnswer p b := by
  unfold State.closingAnswer
  rw [w.leaves]

variable (law : ∀ b, (s.bank b).oneRecord)
include law

theorem State.Relieved.oneRecord (b : Bank) : (v.bank b).oneRecord := by
  rw [w.bank]
  exact law b

/-- The port's answers at its DETACH, in order (R144). -/
theorem detached_replied_own : s.RepliedTo (v.detachRecords p) p
    (s.withdrawalAnswers p ++ (s.holdView p).filterMap (fun x => s.closingAnswer p x.1 x.2)) := by
  have first := w.replied p
  have last := detachRecords_replied_own (w.oneRecord law) p
  rw [if_pos rfl] at first
  simp only [w.holdView, w.closingAnswer] at last
  exact repliedTo_trans first last

theorem detached_bank (b : Bank) : (v.detachRecords p).bank b = (v.detachRecord p b).bank b := by
  rw [detachRecords_bank (w.oneRecord law)]

/-- Waits and upgrades of the port are gone, and no other's wait is. -/
theorem detached_rest (b : Bank) :
    ((v.detachRecords p).settle.bank b).waitQueue = (s.bank b).waitQueue.filter (fun x => x.port != p)
      ∧ ∀ x, ((v.detachRecords p).settle.bank b).upgrade = some x → x.port ≠ p := by
  obtain ⟨waits, upgrades⟩ := detachRecord_rest v p b
  rw [settle_waitQueue, (settle_work (v.detachRecords p) b).2, detached_bank w law, waits]
  rw [w.bank] at upgrades ⊢
  exact ⟨rfl, fun x hx => ((withdrawn_upgrade _ p x).1 (upgrades x hx)).2⟩

/-- A bank that no record leaves keeps its records, marked, and another port's upgrade. -/
theorem detached_stays {b : Bank} (hs : ∀ x ∈ (s.bank b).holds, s.leavesAtDetach p b x = false) :
    ((v.detachRecords p).settle.bank b).holds = (s.bank b).holds.map (HoldRecord.releasedFor p)
      ∧ ((v.detachRecords p).settle.bank b).upgrade = (s.bank b).upgrade.filter (fun x => x.port != p) := by
  have bank : (v.detachRecords p).bank b =
      { (s.bank b).withdrawn p with holds := (s.bank b).holds.map (HoldRecord.releasedFor p) } := by
    rw [detached_bank w law, detachRecord_stays (w.oneRecord law b) fun x hm => ?_, w.bank]
    · rfl
    · rw [w.leaves]
      exact hs x (by rwa [w.holds] at hm)
  rw [(settle_work (v.detachRecords p) b).1, (settle_work (v.detachRecords p) b).2, bank]
  exact ⟨rfl, rfl⟩

section
variable {b : Bank} {x : HoldRecord} (hm : x ∈ (s.bank b).holds) (hl : s.leavesAtDetach p b x = true)
include hm hl

/-- A bank that the port's record leaves. -/
theorem detached_left : (v.detachRecords p).bank b = (v.leaveBank b p).bank b ∧ (v.bank b).phase = .opened := by
  obtain ⟨hp, -, hopen, -⟩ := (leavesAtDetach_iff s p b x).1 hl
  rw [detached_bank w law, detachRecord_leaves (recordOf_of_mem (w.oneRecord law b) (by rw [w.holds]; exact hm) hp)
    (by rw [w.leaves]; exact hl), answerTag_bank]
  refine ⟨rfl, ?_⟩
  rw [w.bank]
  exact hopen

/-- Where no other port's upgrade is pending, the other records are what is left. -/
theorem detached_left_alone (only : ∀ y, (s.bank b).upgrade = some y → y.port = p) :
    ((v.detachRecords p).settle.bank b).holds = (s.bank b).holds.filter (fun y => y.port != p) := by
  have none : (v.bank b).upgrade = none := Option.eq_none_iff_forall_ne_some.2 fun y hy =>
    ((w.upgrade b y).1 hy).2 (only y ((w.upgrade b y).1 hy).1)
  rw [settle_left_no_upgrade (detached_left w law hm hl).1 none, w.holds]

/-- The last record's leaving sets the bank going (R13). -/
theorem detached_left_last (hlast : (s.bank b).holds.filter (fun y => y.port != p) = []) :
    ((v.detachRecords p).settle.bank b).phase = (if (s.bank b).dwellExpired = some true then .closing else .closeWait)
      ∧ ((s.bank b).dwellExpired = some true → ((v.detachRecords p).settle.bank b).endsAt = some (s.now + 28)) := by
  obtain ⟨left, hopen⟩ := detached_left w law hm hl
  have expired : (v.bank b).dwellExpired = (s.bank b).dwellExpired := by
    rw [w.bank]
    rfl
  rw [settle_left_last left hopen (by rw [w.holds]; exact hlast), expired, (onlyHolds_keeps w.frame).1]
  by_cases hd : (s.bank b).dwellExpired = some true
  · rw [if_pos hd, if_pos hd]
    exact ⟨rfl, fun _ => rfl⟩
  · rw [if_neg hd, if_neg hd]
    exact ⟨rfl, fun hc => absurd hc hd⟩

section
variable {y : PendingUpgrade} (hy : (s.bank b).upgrade = some y) (hp : y.port ≠ p)
include hy hp

/-- Another port's upgrade stays pending while its record is not alone. -/
theorem detached_left_pending (hothers : (s.bank b).holds.filter (fun z => z.port != p) ≠ [])
    (hmap : ((s.bank b).holds.filter (fun z => z.port != p)).map (fun z => z.port) ≠ [y.port]) :
    ((v.detachRecords p).settle.bank b).holds = (s.bank b).holds.filter (fun z => z.port != p)
      ∧ ((v.detachRecords p).settle.bank b).upgrade = some y := by
  obtain ⟨left, hopen⟩ := detached_left w law hm hl
  have pending := (w.upgrade b y).2 ⟨hy, hp⟩
  rw [settle_left_stays left hopen (by rw [w.holds]; exact hothers) fun z hz => ?_]
  · exact ⟨by rw [← w.holds b]; rfl, pending⟩
  · obtain rfl := Option.some.inj (pending.symm.trans hz)
    rwa [w.holds]

/-- Another port's upgrade completes where its record is left alone (R44). -/
theorem detached_left_completes {z : HoldRecord} (hz : (s.bank b).holds.filter (fun z => z.port != p) = [z])
    (hport : z.port = y.port) :
    ((v.detachRecords p).settle.bank b).holds = [{ z with mode := .exclusive }]
      ∧ ((v.detachRecords p).settle.bank b).upgrade = none
      ∧ ((s.session y.port).state = .attached → (s.link y.port).up = true →
          .response y.tag (.granted b (s.bank b).openRow .exclusive) ∈ ((v.detachRecords p).settle.link y.port).queue) := by
  have pending := (w.upgrade b y).2 ⟨hy, hp⟩
  rw [← w.holds b] at hz
  obtain ⟨holds, gone, -⟩ := settle_left_upgrade (detached_left w law hm hl).1 pending hz hport
  refine ⟨holds, gone, fun hs hup => settle_queue_mem ?_⟩
  have apart := w.replied y.port
  rw [if_neg (Ne.symm hp)] at apart
  obtain ⟨link, session⟩ := repliedTo_nil apart
  have granted := detachRecords_granted (w.oneRecord law) (by rw [w.holds]; exact hm) (by rw [w.leaves]; exact hl) pending hz hport
    (by rw [session]; exact hs) (by rw [link]; exact hup)
  rw [w.bank] at granted
  exact granted

end

end

end

end Sys2Proof.Machine
end
section
/-!
SUPPORT. A DETACH as a whole: the session DETACHING, its port's work released, and the end of the event (R141, R144, R145).
-/

namespace Sys2Proof.Machine

open Sys2Proof

/-! ## The first steps (R144) -/

/-- A session at its DETACH: DETACHING with the DETACH's tag, the role released, the vote clear. -/
def State.detachBegun (s : State) (p : Port) (t : Tag) : State :=
  { s.setSession p { s.session p with state := .detaching, detachTag := some t, idleVote := false, role := none } with
    config := if s.config.maintainer = some p then { s.config with maintainer := none } else s.config }

theorem detachSession_eq (s : State) (p : Port) (t : Tag) :
    s.detachSession p t = ((s.detachBegun p t).removePortBursts p .cancelled).detachHolds p := by
  have begun : (s.setSession p { s.session p with
      state := .detaching, detachTag := some t, idleVote := false, role := none }).releaseRole p = s.detachBegun p t :=
    releaseRole_frame _ p
  unfold State.detachSession
  simp only [begun]

theorem detachBegun_session (s : State) (p : Port) (t : Tag) : (s.detachBegun p t).session p =
    { s.session p with state := .detaching, detachTag := some t, idleVote := false, role := none } :=
  session_setSession_same s p _

/-- A good DETACH of an ATTACHED session is the release of its port's work and the end of the event. -/
theorem detach_exec {s : State} {h : Header} (hh : s.hears h) (hs : (s.session h.port).state = .attached) :
    ∃ v, ((s.taken h).detachBegun h.port h.tag).Relieved v h.port
      ∧ exec (.detach h) s = .next (v.detachRecords h.port).settle := by
  obtain ⟨v, relieved, released⟩ := detachHolds_relieved ((s.taken h).detachBegun h.port h.tag) h.port
  have attached : (s.taken h).attached h.port = true := by
    unfold State.attached
    rw [taken_session_state, hs]
    rfl
  have dispatched : (s.taken h).requestDetach h.port h.tag = ((s.taken h).detachSession h.port h.tag).settle := by
    unfold State.requestDetach State.ifAttached
    exact if_pos attached
  refine ⟨v, relieved, congrArg Host.Outcome.next ?_⟩
  rw [← released, ← detachSession_eq, ← dispatched]
  exact request_taken hh rfl (by simp)

/-! ## The end of the event for a DETACHING session (R145) -/

theorem finishSession_detaching_tags {s : State} {p : Port} {d : Tag} (h : (s.session p).state = .detaching)
    (hd : (s.session p).detachTag = some d) (hbusy : ∃ i, i ≠ d ∧ sixteenGet (s.session p).tags i ≠ .free) :
    s.finishSession p = s := by
  obtain ⟨i, hi, used⟩ := hbusy
  have left : s.tagsFreeBut p (some d) = false := Bool.eq_false_iff.2 fun hc => used ((tagsFreeBut_iff s p d).1 hc i hi)
  unfold State.finishSession
  simp [h, hd, left]

/-- A DETACHING session waits for its work and its tags, or ends. -/
theorem settle_detaching {s : State} {p : Port} {d : Tag} (h : (s.session p).state = .detaching)
    (hd : (s.session p).detachTag = some d) :
    (s.settle.link p = s.link p ∧ s.settle.session p = s.session p
        ∧ (s.settle.outstanding p = true ∨ ∃ i, i ≠ d ∧ sixteenGet (s.session p).tags i ≠ .free))
      ∨ (s.settle.link p = (s.link p).answered [(d, .ok .plain)] ∧ s.settle.session p = endedSession
        ∧ s.settle.outstanding p = false) := by
  cases ho : s.settle.outstanding p with
  | true =>
    obtain ⟨link, session⟩ := settle_detaching_busy h ho
    exact Or.inl ⟨link, session, Or.inl rfl⟩
  | false =>
    by_cases hbusy : ∃ i, i ≠ d ∧ sixteenGet (s.session p).tags i ≠ .free
    · obtain ⟨u, hl, hs, -, hlink, hsession⟩ := settle_port s p
      rw [← hs] at h hd
      have waits := finishSession_detaching_tags h hd (by rw [hs]; exact hbusy)
      rw [hlink, hsession, waits]
      exact Or.inl ⟨hl, hs, Or.inr hbusy⟩
    · have free : ∀ i, i ≠ d → sixteenGet (s.session p).tags i = .free := fun i hi => by
        by_contra hc
        exact hbusy ⟨i, hi, hc⟩
      obtain ⟨link, session⟩ := settle_detaching_done h hd ho free
      exact Or.inr ⟨link, session, rfl⟩

theorem settle_burstQueue_empty {s : State} {p : Port} (h : s.burstQueue p = []) : s.settle.burstQueue p = [] := by
  have chosen : s.arbiterChoice.burstQueue p = [] := by
    unfold State.arbiterChoice
    split
    · exact h
    · split
      · next q b _ =>
        show (s.bursts.queues.set q ((s.burstQueue q).drop 1)).get p = []
        rw [four_get_set]
        split
        · next hq => rw [← hq, h]; rfl
        · exact h
      · exact h
  unfold State.burstQueue at chosen ⊢
  rwa [settle_bursts]

/-! ## The records, whether one leaves or none (R13, R44, R49) -/

section
variable {s v : State} {p : Port} (w : s.Relieved v p) (law : ∀ b, (s.bank b).oneRecord) {b : Bank} {kept : List HoldRecord}
  (hkept : kept = ((s.bank b).holds.filter (fun x => !s.leavesAtDetach p b x)).map (HoldRecord.releasedFor p))
include w law hkept

/-- Where no record leaves, every record stays, marked. -/
theorem detached_nobody (nobody : ∀ x ∈ (s.bank b).holds, s.leavesAtDetach p b x = false) :
    ((v.detachRecords p).settle.bank b).holds = kept
      ∧ ((v.detachRecords p).settle.bank b).upgrade = (s.bank b).upgrade.filter (fun x => x.port != p) := by
  have all : (s.bank b).holds.filter (fun x => !s.leavesAtDetach p b x) = (s.bank b).holds :=
    List.filter_eq_self.2 fun x hm => by rw [nobody x hm]; rfl
  rw [hkept, all]
  exact detached_stays w law nobody

/-- Where no other port's upgrade is pending, what stays is marked and nothing else. -/
theorem detached_kept (only : ∀ y, (s.bank b).upgrade = some y → y.port = p) :
    ((v.detachRecords p).settle.bank b).holds = kept := by
  by_cases leaving : ∃ x ∈ (s.bank b).holds, s.leavesAtDetach p b x = true
  · obtain ⟨x, hm, hx⟩ := leaving
    rw [hkept, (released_of_leaves (law b) hm hx).2]
    exact detached_left_alone w law hm hx only
  · exact (detached_nobody w law hkept fun x hm => Bool.eq_false_iff.2 fun hx => leaving ⟨x, hm, hx⟩).1

section
variable {y : PendingUpgrade} (hy : (s.bank b).upgrade = some y) (hp : y.port ≠ p)
include hy hp

/-- Another port's upgrade stays where no record leaves, or its record is not alone then. -/
theorem detached_pending (stays : (∀ x ∈ (s.bank b).holds, s.leavesAtDetach p b x = false)
      ∨ (kept ≠ [] ∧ kept.map (fun x => x.port) ≠ [y.port])) :
    ((v.detachRecords p).settle.bank b).holds = kept ∧ ((v.detachRecords p).settle.bank b).upgrade = some y := by
  by_cases leaving : ∃ x ∈ (s.bank b).holds, s.leavesAtDetach p b x = true
  · obtain ⟨x, hm, hx⟩ := leaving
    obtain ⟨hothers, hmap⟩ := stays.resolve_left fun nobody => Bool.false_ne_true ((nobody x hm).symm.trans hx)
    rw [(released_of_leaves (law b) hm hx).2] at hkept
    rw [hkept] at hothers hmap ⊢
    exact detached_left_pending w law hm hx hy hp hothers hmap
  · obtain ⟨holds, upgrade⟩ :=
      detached_nobody w law hkept fun x hm => Bool.eq_false_iff.2 fun hx => leaving ⟨x, hm, hx⟩
    refine ⟨holds, upgrade.trans ?_⟩
    rw [hy]
    simp [Option.filter, hp]

/-- Another port's upgrade completes where a leaving leaves its record alone. -/
theorem detached_completes {z : HoldRecord} (leaving : ∃ x ∈ (s.bank b).holds, s.leavesAtDetach p b x = true)
    (hz : kept = [z]) (hport : z.port = y.port) :
    ((v.detachRecords p).settle.bank b).holds = [{ z with mode := .exclusive }]
      ∧ ((v.detachRecords p).settle.bank b).upgrade = none
      ∧ ((s.session y.port).state = .attached → (s.link y.port).up = true →
          .response y.tag (.granted b (s.bank b).openRow .exclusive) ∈ ((v.detachRecords p).settle.link y.port).queue) := by
  obtain ⟨x, hm, hx⟩ := leaving
  rw [(released_of_leaves (law b) hm hx).2] at hkept
  exact detached_left_completes w law hm hx hy hp (hkept.symm.trans hz) hport

end

end

/-! ## The answers in order (R144) -/

theorem responses_filterMap {α : Type} (f : α → Option (Tag × Answer)) (xs : List α) :
    responses (xs.filterMap f) = xs.filterMap (fun x => (f x).map (fun e => OutEntry.response e.1 e.2)) := List.map_filterMap

theorem responses_withdrawal (s : State) (p : Port) : responses (s.withdrawalAnswers p) =
    (s.burstQueue p).map (fun x => OutEntry.response x.tag Answer.cancelled)
      ++ allBanks.filterMap (fun b => ((s.bank b).waitOf p).map (fun w => OutEntry.response w.tag Answer.cancelled))
      ++ allBanks.filterMap (fun b =>
          ((s.bank b).upgrade.filter (fun u => u.port == p)).map (fun u => OutEntry.response u.tag Answer.cancelled)) := by
  unfold State.withdrawalAnswers
  rw [responses_append, responses_append, responses_filterMap, responses_filterMap, ← List.append_assoc]
  simp only [State.waitAnswer, State.upgradeAnswer, Option.map_map, Function.comp_def, responses, List.map_map]

theorem responses_closings (s : State) (p : Port) (xs : List (Bank × HoldRecord)) :
    responses (xs.filterMap (fun x => s.closingAnswer p x.1 x.2)) =
      xs.filterMap (fun x =>
        if s.leavesAtDetach p x.1 x.2 = true then x.2.closeTag.map (fun ct => OutEntry.response ct (Answer.ok (.close false))) else none) := by
  rw [responses_filterMap]
  congr 1
  funext x
  unfold State.closingAnswer
  split
  · exact Option.map_map ..
  · rfl

/-- The port's session and queue after its DETACH: DETACHING while work or another tag is left, else NONE and answered OK (R144, R145). -/
theorem detach_session {s : State} {h : Header} (hh : s.hears h) (law : ∀ b, (s.bank b).oneRecord) {v t : State}
    (w : ((s.taken h).detachBegun h.port h.tag).Relieved v h.port) (ht : t = (v.detachRecords h.port).settle) :
    (((t.session h.port).state = .detaching ∧ (t.session h.port).detachTag = some h.tag
          ∧ (t.outstanding h.port = true ∨ ∃ i, i ≠ h.tag ∧ sixteenGet (t.session h.port).tags i ≠ .free))
        ∨ ((t.session h.port).state = .none ∧ (t.session h.port).detachTag = none ∧ t.outstanding h.port = false
          ∧ (t.session h.port).tags = sixteenAll .free))
      ∧ (t.session h.port).role = none ∧ (t.session h.port).idleVote = false
      ∧ (t.link h.port).queue = (s.link h.port).queue
          ++ responses (s.withdrawalAnswers h.port ++ (s.holdView h.port).filterMap (fun x => s.closingAnswer h.port x.1 x.2))
          ++ (if (t.session h.port).state = .none then [.response h.tag (.ok .plain)] else []) := by
  have link : ((s.taken h).detachBegun h.port h.tag).link h.port =
      { s.link h.port with expectedSeq := (s.link h.port).expectedSeq + 1 } :=
    link_setLink_same s.countRequest h.port _
  have session := detachBegun_session (s.taken h) h.port h.tag
  have live : ((s.taken h).detachBegun h.port h.tag).answerable h.port = true := by
    unfold State.answerable
    rw [session]
  obtain ⟨replied, marked⟩ := detached_replied_own w law
  rw [if_pos live, link] at replied
  rw [if_pos live, session] at marked
  rcases settle_detaching (d := h.tag) (by rw [marked]; rfl) (by rw [marked]; rfl) with
    ⟨sameLink, sameSession, waits⟩ | ⟨endLink, ended, idle⟩
  · rw [← ht] at sameLink sameSession waits
    rw [sameLink, sameSession, replied, Link.answered, if_pos hh.2.1, marked]
    refine ⟨Or.inl ⟨rfl, rfl, ?_⟩, rfl, rfl, (List.append_nil _).symm⟩
    rwa [marked] at waits
  · rw [← ht] at endLink ended idle
    rw [endLink, ended, replied, link_answered_append, Link.answered, if_pos hh.2.1, responses_append, ← List.append_assoc]
    exact ⟨Or.inr ⟨rfl, rfl, idle, rfl⟩, rfl, rfl, rfl⟩

/-- Settles O21: the banks as the records leave or stay, the port's answers in order, and the session by what is left. -/
theorem detachReleasesThePortsWork : Obligations.DetachReleasesThePortsWork := by
  unfold Obligations.DetachReleasesThePortsWork
  intro s h hh hs place
  have law := oneRecord_of_placeLaw place
  obtain ⟨v, w, ran⟩ := detach_exec hh hs
  obtain ⟨session, role, vote, queue⟩ := detach_session hh law w rfl
  obtain ⟨-, -, -, quads, -, -, -, config, -⟩ := onlyHolds_keeps (onlyHolds_trans w.frame (detachRecords_holds v h.port))
  refine ⟨_, ran, session, role, vote, (settle_config _).trans config, ?_, fun b => (detached_rest w law b).1,
    fun b => (detached_rest w law b).2, fun leaves hl => ?_, ?_, fun q => ?_⟩
  · refine settle_burstQueue_empty ?_
    unfold State.burstQueue
    rw [detachRecords_bursts, w.bursts, four_get_set_same]
  · obtain rfl : leaves = s.leavesAtDetach h.port := funext fun b => funext fun x => hl b x
    have other {u : PendingUpgrade} (hu : u.port ≠ h.port) :
        ((s.taken h).detachBegun h.port h.tag).session u.port = s.session u.port
          ∧ ((s.taken h).detachBegun h.port h.tag).link u.port = s.link u.port :=
      ⟨(session_setSession_ne (s.taken h) _ hu).trans (session_setSession_ne _ _ hu), link_setLink_ne s.countRequest _ hu⟩
    refine ⟨fun b only => detached_kept w law rfl only, fun b u kept hu hp hkept =>
      ⟨fun stays => detached_pending w law hkept hu hp stays, fun y leaving hy hport => ?_⟩,
      fun b leaving hlast => ?_, ?_⟩
    · obtain ⟨holds, gone, granted⟩ := detached_completes w law hkept hu hp leaving hy hport
      rw [(other hp).1, (other hp).2] at granted
      exact ⟨holds, gone, granted⟩
    · obtain ⟨x, hm, hx⟩ := leaving
      exact detached_left_last w law hm hx ((released_of_leaves (law b) hm hx).1.symm.trans hlast)
    · rw [queue, responses_append, responses_withdrawal, responses_closings]
      simp only [List.append_assoc]
  · have begun : s.KeepsStore ((s.taken h).detachBegun h.port h.tag) := ⟨rfl, rfl, rfl, rfl, rfl⟩
    exact keepsStore_trans begun (keepsStore_trans
      (keepsStore_of_holds (onlyHolds_trans w.frame (detachRecords_holds v h.port))) (settle_store _))
  · exact congrArg (fun quads : Four QuadAccount => quads.get q) ((settle_quads _).trans quads)

end Sys2Proof.Machine
end
section
/-!
SUPPORT. A DETACH without work that does not end its session: without the burst law (R41, R58) the arbiter's choice at the end of the
event can begin a burst of the port out of another port's queue, and the session then waits for it (R145).
-/

namespace Sys2Proof.Machine

open Sys2Proof

/-- ACTIVE, four links UP and four sessions ATTACHED, the data path free, bank 3 OPEN with a record of port 1. Port 0 has no work, but the
burst at the head of port 1's queue, to bank 3, names port 0, which the burst law shuts out. -/
def State.strayBurst : State :=
  { State.reset with
    modeCtl := { State.reset.modeCtl with mode := .active, clearStates := Four.all .cleared, clearRun := none }
    banks := sixteenSet (sixteenAll BankRecord.powerOn) 3
      { BankRecord.powerOn with
        phase := .opened, row := some 5, dwellExpired := some false, holds := [newRecord 1 .shared none 0] }
    bursts := { State.reset.bursts with
      queues := (Four.all []).set 1
        [{ port := 0, tag := 4, kind := .read, bank := 3, row := 5, column := 0, units := 1, autoClose := false, data := [] }] }
    sessions := Four.all { Session.powerOn with state := .attached, role := some .user }
    links := Four.all { Link.powerOn true with up := true, expectedSeq := 1 } }

/-- The DETACH that it hears on port 0. -/
def Header.strayDetach : Header := { port := 0, sequence := 1, tag := 2 }

theorem strayBurst_breaks_burstLaw : ¬ State.strayBurst.burstLaw := by
  rintro ⟨-, queued⟩
  exact absurd (queued 1 _ List.mem_cons_self).1 (by decide)

theorem strayBurst_detach_waits : ((State.strayBurst.request Header.strayDetach .detach).session 0).state = .detaching := by
  decide +kernel

/-- Refutes O20: in `State.strayBurst` port 0 has no work and every tag FREE, and its DETACH leaves it DETACHING, since the arbiter has
begun the burst that names it. -/
theorem not_detachWithoutWorkEndsSession : ¬ Obligations.DetachWithoutWorkEndsSession := by
  unfold Obligations.DetachWithoutWorkEndsSession
  intro h
  obtain ⟨t, ran, ended, -⟩ := h State.strayBurst Header.strayDetach (by decide +kernel) (by decide +kernel) (by decide +kernel)
    (by decide +kernel)
  obtain rfl := Host.Outcome.next.inj ran
  have none : ((State.strayBurst.request Header.strayDetach .detach).session 0).state = .none := congrArg Session.state ended
  rw [strayBurst_detach_waits] at none
  exact nomatch none

end Sys2Proof.Machine
end
section
/-!
SUPPORT. Requests in an ATTACHED session that their owner answers in the arrival event: from the packet to the owner, and from the
owner's answer to what the port sees of it (R120, R135, R137, R138). Then the number fields of a request's body (R178).
-/

namespace Sys2Proof.Machine

open Sys2Proof

/-! ## A request under way -/

/-- A state in which a request other than IDLE has been heard: expected sequence advanced, idle vote clear, tag BUSY (R120, R135). -/
def State.heard (w : State) (h : Header) : State :=
  (w.setLink h.port { w.link h.port with expectedSeq := (w.link h.port).expectedSeq + 1 }).setSession h.port
    { w.session h.port with idleVote := false, tags := sixteenSet (w.session h.port).tags h.tag .busy }

theorem taken_heard (s : State) (h : Header) : s.taken h = s.countRequest.heard h := rfl

theorem heard_link_same (w : State) (h : Header) :
    (w.heard h).link h.port = { w.link h.port with expectedSeq := (w.link h.port).expectedSeq + 1 } := by
  simp [State.heard]

theorem heard_session_same (w : State) (h : Header) : (w.heard h).session h.port =
    { w.session h.port with idleVote := false, tags := sixteenSet (w.session h.port).tags h.tag .busy } := by
  simp [State.heard]

/-- A final answer frees the tag again, so that nothing is left of the taking but the advanced sequence number and the cleared vote,
whatever the owner has done in between to the rest of the state (R138). -/
theorem heard_answer {w : State} {h : Header} (up : (w.link h.port).up = true)
    (free : sixteenGet (w.session h.port).tags h.tag = .free) {a : Answer} (final : a.tagAfter = .free) :
    (w.heard h).answer h.port h.tag a = w.replied h false a := by
  have tags : sixteenSet (sixteenSet (w.session h.port).tags h.tag .busy) h.tag .free = (w.session h.port).tags := by
    rw [sixteen_set_set, ← free, sixteen_set_get]
  rw [answer_up (by rw [heard_link_same]; exact up), heard_link_same, heard_session_same, final, tags]
  simp [State.heard, State.replied, State.setLink, State.setSession, State.link, State.session]

/-- In an ATTACHED session a request goes to its owner, which finds it as taken. -/
theorem ifAttached_taken {s : State} {h : Header} (hs : (s.session h.port).state = .attached) (t : Tag) (f : State → State) :
    (s.taken h).ifAttached h.port t f = f (s.taken h) := by
  unfold State.ifAttached State.attached
  rw [taken_session_state, hs]
  rfl

/-- A request that only an ATTACHED session passes to its owner (R136). -/
theorem request_owned {s : State} {h : Header} (hh : s.hears h) (hs : (s.session h.port).state = .attached) {r : Request}
    (he : r.encodable = true) (hr : r ≠ .idle) (f : State → State)
    (owned : ∀ t : State, t.dispatch h.port h.tag r = t.ifAttached h.port h.tag f) : s.request h r = f (s.taken h) := by
  rw [request_taken hh he hr, owned, ifAttached_taken hs]

/-- An owner's work that leaves links and sessions alone, and then its final answer. -/
theorem worked_answer {s w : State} {h : Header} (hh : s.hears h) (links : w.links = s.links) (sessions : w.sessions = s.sessions)
    {a : Answer} (final : a.tagAfter = .free) : (w.heard h).answer h.port h.tag a = w.replied h false a := by
  refine heard_answer ?_ ?_ final
  · unfold State.link
    rw [links]
    exact hh.2.1
  · unfold State.session
    rw [sessions]
    exact tag_free_of_hears hh

/-! ## Number fields (R178) -/

theorem fourOf_val (q : Fin 4) : fourOf (BitVec.ofNat 8 q.val) = some q := by
  revert q
  decide

theorem fourOf_none {b : Byte} (h : 4 ≤ b.toNat) : fourOf b = none := dif_neg (not_lt.2 h)

theorem bankOf_val (b : Bank) : bankOf (BitVec.ofNat 8 b.val) = some b := by
  revert b
  decide

theorem quad_ne_all (q : Quad) : BitVec.ofNat 8 q.val ≠ allCode := by
  revert q
  decide

theorem bank_ne_all (b : Bank) : BitVec.ofNat 8 b.val ≠ allCode := by
  revert b
  decide

/-! ## Items (8.1, 11.2) -/

theorem itemOf_pullIn (q : Quad) : itemOf 0x03 (BitVec.ofNat 8 q.val) = some (.pullIn q) :=
  congrArg (Option.map Item.pullIn) (fourOf_val q)

theorem itemOf_holdQuota (p : Port) : itemOf 0x04 (BitVec.ofNat 8 p.val) = some (.holdQuota p) :=
  congrArg (Option.map Item.holdQuota) (fourOf_val p)

/-- Codes outside the table, and indices outside 0 to 3 where they are looked at, name no item and are not ALL (R152, R157, R178). -/
theorem itemOf_none {code index : Byte}
    (h : code = 0 ∨ (6 < code.toNat ∧ code.toNat < 255) ∨ ((code = 0x03 ∨ code = 0x04) ∧ 4 ≤ index.toNat)) :
    itemOf code index = none ∧ code ≠ allCode := by
  rcases h with rfl | ⟨above, below⟩ | ⟨rfl | rfl, out⟩
  · exact ⟨rfl, by decide⟩
  · refine ⟨?_, fun e => absurd below (e ▸ by decide)⟩
    unfold itemOf
    split
    case h_7 => rfl
    all_goals omega
  · exact ⟨congrArg (Option.map Item.pullIn) (fourOf_none out), by decide⟩
  · exact ⟨congrArg (Option.map Item.holdQuota) (fourOf_none out), by decide⟩

end Sys2Proof.Machine
end
section
/-!
SUPPORT. CFG_READ (R157).
-/

namespace Sys2Proof.Machine

open Sys2Proof

section
variable {s : State} {h : Header} (hh : s.hears h) (hs : (s.session h.port).state = .attached)
include hh hs

theorem cfgRead_exec (item index : Byte) :
    exec (.cfgRead h item index) s = .next ((s.taken h).cfgRead h.port h.tag item index) :=
  congrArg Host.Outcome.next
    (request_owned hh hs rfl (by simp) (fun t => t.cfgRead h.port h.tag item index) fun _ => rfl)

theorem cfgRead_item {item index : Byte} {i : Item} (hi : itemOf item index = some i) (one : item ≠ allCode) :
    exec (.cfgRead h item index) s =
      .next (s.answered h false (.data (.cfgOne i.code i.index (s.config.value i) s.config.maintainer))) := by
  rw [cfgRead_exec hh hs, State.cfgRead, if_neg one, hi]
  exact congrArg Host.Outcome.next (taken_answer hh rfl)

theorem cfgRead_all (index : Byte) :
    exec (.cfgRead h allCode index) s = .next (s.answered h false (.data (.cfgAll s.config))) := by
  rw [cfgRead_exec hh hs, State.cfgRead, if_pos rfl]
  exact congrArg Host.Outcome.next (taken_answer hh rfl)

theorem cfgRead_none {item index : Byte} (hi : itemOf item index = none) (one : item ≠ allCode) :
    exec (.cfgRead h item index) s = .next (s.answered h false (.refused .range)) := by
  rw [cfgRead_exec hh hs, State.cfgRead, if_neg one, hi]
  exact congrArg Host.Outcome.next (taken_answer hh rfl)

end

theorem grantPolicy_code (g : GrantPolicy) : g.code = if g = .rotating then 1 else 0 := by cases g <;> rfl

/-- Settles O49: one answer for each of the items that the code and the index name, one for ALL and one for the rest. -/
theorem cfgReadAnswersItems : Obligations.CfgReadAnswersItems := by
  unfold Obligations.CfgReadAnswersItems
  intro s h item index answer hh hs hanswer
  refine ⟨?_, ?_, ?_, ?_, ?_, ?_, ?_, fun out => cfgRead_none hh hs (itemOf_none out).1 (itemOf_none out).2⟩
  · rintro rfl
    exact (hanswer _).2 (cfgRead_item hh hs (i := .retentionInterval) rfl (by decide))
  · rintro rfl
    exact (hanswer _).2 (cfgRead_item hh hs (i := .reclaimLevel) rfl (by decide))
  · rintro q rfl rfl
    exact (hanswer _).2 (cfgRead_item hh hs (itemOf_pullIn q) (by decide))
  · rintro p rfl rfl
    exact (hanswer _).2 (cfgRead_item hh hs (itemOf_holdQuota p) (by decide))
  · rintro rfl
    rw [← grantPolicy_code]
    exact (hanswer _).2 (cfgRead_item hh hs (i := .grantPolicy) rfl (by decide))
  · rintro rfl
    exact (hanswer _).2 (cfgRead_item hh hs (i := .idleEntry) rfl (by decide))
  · rintro rfl
    exact (hanswer _).2 (cfgRead_all hh hs index)

end Sys2Proof.Machine
end
section
/-!
SUPPORT. CFG_WRITE: its checks in order (R152, R154), and the writes that have no effect beyond their item (R153, R155).
-/

namespace Sys2Proof.Machine

open Sys2Proof

/-! ## The checks (R152) -/

section
variable {s : State} {p : Port}

theorem isMaintainer_iff : s.isMaintainer p = true ↔ s.config.maintainer = some p := by
  unfold State.isMaintainer
  exact beq_iff_eq

theorem cfgRefusal_denied (h : s.config.maintainer ≠ some p) (item : Option Item) (v : Nat) :
    s.cfgRefusal p item v = some .denied := by
  unfold State.cfgRefusal
  rw [Bool.eq_false_iff.2 (mt isMaintainer_iff.1 h)]
  rfl

variable (h : s.config.maintainer = some p)
include h

theorem cfgRefusal_range {item : Option Item} {v : Nat} (out : ∀ i, item = some i → i.inRange v = false) :
    s.cfgRefusal p item v = some .range := by
  unfold State.cfgRefusal
  rw [isMaintainer_iff.2 h]
  cases item with
  | none => rfl
  | some i => simp [out i rfl]

theorem cfgRefusal_inUse {i : Item} {v : Nat} (range : i.inRange v = true) (used : s.quotaInUse i v = true) :
    s.cfgRefusal p (some i) v = some .inUse := by
  unfold State.cfgRefusal
  simp [isMaintainer_iff.2 h, range, used]

theorem cfgRefusal_passed {i : Item} {v : Nat} (range : i.inRange v = true) (free : s.quotaInUse i v = false) :
    s.cfgRefusal p (some i) v = none := by
  unfold State.cfgRefusal
  simp [isMaintainer_iff.2 h, range, free]

end

section
variable {s : State} {h : Header} (hh : s.hears h) (hs : (s.session h.port).state = .attached)
include hh hs

/-- The six CFG_WRITE commands are one request (11.2). -/
theorem cfgWrite_exec {c : Instr} {code index value : Byte} (hr : requestOf c = some (h, .cfgWrite code index value)) :
    exec c s = .next ((s.taken h).cfgWrite h.port h.tag code index value) := by
  have spelled : c.wf = true := by
    cases c with
    | write | faultClearIndex | unitCorruption => cases hr
    | _ => rfl
  rw [(exec_request spelled hr s).1]
  exact congrArg Host.Outcome.next
    (request_owned hh hs rfl (by simp) (fun t => t.cfgWrite h.port h.tag code index value) fun _ => rfl)

theorem cfgWrite_refused {c : Instr} {code index value : Byte} (hr : requestOf c = some (h, .cfgWrite code index value))
    {reason : Reason} (refused : s.cfgRefusal h.port (itemOf code index) value.toNat = some reason) :
    exec c s = .next (s.answered h false (.refused reason)) := by
  have refused : (s.taken h).cfgRefusal h.port (itemOf code index) value.toNat = some reason := refused
  rw [cfgWrite_exec hh hs hr, State.cfgWrite, refused]
  exact congrArg Host.Outcome.next (taken_answer hh rfl)

end

theorem interval_excludes {low high v : Nat} (h : v < low ∨ high < v) : (decide (low ≤ v) && decide (v ≤ high)) = false := by
  simp only [Bool.and_eq_false_iff, decide_eq_false_iff_not]
  omega

/-- An index or a value that is out of range for an item with an index (R152). -/
theorem inRange_indexed {make : Fin 4 → Item} {index : Byte} {v : Nat} (out : 3 < index.toNat ∨ ∀ q, (make q).inRange v = false)
    {i : Item} (hi : (fourOf index).map make = some i) : i.inRange v = false := by
  obtain ⟨q, hq, rfl⟩ := Option.map_eq_some_iff.1 hi
  rcases out with out | out
  · rw [fourOf_none out] at hq
    cases hq
  · exact out q

/-- Settles O50: the three reasons of R152 in their order; each item has its range and its index, a quota also its use. -/
theorem cfgWriteChecksInOrder : Obligations.CfgWriteChecksInOrder := by
  unfold Obligations.CfgWriteChecksInOrder
  intro s h code index value c hh hs hr
  refine ⟨fun other => cfgWrite_refused hh hs hr (cfgRefusal_denied other _ _), fun own out => ?_, ?_⟩
  · refine cfgWrite_refused hh hs hr (cfgRefusal_range own fun i hi => ?_)
    rcases out with ⟨rfl, out⟩ | ⟨rfl, out⟩ | ⟨rfl, out⟩ | ⟨rfl, out⟩ | ⟨rfl, out⟩ | ⟨rfl, out⟩ <;> cases hr
    · exact Option.some.inj hi ▸ interval_excludes out
    · exact Option.some.inj hi ▸ interval_excludes out
    · exact inRange_indexed (make := .pullIn) (out.imp_right fun out _ => decide_eq_false (not_le.2 out)) hi
    · exact inRange_indexed (make := .holdQuota) (out.imp_right fun out _ => interval_excludes out) hi
    · exact Option.some.inj hi ▸ decide_eq_false (not_le.2 out)
    · exact Option.some.inj hi ▸ decide_eq_false (not_le.2 out)
  · rintro p own rfl rfl low high used
    cases hr
    refine cfgWrite_refused hh hs rfl ?_
    rw [itemOf_holdQuota]
    exact cfgRefusal_inUse own (by simp [Item.inRange, low, high]) (by simpa [State.quotaInUse] using used)

end Sys2Proof.Machine
end
section
/-!
SUPPORT. The clear requests (R85, R111 to R113, R158).
-/

namespace Sys2Proof.Machine

open Sys2Proof

section
variable {s : State} {h : Header} (hh : s.hears h) (hs : (s.session h.port).state = .attached)
include hh hs

theorem faultClear_exec {c : Instr} {index : Byte} (hc : ∀ s, exec c s = .next (s.request h (.faultClear index))) :
    exec c s = .next ((s.taken h).faultClear h.port h.tag index) :=
  (hc s).trans (congrArg Host.Outcome.next
    (request_owned hh hs rfl (by simp) (fun t => t.faultClear h.port h.tag index) fun _ => rfl))

theorem lapseClear_exec (quad : Byte) : exec (.lapseClear h quad) s = .next ((s.taken h).lapseClear h.port h.tag quad) :=
  congrArg Host.Outcome.next
    (request_owned hh hs rfl (by simp) (fun t => t.lapseClear h.port h.tag quad) fun _ => rfl)

theorem countClear_exec (bank : Byte) : exec (.countClear h bank) s = .next ((s.taken h).countClear h.port h.tag bank) :=
  congrArg Host.Outcome.next
    (request_owned hh hs rfl (by simp) (fun t => t.countClear h.port h.tag bank) fun _ => rfl)

end

/-! ## Without MAINTAINER -/

section
variable {s : State} {p : Port} (h : s.config.maintainer ≠ some p) (t : Tag)
include h

theorem faultClear_denied (index : Byte) : s.faultClear p t index = s.answer p t (.refused .denied) := by
  unfold State.faultClear
  rw [Bool.eq_false_iff.2 (mt isMaintainer_iff.1 h)]
  rfl

theorem lapseClear_denied (quad : Byte) : s.lapseClear p t quad = s.answer p t (.refused .denied) := by
  unfold State.lapseClear
  rw [Bool.eq_false_iff.2 (mt isMaintainer_iff.1 h)]
  rfl

theorem countClear_denied (bank : Byte) : s.countClear p t bank = s.answer p t (.refused .denied) := by
  unfold State.countClear
  rw [Bool.eq_false_iff.2 (mt isMaintainer_iff.1 h)]
  rfl

end

/-! ## The maintainer's -/

section
variable {s : State} {p : Port} (h : s.config.maintainer = some p) (t : Tag)
include h

theorem faultClear_all : s.faultClear p t allCode = s.clearFaults.answer p t (.ok .plain) := by
  unfold State.faultClear
  rw [isMaintainer_iff.2 h]
  rfl

theorem faultClear_entry {n : Byte} {x : FaultEntry} (hn : n.toNat < 16) (hx : s.integrity.faults[n.toNat]? = some x) :
    s.faultClear p t n = (s.removeFault n.toNat).answer p t (.ok (.faultCleared x.bank x.row x.column)) := by
  have one : n ≠ allCode := by
    rintro rfl
    exact absurd hn (by decide)
  unfold State.faultClear
  rw [isMaintainer_iff.2 h, if_neg (by decide), if_neg one, if_pos (show n.toNat < faultListLimit from hn), hx]

theorem faultClear_range {n : Byte} (one : n ≠ allCode) (out : 16 ≤ n.toNat ∨ s.integrity.faults.length ≤ n.toNat) :
    s.faultClear p t n = s.answer p t (.refused .range) := by
  unfold State.faultClear faultListLimit
  rw [isMaintainer_iff.2 h, if_neg (by decide), if_neg one]
  rcases out with out | out
  · rw [if_neg (not_lt.2 out)]
  · rw [List.getElem?_eq_none out, ite_self]

theorem lapseClear_all : s.lapseClear p t allCode =
    ({ s with quads := s.quads.map (fun a => { a with lapse := false }) } : State).answer p t (.ok .plain) := by
  unfold State.lapseClear
  rw [isMaintainer_iff.2 h]
  rfl

theorem lapseClear_one (q : Quad) :
    s.lapseClear p t (BitVec.ofNat 8 q.val) = (s.setQuad q { s.quad q with lapse := false }).answer p t (.ok .plain) := by
  unfold State.lapseClear
  rw [isMaintainer_iff.2 h, if_neg (by decide), if_neg (quad_ne_all q), fourOf_val]
  rfl

theorem lapseClear_range {n : Byte} (one : n ≠ allCode) (out : 4 ≤ n.toNat) :
    s.lapseClear p t n = s.answer p t (.refused .range) := by
  unfold State.lapseClear
  rw [isMaintainer_iff.2 h, if_neg (by decide), if_neg one, fourOf_none out]

theorem countClear_all : s.countClear p t allCode = s.clearAllCounts.answer p t (.ok .plain) := by
  unfold State.countClear
  rw [isMaintainer_iff.2 h]
  rfl

theorem countClear_one (b : Bank) :
    s.countClear p t (BitVec.ofNat 8 b.val) = (s.clearCount b).answer p t (.ok .plain) := by
  unfold State.countClear
  rw [isMaintainer_iff.2 h, if_neg (by decide), if_neg (bank_ne_all b), bankOf_val]

theorem countClear_range {n : Byte} (one : n ≠ allCode) (out : 16 ≤ n.toNat) :
    s.countClear p t n = s.answer p t (.refused .range) := by
  unfold State.countClear
  rw [isMaintainer_iff.2 h, if_neg (by decide), if_neg one, bankOf_none out]

end

/-- Settles O52: MAINTAINER is looked at first; then each argument names what is cleared, or nothing. -/
theorem clearRequestsClearWhatTheyName : Obligations.ClearRequestsClearWhatTheyName := by
  unfold Obligations.ClearRequestsClearWhatTheyName
  intro s h hh hs
  refine ⟨fun c r hr hc other => ?_, fun own => ?_⟩
  · have other : (s.taken h).config.maintainer ≠ some h.port := other
    have denied := taken_answer hh (a := .refused .denied) rfl
    rcases hc with ⟨n, rfl⟩ | rfl | ⟨n, rfl⟩ | ⟨n, rfl⟩
    · rw [faultClear_exec hh hs (fun _ => rfl), faultClear_denied other, denied]
    · rw [faultClear_exec hh hs (fun _ => rfl), faultClear_denied other, denied]
    · rw [lapseClear_exec hh hs, lapseClear_denied other, denied]
    · rw [countClear_exec hh hs, countClear_denied other, denied]
  · have own : (s.taken h).config.maintainer = some h.port := own
    have range := taken_answer hh (a := .refused .range) rfl
    have worked (w : State) (a : Answer) (links : w.links = s.links) (sessions : w.sessions = s.sessions)
        (final : a.tagAfter = .free) : (w.countRequest.heard h).answer h.port h.tag a = w.answered h false a :=
      worked_answer (w := w.countRequest) hh links sessions final
    refine ⟨fun n x hn hx => ?_, fun n one out => ?_, ?_, fun q => ?_, ?_, fun n out one => ?_, fun b => ?_, ?_,
      fun n out one => ?_⟩
    · rw [faultClear_exec hh hs (fun _ => rfl), faultClear_entry own h.tag hn hx]
      exact congrArg Host.Outcome.next (worked (s.removeFault n.toNat) _ rfl rfl rfl)
    · rw [faultClear_exec hh hs (fun _ => rfl), faultClear_range own h.tag one out, range]
    · rw [faultClear_exec hh hs (fun _ => rfl), faultClear_all own]
      exact congrArg Host.Outcome.next (worked s.clearFaults _ rfl rfl rfl)
    · rw [lapseClear_exec hh hs, lapseClear_one own]
      exact congrArg Host.Outcome.next (worked (s.setQuad q { s.quad q with lapse := false }) _ rfl rfl rfl)
    · rw [lapseClear_exec hh hs, show (0xFF : Byte) = allCode from rfl, lapseClear_all own]
      exact congrArg Host.Outcome.next
        (worked { s with quads := s.quads.map (fun a => { a with lapse := false }) } _ rfl rfl rfl)
    · rw [lapseClear_exec hh hs, lapseClear_range own h.tag one out, range]
    · rw [countClear_exec hh hs, countClear_one own]
      exact congrArg Host.Outcome.next (worked (s.clearCount b) _ rfl rfl rfl)
    · rw [countClear_exec hh hs, show (0xFF : Byte) = allCode from rfl, countClear_all own]
      exact congrArg Host.Outcome.next (worked s.clearAllCounts _ rfl rfl rfl)
    · rw [countClear_exec hh hs, countClear_range own h.tag one out, range]

end Sys2Proof.Machine
end
section
/-!
SUPPORT. Every quad evaluated again at a written RECLAIM_LEVEL (R81). Where every maintenance state is one that some level gives, no quad
enters or leaves FORCED, so that an evaluation is RECLAIM notices, queue service, or the new state alone; none of these looks at the request
that is under way, so that it may as well be evaluated without it.
-/

namespace Sys2Proof.Machine

open Sys2Proof

/-! ## The evaluation of one quad (R74, R78, R80) -/

/-- The evaluation takes the quad from CURRENT to DUE. -/
abbrev State.entersDue (s : State) (q : Quad) : Prop :=
  (s.quad q).state = .current ∧ maintenanceOf s.config.reclaimLevel (s.quad q).debt = .due

/-- The evaluation takes the quad from DUE to CURRENT. -/
abbrev State.leavesDue (s : State) (q : Quad) : Prop :=
  (s.quad q).state = .due ∧ maintenanceOf s.config.reclaimLevel (s.quad q).debt = .current

section
variable {s : State} {q : Quad}

theorem evaluateQuad_entersDue (h : s.entersDue q) : s.evaluateQuad q = (s.setMaintenance q .due).reclaimQuad q := by
  unfold State.evaluateQuad
  rw [h.1, h.2]

theorem evaluateQuad_leavesDue (h : s.leavesDue q) : s.evaluateQuad q = (s.setMaintenance q .current).serveQuad q := by
  unfold State.evaluateQuad
  rw [h.1, h.2]

theorem evaluateQuad_rest (level : s.levelled) (enters : ¬ s.entersDue q) (leaves : ¬ s.leavesDue q) :
    s.evaluateQuad q = s.setMaintenance q (maintenanceOf s.config.reclaimLevel (s.quad q).debt) := by
  obtain ⟨low, states⟩ := level
  obtain ⟨level, hl, given⟩ := states q
  have forced (new : maintenanceOf s.config.reclaimLevel (s.quad q).debt = .forced) : (s.quad q).state = .forced :=
    given.trans ((maintenanceOf_forced hl _).2 ((maintenanceOf_forced low _).1 new))
  unfold State.evaluateQuad
  simp only []
  split
  case h_1 old new => exact absurd ⟨old, new⟩ enters
  case h_2 old new | h_3 old new => exact absurd (old.symm.trans (forced new)) (by decide)
  case h_4 old new => exact absurd ⟨old, new⟩ leaves
  case h_5 | h_6 | h_7 | h_8 | h_9 => rfl

end

/-! ## What an evaluation changes -/

/-- At most quad accounts, bank records, links and the order of grants differ. -/
def State.OnlyMaintains (s t : State) : Prop := t = { s with quads := t.quads, banks := t.banks, links := t.links, stamp := t.stamp }

theorem onlyMaintains_trans {s t u : State} (h1 : s.OnlyMaintains t) (h2 : t.OnlyMaintains u) : s.OnlyMaintains u := by
  unfold State.OnlyMaintains at *
  rw [h2, h1]

theorem onlyMaintains_foldl {α : Type} {f : State → α → State} {I : State → Prop} (keep : ∀ (s : State) x, I s → I (f s x))
    (only : ∀ (s : State) x, I s → s.OnlyMaintains (f s x)) : ∀ (xs : List α) {s : State}, I s → s.OnlyMaintains (xs.foldl f s)
  | [], _, _ => rfl
  | x :: xs, _, h => onlyMaintains_trans (only _ x h) (onlyMaintains_foldl keep only xs (keep _ x h))

theorem enqueue_sessions (s : State) (p : Port) (e : OutEntry) : (s.enqueue p e).sessions = s.sessions := by
  unfold State.enqueue
  split <;> rfl

theorem notify_sessions (s : State) (p : Port) (e : OutEntry) : (s.notify p e).sessions = s.sessions := by
  unfold State.notify
  split
  · exact enqueue_sessions s p e
  · rfl

theorem reclaimBank_sessions (s : State) (b : Bank) (debt : Int) : (s.reclaimBank b debt).sessions = s.sessions := by
  refine foldl_keeps (P := fun t : State => t.sessions = s.sessions) (fun t x ht => ?_) (s.bank b).holds rfl
  split
  · exact ht
  · exact (notify_sessions t _ _).trans ht

theorem reclaimQuad_sessions (s : State) (q : Quad) : (s.reclaimQuad q).sessions = s.sessions :=
  foldl_keeps (P := fun t : State => t.sessions = s.sessions) (fun t b ht => (reclaimBank_sessions t b _).trans ht) (quadBanks q) rfl

theorem reclaimQuad_maintains (s : State) (q : Quad) : s.OnlyMaintains (s.reclaimQuad q) := by
  have answers := reclaimQuad_answers s q
  have sessions := reclaimQuad_sessions s q
  unfold State.OnlyAnswers at answers
  unfold State.OnlyMaintains
  rw [answers, sessions]

theorem serveQuad_maintains (s : State) (q : Quad) : s.OnlyMaintains (s.serveQuad q) := by
  have grants := serveQuad_grants s q
  unfold State.OnlyGrants at grants
  unfold State.OnlyMaintains
  rw [grants]

theorem evaluateQuad_maintains {s : State} (level : s.levelled) (q : Quad) : s.OnlyMaintains (s.evaluateQuad q) := by
  have set (m : Maintenance) : s.OnlyMaintains (s.setMaintenance q m) := rfl
  by_cases enters : s.entersDue q
  · rw [evaluateQuad_entersDue enters]
    exact onlyMaintains_trans (set _) (reclaimQuad_maintains _ q)
  by_cases leaves : s.leavesDue q
  · rw [evaluateQuad_leavesDue leaves]
    exact onlyMaintains_trans (set _) (serveQuad_maintains _ q)
  · rw [evaluateQuad_rest level enters leaves]
    exact set _

theorem evaluateAll_maintains {s : State} (level : s.levelled) : s.OnlyMaintains s.evaluateAll :=
  onlyMaintains_foldl (fun _ q ht => evaluateQuad_levelled ht q) (fun _ q ht => evaluateQuad_maintains ht q) allFour level

/-! ## The request under way comes into none of it -/

theorem four_set_comm {α : Type} (t : Four α) {i j : Fin 4} (h : i ≠ j) (a b : α) : (t.set i a).set j b = (t.set j b).set i a := by
  refine four_ext fun k => ?_
  simp only [four_get_set]
  by_cases hi : k = i
  · subst hi
    rw [if_neg h, if_pos rfl, if_pos rfl]
  · rw [if_neg hi, if_neg hi]

/-- A change of state that does as it would without the request: the taking and the change may come in either order. -/
def Unheard (f : State → State) : Prop := ∀ (w : State) (h : Header), f (w.heard h) = (f w).heard h

theorem unheard_foldl {α : Type} {f : State → α → State} (hf : ∀ x, Unheard (fun w => f w x)) :
    ∀ xs : List α, Unheard (fun w => xs.foldl f w)
  | [], _, _ => rfl
  | x :: xs, w, h => by
    show xs.foldl f (f (w.heard h) x) = (xs.foldl f (f w x)).heard h
    rw [show f (w.heard h) x = (f w x).heard h from hf x w h]
    exact unheard_foldl hf xs (f w x) h

theorem heard_link (w : State) (h : Header) (p : Port) : (w.heard h).link p =
    if p = h.port then { w.link p with expectedSeq := (w.link p).expectedSeq + 1 } else w.link p := by
  by_cases hp : p = h.port
  · rw [if_pos hp, hp, heard_link_same]
  · rw [if_neg hp]
    exact link_setLink_ne w _ hp

theorem heard_answerable (w : State) (h : Header) (p : Port) : (w.heard h).answerable p = w.answerable p := by
  refine answerable_congr ?_
  by_cases hp : p = h.port
  · rw [hp, heard_session_same]
  · exact congrArg Session.state (session_setSession_ne _ _ hp)

theorem enqueue_unheard (p : Port) (e : OutEntry) : Unheard (fun w => w.enqueue p e) := fun w h => by
  show (w.heard h).enqueue p e = (w.enqueue p e).heard h
  unfold State.enqueue
  rw [heard_link]
  by_cases hp : p = h.port
  · subst hp
    rw [if_pos rfl]
    split <;> simp [State.heard, State.setLink, State.setSession, State.link, State.session]
  · rw [if_neg hp]
    split
    · simp [State.heard, State.setLink, State.setSession, State.link, State.session, four_set_comm _ hp, four_get_set_ne _ _ (Ne.symm hp)]
    · rfl

theorem notify_unheard (p : Port) (e : OutEntry) : Unheard (fun w => w.notify p e) := fun w h => by
  show (w.heard h).notify p e = (w.notify p e).heard h
  unfold State.notify
  rw [heard_answerable]
  split
  · exact enqueue_unheard p e w h
  · rfl

theorem reclaimBank_unheard (b : Bank) (debt : Int) : Unheard (fun w => w.reclaimBank b debt) := fun w h => by
  refine unheard_foldl (f := fun t x => if x.revokePending then t else t.notify x.port (.reclaim b (w.bank b).openRow debt 1))
    (fun x w' h => ?_) (w.bank b).holds w h
  show (if _ then _ else _) = _
  split
  · rfl
  · exact notify_unheard _ _ w' h

theorem reclaimQuad_unheard (q : Quad) : Unheard (fun w => w.reclaimQuad q) := fun w h =>
  unheard_foldl (f := fun t b => t.reclaimBank b (w.quad q).debt) (fun b => reclaimBank_unheard b _) (quadBanks q) w h

theorem serveBank_unheard (b : Bank) : Unheard (fun w => w.serveBank b) := fun w h => by
  show (w.heard h).serveBank b = (w.serveBank b).heard h
  have bank : (w.heard h).bank b = w.bank b := rfl
  have grantable : (w.heard h).grantable (groupOf b) = w.grantable (groupOf b) := rfl
  have config : (w.heard h).config = w.config := rfl
  unfold State.serveBank
  rw [bank, grantable, config]
  by_cases offered : (w.bank b).phase = .closed ∧ w.grantable (groupOf b) = true
  · rw [if_pos offered, if_pos offered]
    cases chooseEntry w.config.grantPolicy (w.bank b).lastGranted (w.bank b).waitQueue <;> rfl
  · rw [if_neg offered, if_neg offered]

theorem serveQuad_unheard (q : Quad) : Unheard (fun w => w.serveQuad q) := unheard_foldl serveBank_unheard (quadBanks q)

theorem evaluateQuad_heard {w : State} (level : w.levelled) (q : Quad) (h : Header) :
    (w.heard h).evaluateQuad q = (w.evaluateQuad q).heard h := by
  by_cases enters : w.entersDue q
  · rw [evaluateQuad_entersDue enters, evaluateQuad_entersDue (s := w.heard h) enters]
    exact reclaimQuad_unheard q (w.setMaintenance q .due) h
  by_cases leaves : w.leavesDue q
  · rw [evaluateQuad_leavesDue leaves, evaluateQuad_leavesDue (s := w.heard h) leaves]
    exact serveQuad_unheard q (w.setMaintenance q .current) h
  · rw [evaluateQuad_rest level enters leaves, evaluateQuad_rest (s := w.heard h) level enters leaves]
    rfl

theorem evaluateAll_heard {w : State} (level : w.levelled) (h : Header) : (w.heard h).evaluateAll = w.evaluateAll.heard h := by
  have all (qs : List Quad) : ∀ w : State, w.levelled →
      qs.foldl (fun t q => t.evaluateQuad q) (w.heard h) = (qs.foldl (fun t q => t.evaluateQuad q) w).heard h := by
    induction qs with
    | nil => exact fun _ _ => rfl
    | cons q qs ih =>
      intro w level
      rw [List.foldl_cons, List.foldl_cons, evaluateQuad_heard level]
      exact ih _ (evaluateQuad_levelled level q)
  exact all allFour w level

theorem refreshChoice_unheard : Unheard State.refreshChoice := fun w h => by
  have run : (w.heard h).refresh = w.refresh := rfl
  have pick : (w.heard h).refreshPick = w.refreshPick := rfl
  unfold State.refreshChoice
  rw [run, pick]
  cases w.refresh with
  | some r => rfl
  | none => cases w.refreshPick <;> rfl

end Sys2Proof.Machine
end
section
/-!
SUPPORT. After every quad has been evaluated: each bank by the evaluation of its own quad, and the notices to each port, bank by bank
(R78, R80, R81).
-/

namespace Sys2Proof.Machine

open Sys2Proof

/-! ## The evaluation of its own quad, seen at a bank -/

section
variable {s : State} {b : Bank}

theorem evaluateQuad_served {w : WaitEntry} (leaves : s.leavesDue (groupOf b)) (cleared : s.cleared (groupOf b) = true)
    (closed : (s.bank b).phase = .closed) (first : s.servedFirst b w) :
    (s.bank b).grantedTo ((s.evaluateQuad (groupOf b)).bank b) w s.now := by
  rw [evaluateQuad_leavesDue leaves]
  exact serveQuad_served (s := s.setMaintenance (groupOf b) .current) rfl closed cleared
    (congrArg QuadAccount.state (quad_setQuad_same s _ _)) first

/-- A bank whose quad does not return from DUE to CURRENT, or that queue service leaves as it is, is left as it is. -/
theorem evaluateQuad_unserved (level : s.levelled) (h : ¬ s.leavesDue (groupOf b) ∨ s.cleared (groupOf b) = false
    ∨ (s.bank b).phase ≠ .closed ∨ (s.bank b).waitQueue = []) : (s.evaluateQuad (groupOf b)).bank b = s.bank b := by
  by_cases enters : s.entersDue (groupOf b)
  · rw [evaluateQuad_entersDue enters]
    exact onlyAnswers_bank (reclaimQuad_answers _ _) b
  by_cases leaves : s.leavesDue (groupOf b)
  · rw [evaluateQuad_leavesDue leaves]
    rcases h.resolve_left (not_not.2 leaves) with h | h | h
    · exact serveQuad_unserved (s := s.setMaintenance (groupOf b) .current) rfl (Or.inr (Or.inl h))
    · obtain ⟨u, -, same, served⟩ := serveQuad_bank_mem (s.setMaintenance (groupOf b) .current) (b := b) rfl
      rw [served, serveBank_not_closed (by rw [same]; exact h), same]
      rfl
    · exact serveQuad_unserved (s := s.setMaintenance (groupOf b) .current) rfl (Or.inl h)
  · rw [evaluateQuad_rest level enters leaves]
    rfl

end

/-! ## Between the evaluations of the other quads -/

theorem evaluateQuad_sparesQuad (s : State) {r q : Quad} (hr : r ≠ q) : s.SparesQuad (s.evaluateQuad r) q := by
  obtain ⟨-, mode, -⟩ := onlyHolds_keeps (evaluateQuad_holds s r)
  exact ⟨(evaluateQuad_quad s r q).trans (if_neg (Ne.symm hr)), mode, evaluateQuad_config s r,
    fun b hb => evaluateQuad_bank_ne s (by rw [hb]; exact Ne.symm hr), evaluateQuad_spares s hr⟩

theorem evaluateAll_split {s : State} (level : s.levelled) (q : Quad) : ∃ u, s.SparesQuad u q ∧ u.now = s.now ∧ u.levelled
    ∧ (u.evaluateQuad q).SparesQuad s.evaluateAll q := by
  have all (rs : List Quad) : q ∉ rs → ∀ u : State, u.SparesQuad (rs.foldl (fun s r => s.evaluateQuad r) u) q := by
    induction rs with
    | nil => exact fun _ u => sparesQuad_refl u q
    | cons r rs ih =>
      intro hq u
      obtain ⟨hr, hrs⟩ := not_or.1 (mt List.mem_cons.2 hq)
      exact sparesQuad_trans (evaluateQuad_sparesQuad u (Ne.symm hr)) (ih hrs _)
  obtain ⟨before, after, hsplit, hbefore, hafter⟩ := allFour_split q
  refine ⟨before.foldl (fun s r => s.evaluateQuad r) s, all before (fun h => lt_irrefl q (hbefore q h)) s,
    (keepsStore_foldl evaluateQuad_store before s).1,
    foldl_keeps (P := State.levelled) (fun _ r ht => evaluateQuad_levelled ht r) before level, ?_⟩
  unfold State.evaluateAll
  rw [hsplit, List.foldl_append, List.foldl_cons]
  exact all after (fun h => lt_irrefl q (hafter q h)) _

section
variable {s : State} (level : s.levelled) {b : Bank}
include level

theorem evaluateAll_served {w : WaitEntry} (leaves : s.leavesDue (groupOf b)) (cleared : s.cleared (groupOf b) = true)
    (closed : (s.bank b).phase = .closed) (first : s.servedFirst b w) :
    (s.bank b).grantedTo (s.evaluateAll.bank b) w s.now := by
  obtain ⟨u, spares, now, -, rest⟩ := evaluateAll_split level (groupOf b)
  have bank := spares.bank b rfl
  rw [rest.bank b rfl, ← bank, ← now]
  refine evaluateQuad_served ?_ ?_ (bank ▸ closed) ?_
  · unfold State.leavesDue
    rw [spares.quad, spares.config]
    exact leaves
  · unfold State.cleared State.clearState
    rw [spares.modeCtl]
    exact cleared
  · unfold State.servedFirst
    rw [bank, spares.config]
    exact first

theorem evaluateAll_unserved (h : ¬ s.leavesDue (groupOf b) ∨ s.cleared (groupOf b) = false
    ∨ (s.bank b).phase ≠ .closed ∨ (s.bank b).waitQueue = []) : s.evaluateAll.bank b = s.bank b := by
  obtain ⟨u, spares, -, levelled, rest⟩ := evaluateAll_split level (groupOf b)
  have bank := spares.bank b rfl
  rw [rest.bank b rfl, evaluateQuad_unserved levelled, bank]
  unfold State.leavesDue State.cleared State.clearState
  rw [spares.quad, spares.config, spares.modeCtl, bank]
  exact h

end

/-! ## The notices (R78) -/

/-- The notices to a port for one bank at an evaluation of its quad. -/
def State.dueNotices (s : State) (p : Port) (b : Bank) : List OutEntry :=
  if s.entersDue (groupOf b) then s.reclaims b (s.quad (groupOf b)).debt p else []

theorem dueNotices_congr {s t : State} {q : Quad} (spares : s.SparesQuad t q) {p : Port}
    (answerable : t.answerable p = s.answerable p) : (quadBanks q).flatMap (t.dueNotices p) = (quadBanks q).flatMap (s.dueNotices p) := by
  refine List.flatMap_congr fun b hb => ?_
  obtain rfl := (mem_quadBanks q b).1 hb
  unfold State.dueNotices State.entersDue
  rw [spares.quad, spares.config, reclaims_congr (spares.bank b rfl) answerable]

theorem evaluateQuad_posted {s : State} (level : s.levelled) (q : Quad) (p : Port) :
    s.Posted (s.evaluateQuad q) p ((quadBanks q).flatMap (s.dueNotices p)) := by
  have none (enters : ¬ s.entersDue q) : (quadBanks q).flatMap (s.dueNotices p) = [] := by
    refine List.flatMap_eq_nil_iff.2 fun b hb => if_neg ?_
    rw [(mem_quadBanks q b).1 hb]
    exact enters
  by_cases enters : s.entersDue q
  · have own : (quadBanks q).flatMap (s.dueNotices p) = (quadBanks q).flatMap (fun b =>
        (s.setMaintenance q .due).reclaims b ((s.setMaintenance q .due).quad q).debt p) := by
      refine List.flatMap_congr fun b hb => ?_
      obtain rfl := (mem_quadBanks q b).1 hb
      rw [show (s.setMaintenance (groupOf b) .due).quad (groupOf b) = _ from quad_setQuad_same s _ _]
      exact if_pos enters
    rw [evaluateQuad_entersDue enters, own]
    exact posted_beginning (reclaimQuad_posted _ q p) rfl rfl
  rw [none enters]
  by_cases leaves : s.leavesDue q
  · rw [evaluateQuad_leavesDue leaves]
    have served := serveQuad_grants (s.setMaintenance q .current) q
    unfold State.OnlyGrants at served
    exact posted_of_eq (by rw [served]; rfl) (by rw [served]; rfl)
  · rw [evaluateQuad_rest level enters leaves]
    exact posted_of_eq rfl rfl

theorem evaluateAll_posted {s : State} (level : s.levelled) (p : Port) :
    s.Posted s.evaluateAll p (allBanks.flatMap (s.dueNotices p)) := by
  have all (qs : List Quad) : qs.Nodup → ∀ t : State, t.levelled → t.answerable p = s.answerable p →
      (∀ q ∈ qs, s.SparesQuad t q) →
      t.Posted (qs.foldl (fun t q => t.evaluateQuad q) t) p (qs.flatMap fun q => (quadBanks q).flatMap (s.dueNotices p)) := by
    induction qs with
    | nil => exact fun _ t _ _ _ => posted_refl t p
    | cons q qs ih =>
      intro nodup t levelled answerable spares
      obtain ⟨hq, nodup⟩ := List.nodup_cons.1 nodup
      have one := evaluateQuad_posted levelled q p
      rw [List.flatMap_cons, ← dueNotices_congr (spares q List.mem_cons_self) answerable]
      refine posted_trans one (ih nodup _ (evaluateQuad_levelled levelled q) ((posted_answerable one).trans answerable) ?_)
      exact fun r hr => sparesQuad_trans (spares r (List.mem_cons_of_mem _ hr))
        (evaluateQuad_sparesQuad t fun e => hq (e ▸ hr))
  have banks : allBanks = allFour.flatMap quadBanks := rfl
  rw [banks, List.flatMap_assoc]
  exact all allFour (by decide) s level rfl fun q _ => sparesQuad_refl s q

/-- The notices of a bank are one for each unmarked record of the port (R78). -/
theorem reclaims_answerable {s : State} {p : Port} (h : s.answerable p = true) (b : Bank) (debt : Int) : s.reclaims b debt p =
    ((s.bank b).holds.filter (fun x => x.port == p && !x.revokePending)).map (fun _ => .reclaim b (s.bank b).openRow debt 1) := by
  unfold State.reclaims
  induction (s.bank b).holds with
  | nil => rfl
  | cons x holds ih =>
    rw [List.flatMap_cons, ih, List.filter_cons]
    by_cases hp : x.port = p <;> cases hr : x.revokePending <;> simp [h, hp]

theorem answerable_iff (s : State) (p : Port) :
    s.answerable p = true ↔ (s.session p).state = .attached ∨ (s.session p).state = .detaching := by
  unfold State.answerable
  cases (s.session p).state <;> simp

theorem reclaims_silent {s : State} {p : Port} (h : s.answerable p = false) (b : Bank) (debt : Int) : s.reclaims b debt p = [] := by
  unfold State.reclaims
  rw [h]
  simp

end Sys2Proof.Machine
end
section
/-!
SUPPORT. CFG_WRITE applied: the value in force, the effects of the write, and the OK after them (R75, R81, R95, R152 to R155).
-/

namespace Sys2Proof.Machine

open Sys2Proof

/-! ## A value in force (R152) -/

theorem flagCode_beq (b : Bool) : (flagCode b == 1) = b := by cases b <;> rfl

theorem flagCode_eq {v : Nat} (h : v ≤ 1) (b : Bool) : flagCode b = v ↔ b = (v == 1) := by
  obtain rfl | rfl : v = 0 ∨ v = 1 := by omega
  · cases b <;> decide
  · cases b <;> decide

/-- A write of the value in force leaves the table as it is. -/
theorem setItem_value (c : ConfigTable) (i : Item) : c.setItem i (c.value i) = c := by
  cases i with
  | retentionInterval | reclaimLevel => rfl
  | pullIn q => simp [ConfigTable.setItem, ConfigTable.value, flagCode_beq]
  | holdQuota p => simp [ConfigTable.setItem, ConfigTable.value]
  | grantPolicy =>
    have same : (if c.grantPolicy.code = 1 then GrantPolicy.rotating else .arrival) = c.grantPolicy := by
      cases c.grantPolicy <;> rfl
    exact congrArg (fun g => { c with grantPolicy := g }) same
  | idleEntry => simp [ConfigTable.setItem, ConfigTable.value, flagCode_beq]

section
variable {s : State} {i : Item} {v : Nat}

theorem applyItem_same (h : s.config.value i = v) : s.applyItem i v = s := if_pos h

theorem applyItem_new (h : s.config.value i ≠ v) : s.applyItem i v = (s.setItem i v).itemEffect i := if_neg h

/-- The item has no effect in the write's event (R153). -/
theorem applyItem_quiet (quiet : ∀ t : State, t.itemEffect i = t) : s.applyItem i v = s.setItem i v := by
  by_cases h : s.config.value i = v
  · rw [applyItem_same h, ← h]
    unfold State.setItem
    rw [setItem_value]
  · rw [applyItem_new h, quiet]

end

/-! ## The OK (R152) -/

section
variable {s : State} {h : Header} (hh : s.hears h) (hs : (s.session h.port).state = .attached)
include hh hs

section
variable {c : Instr} {code index value : Byte} (hr : requestOf c = some (h, .cfgWrite code index value)) {i : Item}
  (hi : itemOf code index = some i) (passed : s.cfgRefusal h.port (some i) value.toNat = none)
include hr hi passed

theorem cfgWrite_passed : exec c s = .next
    (if i = .idleEntry then
      (((s.taken h).applyItem i value.toNat).answer h.port h.tag (.ok (.cfgWrite i.code i.index value.toNat))).enterRetention
    else ((s.taken h).applyItem i value.toNat).answer h.port h.tag (.ok (.cfgWrite i.code i.index value.toNat))) := by
  have passed : (s.taken h).cfgRefusal h.port (some i) value.toNat = none := passed
  rw [cfgWrite_exec hh hs hr, State.cfgWrite, hi, passed]

/-- A write without effect beyond its item; the response that waits keeps the part out of retention mode (R155, R169). -/
theorem cfgWrite_quiet (quiet : ∀ t : State, t.itemEffect i = t) : exec c s = .next
    ((s.setItem i value.toNat).answered h false (.ok (.cfgWrite i.code i.index value.toNat))) := by
  have answered : ((s.taken h).setItem i value.toNat).answer h.port h.tag (.ok (.cfgWrite i.code i.index value.toNat)) =
      (s.setItem i value.toNat).answered h false (.ok (.cfgWrite i.code i.index value.toNat)) :=
    worked_answer (w := (s.setItem i value.toNat).countRequest) hh rfl rfl rfl
  rw [cfgWrite_passed hh hs hr hi passed, applyItem_quiet quiet, answered, answered_enterRetention, ite_self]

end

variable (own : s.config.maintainer = some h.port)
include own

/-- PULL_IN lets the refresh arbiter choose (R95). -/
theorem cfgWrite_pullIn {value : Byte} (q : Quad) (range : value.toNat ≤ 1) :
    exec (.cfgWritePullIn h (BitVec.ofNat 8 q.val) value) s = .next
      (((if s.config.pullIn.get q = (value.toNat == 1) then s.countRequest
          else ({ s.countRequest with config := { s.config with pullIn := s.config.pullIn.set q (value.toNat == 1) } }
            : State).refreshChoice) : State).replied h false (.ok (.cfgWrite 0x03 (BitVec.ofNat 8 q.val) value.toNat))) := by
  rw [cfgWrite_passed hh hs rfl (itemOf_pullIn q) (cfgRefusal_passed own (decide_eq_true range) rfl), if_neg (by simp)]
  refine congrArg Host.Outcome.next ?_
  have same : (s.taken h).config.value (.pullIn q) = value.toNat ↔ s.config.pullIn.get q = (value.toNat == 1) :=
    flagCode_eq range (s.config.pullIn.get q)
  by_cases inForce : s.config.pullIn.get q = (value.toNat == 1)
  · rw [if_pos inForce, applyItem_same (same.2 inForce)]
    exact worked_answer (w := s.countRequest) hh rfl rfl rfl
  · rw [if_neg inForce, applyItem_new (mt same.1 inForce)]
    have chosen : ((s.taken h).setItem (.pullIn q) value.toNat).itemEffect (.pullIn q) =
        (s.countRequest.setItem (.pullIn q) value.toNat).refreshChoice.heard h :=
      refreshChoice_unheard (s.countRequest.setItem (.pullIn q) value.toNat) h
    rw [chosen]
    exact worked_answer (w := (s.countRequest.setItem (.pullIn q) value.toNat).refreshChoice) hh (refreshChoice_links _)
      (refreshChoice_sessions _) rfl

/-! ## RECLAIM_LEVEL written (R81) -/

theorem cfgWrite_level_same {value : Byte} (low : 1 ≤ value.toNat) (high : value.toNat ≤ 11)
    (same : s.config.reclaimLevel = value.toNat) :
    exec (.cfgWriteReclaimLevel h value) s = .next (s.answered h false (.ok (.cfgWrite 0x02 0 value.toNat))) := by
  have range : Item.reclaimLevel.inRange value.toNat = true := by simp [Item.inRange, low, high]
  rw [cfgWrite_passed hh hs rfl (i := .reclaimLevel) rfl (cfgRefusal_passed own range rfl), if_neg (by simp),
    applyItem_same (s := s.taken h) (i := .reclaimLevel) same]
  exact congrArg Host.Outcome.next (taken_answer hh rfl)

theorem cfgWrite_level {value : Byte} (low : 1 ≤ value.toNat) (high : value.toNat ≤ 11)
    (new : s.config.reclaimLevel ≠ value.toNat) : exec (.cfgWriteReclaimLevel h value) s = .next
      (((s.taken h).setItem .reclaimLevel value.toNat).evaluateAll.refreshChoice.answer h.port h.tag
        (.ok (.cfgWrite 0x02 0 value.toNat))) := by
  have range : Item.reclaimLevel.inRange value.toNat = true := by simp [Item.inRange, low, high]
  rw [cfgWrite_passed hh hs rfl (i := .reclaimLevel) rfl (cfgRefusal_passed own range rfl), if_neg (by simp),
    applyItem_new (s := s.taken h) (i := .reclaimLevel) new]
  rfl

end

/-! ## Every quad evaluated at a new level (R81) -/

theorem evaluateAll_modeCtl (s : State) : s.evaluateAll.modeCtl = s.modeCtl :=
  foldl_keeps (P := fun t : State => t.modeCtl = s.modeCtl) (fun t q ht => by
    obtain ⟨-, mode, -⟩ := onlyHolds_keeps (evaluateQuad_holds t q)
    exact mode.trans ht) allFour rfl

/-- What is known of every state after a new RECLAIM_LEVEL: the accounts, and the OK at the end of the port's queue. -/
theorem evaluated_answer {s u : State} {h : Header} (hh : s.hears h) (links : u.links = (s.taken h).links)
    {a : Answer} : let t := u.evaluateAll.refreshChoice.answer h.port h.tag a
    t.config = u.config ∧ t.modeCtl = u.modeCtl ∧ u.KeepsStore t
      ∧ (∀ q, t.quad q = { u.quad q with state := maintenanceOf u.config.reclaimLevel (u.quad q).debt })
      ∧ ∃ before, (t.link h.port).queue = before ++ [.response h.tag a] := by
  have up : ((u.evaluateAll.refreshChoice).link h.port).up = true := by
    obtain ⟨es, posted⟩ := evaluateAll_entries u h.port
    have before : (u.link h.port).up = true := by
      unfold State.link
      rw [links]
      exact (congrArg Link.up (heard_link_same s.countRequest h)).trans hh.2.1
    unfold State.link
    rw [refreshChoice_links]
    exact (congrArg Link.up posted).trans before
  obtain ⟨-, mode, -, quads, -, -, -, config, -⟩ :=
    onlyHolds_keeps (onlyHolds_of_answers (answer_answers u.evaluateAll.refreshChoice h.port h.tag a))
  refine ⟨?_, ?_, ?_, fun q => ?_, ?_⟩
  · rw [config, refreshChoice_config, evaluateAll_config]
  · rw [mode, refreshChoice_modeCtl]
    exact evaluateAll_modeCtl u
  · exact keepsStore_trans (keepsStore_trans (evaluateAll_store u) (refreshChoice_store _)) (answer_store _ _ _ _)
  · unfold State.quad
    rw [quads, refreshChoice_quads]
    exact evaluateAll_quad u q
  · rw [answer_up up, setSession_link, link_setLink_same]
    exact ⟨_, rfl⟩

section
variable {s : State} {h : Header} (law : s.maintenanceLaw) {v : Nat} (range : v ≤ 11)
include law range

theorem written_levelled : (s.countRequest.setItem .reclaimLevel v).levelled :=
  ⟨range, fun q => ⟨s.config.reclaimLevel, law.1.2, law.2 q⟩⟩

/-- The request under way is answered as though it had come after the evaluation and the refresh arbiter's choice. -/
theorem evaluated_replied (hh : s.hears h) {a : Answer} (final : a.tagAfter = .free) :
    ((s.taken h).setItem .reclaimLevel v).evaluateAll.refreshChoice.answer h.port h.tag a =
      (s.countRequest.setItem .reclaimLevel v).evaluateAll.refreshChoice.replied h false a := by
  have levelled := written_levelled law range
  have taken : ((s.taken h).setItem .reclaimLevel v).evaluateAll = (s.countRequest.setItem .reclaimLevel v).evaluateAll.heard h :=
    evaluateAll_heard levelled h
  have sessions : (s.countRequest.setItem .reclaimLevel v).evaluateAll.sessions = s.sessions := by
    rw [evaluateAll_maintains levelled]
    rfl
  obtain ⟨es, entries⟩ := evaluateAll_entries (s.countRequest.setItem .reclaimLevel v) h.port
  rw [taken, refreshChoice_unheard]
  refine heard_answer ?_ ?_ final
  · unfold State.link
    rw [refreshChoice_links]
    exact (congrArg Link.up entries).trans hh.2.1
  · unfold State.session
    rw [refreshChoice_sessions, sessions]
    exact tag_free_of_hears hh

/-- The notices of a new level, port by port (R78). -/
theorem evaluated_queue (p : Port) : ((s.countRequest.setItem .reclaimLevel v).evaluateAll.link p).queue =
    ((if ((s.session p).state = .attached ∨ (s.session p).state = .detaching) ∧ (s.link p).up = true then allBanks
      else []).flatMap (fun b =>
        if (s.quad (groupOf b)).state = .current ∧ maintenanceOf v (s.quad (groupOf b)).debt = .due then
          ((s.bank b).holds.filter (fun x => x.port == p && !x.revokePending)).map (fun _ =>
            .reclaim b (s.bank b).openRow (s.quad (groupOf b)).debt 1)
        else [])).foldl placeEntry (s.link p).queue := by
  have posted := evaluateAll_posted (written_levelled law range) p
  have answerable : (s.countRequest.setItem .reclaimLevel v).answerable p = true ↔
      (s.session p).state = .attached ∨ (s.session p).state = .detaching := answerable_iff s p
  have link : (s.countRequest.setItem .reclaimLevel v).link p = s.link p := rfl
  rw [posted.1, link, Link.posted]
  by_cases up : (s.link p).up = true
  · rw [if_pos up]
    refine congrArg (fun es : List OutEntry => es.foldl placeEntry (s.link p).queue) ?_
    by_cases heard : (s.session p).state = .attached ∨ (s.session p).state = .detaching
    · rw [if_pos ⟨heard, up⟩]
      refine List.flatMap_congr fun b _ => ?_
      unfold State.dueNotices
      rw [reclaims_answerable (answerable.2 heard)]
      rfl
    · rw [if_neg fun both => heard both.1]
      refine List.flatMap_eq_nil_iff.2 fun b _ => ?_
      unfold State.dueNotices
      rw [reclaims_silent (Bool.eq_false_iff.2 (mt answerable.1 heard)), ite_self]
  · rw [if_neg up, if_neg fun both => up both.2]
    rfl

end

/-- Settles O51: a write that passed its checks is its item set, then the item's effects, then the OK. Under the maintenance law no quad
enters or leaves FORCED at a new RECLAIM_LEVEL, so that its effects are notices and grants. -/
theorem cfgWriteTakesEffect : Obligations.CfgWriteTakesEffect := by
  unfold Obligations.CfgWriteTakesEffect
  rintro s h value v hh hs own rfl
  have passed {i : Item} (range : i.inRange value.toNat = true) (free : s.quotaInUse i value.toNat = false) :=
    cfgRefusal_passed own range free
  refine ⟨fun low high => ?_, fun p low high use => ?_, fun high => ?_, fun high => ?_, fun q high => ?_, fun same low high => ?_,
    fun new low high => ?_⟩
  · exact cfgWrite_quiet hh hs rfl (i := .retentionInterval) rfl (passed (by simp [Item.inRange, low, high]) rfl) fun _ => rfl
  · exact cfgWrite_quiet hh hs rfl (itemOf_holdQuota p)
      (passed (by simp [Item.inRange, low, high]) (decide_eq_false (not_lt.2 use))) fun _ => rfl
  · exact cfgWrite_quiet hh hs rfl (i := .grantPolicy) rfl (passed (decide_eq_true high) rfl) fun _ => rfl
  · exact cfgWrite_quiet hh hs rfl (i := .idleEntry) rfl (passed (decide_eq_true high) rfl) fun _ => rfl
  · exact cfgWrite_pullIn hh hs own q high
  · exact cfgWrite_level_same hh hs own low high same
  · obtain ⟨config, mode, store, quads, queue⟩ := evaluated_answer hh (u := (s.taken h).setItem .reclaimLevel value.toNat) rfl
      (a := .ok (.cfgWrite 0x02 0 value.toNat))
    refine ⟨_, cfgWrite_level hh hs own low high new, config, quads, queue, keepsStore_trans ⟨rfl, rfl, rfl, rfl, rfl⟩ store, mode,
      fun law => ⟨(s.countRequest.setItem .reclaimLevel value.toNat).evaluateAll, evaluated_replied law high hh rfl,
        evaluateAll_maintains (written_levelled law high), fun p => ?_, evaluated_queue law high, fun b => ⟨?_, fun rest => ?_⟩⟩⟩
    · obtain ⟨es, entries⟩ := evaluateAll_entries (s.countRequest.setItem .reclaimLevel value.toNat) p
      rw [entries]
      rfl
    · exact fun due current cleared closed w first =>
        evaluateAll_served (written_levelled law high) ⟨due, current⟩ cleared closed first
    · refine evaluateAll_unserved (written_levelled law high) ?_
      rcases rest with notDue | notCurrent | rest
      · exact Or.inl fun leaves => notDue leaves.1
      · exact Or.inl fun leaves => notCurrent leaves.2
      · exact Or.inr rest

end Sys2Proof.Machine
end
section
/-!
SUPPORT. The records of INSPECT, piece by piece (R22, R72, R101, R115, R150, R160 to R162, section 11.4).
-/

namespace Sys2Proof.Machine

open Sys2Proof

/-! ## Lists by stamp (R22) -/

theorem insertBy_sorted {α : Type} (stampOf : α → Nat) (x : α) : ∀ xs : List α, xs.Pairwise (fun y z => stampOf y ≤ stampOf z) →
    (insertBy stampOf x xs).Pairwise (fun y z => stampOf y ≤ stampOf z)
  | [], _ => List.pairwise_singleton _ x
  | y :: ys, h => by
    obtain ⟨first, rest⟩ := List.pairwise_cons.1 h
    unfold insertBy
    split
    · next hx =>
      refine List.pairwise_cons.2 ⟨fun z hz => ?_, h⟩
      rcases List.mem_cons.1 hz with rfl | hz
      · exact hx
      · exact hx.trans (first z hz)
    · next hx =>
      refine List.pairwise_cons.2 ⟨fun z hz => ?_, insertBy_sorted stampOf x ys rest⟩
      rcases List.mem_cons.1 ((insertBy_perm stampOf x ys).mem_iff.1 hz) with rfl | hz
      · exact (not_le.1 hx).le
      · exact first z hz

theorem sortBy_sorted {α : Type} (stampOf : α → Nat) :
    ∀ xs : List α, (sortBy stampOf xs).Pairwise (fun y z => stampOf y ≤ stampOf z)
  | [] => List.Pairwise.nil
  | x :: xs => insertBy_sorted stampOf x _ (sortBy_sorted stampOf xs)

/-- Where the stamps differ, there is one order by them. -/
theorem sortBy_eq {α : Type} {stampOf : α → Nat} {xs ys : List α} (same : ys.Perm xs)
    (rising : ys.Pairwise (fun y z => stampOf y < stampOf z)) : sortBy stampOf xs = ys := by
  have distinct : (ys.map stampOf).Nodup := List.pairwise_map.2 (rising.imp fun h => h.ne)
  have perm : (sortBy stampOf xs).Perm ys := (sortBy_perm stampOf xs).trans same.symm
  refine perm.eq_of_pairwise (fun y z hy hz hle hge => ?_) (sortBy_sorted stampOf xs) (rising.imp fun h => h.le)
  exact List.inj_on_of_nodup_map distinct (perm.mem_iff.1 hy) hz (le_antisymm hle hge)

/-! ## Codes and small fields (R179) -/

theorem highByte_ofNat (n : Nat) (h : n < 65536) : highByte (BitVec.ofNat 16 n) = BitVec.ofNat 8 (n / 256) := by
  refine BitVec.eq_of_toNat_eq ?_
  simp only [highByte, BitVec.extractLsb'_toNat, BitVec.toNat_ofNat, Nat.shiftRight_eq_div_pow]
  omega

theorem lowByte_ofNat (n : Nat) : lowByte (BitVec.ofNat 16 n) = BitVec.ofNat 8 n := by
  refine BitVec.eq_of_toNat_eq ?_
  simp only [lowByte, BitVec.extractLsb'_toNat, BitVec.toNat_ofNat, Nat.shiftRight_zero]
  omega

theorem rowBytes_eq (r : Row) : rowBytes r = [BitVec.ofNat 8 (r.val / 256), BitVec.ofNat 8 r.val] := by
  unfold rowBytes
  rw [highByte_ofNat r.val (by omega), lowByte_ofNat]

theorem rowOptBytes_eq (r : Option Row) : rowOptBytes r =
    match r with
    | some r => [BitVec.ofNat 8 (r.val / 256), BitVec.ofNat 8 r.val]
    | none => [0xFF, 0xFF] := by
  cases r with
  | none => rfl
  | some r => exact rowBytes_eq r

theorem upgradeByte_eq (o : Option PendingUpgrade) : portOptByte (o.map (fun u => u.port)) =
    match o with
    | some u => BitVec.ofNat 8 u.port.val
    | none => 0xFF := by
  cases o <;> rfl

theorem refreshByte_eq (o : Option RefreshRun) : portOptByte (o.map (fun r => r.quad)) =
    match o with
    | some r => BitVec.ofNat 8 r.quad.val
    | none => 0xFF := by
  cases o <;> rfl

theorem modeByte_eq (m : HoldMode) : modeByte m = if m = .exclusive then 1 else 0 := by cases m <;> rfl

/-- A flag for the exclusive mode, and one for a field that is present. -/
theorem flagBit_exclusive (m : HoldMode) (bit : Nat) : flagBit (m == .exclusive) bit = if m = .exclusive then 2 ^ bit else 0 := by
  cases m <;> rfl

theorem flagBit_present {α : Type} (o : Option α) (bit : Nat) [Decidable (o ≠ none)] :
    flagBit o.isSome bit = if o ≠ none then 2 ^ bit else 0 := by
  cases o with
  | none => exact (if_neg (by simp)).symm
  | some x => exact (if_pos (by simp)).symm

/-! ## SELF -/

theorem sixteenGet_quadBank {α : Type} (t : Sixteen α) (i j : Fin 4) : sixteenGet t (quadBank i j) = (t.get i).get j := by
  have place : groupOf (quadBank i j) = i ∧ laneOf (quadBank i j) = j := by
    revert i j
    decide
  unfold sixteenGet
  rw [place.1, place.2]

/-- The four tag bytes: tag 4i + j in bits 2j of byte i (11.4). -/
theorem tagsBytes_eq (t : Sixteen TagState) : t.toList.map tagsByte =
    allFour.map (fun i => BitVec.ofNat 8 ((allFour.map (fun j => (sixteenGet t (quadBank i j)).code * 4 ^ j.val)).sum)) := by
  have one (f : Four TagState) : tagsByte f = BitVec.ofNat 8 ((allFour.map (fun j => (f.get j).code * 4 ^ j.val)).sum) := by
    refine congrArg (BitVec.ofNat 8) ?_
    simp only [allFour, List.map_cons, List.map_nil, List.sum_cons, List.sum_nil]
    show _ = f.q0.code * 4 ^ 0 + (f.q1.code * 4 ^ 1 + (f.q2.code * 4 ^ 2 + (f.q3.code * 4 ^ 3 + 0)))
    omega
  simp only [sixteenGet_quadBank]
  exact congrArg₂ List.cons (one t.q0) (congrArg₂ List.cons (one t.q1) (congrArg₂ List.cons (one t.q2)
    (congrArg₂ List.cons (one t.q3) rfl)))

theorem upgradeOn_iff (s : State) (p : Port) (b : Bank) :
    s.upgradeOn p b = true ↔ (s.bank b).upgrade.map (fun y => y.port) = some p := by
  unfold State.upgradeOn
  cases (s.bank b).upgrade <;> simp

theorem selfHold_eq (s : State) (p : Port) (x : Bank × HoldRecord) : s.selfHold p x =
    BitVec.ofNat 8 x.1.val :: rowOptBytes (s.bank x.1).row
      ++ [BitVec.ofNat 8 ((if x.2.mode = .exclusive then 1 else 0) + (if x.2.releasing = true then 2 else 0)
        + (if x.2.revokePending = true then 4 else 0) + (if x.2.openTag ≠ none then 8 else 0)
        + (if (s.bank x.1).upgrade.map (fun y => y.port) = some p then 16 else 0))] := by
  have upgrade : flagBit (s.upgradeOn p x.1) 4 = if (s.bank x.1).upgrade.map (fun y => y.port) = some p then 16 else 0 :=
    if_congr (upgradeOn_iff s p x.1) rfl rfl
  unfold State.selfHold
  rw [flagBit_exclusive, flagBit_present, upgrade]
  rfl

theorem selfWait_eq (x : Bank × WaitEntry) : selfWait x =
    [BitVec.ofNat 8 x.1.val, BitVec.ofNat 8 (x.2.row.val / 256), BitVec.ofNat 8 x.2.row.val,
      BitVec.ofNat 8 (x.2.tag.val + (if x.2.mode = .exclusive then 16 else 0))] := by
  unfold selfWait
  rw [rowBytes_eq, flagBit_exclusive, Nat.add_comm]
  rfl

theorem selfBurst_eq (s : State) (x : QueuedBurst) : s.selfBurst x =
    [BitVec.ofNat 8 (x.tag.val + (if x.kind = .write then 16 else 0)), BitVec.ofNat 8 x.bank.val, BitVec.ofNat 8 x.column,
      BitVec.ofNat 8 (x.units + (if (s.bank x.bank).phase = .opened then 128 else 0))] := by
  have write : flagBit (x.kind == .write) 4 = if x.kind = .write then 16 else 0 := if_congr beq_iff_eq rfl rfl
  have ready : flagBit (s.ready x) 7 = if (s.bank x.bank).phase = .opened then 128 else 0 := if_congr beq_iff_eq rfl rfl
  unfold State.selfBurst
  rw [write, ready, Nat.add_comm]
  rfl

theorem executingTag_byte (s : State) (p : Port) : tagOptByte (s.executingTag p) =
    match s.bursts.executing with
    | some e => if e.burst.port = p then BitVec.ofNat 8 e.burst.tag.val else 0xFF
    | none => 0xFF := by
  unfold State.executingTag
  cases s.bursts.executing with
  | none => rfl
  | some e =>
    simp only []
    split <;> rfl

/-! ## BANK -/

theorem dwellByte_eq (o : Option Bool) : dwellByte o =
    match o with
    | some d => if d = true then 1 else 0
    | none => 0xFF := by
  cases o <;> rfl

theorem bankHold_eq (x : HoldRecord) : bankHold x =
    [BitVec.ofNat 8 (x.port.val + (if x.mode = .exclusive then 4 else 0) + (if x.releasing = true then 8 else 0)
      + (if x.revokePending = true then 16 else 0) + (if x.openTag ≠ none then 32 else 0))] := by
  unfold bankHold
  rw [flagBit_exclusive, flagBit_present]
  rfl

theorem bankWait_eq (w : WaitEntry) : bankWait w =
    [BitVec.ofNat 8 w.port.val, BitVec.ofNat 8 (w.row.val / 256), BitVec.ofNat 8 w.row.val,
      if w.mode = .exclusive then 1 else 0] := by
  unfold bankWait
  rw [rowBytes_eq, modeByte_eq]
  rfl

theorem queuedTo_eq (s : State) (b : Bank) : s.queuedTo b =
    ((s.burstQueue 0 ++ s.burstQueue 1 ++ s.burstQueue 2 ++ s.burstQueue 3).filter (fun x => x.bank == b)).length := by
  unfold State.queuedTo allFour
  simp only [List.filter_append, List.length_append, List.map_cons, List.map_nil, List.sum_cons, List.sum_nil]
  omega

theorem executingPort_byte (s : State) (b : Bank) : portOptByte (s.executingPort b) =
    match s.bursts.executing with
    | some e => if e.burst.bank = b then BitVec.ofNat 8 e.burst.port.val else 0xFF
    | none => 0xFF := by
  unfold State.executingPort
  cases s.bursts.executing with
  | none => rfl
  | some e =>
    simp only []
    split <;> rfl

/-! ## QUAD -/

theorem targetByte_eq (s : State) (q : Quad) : targetByte (s.target q) =
    if s.cleared q = true then
      BitVec.ofInt 8 (if ∃ b, groupOf b = q ∧ (s.bank b).waitQueue ≠ [] then (s.config.reclaimLevel : Int) - 1
        else if s.config.pullIn.get q = true then -4 else 0)
    else 0x80 := by
  unfold State.target
  split
  · exact congrArg (BitVec.ofInt 8) (if_congr (quadWaited_iff s q) rfl rfl)
  · rfl

theorem refreshingByte_eq (s : State) (q : Quad) :
    flagByte (s.refreshing q) = if s.refresh.map (fun r => r.quad) = some q then 1 else 0 := by
  have refreshing : s.refreshing q = true ↔ s.refresh.map (fun r => r.quad) = some q := by
    unfold State.refreshing
    cases s.refresh <;> simp
  exact if_congr refreshing rfl rfl

/-! ## FAULTS -/

theorem faultEntries_eq : ∀ (es : List FaultEntry) (i : Nat), faultEntries i es =
    (es.zipIdx i).flatMap (fun x => [BitVec.ofNat 8 x.2, BitVec.ofNat 8 x.1.bank.val, BitVec.ofNat 8 (x.1.row.val / 256),
      BitVec.ofNat 8 x.1.row.val, BitVec.ofNat 8 x.1.column,
      BitVec.ofNat 8 (x.1.port.val + (if x.1.kind = .merge then 16 else 0))])
  | [], _ => rfl
  | e :: es, i => by
    have merge : flagBit (e.kind == .merge) 4 = if e.kind = .merge then 16 else 0 := if_congr beq_iff_eq rfl rfl
    unfold faultEntries
    rw [faultEntries_eq es (i + 1), rowBytes_eq, merge, List.zipIdx_cons, List.flatMap_cons]
    rfl

/-! ## DEVICE -/

theorem engineIdle_iff (s : State) : s.engineIdle = true ↔ s.bursts.executing = none ∧ ∀ p, s.burstQueue p = [] := by
  unfold State.engineIdle
  simp [List.all_eq_true, mem_allFour]

/-- A request is taken in CLEARING or ACTIVE (R159), of which 11.4 has the codes. -/
theorem mode_byte {s : State} {p : Port} (h : s.listens p) : s.mode.code = if s.mode = .active then 1 else 0 := by
  rcases h.1 with e | e <;> rw [e] <;> rfl

theorem busyFlag_eq (s : State) : flagBit (!s.engineIdle) 0 =
    if s.bursts.executing = none ∧ ∀ p, s.burstQueue p = [] then 0 else 1 := by
  by_cases idle : s.engineIdle = true
  · rw [if_pos ((engineIdle_iff s).1 idle), idle]
    rfl
  · rw [if_neg (mt (engineIdle_iff s).2 idle), Bool.eq_false_iff.2 idle]
    rfl

theorem flagBits_sum (flag : Fin 4 → Bool) : ∀ qs : List (Fin 4),
    ((qs.filter flag).map (fun q => 2 ^ q.val)).sum = (qs.map (fun q => flagBit (flag q) q.val)).sum
  | [] => rfl
  | q :: qs => by
    rw [List.map_cons, List.sum_cons, ← flagBits_sum flag qs, List.filter_cons]
    cases flag q with
    | false => exact (Nat.zero_add _).symm
    | true => rfl

theorem lapseFlags_eq (s : State) : flagBit (s.quad 0).lapse 0 + flagBit (s.quad 1).lapse 1 + flagBit (s.quad 2).lapse 2
    + flagBit (s.quad 3).lapse 3 = ((allFour.filter (fun q => (s.quad q).lapse)).map (fun q => 2 ^ q.val)).sum := by
  rw [flagBits_sum, Nat.add_assoc, Nat.add_assoc]
  rfl

end Sys2Proof.Machine
end
section
/-!
SUPPORT. INSPECT (R136, R159).
-/

namespace Sys2Proof.Machine

open Sys2Proof

theorem inspect_target {s : State} {code number : Byte} {target : Target} (h : targetOf code number = some target) (p : Port)
    (t : Tag) : s.inspect p t code number = s.answer p t (.data (.inspect code (s.report p target))) := by
  unfold State.inspect
  rw [h]

theorem inspect_range {s : State} {code number : Byte} (h : targetOf code number = none) (p : Port) (t : Tag) :
    s.inspect p t code number = s.answer p t (.refused .range) := by
  unfold State.inspect
  rw [h]

/-- The taking of an INSPECT shows in no session's state or role and in no link's state or fault reason. -/
theorem taken_deviceRecord (s : State) (h : Header) : (s.taken h).deviceRecord = s.deviceRecord := by
  have port (p : Port) : (s.taken h).devicePort p = s.devicePort p := by
    unfold State.devicePort
    rw [taken_heard, heard_link]
    by_cases hp : p = h.port
    · rw [if_pos hp, hp, heard_session_same]
      rfl
    · rw [if_neg hp]
      unfold State.heard
      rw [session_setSession_ne _ _ hp]
      rfl
  have ports : allFour.flatMap (s.taken h).devicePort = allFour.flatMap s.devicePort := List.flatMap_congr fun p _ => port p
  unfold State.deviceRecord
  rw [ports]
  rfl

section
variable {s : State} {h : Header} (hh : s.hears h)
include hh

section
variable (hs : (s.session h.port).state = .attached) {code number : Byte} (other : code ≠ deviceTarget)
include hs other

theorem inspect_owned : s.request h (.inspect code number) = (s.taken h).inspect h.port h.tag code number :=
  request_owned hh hs rfl (by simp) (fun t => t.inspect h.port h.tag code number) fun _ => if_neg other

theorem inspect_reported {target : Target} (ht : targetOf code number = some target) : s.request h (.inspect code number) =
    s.answered h false (.data (.inspect code ((s.taken h).report h.port target))) := by
  rw [inspect_owned hh hs other, inspect_target ht, taken_answer hh rfl]

theorem inspect_refused (ht : targetOf code number = none) :
    s.request h (.inspect code number) = s.answered h false (.refused .range) := by
  rw [inspect_owned hh hs other, inspect_range ht, taken_answer hh rfl]

end

/-- DEVICE is answered in a session of any state (R136). -/
theorem inspect_device : s.request h (.inspect 0x06 0) = s.answered h false (.data (.inspect 0x06 s.deviceRecord)) := by
  have own : (s.taken h).requestInspect h.port h.tag 0x06 0 = (s.taken h).inspect h.port h.tag 0x06 0 := by
    unfold State.requestInspect
    exact if_pos rfl
  rw [request_taken hh rfl (by simp), State.dispatch, own, inspect_target (target := .device) rfl, taken_answer hh rfl]
  exact congrArg (fun record => s.answered h false (.data (.inspect 0x06 record))) (taken_deviceRecord s h)

end

theorem targetOf_bank (b : Bank) : targetOf 0x02 (BitVec.ofNat 8 b.val) = some (.bank b) :=
  congrArg (Option.map Target.bank) (bankOf_val b)

theorem targetOf_quad (q : Quad) : targetOf 0x03 (BitVec.ofNat 8 q.val) = some (.quad q) :=
  congrArg (Option.map Target.quad) (fourOf_val q)

theorem targetOf_no_bank {n : Byte} (h : 16 ≤ n.toNat) : targetOf 0x02 n = none :=
  congrArg (Option.map Target.bank) (bankOf_none h)

theorem targetOf_no_quad {n : Byte} (h : 4 ≤ n.toNat) : targetOf 0x03 n = none :=
  congrArg (Option.map Target.quad) (fourOf_none h)

/-- Settles O53: the targets that are named and those that are not; then each record, field by field. -/
theorem inspectReportsAndChangesNothing : Obligations.InspectReportsAndChangesNothing := by
  unfold Obligations.InspectReportsAndChangesNothing
  intro s h hh
  refine ⟨fun hs => ⟨?_, fun b => ?_, fun n out => ?_, fun q => ?_, fun n out => ?_, ?_, ?_⟩, ?_, rfl, rfl, rfl, rfl, rfl, rfl,
    rfl, ?self, ?faults, ?bank, ?quad, rfl, ?device⟩
  · exact congrArg Host.Outcome.next (inspect_reported hh hs (by decide) (target := .self) rfl)
  · exact congrArg Host.Outcome.next (inspect_reported hh hs (by decide) (targetOf_bank b))
  · exact congrArg Host.Outcome.next (inspect_refused hh hs (by decide) (targetOf_no_bank out))
  · exact congrArg Host.Outcome.next (inspect_reported hh hs (by decide) (targetOf_quad q))
  · exact congrArg Host.Outcome.next (inspect_refused hh hs (by decide) (targetOf_no_quad out))
  · exact congrArg Host.Outcome.next (inspect_reported hh hs (by decide) (target := .faults) rfl)
  · exact congrArg Host.Outcome.next (inspect_reported hh hs (by decide) (target := .counts) rfl)
  · exact congrArg Host.Outcome.next (inspect_device hh)
  case self =>
    intro u p holds waits sameHolds risingHolds sameWaits risingWaits
    have held : u.holdView p = holds := sortBy_eq sameHolds risingHolds
    have waiting : u.waitView p = waits := sortBy_eq sameWaits risingWaits
    unfold State.selfRecord State.use counted
    simp only [held, waiting, tagsBytes_eq, executingTag_byte, funext (selfHold_eq u p), funext selfWait_eq,
      funext (selfBurst_eq u), rowOptBytes_eq] <;> rfl
  case faults =>
    unfold State.faultsRecord
    rw [faultEntries_eq]
    rfl
  case bank =>
    intro b
    unfold State.bankRecordBytes counted
    simp only [rowOptBytes_eq, dwellByte_eq, funext bankHold_eq, funext bankWait_eq, upgradeByte_eq, queuedTo_eq, executingPort_byte,
      ← List.map_eq_flatMap] <;> rfl
  case quad =>
    intro q
    unfold State.quadRecord
    rw [targetByte_eq, refreshingByte_eq, List.length_flatMap, List.length_flatMap] <;> rfl
  case device =>
    unfold State.deviceRecord
    simp only [refreshByte_eq, lapseFlags_eq, mode_byte hh.1, busyFlag_eq] <;> rfl

end Sys2Proof.Machine
end
section
/-!
SUPPORT. The power-on state block by block, the laws it holds, and RESET_N rise: the retention entry condition, and the clears that begin
again (R165, R169, R174).
-/

namespace Sys2Proof.Machine

open Sys2Proof

/-! ## The power-on state (R7, R96, R116, R133, R165) -/

section
variable (high : Bool) (carrier : Four Bool) (now epoch : Nat) (marks : RecentMarks) (pending : List Instr)

theorem powerOn_bank (b : Bank) : (State.powerOn high carrier now epoch marks pending).bank b =
    { BankRecord.powerOn with phase := if high = true ∧ groupOf b = 0 then .clearing else .closed } := by
  cases high <;> fin_cases b <;> rfl

theorem powerOn_quad (q : Quad) : (State.powerOn high carrier now epoch marks pending).quad q = QuadAccount.powerOn :=
  four_get_all _ q

theorem powerOn_session (p : Port) : (State.powerOn high carrier now epoch marks pending).session p = Session.powerOn :=
  four_get_all _ p

theorem powerOn_link (p : Port) :
    (State.powerOn high carrier now epoch marks pending).link p = Link.powerOn (carrier.get p) :=
  four_get_map _ carrier p

theorem powerOn_burstQueue (p : Port) : (State.powerOn high carrier now epoch marks pending).burstQueue p = [] :=
  four_get_all _ p

theorem powerOn_clearState (q : Quad) : (State.powerOn high carrier now epoch marks pending).clearState q =
    if high = true ∧ q = 0 then .clearing else .uncleared := by
  cases high <;> fin_cases q <;> rfl

/-- Nothing is listed in the array, so that every byte reads as the new epoch's free value (R4, log 9). -/
theorem powerOn_readByte (addr : Nat) :
    (State.powerOn high carrier now epoch marks pending).array.readByte addr = Config.undefinedByte epoch addr := by
  show (((Four.all (QuadBase.undefined epoch)).get (quadOfUnit (addr / 8))).cell addr) = _
  rw [four_get_all]
  rfl

end

/-- Settles O2: the power-on state, table by table. -/
theorem powerOnSetsEveryBlock : Obligations.PowerOnSetsEveryBlock := by
  unfold Obligations.PowerOnSetsEveryBlock
  intro high carrier s
  refine ⟨State.powerOn high carrier s.now s.array.epoch s.marks s.pending, rfl, rfl, powerOn_clearState high carrier _ _ _ _,
    rfl, rfl, ?run, powerOn_bank high carrier _ _ _ _, powerOn_burstQueue high carrier _ _ _ _, rfl, rfl,
    powerOn_quad high carrier _ _ _ _, rfl, rfl, rfl, rfl, fun b => sixteen_get_all 0 b, rfl,
    powerOn_session high carrier _ _ _ _, fun p => ?link, powerOn_readByte high carrier _ _ _ _, rfl, rfl⟩
  case run => cases high <;> rfl
  case link =>
    rw [powerOn_link]
    exact ⟨rfl, rfl, rfl, rfl, rfl, rfl, rfl, rfl, rfl⟩

/-! ## The laws after reset (R5, R6, R23, R24) -/

section
variable (high : Bool) (carrier : Four Bool) (now epoch : Nat) (marks : RecentMarks) (pending : List Instr)

/-- No bank has a hold record or a wait entry. -/
theorem powerOn_unheld (b : Bank) : ((State.powerOn high carrier now epoch marks pending).bank b).holds = []
    ∧ ((State.powerOn high carrier now epoch marks pending).bank b).waitQueue = [] := by
  rw [powerOn_bank]
  exact ⟨rfl, rfl⟩

theorem holdLaw_powerOn : (State.powerOn high carrier now epoch marks pending).holdLaw := fun b => by
  rw [(powerOn_unheld high carrier now epoch marks pending b).1]
  refine ⟨Or.inl fun h hm => ?_, fun _ => rfl⟩
  cases hm

theorem placeLaw_powerOn : (State.powerOn high carrier now epoch marks pending).placeLaw := fun b p => by
  obtain ⟨holds, waits⟩ := powerOn_unheld high carrier now epoch marks pending b
  rw [holds, waits]
  exact Nat.zero_le 1

theorem bankLaw_powerOn : (State.powerOn high carrier now epoch marks pending).bankLaw := fun b => by
  rw [powerOn_bank]
  by_cases h : high = true ∧ groupOf b = 0
  · rw [if_pos h]
    exact ⟨rfl, rfl, rfl, rfl⟩
  · rw [if_neg h]
    exact ⟨rfl, rfl, rfl, rfl⟩

theorem burstLaw_powerOn : (State.powerOn high carrier now epoch marks pending).burstLaw := by
  refine ⟨fun e he => ?_, fun p x hx => ?_⟩
  · cases he
  · rw [powerOn_burstQueue] at hx
    cases hx

end

/-- Settles O3: the power-on state holds every law, whatever RESET_N and the lines are. -/
theorem resetStateHoldsEveryLaw : Obligations.ResetStateHoldsEveryLaw := by
  obtain ⟨debts, maintenance⟩ := accountLaw_powerOn true (Four.all true) 0 0 .none []
  exact ⟨rfl, rfl, rfl, debts, maintenance, holdLaw_powerOn _ _ _ _ _ _, placeLaw_powerOn _ _ _ _ _ _,
    phaseLaw_powerOn _ _ _ _ _ _, bankLaw_powerOn _ _ _ _ _ _, burstLaw_powerOn _ _ _ _ _ _, integrityLaw_powerOn _ _ _ _ _ _,
    noticeLaw_powerOn _ _ _ _ _ _⟩

/-! ## The retention entry condition (R143, R169) -/

/-- A port's use is zero where it has neither a record nor a wait entry on any bank (R22). -/
theorem use_eq_zero_iff (s : State) (p : Port) : s.use p = 0 ↔
    ∀ b, (∀ h ∈ (s.bank b).holds, h.port ≠ p) ∧ ∀ w ∈ (s.bank b).waitQueue, w.port ≠ p := by
  have holds : (s.holdView p).length = 0 ↔ ∀ b, ∀ h ∈ (s.bank b).holds, h.port ≠ p := by
    unfold State.holdView
    rw [(sortBy_perm _ _).length_eq, List.length_eq_zero_iff]
    simp [mem_allBanks]
  have waits : (s.waitView p).length = 0 ↔ ∀ b, ∀ w ∈ (s.bank b).waitQueue, w.port ≠ p := by
    unfold State.waitView
    rw [(sortBy_perm _ _).length_eq, List.length_eq_zero_iff]
    simp [mem_allBanks]
  unfold State.use
  rw [Nat.add_eq_zero_iff, holds, waits, forall_and]

theorem tagsFreeBut_none_iff (s : State) (p : Port) :
    s.tagsFreeBut p none = true ↔ ∀ i, sixteenGet (s.session p).tags i = .free := by
  have mem (i : Tag) : i ∈ allTags := by revert i; decide
  simp [State.tagsFreeBut, mem]

theorem quiet_iff (s : State) (p : Port) : s.quiet p = true ↔
    (s.session p).state = .none
      ∨ ((s.session p).state = .attached ∧ (s.session p).idleVote = true
          ∧ (∀ i, sixteenGet (s.session p).tags i = .free)
          ∧ ∀ b, (∀ h ∈ (s.bank b).holds, h.port ≠ p) ∧ ∀ w ∈ (s.bank b).waitQueue, w.port ≠ p) := by
  rw [← use_eq_zero_iff, ← tagsFreeBut_none_iff]
  unfold State.quiet
  cases (s.session p).state <;> simp [and_assoc]

theorem outboundEmpty_iff (s : State) (p : Port) :
    s.outboundEmpty p = true ↔ (s.link p).queue = [] ∧ (s.link p).control = none := by
  simp [State.outboundEmpty]

theorem retentionEntry_iff (s : State) : s.retentionEntry = true ↔
    s.mode = .active ∧ s.config.idleEntry = true ∧ s.engineIdle = true
      ∧ (∀ b, (s.bank b).phase = .closed ∨ (s.bank b).phase = .refreshing) ∧ (∀ p, s.quiet p = true)
      ∧ ∀ p, s.outboundEmpty p = true := by
  simp [State.retentionEntry, mem_allFour, mem_allBanks, and_assoc]

theorem enterRetention_entry {s : State} (h : s.retentionEntry = true) : s.enterRetention = s.setMode .retention := if_pos h

theorem enterRetention_stays {s : State} (h : s.retentionEntry = false) : s.enterRetention = s :=
  if_neg (Bool.eq_false_iff.1 h)

/-- Outside ACTIVE the part does not enter retention mode. -/
theorem enterRetention_not_active {s : State} (h : s.mode ≠ .active) : s.enterRetention = s :=
  enterRetention_stays (Bool.eq_false_iff.2 fun entry => h ((retentionEntry_iff s).1 entry).1)

/-! ## RESET_N rise (R174) -/

theorem resetRise_exec {s : State} (h : s.mode = .reset) : exec .resetNRise s = .next s.resetRise := by
  show execResetNRise s = _
  unfold execResetNRise
  rw [if_pos h]

theorem resetRise_active {s : State} (h : s.modeCtl.resetDuringClearing = false) : s.resetRise =
    ({ s with modeCtl := { s.modeCtl with mode := .active } } : State).enterRetention := by
  have noted : ({ s.modeCtl with resetDuringClearing := false, mode := .active } : ModeController) =
      { s.modeCtl with mode := .active } := by rw [← h]
  unfold State.resetRise
  rw [if_neg (by rw [h]; exact Bool.false_ne_true), ← noted]
  rfl

/-- Settles O6: the entry condition conjunct by conjunct, and a rise that evaluates it in mode ACTIVE. -/
theorem resetRiseReturnsToActive : Obligations.ResetRiseReturnsToActive := by
  unfold Obligations.ResetRiseReturnsToActive
  intro s
  refine ⟨?_, fun entry => enterRetention_entry entry, fun stays => enterRetention_stays stays, fun hm hd => ?_⟩
  · rw [retentionEntry_iff, engineIdle_iff]
    simp only [quiet_iff, outboundEmpty_iff, and_assoc]
  · rw [resetRise_exec hm, resetRise_active hd]

/-- The part at the rise after a reset in CLEARING, before the clear start is evaluated: every quad uncleared (R99, R174). -/
def State.uncleared (s : State) : State :=
  (({ s with modeCtl := { s.modeCtl with resetDuringClearing := false } } : State).setMode .clearing).unclearAll

theorem resetRise_clearing {s : State} (h : s.modeCtl.resetDuringClearing = true) : s.resetRise = s.uncleared.tryClearStart := by
  unfold State.resetRise
  rw [if_pos h]
  rfl

theorem uncleared_clearState (s : State) (q : Quad) : s.uncleared.clearState q = .uncleared := four_get_all _ q

theorem uncleared_quad (s : State) (q : Quad) : s.uncleared.quad q = { s.quad q with debt := 0, state := .current } :=
  four_get_map _ s.quads q

/-- Quad 0 is the first to be cleared again, where its banks are CLOSED (R166). -/
theorem uncleared_start (s : State) :
    s.uncleared.tryClearStart = if s.quadClosed 0 = true then s.uncleared.startClear 0 else s.uncleared := by
  split
  · next h =>
    exact tryClearStart_of_due ⟨rfl, fun r hr => absurd hr (Fin.not_lt_zero r), uncleared_clearState s 0,
      (quadClosed_iff s 0).1 h⟩
  · next h =>
    rcases tryClearStart_cases s.uncleared with e | ⟨q, -, turn, -, closed, -⟩
    · exact e
    · obtain ⟨-, below⟩ := (clearTurn_iff s.uncleared q).1 turn
      have first : q = 0 := by
        by_contra hq
        have cleared := below 0 (Fin.pos_iff_ne_zero.2 hq)
        simp [State.cleared, uncleared_clearState] at cleared
      exact absurd ((quadClosed_iff s 0).2 (first ▸ closed)) h

/-- Settles O7: every quad is uncleared, and then the clear of quad 0 starts or nothing more. -/
theorem resetRiseClearsAgain : Obligations.ResetRiseClearsAgain := by
  unfold Obligations.ResetRiseClearsAgain
  intro s hm hd
  refine ⟨s.resetRise, resetRise_exec hm, ?_⟩
  rw [resetRise_clearing hd, uncleared_start]
  cases h : s.quadClosed 0 with
  | true =>
    simp only [and_true]
    refine ⟨rfl, rfl, fun q => ?_, uncleared_quad s, startClear_bank s.uncleared 0, fun _ => rfl, rfl, rfl, rfl, rfl, rfl, rfl,
      rfl, rfl, rfl, rfl, rfl, rfl⟩
    show (s.uncleared.modeCtl.clearStates.set 0 .clearing).get q = _
    rw [four_get_set]
    exact if_congr Iff.rfl rfl (uncleared_clearState s q)
  | false =>
    simp only [Bool.false_eq_true, and_false, if_false]
    exact ⟨rfl, rfl, uncleared_clearState s, uncleared_quad s, fun _ => rfl, fun hc => hc.elim, rfl, rfl, rfl, rfl,
      rfl, rfl, rfl, rfl, rfl, rfl, rfl, rfl⟩

end Sys2Proof.Machine
end

section
/-!
SUPPORT. WAKE_COMPLETION: the held packets taken in the order of their arrivals, which never lets the part enter retention mode before the
last one, since whatever evaluates the entry condition leaves its port something to send (R131, R169, R171).
-/

namespace Sys2Proof.Machine

open Sys2Proof

/-! ## What keeps the part out of retention mode (R169) -/

/-- The port keeps the part out of retention mode: it has a packet to send, or its session is DETACHING. -/
def State.stirs (s : State) (p : Port) : Prop :=
  (s.link p).queue ≠ [] ∨ (s.link p).control ≠ none ∨ (s.session p).state = .detaching

theorem stirs_congr {s t : State} {p : Port} (hl : t.links = s.links) (hs : t.sessions = s.sessions) : t.stirs p ↔ s.stirs p := by
  unfold State.stirs State.link State.session
  rw [hl, hs]

theorem enterRetention_stirs {s : State} {p : Port} (h : s.stirs p) : s.enterRetention = s := by
  refine enterRetention_stays (Bool.eq_false_iff.2 fun entry => ?_)
  obtain ⟨-, -, -, -, quiet, outbound⟩ := (retentionEntry_iff s).1 entry
  obtain ⟨queue, control⟩ := (outboundEmpty_iff s p).1 (outbound p)
  rcases h with h | h | h
  · exact h queue
  · exact h control
  · rcases (quiet_iff s p).1 (quiet p) with e | ⟨e, -⟩ <;> rw [e] at h <;> cases h

theorem settle_stirs {s : State} {p : Port} (h : s.settle.stirs p) : s.settle.modeCtl = s.modeCtl := by
  have before : s.arbiterChoice.finishSessions.refreshChoice.stirs p :=
    (stirs_congr (enterRetention_links _) (enterRetention_sessions _)).1 h
  unfold State.settle
  rw [enterRetention_stirs before, refreshChoice_modeCtl,
    (onlyHolds_keeps (onlyHolds_of_answers (finishSessions_answers _))).2.1, arbiterChoice_frame]

/-- An answer on a link that is UP waits there to be sent. -/
theorem answer_stirs {s : State} {p : Port} (hup : (s.link p).up = true) (t : Tag) (a : Answer) : (s.answer p t a).stirs p := by
  refine Or.inl ?_
  rw [answer_up hup]
  simp

/-- A link fault but one by carrier loss leaves LINK_FAULT to be sent (R124). -/
theorem linkFault_stirs (s : State) (p : Port) {reason : FaultReason} (h : reason ≠ .carrier) :
    (s.linkFault p reason).stirs p := by
  obtain ⟨es, link⟩ := linkFault_entries s p reason p
  refine Or.inr (Or.inl ?_)
  rw [link, link_setLink_same]
  simp [Link.faulted, h]

/-- A DETACH on a link that is UP is answered, or its session is DETACHING still (R145). -/
theorem detach_stirs {s : State} {p : Port} (hup : (s.link p).up = true) (t : Tag) : (s.detachSession p t).settle.stirs p := by
  obtain ⟨v, relieved, released⟩ := detachHolds_relieved (s.detachBegun p t) p
  obtain ⟨es, records⟩ := replied_foldl (fun u b => detachRecord_answers u p b p) (v.heldBanks p) v
  have replied := repliedTo_trans (relieved.replied p) records
  have live : (s.detachBegun p t).answerable p = true := by
    unfold State.answerable
    rw [detachBegun_session]
  rw [detachSession_eq, released]
  obtain ⟨link, session⟩ := replied
  rw [if_pos live, detachBegun_session] at session
  rw [if_pos live] at link
  change (v.detachRecords p).link p = _ at link
  change (v.detachRecords p).session p = _ at session
  rcases settle_detaching (s := v.detachRecords p) (p := p) (d := t) (by rw [session]; rfl) (by rw [session]; rfl) with
    ⟨-, kept, -⟩ | ⟨answered, -, -⟩
  · refine Or.inr (Or.inr ?_)
    rw [kept, session]
    rfl
  · have still : (s.detachBegun p t).link p = s.link p := rfl
    refine Or.inl ?_
    rw [answered, link, still, link_answered_append, Link.answered, if_pos hup]
    simp [responses]

/-! ## What a packet leaves alone of the clock, the mode and the array -/

/-- Time, mode controller, array, retention timer and queue are the same. -/
structure State.KeepsClock (s t : State) : Prop where
  now : t.now = s.now
  modeCtl : t.modeCtl = s.modeCtl
  array : t.array = s.array
  timer : t.timer = s.timer
  pending : t.pending = s.pending

theorem clock_refl (s : State) : s.KeepsClock s := ⟨rfl, rfl, rfl, rfl, rfl⟩

theorem clock_trans {s t u : State} (h1 : s.KeepsClock t) (h2 : t.KeepsClock u) : s.KeepsClock u :=
  ⟨h2.now.trans h1.now, h2.modeCtl.trans h1.modeCtl, h2.array.trans h1.array, h2.timer.trans h1.timer, h2.pending.trans h1.pending⟩

theorem clock_of_store {s t : State} (h : s.KeepsStore t) (hm : t.modeCtl = s.modeCtl) : s.KeepsClock t := by
  obtain ⟨now, array, timer, -, pending⟩ := h
  exact ⟨now, hm, array, timer, pending⟩

theorem clock_of_holds {s t : State} (h : s.OnlyHolds t) : s.KeepsClock t :=
  clock_of_store (keepsStore_of_holds h) (onlyHolds_keeps h).2.1

theorem answer_clock (s : State) (p : Port) (t : Tag) (a : Answer) : s.KeepsClock (s.answer p t a) :=
  clock_of_holds (onlyHolds_of_answers (answer_answers s p t a))

theorem refreshChoice_clock (s : State) : s.KeepsClock s.refreshChoice :=
  clock_of_store (refreshChoice_store s) (refreshChoice_modeCtl s)

theorem settle_clock {s : State} {p : Port} (h : s.settle.stirs p) : s.KeepsClock s.settle :=
  clock_of_store (settle_store s) (settle_stirs h)

theorem releaseRole_clock (s : State) (p : Port) : s.KeepsClock (s.releaseRole p) := by
  unfold State.releaseRole
  split <;> exact ⟨rfl, rfl, rfl, rfl, rfl⟩

/-- The first steps of a DETACH and of a teardown. -/
theorem sessionEnd_clock (s : State) (p : Port) (x : Session) :
    s.KeepsClock (((s.setSession p x).releaseRole p).removePortBursts p .cancelled) :=
  clock_trans (clock_trans (clock_of_holds (onlyHolds_of_answers (setSession_answers s p x))) (releaseRole_clock _ p))
    (clock_of_holds (removePortBursts_holds _ p _))

theorem detachSession_clock (s : State) (p : Port) (t : Tag) : s.KeepsClock (s.detachSession p t) := by
  unfold State.detachSession
  exact clock_trans (sessionEnd_clock s p _) (clock_of_holds (detachHolds_holds _ p))

theorem teardownSession_clock (s : State) (p : Port) : s.KeepsClock (s.teardownSession p) := by
  unfold State.teardownSession
  split
  case h_1 | h_2 => exact clock_trans (sessionEnd_clock s p _) (clock_of_holds (teardownHolds_holds _ p))
  case h_3 | h_4 => exact clock_refl s

theorem linkFault_clock (s : State) (p : Port) {reason : FaultReason} (h : reason ≠ .carrier) :
    s.KeepsClock (s.linkFault p reason) :=
  clock_trans (clock_trans (clock_of_holds (onlyHolds_of_answers (setLink_answers s p _))) (teardownSession_clock _ p))
    (settle_clock (linkFault_stirs s p h))

/-! ## Requests -/

theorem attachSession_clock (s : State) (p : Port) (t : Tag) (role : Byte) : s.KeepsClock (s.attachSession p t role) := by
  have taken (c : ConfigTable) (x : Session) : s.KeepsClock (State.setSession { s with config := c } p x) :=
    ⟨rfl, rfl, rfl, rfl, rfl⟩
  unfold State.attachSession
  split
  · exact answer_clock s p t _
  · exact clock_trans (taken _ _) (answer_clock _ p t _)

theorem requestAttach_clock (s : State) (p : Port) (t : Tag) (role : Byte) : s.KeepsClock (s.requestAttach p t role) := by
  unfold State.requestAttach
  split
  · exact attachSession_clock s p t role
  · exact answer_clock s p t _

theorem orderedOpen_clock (s : State) (p : Port) (t : Tag) (bank : Byte) (row : BitVec 16) (mode : HoldMode) (wait : Bool) :
    s.KeepsClock (s.orderedOpen p t bank row mode wait) := by
  have decided (u : State) := clock_of_holds (holdOpen_holds u p t bank row mode wait)
  rcases orderedOpen_cases s p t bank row mode wait with e | ⟨q, -, -, e⟩ <;> rw [e]
  · exact decided s
  · exact clock_trans (clock_trans (t := s.withoutStart q) ⟨rfl, rfl, rfl, rfl, rfl⟩ (decided _)) (refreshChoice_clock _)

theorem applyItem_clock (s : State) (i : Item) (v : Nat) : s.KeepsClock (s.applyItem i v) := by
  refine clock_of_store (applyItem_store s i v) ?_
  unfold State.applyItem
  split
  · rfl
  · cases i with
    | reclaimLevel => exact (refreshChoice_modeCtl _).trans (evaluateAll_modeCtl _)
    | pullIn => exact refreshChoice_modeCtl _
    | retentionInterval | holdQuota | grantPolicy | idleEntry => rfl

theorem cfgWrite_clock {s : State} {p : Port} (hup : (s.link p).up = true) (t : Tag) (code index value : Byte) :
    s.KeepsClock (s.cfgWrite p t code index value) := by
  unfold State.cfgWrite
  split
  · exact answer_clock s p t _
  · next i _ _ =>
    have written := clock_trans (applyItem_clock s i value.toNat)
      (answer_clock _ p t (.ok (.cfgWrite i.code i.index value.toNat)))
    obtain ⟨es, link⟩ := applyItem_entries s i value.toNat p
    simp only []
    rw [enterRetention_stirs (answer_stirs (by rw [link]; exact hup) t _), ite_self]
    exact written
  · exact answer_clock s p t _

theorem cfgRead_clock (s : State) (p : Port) (t : Tag) (code index : Byte) : s.KeepsClock (s.cfgRead p t code index) := by
  unfold State.cfgRead
  split
  · exact answer_clock s p t _
  · split <;> exact answer_clock s p t _

theorem inspect_clock (s : State) (p : Port) (t : Tag) (code number : Byte) : s.KeepsClock (s.inspect p t code number) := by
  unfold State.inspect
  split <;> exact answer_clock s p t _

theorem requestInspect_clock (s : State) (p : Port) (t : Tag) (target number : Byte) :
    s.KeepsClock (s.requestInspect p t target number) := by
  unfold State.requestInspect
  split
  · exact inspect_clock s p t target number
  · exact ifAttached_keeps p t (answer_clock s p t _) (inspect_clock s p t target number)

theorem faultClear_clock (s : State) (p : Port) (t : Tag) (index : Byte) : s.KeepsClock (s.faultClear p t index) := by
  have cleared : s.KeepsClock s.clearFaults := ⟨rfl, rfl, rfl, rfl, rfl⟩
  have removed (i : Nat) : s.KeepsClock (s.removeFault i) := ⟨rfl, rfl, rfl, rfl, rfl⟩
  unfold State.faultClear
  split
  · exact answer_clock s p t _
  · split
    · exact clock_trans cleared (answer_clock _ p t _)
    · split
      · split
        · exact clock_trans (removed _) (answer_clock _ p t _)
        · exact answer_clock s p t _
      · exact answer_clock s p t _

theorem lapseClear_clock (s : State) (p : Port) (t : Tag) (quad : Byte) : s.KeepsClock (s.lapseClear p t quad) := by
  have accounts (quads : Four QuadAccount) : s.KeepsClock { s with quads := quads } := ⟨rfl, rfl, rfl, rfl, rfl⟩
  unfold State.lapseClear
  split
  · exact answer_clock s p t _
  · split
    · exact clock_trans (accounts _) (answer_clock _ p t _)
    · split
      · exact clock_trans (accounts _) (answer_clock _ p t _)
      · exact answer_clock s p t _

theorem countClear_clock (s : State) (p : Port) (t : Tag) (bank : Byte) : s.KeepsClock (s.countClear p t bank) := by
  have counts (unit : IntegrityUnit) : s.KeepsClock { s with integrity := unit } := ⟨rfl, rfl, rfl, rfl, rfl⟩
  unfold State.countClear
  split
  · exact answer_clock s p t _
  · split
    · exact clock_trans (counts _) (answer_clock _ p t _)
    · split
      · exact clock_trans (counts _) (answer_clock _ p t _)
      · exact answer_clock s p t _

theorem requestClose_clock (s : State) (p : Port) (t : Tag) (bank : Byte) : s.KeepsClock (s.requestClose p t bank) := by
  have closed := clock_of_holds (holdClose_holds s p t bank)
  refine unlessNone_keeps p t (answer_clock s p t _) ?_
  split
  · exact clock_trans closed (refreshChoice_clock _)
  · exact closed

theorem ifAttached_clock {s : State} {f : State → State} (p : Port) (t : Tag) (h : s.KeepsClock (f s)) :
    s.KeepsClock (s.ifAttached p t f) :=
  ifAttached_keeps (P := s.KeepsClock) (f := f) p t (answer_clock s p t _) h

theorem unlessNone_clock {s : State} {f : State → State} (p : Port) (t : Tag) (h : s.KeepsClock (f s)) :
    s.KeepsClock (s.unlessNone p t f) :=
  unlessNone_keeps (P := s.KeepsClock) (f := f) p t (answer_clock s p t _) h

theorem requestIdle_clock {s : State} {p : Port} (hup : (s.link p).up = true) (t : Tag) : s.KeepsClock (s.requestIdle p t) := by
  refine ifAttached_clock p t ?_
  rw [enterRetention_stirs (answer_stirs (s := s.setVote p true) hup t _)]
  exact clock_trans (t := s.setVote p true) ⟨rfl, rfl, rfl, rfl, rfl⟩ (answer_clock _ p t _)

/-- A request on a link that is UP: where the retention entry condition is evaluated, the port has an answer to send or is DETACHING. -/
theorem dispatch_clock {s : State} {p : Port} (hup : (s.link p).up = true) (t : Tag) (r : Request) :
    s.KeepsClock (s.dispatch p t r) := by
  have burst (kind : BurstKind) (bank column units : Byte) (ac : Bool) (data : List WriteUnit) :
      s.KeepsClock (s.requestBurst p t kind bank column units ac data) :=
    unlessNone_clock (f := fun s => s.acceptBurst p t kind bank column units ac data) p t
      (clock_of_holds (acceptBurst_holds s p t kind bank column units ac data))
  cases r with
  | attach role => exact requestAttach_clock s p t role
  | detach =>
    exact ifAttached_clock (f := fun s => (s.detachSession p t).settle) p t
      (clock_trans (detachSession_clock s p t) (settle_clock (detach_stirs hup t)))
  | idle => exact requestIdle_clock hup t
  | openBank bank row mode wait =>
    exact unlessNone_clock (f := fun s => s.orderedOpen p t bank row mode wait) p t (orderedOpen_clock s p t bank row mode wait)
  | upgrade bank =>
    exact unlessNone_clock (f := fun s => s.holdUpgrade p t bank) p t (clock_of_holds (holdUpgrade_holds s p t bank))
  | closeBank bank => exact requestClose_clock s p t bank
  | read bank column units ac => exact burst .read bank column units ac []
  | write bank column units ac data => exact burst .write bank column units ac data
  | cfgRead item index => exact ifAttached_clock (f := fun s => s.cfgRead p t item index) p t (cfgRead_clock s p t item index)
  | cfgWrite item index value =>
    exact ifAttached_clock (f := fun s => s.cfgWrite p t item index value) p t (cfgWrite_clock hup t item index value)
  | inspect target number => exact requestInspect_clock s p t target number
  | faultClear index => exact ifAttached_clock (f := fun s => s.faultClear p t index) p t (faultClear_clock s p t index)
  | lapseClear quad => exact ifAttached_clock (f := fun s => s.lapseClear p t quad) p t (lapseClear_clock s p t quad)
  | countClear bank => exact ifAttached_clock (f := fun s => s.countClear p t bank) p t (countClear_clock s p t bank)

theorem beginRequest_links (s : State) (p : Port) (t : Tag) (r : Request) : (s.beginRequest p t r).links = s.links := by
  unfold State.beginRequest
  split <;> rfl

theorem take_clock {s : State} {p : Port} (hup : (s.link p).up = true) (t : Tag) (r : Request) : s.KeepsClock (s.take p t r) := by
  have begun : s.KeepsClock (s.beginRequest p t r) := by
    unfold State.beginRequest
    split <;> exact ⟨rfl, rfl, rfl, rfl, rfl⟩
  refine clock_trans begun (dispatch_clock ?_ t r)
  unfold State.link
  rw [beginRequest_links]
  exact hup

/-! ## One held packet (R131) -/

/-- No check of an arriving packet finds a loss of carrier (R120). -/
theorem linkCheck_ne_carrier {s : State} {p : Port} {a : Arrival} {reason : FaultReason} (h : s.linkCheck p a = some reason) :
    reason ≠ .carrier := by
  rintro rfl
  unfold State.linkCheck at h
  split at h
  · cases h
  · split at h
    · cases h
    · split at h
      case h_5 =>
        split at h <;> cases h
      all_goals cases h

theorem accept_clock (s : State) (p : Port) (a : Arrival) : s.KeepsClock (s.accept p a) := by
  have relinked (l : Link) : s.KeepsClock (s.setLink p l) := ⟨rfl, rfl, rfl, rfl, rfl⟩
  cases hup : (s.link p).up with
  | false =>
    cases hello : isHelloPacket a with
    | false => rw [accept_ignored a hup hello]; exact clock_refl s
    | true => rw [accept_hello a hup hello]; exact relinked _
  | true =>
    have advanced : s.KeepsClock (s.advanceSeq p) := relinked _
    have still : ((s.advanceSeq p).link p).up = true := by
      unfold State.advanceSeq
      rw [link_setLink_same]
      exact hup
    cases hcheck : s.linkCheck p a with
    | some reason => rw [accept_fault a hup hcheck]; exact linkFault_clock s p (linkCheck_ne_carrier hcheck)
    | none =>
      rw [accept_good a hup hcheck]
      unfold State.goodPacket
      split
      · exact clock_trans advanced (linkFault_clock _ p (by decide))
      · exact clock_trans advanced (take_clock still _ _)
      · exact clock_refl s
      · exact clock_refl s
      · exact clock_refl s

/-- What a link has of the line and of the wake: carrier and held packets. -/
def Link.line (l : Link) : Bool × List HeldPacket := (l.carrier, l.held)

theorem line_of_entries {s t : State} (h : s.OnlyEntries t) (q : Port) : (t.link q).line = (s.link q).line := by
  obtain ⟨es, hlink⟩ := h q
  rw [hlink]
  rfl

theorem line_setLink (s : State) (p q : Port) {l : Link} (h : l.line = (s.link p).line) :
    ((s.setLink p l).link q).line = (s.link q).line := by
  rw [link_setLink]
  split
  · next hq => rw [h, hq]
  · rfl

theorem linkFault_line (s : State) (p : Port) (reason : FaultReason) (q : Port) :
    ((s.linkFault p reason).link q).line = (s.link q).line :=
  (line_of_entries (linkFault_entries s p reason) q).trans (line_setLink s p q rfl)

/-- A packet taken by its link unit changes neither a carrier nor what is held. -/
theorem accept_line (s : State) (p : Port) (a : Arrival) (q : Port) : ((s.accept p a).link q).line = (s.link q).line := by
  have advanced : ((s.advanceSeq p).link q).line = (s.link q).line := line_setLink s p q rfl
  cases hup : (s.link p).up with
  | false =>
    cases hello : isHelloPacket a with
    | false => rw [accept_ignored a hup hello]
    | true => rw [accept_hello a hup hello]; exact line_setLink s p q rfl
  | true =>
    cases hcheck : s.linkCheck p a with
    | some reason => rw [accept_fault a hup hcheck]; exact linkFault_line s p reason q
    | none =>
      rw [accept_good a hup hcheck]
      unfold State.goodPacket
      split
      · exact (linkFault_line _ p .reset q).trans advanced
      · exact (line_of_entries (take_entries _ p _ _) q).trans advanced
      · rfl
      · rfl
      · rfl

/-! ## The end of a link's held packets (R131) -/

/-- The state with the overrun mark of a link cleared. -/
def State.unmarked (s : State) (p : Port) : State := s.setLink p { s.link p with overrun := false }

theorem unmarked_clock (s : State) (p : Port) : s.KeepsClock (s.unmarked p) := ⟨rfl, rfl, rfl, rfl, rfl⟩

theorem unmarked_overrun (s : State) (p q : Port) :
    ((s.unmarked p).link q).overrun = if q = p then false else (s.link q).overrun := by
  unfold State.unmarked
  rw [link_setLink]
  split <;> rfl

theorem endHeld_down {s : State} {p : Port} (h : (s.link p).up = false) : s.endHeld p = s.unmarked p := by
  unfold State.endHeld
  exact if_neg fun hc => Bool.false_ne_true (h.symm.trans hc.2)

theorem endHeld_overrun {s : State} {p : Port} (ho : (s.link p).overrun = true) (hup : (s.link p).up = true) :
    s.endHeld p = (s.unmarked p).linkFault p .sequence := by
  unfold State.endHeld
  exact if_pos ⟨ho, hup⟩

/-- After its last held packet a link has its mark cleared, and may have a link fault with it. -/
theorem endHeld_cases (s : State) (p : Port) :
    s.endHeld p = s.unmarked p ∨ s.endHeld p = (s.unmarked p).linkFault p .sequence := by
  unfold State.endHeld
  exact (ite_eq_or_eq _ _ _).symm

theorem endHeld_clock (s : State) (p : Port) : s.KeepsClock (s.endHeld p) := by
  rcases endHeld_cases s p with e | e <;> rw [e]
  · exact unmarked_clock s p
  · exact clock_trans (unmarked_clock s p) (linkFault_clock _ p (by decide))

theorem endHeld_line (s : State) (p q : Port) : ((s.endHeld p).link q).line = (s.link q).line := by
  have cleared : ((s.unmarked p).link q).line = (s.link q).line := line_setLink s p q rfl
  rcases endHeld_cases s p with e | e <;> rw [e]
  · exact cleared
  · exact (linkFault_line _ p .sequence q).trans cleared

theorem endHeld_marks (s : State) (p q : Port) :
    ((s.endHeld p).link q).overrun = if q = p then false else (s.link q).overrun := by
  rcases endHeld_cases s p with e | e <;> rw [e]
  · exact unmarked_overrun s p q
  · exact (linkFault_overrun _ p .sequence q).trans (unmarked_overrun s p q)

/-! ## The held packets one after another (R131, R171) -/

/-- One held packet taken, with those of the wake that come after it. -/
def State.takeOne (s : State) (x : Port × HeldPacket) (rest : List (Port × HeldPacket)) : State :=
  if rest.any (fun y => y.1 == x.1) then s.accept x.1 x.2.packet else (s.accept x.1 x.2.packet).endHeld x.1

theorem takeOne_clock (s : State) (x : Port × HeldPacket) (rest : List (Port × HeldPacket)) : s.KeepsClock (s.takeOne x rest) := by
  unfold State.takeOne
  split
  · exact accept_clock s x.1 x.2.packet
  · exact clock_trans (accept_clock s x.1 x.2.packet) (endHeld_clock _ x.1)

theorem takeOne_line (s : State) (x : Port × HeldPacket) (rest : List (Port × HeldPacket)) (q : Port) :
    ((s.takeOne x rest).link q).line = (s.link q).line := by
  unfold State.takeOne
  split
  · exact accept_line s x.1 x.2.packet q
  · exact (endHeld_line _ x.1 q).trans (accept_line s x.1 x.2.packet q)

/-- A link's mark goes with its last held packet. -/
theorem takeOne_marks (s : State) (x : Port × HeldPacket) (rest : List (Port × HeldPacket)) (q : Port) :
    ((s.takeOne x rest).link q).overrun =
      if q = x.1 ∧ rest.any (fun y => y.1 == x.1) = false then false else (s.link q).overrun := by
  unfold State.takeOne
  split
  · next more => rw [accept_overrun, if_neg fun hc => Bool.false_ne_true (hc.2.symm.trans more)]
  · next last => simp [endHeld_marks, accept_overrun, Bool.eq_false_iff.2 last]

/-- The state after the first `n` held packets of a list. -/
def wakeTrace : List (Port × HeldPacket) → State → Nat → State
  | [], s, _ => s
  | _ :: _, s, 0 => s
  | x :: rest, s, n + 1 => wakeTrace rest (s.takeOne x rest) n

@[simp] theorem wakeTrace_zero (order : List (Port × HeldPacket)) (s : State) : wakeTrace order s 0 = s := by
  cases order <;> rfl

theorem wakeTrace_length : ∀ (order : List (Port × HeldPacket)) (s : State),
    wakeTrace order s order.length = State.takeHeld order s
  | [], _ => rfl
  | x :: rest, s => wakeTrace_length rest (s.takeOne x rest)

theorem wakeTrace_succ {x : Port × HeldPacket} {order : List (Port × HeldPacket)} {i : Nat} (s : State) (h : order[i]? = some x) :
    wakeTrace order s (i + 1) = (wakeTrace order s i).takeOne x (order.drop (i + 1)) := by
  induction order generalizing s i with
  | nil => simp at h
  | cons y rest ih =>
    cases i with
    | zero =>
      obtain rfl : y = x := by simpa using h
      exact wakeTrace_zero rest _
    | succ i => exact ih (s.takeOne y rest) (by simpa using h)

/-- What holds before every held packet holds before each of them. -/
theorem wakeTrace_keeps {P : List (Port × HeldPacket) → State → Prop}
    (one : ∀ {x rest} {s : State}, P (x :: rest) s → P rest (s.takeOne x rest)) :
    ∀ {order : List (Port × HeldPacket)} {s : State} (i : Nat), P order s → P (order.drop i) (wakeTrace order s i)
  | [], s, i, h => by simpa [wakeTrace] using h
  | x :: rest, s, 0, h => h
  | x :: rest, s, i + 1, h => wakeTrace_keeps one i (one h)

/-- A state on the way through the held packets: the part is ACTIVE, carrier is present for those that are left, and a link's overrun mark
stands until its last one has been taken. -/
structure State.Waking (marked : Port → Bool) (left : List (Port × HeldPacket)) (s : State) : Prop where
  mode : s.mode = .active
  carrier : ∀ x ∈ left, (s.link x.1).carrier = true
  marks : ∀ p, (s.link p).overrun = (marked p && left.any (fun x => x.1 == p))

theorem carrier_of_line {l m : Link} (h : l.line = m.line) : l.carrier = m.carrier := congrArg Prod.fst h

theorem held_of_line {l m : Link} (h : l.line = m.line) : l.held = m.held := congrArg Prod.snd h

theorem waking_takeOne {marked : Port → Bool} {x : Port × HeldPacket} {rest : List (Port × HeldPacket)} {s : State}
    (w : s.Waking marked (x :: rest)) : (s.takeOne x rest).Waking marked rest := by
  refine ⟨?_, fun y hy => ?_, fun p => ?_⟩
  · exact (congrArg ModeController.mode (takeOne_clock s x rest).modeCtl).trans w.mode
  · exact (carrier_of_line (takeOne_line s x rest y.1)).trans (w.carrier y (List.mem_cons_of_mem _ hy))
  · rw [takeOne_marks, w.marks, List.any_cons]
    by_cases hp : p = x.1
    · subst hp
      cases rest.any (fun y => y.1 == x.1) <;> simp
    · have other : (x.1 == p) = false := beq_false_of_ne (Ne.symm hp)
      simp [hp, other]

/-- A held packet is taken as though it had just arrived in mode ACTIVE, and its link's overrun mark acts with the last of them (R131,
log 17). -/
theorem takeOne_waking {marked : Port → Bool} {x : Port × HeldPacket} {rest : List (Port × HeldPacket)} {s : State}
    (w : s.Waking marked (x :: rest)) {taken : State} (ht : taken = s.receive x.1 x.2.packet) :
    (marked x.1 = false ∨ (∃ y ∈ rest, y.1 = x.1) → s.takeOne x rest = taken)
      ∧ (marked x.1 = true → (∀ y ∈ rest, y.1 ≠ x.1) →
          ((taken.link x.1).up = false → s.takeOne x rest = taken.unmarked x.1)
            ∧ ((taken.link x.1).up = true → (taken.unmarked x.1).faulted (s.takeOne x rest) x.1 .sequence)) := by
  have arrived : taken = s.accept x.1 x.2.packet :=
    ht.trans (receive_listens ⟨Or.inr w.mode, w.carrier x List.mem_cons_self⟩ _)
  have mark : (taken.link x.1).overrun = marked x.1 := by rw [arrived, accept_overrun, w.marks]; simp
  have more : rest.any (fun y => y.1 == x.1) = true ↔ ∃ y ∈ rest, y.1 = x.1 := by simp
  unfold State.takeOne
  rw [← arrived]
  refine ⟨fun h => ?_, fun hm last => ?_⟩
  · by_cases hr : ∃ y ∈ rest, y.1 = x.1
    · rw [if_pos (more.2 hr)]
    · rw [if_neg (mt more.1 hr), endHeld_unmarked (mark.trans (h.resolve_right hr))]
  · rw [if_neg (mt more.1 fun ⟨y, hy, e⟩ => last y hy e)]
    refine ⟨endHeld_down, fun hup => ?_⟩
    rw [endHeld_overrun (mark.trans hm) hup]
    exact linkFault_faulted _ x.1 .sequence

/-! ## The order of the arrivals (R131) -/

/-- A list of packets with their ports is the four ports' packets, one port after another. -/
theorem ports_perm (order : List (Port × HeldPacket)) :
    order.Perm (allFour.flatMap (fun p => order.filter (fun x => x.1 == p))) := by
  refine List.perm_iff_count.2 fun x => ?_
  have one (p : Port) : (order.filter (fun y => y.1 == p)).count x = if x.1 = p then order.count x else 0 := by
    split
    · next h => exact List.count_filter (by simpa using h)
    · next h => exact List.count_eq_zero.2 fun hm => h (by simpa using (List.mem_filter.1 hm).2)
  have places : ∀ p : Port, p = 0 ∨ p = 1 ∨ p = 2 ∨ p = 3 := by decide
  simp only [allFour, List.flatMap_cons, List.flatMap_nil, List.count_append, List.count_nil, one]
  rcases places x.1 with h | h | h | h <;> rw [h] <;> simp

theorem heldOrder_eq {s : State} {order : List (Port × HeldPacket)} (rising : order.Pairwise (fun x y => x.2.stamp < y.2.stamp))
    (held : ∀ p, (s.link p).held = (order.filter (fun x => x.1 == p)).map (fun x => x.2)) : s.heldOrder = order := by
  have own (p : Port) : (s.link p).held.map (fun h => (p, h)) = order.filter (fun x => x.1 == p) := by
    rw [held, List.map_map]
    refine (List.map_congr_left fun x hx => ?_).trans (List.map_id _)
    have hp : x.1 = p := by simpa using (List.mem_filter.1 hx).2
    exact Prod.ext hp.symm rfl
  unfold State.heldOrder
  simp only [own]
  exact sortBy_eq (ports_perm order) rising

/-! ## The wake's end -/

theorem awake_link (s : State) (p : Port) : s.awake.link p = { s.link p with held := [] } := four_get_map _ s.links p

/-- The marks that are left after the held packets are cleared, and with none left nothing is done. -/
theorem endAllHeld_marks (s : State) (p : Port) : ((allFour.foldl (fun s q => s.endHeld q) s).link p).overrun = false := by
  simp only [allFour, List.foldl_cons, List.foldl_nil, endHeld_marks]
  fin_cases p <;> rfl

theorem endAllHeld_unmarked {s : State} (h : ∀ p, (s.link p).overrun = false) : allFour.foldl (fun s q => s.endHeld q) s = s := by
  simp only [allFour, List.foldl_cons, List.foldl_nil, endHeld_unmarked (h _)]

/-- The held packets and the marks' ends, before the retention entry condition is evaluated. -/
def State.wakened (s : State) : State := allFour.foldl (fun s q => s.endHeld q) (State.takeHeld s.heldOrder s.awake)

theorem takeHeld_keeps_clock : ∀ (order : List (Port × HeldPacket)) (s : State),
    s.KeepsClock (State.takeHeld order s) ∧ ∀ p, ((State.takeHeld order s).link p).line = (s.link p).line
  | [], s => ⟨clock_refl s, fun _ => rfl⟩
  | x :: rest, s => by
    obtain ⟨clock, line⟩ := takeHeld_keeps_clock rest (s.takeOne x rest)
    exact ⟨clock_trans (takeOne_clock s x rest) clock, fun p => (line p).trans (takeOne_line s x rest p)⟩

theorem wakened_clock (s : State) : s.awake.KeepsClock s.wakened :=
  foldl_keeps (P := fun t => s.awake.KeepsClock t) (fun t p h => clock_trans h (endHeld_clock t p)) allFour
    (takeHeld_keeps_clock s.heldOrder s.awake).1

theorem wakened_held (s : State) (p : Port) : (s.wakened.link p).held = [] := by
  have line : (s.wakened.link p).line = (s.awake.link p).line :=
    foldl_keeps (P := fun t => (t.link p).line = (s.awake.link p).line) (fun t q h => (endHeld_line t q p).trans h) allFour
      ((takeHeld_keeps_clock s.heldOrder s.awake).2 p)
  rw [held_of_line line, awake_link]

theorem wakeCompletion_exec {s : State} {e : Nat} (h : s.modeCtl.wakeEndsAt = some e) :
    exec .wakeCompletion s = .next (s.reach e).wakened.enterRetention := by
  show execWakeCompletion s = _
  unfold execWakeCompletion
  rw [h]
  exact congrArg Host.Outcome.next (finishWake_eq (s.reach e))

/-- Retention entry makes of the mode controller the same with another mode, and only in ACTIVE. -/
theorem enterRetention_modeCtl (s : State) : s.enterRetention.modeCtl = s.modeCtl
    ∨ s.enterRetention.modeCtl = { s.modeCtl with mode := .retention } := by
  unfold State.enterRetention
  split
  · exact Or.inr rfl
  · exact Or.inl rfl

theorem wakened_nothing {s : State} (h : ∀ p, (s.link p).held = [] ∧ (s.link p).overrun = false) : s.wakened =
    { s with modeCtl := { s.modeCtl with mode := .active, wakeEndsAt := none } } := by
  have none : s.heldOrder = [] := by
    refine heldOrder_eq List.Pairwise.nil fun p => ?_
    exact (h p).1
  have links : s.links.map (fun l => { l with held := [] }) = s.links := four_ext fun p => by
    rw [four_get_map]
    show { s.link p with held := [] } = s.link p
    rw [← (h p).1]
  unfold State.wakened
  rw [none]
  refine (endAllHeld_unmarked fun p => ?_).trans ?_
  · exact (congrArg Link.overrun (awake_link s p)).trans (h p).2
  · show s.awake = _
    unfold State.awake
    rw [links]

/-- The trace of a wake: it begins with the part awake and ends with no overrun mark left. -/
theorem wakened_trace {s : State} {order : List (Port × HeldPacket)} (rising : order.Pairwise (fun x y => x.2.stamp < y.2.stamp))
    (held : ∀ p, (s.link p).held = (order.filter (fun x => x.1 == p)).map (fun x => x.2))
    (carrier : ∀ x ∈ order, (s.link x.1).carrier = true) (full : ∀ p, (s.link p).overrun = true → (s.link p).held ≠ []) :
    s.wakened = wakeTrace order s.awake order.length
      ∧ ∀ i, (wakeTrace order s.awake i).Waking (fun p => (s.link p).overrun) (order.drop i) := by
  have start : s.awake.Waking (fun p => (s.link p).overrun) order := by
    refine ⟨rfl, fun x hx => ?_, fun p => ?_⟩
    · rw [awake_link]
      exact carrier x hx
    · rw [awake_link]
      cases ho : (s.link p).overrun with
      | false => exact (Bool.false_and _).symm
      | true =>
        have some := full p ho
        rw [held] at some
        obtain ⟨x, hx⟩ := List.exists_mem_of_ne_nil _ (List.map_eq_nil_iff.not.1 some)
        obtain ⟨hm, hp⟩ := List.mem_filter.1 hx
        have any : order.any (fun x => x.1 == p) = true := List.any_eq_true.2 ⟨x, hm, hp⟩
        exact any.symm
  have all (i : Nat) := wakeTrace_keeps (P := fun left u => u.Waking (fun p => (s.link p).overrun) left) waking_takeOne i start
  refine ⟨?_, all⟩
  have last := all order.length
  unfold State.wakened
  rw [heldOrder_eq rising held, ← wakeTrace_length]
  refine endAllHeld_unmarked fun p => ?_
  rw [last.marks, List.drop_length]
  exact Bool.and_false _

/-- Settles O14: the held packets in their order, each in a state that is still ACTIVE, so that it is taken as it would be on arrival. -/
theorem wakeCompletionTakesHeldPackets : Obligations.WakeCompletionTakesHeldPackets := by
  unfold Obligations.WakeCompletionTakesHeldPackets
  intro s e he
  have clock := wakened_clock (s.reach e)
  obtain ⟨now, array, timer, -, pending⟩ := enterRetention_store (s.reach e).wakened
  refine ⟨_, wakeCompletion_exec he, ?_, ?_, fun p => ?_, now.trans clock.now, array.trans clock.array, timer.trans clock.timer,
    pending.trans clock.pending, fun nothing => ?_, fun order rising held carrier full => ?_⟩
  · rcases enterRetention_modeCtl (s.reach e).wakened with m | m <;> rw [m, clock.modeCtl] <;> rfl
  · unfold State.mode
    rcases enterRetention_modeCtl (s.reach e).wakened with m | m <;> rw [m, clock.modeCtl]
    · exact Or.inl rfl
    · exact Or.inr rfl
  · unfold State.link
    rw [enterRetention_links]
    exact ⟨wakened_held (s.reach e) p, endAllHeld_marks _ p⟩
  · rw [wakened_nothing (s := s.reach e) nothing]
    rfl
  · obtain ⟨ends, waking⟩ := wakened_trace (s := s.reach e) rising held carrier full
    refine ⟨wakeTrace order (s.reach e).awake, wakeTrace_zero _ _, congrArg State.enterRetention ends, fun i x taken hx ht => ?_⟩
    have left : order.drop i = x :: order.drop (i + 1) := by
      obtain ⟨hi, rfl⟩ := List.getElem?_eq_some_iff.1 hx
      exact List.drop_eq_getElem_cons hi
    have here := waking i
    rw [left] at here
    obtain ⟨plain, overrun⟩ := takeOne_waking here ht
    rw [wakeTrace_succ _ hx]
    refine ⟨plain, fun hm last unmarked hu => ?_⟩
    rw [hu]
    exact overrun hm last

end Sys2Proof.Machine
end
section
/-!
SUPPORT. CLEAR_COMPLETION: the quad zeroed and offered, then the refresh arbiter's choice, which takes cleared quads only, and the start of
the next quad's clear (R17, R91, R166, R167).
-/

namespace Sys2Proof.Machine

open Sys2Proof

/-! ## The quad zeroed -/

/-- A state whose clear of a quad has ended, before its banks are offered for queue service. -/
def State.zeroed (s : State) (q : Quad) : State :=
  State.setQuadPhase
    { s with
      array := s.array.clearQuad q
      modeCtl := { s.modeCtl with clearStates := s.modeCtl.clearStates.set q .cleared, clearRun := none }
      quads := s.quads.set q { debt := 0, state := .current, lapse := (s.quad q).lapse } } q .closed

theorem finishClear_eq (s : State) (q : Quad) : s.finishClear q = (s.zeroed q).serveQuad q := rfl

theorem zeroed_bank (s : State) (q : Quad) (b : Bank) :
    (s.zeroed q).bank b = if groupOf b = q then { s.bank b with phase := .closed } else s.bank b :=
  bank_setQuadPhase _ q .closed b

theorem zeroed_clearState (s : State) (q r : Quad) : (s.zeroed q).clearState r = if r = q then .cleared else s.clearState r :=
  four_get_set ..

theorem zeroed_cleared (s : State) (q : Quad) : (s.zeroed q).cleared q = true := by
  simp [State.cleared, zeroed_clearState]

theorem zeroed_current (s : State) (q : Quad) : ((s.zeroed q).quad q).state = .current :=
  congrArg QuadAccount.state (quad_setQuad_same s q _)

/-- The offer at the end of a clear changes banks and stamps alone. -/
theorem finishClear_frame (s : State) (q : Quad) : s.finishClear q =
    { s.zeroed q with banks := (s.finishClear q).banks, stamp := (s.finishClear q).stamp } := serveQuad_grants (s.zeroed q) q

theorem finishClear_modeCtl (s : State) (q : Quad) : (s.finishClear q).modeCtl = (s.zeroed q).modeCtl := by rw [finishClear_frame]

theorem finishClear_clearState (s : State) (q r : Quad) :
    (s.finishClear q).clearState r = if r = q then .cleared else s.clearState r := by
  unfold State.clearState
  rw [finishClear_modeCtl]
  exact zeroed_clearState s q r

theorem finishClear_bank_other (s : State) {q : Quad} {b : Bank} (hb : groupOf b ≠ q) : (s.finishClear q).bank b = s.bank b := by
  rw [finishClear_eq, serveQuad_bank_ne _ q b hb, zeroed_bank, if_neg hb]

theorem finishClear_bank_unwaited {s : State} {q : Quad} {b : Bank} (hb : groupOf b = q) (h : (s.bank b).waitQueue = []) :
    (s.finishClear q).bank b = { s.bank b with phase := .closed } := by
  have own : (s.zeroed q).bank b = { s.bank b with phase := .closed } := (zeroed_bank s q b).trans (if_pos hb)
  rw [finishClear_eq, serveQuad_unserved hb (Or.inl (by rw [own]; exact h)), own]

theorem finishClear_bank_served {s : State} {q : Quad} {b : Bank} {w : WaitEntry} (hb : groupOf b = q) (h : s.servedFirst b w) :
    (s.bank b).grantedTo ((s.finishClear q).bank b) w s.now := by
  have own : (s.zeroed q).bank b = { s.bank b with phase := .closed } := (zeroed_bank s q b).trans (if_pos hb)
  have served : (s.zeroed q).servedFirst b w := by
    unfold State.servedFirst
    rw [own]
    exact h
  have granted := serveQuad_served hb (congrArg BankRecord.phase own) (zeroed_cleared s q) (zeroed_current s q) served
  rw [own] at granted
  exact granted

/-! ## The choices after it -/

/-- The refresh arbiter leaves the banks of a quad that is not cleared alone (R89). -/
theorem refreshChoice_bank_uncleared {s : State} {b : Bank} (h : s.cleared (groupOf b) = false) : s.refreshChoice.bank b = s.bank b := by
  rcases refreshChoice_eligible s with e | ⟨q, -, eligible, e⟩ <;> rw [e]
  obtain ⟨cleared, -⟩ := (eligible_iff s q).1 eligible
  have other : groupOf b ≠ q := fun hq => Bool.false_ne_true (h.symm.trans (hq ▸ cleared))
  exact (bank_setQuadPhase s q .refreshing b).trans (if_neg other)

/-- A clear starts on an UNCLEARED quad only. -/
theorem tryClearStart_cleared {s : State} {q : Quad} (h : s.clearState q = .cleared) : s.tryClearStart.clearState q = .cleared := by
  rcases tryClearStart_cases s with e | ⟨r, -, -, uncleared, -, e⟩ <;> rw [e]
  · exact h
  · have other : q ≠ r := fun hq => by rw [← hq, h] at uncleared; cases uncleared
    exact (four_get_set ..).trans ((if_neg other).trans h)

theorem tryClearStart_mode (s : State) : s.tryClearStart.mode = s.mode := by
  rcases tryClearStart_cases s with e | ⟨q, -, -, -, -, e⟩ <;> rw [e]
  rfl

theorem afterClear_next (s : State) {q : Quad} (h : q ≠ 3) : s.afterClear q = s.tryClearStart := if_neg h

/-- What follows the offer of a clear changes, besides the banks, the mode controller and the refresh, only the clear epoch that marks
a start. -/
theorem afterClear_frame (s : State) (q : Quad) : (s.refreshChoice.afterClear q).enterRetention =
    { s with
      banks := (s.refreshChoice.afterClear q).enterRetention.banks
      modeCtl := (s.refreshChoice.afterClear q).enterRetention.modeCtl
      refresh := (s.refreshChoice.afterClear q).enterRetention.refresh
      marks := (s.refreshChoice.afterClear q).enterRetention.marks
      array := { s.array with epoch := (s.refreshChoice.afterClear q).enterRetention.array.epoch } } := by
  have after : s.refreshChoice.afterClear q =
      { s.refreshChoice with
        banks := (s.refreshChoice.afterClear q).banks
        modeCtl := (s.refreshChoice.afterClear q).modeCtl
        array := { s.refreshChoice.array with epoch := (s.refreshChoice.afterClear q).array.epoch } } := by
    by_cases h : q = 3
    · subst h
      rfl
    · rw [afterClear_next _ h]
      exact tryClearStart_frame _
  rw [enterRetention_frame, after, refreshChoice_frame]

theorem afterClear_bank_of_not_closed {s : State} {q : Quad} {b : Bank} (h : (s.bank b).phase ≠ .closed) :
    (s.refreshChoice.afterClear q).enterRetention.bank b = s.bank b := by
  have chosen : s.refreshChoice.bank b = s.bank b := refreshChoice_bank_of_not_closed h
  rw [enterRetention_bank]
  by_cases hq : q = 3
  · subst hq
    exact chosen
  · rw [afterClear_next _ hq, tryClearStart_bank_of_not_closed (by rw [chosen]; exact h), chosen]

theorem enterRetention_clearStates (s : State) : s.enterRetention.modeCtl.clearStates = s.modeCtl.clearStates := by
  rcases enterRetention_modeCtl s with e | e <;> rw [e]

theorem refreshChoice_clearState (s : State) (q : Quad) : s.refreshChoice.clearState q = s.clearState q := by
  unfold State.clearState
  rw [refreshChoice_modeCtl]

theorem afterClear_cleared {s : State} {q r : Quad} (h : s.clearState r = .cleared) :
    (s.refreshChoice.afterClear q).enterRetention.clearState r = .cleared := by
  have chosen : s.refreshChoice.clearState r = .cleared := (refreshChoice_clearState s r).trans h
  unfold State.clearState
  rw [enterRetention_clearStates]
  by_cases hq : q = 3
  · subst hq
    exact chosen
  · rw [afterClear_next _ hq]
    exact tryClearStart_cleared chosen

/-- Before quad 3 the mode stays CLEARING, in which the part does not enter retention mode. -/
theorem afterClear_stays {s : State} {q : Quad} (hq : q ≠ 3) (hmode : s.mode = .clearing) :
    (s.refreshChoice.afterClear q).mode = .clearing
      ∧ (s.refreshChoice.afterClear q).enterRetention = s.refreshChoice.afterClear q := by
  have mode : (s.refreshChoice.afterClear q).mode = .clearing := by
    rw [afterClear_next _ hq, tryClearStart_mode]
    unfold State.mode
    rw [refreshChoice_modeCtl]
    exact hmode
  exact ⟨mode, enterRetention_not_active (by rw [mode]; decide)⟩

/-! ## The next quad's clear -/

/-- After the clear of a quad the next one is due, where it is UNCLEARED and its banks are CLOSED. -/
theorem finishClear_next_due {s : State} {q r : Quad} (hmode : s.mode = .clearing) (next : q.val = r.val + 1)
    (below : ∀ x : Quad, x < r → s.cleared x = true) (uncleared : s.clearState q = .uncleared) (closed : s.quadClosed q = true) :
    (s.finishClear r).refreshChoice.clearDue q := by
  have other : q ≠ r := fun h => by rw [h] at next; omega
  have state : (s.finishClear r).clearState q = .uncleared := by rw [finishClear_clearState, if_neg other, uncleared]
  refine ⟨?_, fun x hx => ?_, (refreshChoice_clearState _ q).trans state, fun b hb => ?_⟩
  · unfold State.mode
    rw [refreshChoice_modeCtl, finishClear_modeCtl]
    exact hmode
  · have cleared : (s.finishClear r).clearState x = .cleared := by
      rw [finishClear_clearState]
      split
      · rfl
      · next hx' =>
        have hlt : x < r := lt_of_le_of_ne (Fin.le_def.2 (by have := Fin.lt_def.1 hx; omega)) hx'
        simpa [State.cleared] using below x hlt
    simp [State.cleared, refreshChoice_clearState, cleared]
  · rw [refreshChoice_bank_uncleared (by simp [State.cleared, hb, state]), finishClear_bank_other s (hb ▸ other)]
    exact (quadClosed_iff s q).1 closed b hb

theorem clearBegun_run {s t : State} {q : Quad} (h : s.clearBegun t q) : t.clearState q = .clearing
    ∧ (∀ b, groupOf b = q → (t.bank b).phase = .clearing)
    ∧ t.modeCtl.clearRun.map (fun x => (x.quad, x.startedAt)) = some (q, s.now) := by
  obtain ⟨-, modeCtl, run, bank⟩ := h
  refine ⟨?_, fun b hb => by rw [bank, if_pos hb], run⟩
  unfold State.clearState
  rw [modeCtl]
  exact four_get_set_same ..

/-! ## The units -/

/-- A zero unit none of whose bits has changed is clean and holds zero. -/
theorem zeroUnit_clean {x : UnitBits} (h : x = { written := 0, changedData := 0, changedCheck := 0 }) :
    x.data = 0 ∧ x.verdict = .clean := by
  have unchanged : x.changed = 0 := by
    rw [h]
    simp [UnitBits.changed, countBits_zero]
  refine ⟨?_, ?_⟩
  · rw [h]
    exact BitVec.xor_self
  · unfold UnitBits.verdict
    rw [unchanged]
    rfl

/-! ## The obligation -/

/-- The state at the end of a clear, its banks offered. -/
def State.clearOffered (s : State) (r : ClearRun) : State := (s.reach (r.startedAt + 2600000)).finishClear r.quad

/-- The same after the choices of the refresh arbiter and of the mode controller. -/
def State.clearChosen (s : State) (r : ClearRun) : State := (s.clearOffered r).refreshChoice.afterClear r.quad

section
variable (s : State) (r : ClearRun)

theorem clearOffered_frame : s.clearOffered r =
    { s with
      now := max s.now (r.startedAt + 2600000)
      modeCtl := { s.modeCtl with clearStates := s.modeCtl.clearStates.set r.quad .cleared, clearRun := none }
      quads := s.quads.set r.quad { debt := 0, state := .current, lapse := (s.quad r.quad).lapse }
      array := s.array.clearQuad r.quad, banks := (s.clearOffered r).banks, stamp := (s.clearOffered r).stamp } :=
  finishClear_frame (s.reach (r.startedAt + 2600000)) r.quad

theorem clearChosen_frame : (s.clearChosen r).enterRetention =
    { s.clearOffered r with
      banks := (s.clearChosen r).enterRetention.banks
      modeCtl := (s.clearChosen r).enterRetention.modeCtl
      refresh := (s.clearChosen r).enterRetention.refresh
      marks := (s.clearChosen r).enterRetention.marks
      array := { s.array.clearQuad r.quad with epoch := (s.clearChosen r).enterRetention.array.epoch } } := by
  have array : (s.clearOffered r).array = s.array.clearQuad r.quad := by rw [clearOffered_frame]
  rw [← array]
  exact afterClear_frame (s.clearOffered r) r.quad

variable {r}

theorem clearChosen_last (hq : r.quad = 3) : s.clearChosen r = (s.clearOffered r).refreshChoice.setMode .active := if_pos hq

theorem clearChosen_next (hq : r.quad ≠ 3) : s.clearChosen r = (s.clearOffered r).refreshChoice.tryClearStart := if_neg hq

end

theorem clearCompletion_exec {s : State} {r : ClearRun} (hr : s.modeCtl.clearRun = some r) :
    exec .clearCompletion s = .next (s.clearChosen r).enterRetention := by
  show execClearCompletion s = _
  unfold execClearCompletion
  rw [hr]
  rfl

/-- After quad 3 the mode is ACTIVE or, upon the retention entry condition, RETENTION. -/
theorem clearChosen_mode_last (s : State) {r : ClearRun} (hq : r.quad = 3) :
    (s.clearChosen r).enterRetention.mode = .active ∨ (s.clearChosen r).enterRetention.mode = .retention := by
  rw [clearChosen_last s hq]
  unfold State.mode
  rcases enterRetention_modeCtl ((s.clearOffered r).refreshChoice.setMode .active) with e | e <;> rw [e]
  · exact Or.inl rfl
  · exact Or.inr rfl

/-- Before quad 3 the mode stays CLEARING. -/
theorem clearChosen_stays {s : State} {r : ClearRun} (hq : r.quad ≠ 3) (hmode : s.mode = .clearing) :
    (s.clearChosen r).mode = .clearing ∧ (s.clearChosen r).enterRetention = s.clearChosen r :=
  afterClear_stays hq ((congrArg ModeController.mode (finishClear_modeCtl _ r.quad)).trans hmode)

/-- Settles O47: the zeroed quad is offered before the choices that follow, which leave a granted bank and the next, UNCLEARED quad
alone. -/
theorem clearCompletionZeroesTheQuad : Obligations.ClearCompletionZeroesTheQuad := by
  unfold Obligations.ClearCompletionZeroesTheQuad
  intro s r hr hmode law
  have frame := clearChosen_frame s r
  have now : (s.clearChosen r).enterRetention.now = (s.clearOffered r).now := by rw [frame]
  have units (u : Nat) : (s.clearChosen r).enterRetention.array.unit u = (s.array.clearQuad r.quad).unit u := by rw [frame]; rfl
  have unit (u : Nat) (hu : quadOfUnit u = r.quad) := (units u).trans ((unit_clearQuad law r.quad u).trans (if_pos hu))
  refine ⟨_, s.clearOffered r, s.clearChosen r, clearCompletion_exec hr, rfl, fun hq => ?_, fun hq => ?_, ?_,
    fun b hb => finishClear_bank_other (s.reach _) hb, fun b hb hw => finishClear_bank_unwaited (s := s.reach _) hb hw,
    fun b w hb served => ?_, now, afterClear_cleared ((finishClear_clearState _ _ _).trans (if_pos rfl)),
    clearChosen_mode_last s, fun hq => ?_, fun u hu => ⟨unit u hu, fun hd hc => ?_⟩,
    fun u hu => (units u).trans ((unit_clearQuad law r.quad u).trans (if_neg hu)), ?_,
    fun q next below uncleared closed => ?_, ?_⟩
  · rw [clearChosen_last s hq]
    unfold State.setMode
    rw [refreshChoice_modeCtl]
  · rw [clearChosen_next s hq]
    exact tryClearStart_evaluated _
  · rw [clearOffered_frame]
  · have granted : (s.bank b).grantedTo ((s.clearOffered r).bank b) w (max s.now (r.startedAt + 2600000)) :=
      finishClear_bank_served (s := s.reach (r.startedAt + 2600000)) hb served
    have opening : ((s.clearOffered r).bank b).phase = .opening := by
      obtain ⟨joins, -, e, -⟩ := granted
      rw [e]
    refine ⟨?_, afterClear_bank_of_not_closed (by rw [opening]; decide)⟩
    rw [now, clearOffered_frame]
    exact granted
  · obtain ⟨mode, stays⟩ := clearChosen_stays hq hmode
    rw [stays]
    exact ⟨rfl, mode⟩
  · have zero := unit u hu
    rw [hd, hc] at zero
    exact zeroUnit_clean zero
  · rw [frame]
    rfl
  · have hq : r.quad ≠ 3 := fun h => by rw [h] at next; omega
    have due : (s.clearOffered r).refreshChoice.clearDue q := finishClear_next_due (s := s.reach _) hmode next below uncleared closed
    obtain ⟨begun, -⟩ := tryClearStart_evaluated (s.clearOffered r).refreshChoice
    have started := clearBegun_run (begun q due)
    obtain ⟨-, stays⟩ := clearChosen_stays hq hmode
    rw [refreshChoice_now, ← clearChosen_next s hq, ← stays, ← now] at started
    exact started
  · rw [frame, clearOffered_frame]
    exact ⟨rfl, rfl, rfl, rfl, rfl, rfl, rfl⟩

end Sys2Proof.Machine
end
section
/-!
SUPPORT. RESET_N fall at every block. Once the sessions are torn down and the queues emptied, no step that follows can send or queue
anything: such a state is at rest, and the later steps change bank records, accounts and the executing burst alone (R172).
-/

namespace Sys2Proof.Machine

open Sys2Proof

/-! ## States at rest -/

/-- No session takes answers or notices, no burst is queued, and no bank has an entry waiting or an upgrade pending. -/
structure State.AtRest (s : State) : Prop where
  silent : ∀ p, s.answerable p = false
  queue : ∀ p, s.burstQueue p = []
  bank : ∀ b, (s.bank b).waitQueue = [] ∧ (s.bank b).upgrade = none ∧ (s.bank b).lastGranted = 3

/-- `t` is at rest, and differs from `s` in bank records and quad accounts alone. -/
structure State.RestsIn (s t : State) : Prop where
  rest : t.AtRest
  frame : t = { s with banks := t.banks, quads := t.quads }

theorem restsIn_trans {s t u : State} (h1 : s.RestsIn t) (h2 : t.RestsIn u) : s.RestsIn u := by
  refine ⟨h2.rest, h2.frame.trans ?_⟩
  rw [h1.frame]

@[simp] theorem left_lastGranted (r : BankRecord) (now : Nat) : (r.left now).lastGranted = r.lastGranted := by
  unfold BankRecord.left
  split
  · split <;> rfl
  · rfl

section
variable {s : State} (h : s.AtRest)
include h

theorem restsIn_setBank (b : Bank) {r : BankRecord} (hr : r.waitQueue = [] ∧ r.upgrade = none ∧ r.lastGranted = 3) :
    s.RestsIn (s.setBank b r) := by
  refine ⟨⟨h.silent, h.queue, fun c => ?_⟩, rfl⟩
  rw [bank_setBank]
  split
  · exact hr
  · exact h.bank c

theorem restsIn_left (b : Bank) (hs : List HoldRecord) (now : Nat) :
    s.RestsIn (s.setBank b (BankRecord.left { s.bank b with holds := hs } now)) := by
  obtain ⟨waits, upgrade, last⟩ := h.bank b
  exact restsIn_setBank h b ⟨(left_waitQueue _ _).trans waits, (left_upgrade _ _).trans upgrade, (left_lastGranted _ _).trans last⟩

theorem answerTag_rest (p : Port) (t : Option Tag) (a : Answer) : s.answerTag p t a = s := by
  cases t with
  | none => rfl
  | some t => exact if_neg (by rw [h.silent p]; decide)

theorem notify_rest (p : Port) (e : OutEntry) : s.notify p e = s := if_neg (by rw [h.silent p]; decide)

theorem removeBankBursts_rest (p : Port) (b : Bank) (a : Answer) : s.removeBankBursts p b a = s := by
  have queue : s.bursts.queues.get p = [] := h.queue p
  have kept : s.bursts.queues.set p [] = s.bursts.queues := by
    have same := four_set_get s.bursts.queues p
    rwa [queue] at same
  unfold State.removeBankBursts State.setBurstQueue
  rw [h.queue p]
  show ({ s with bursts := { s.bursts with queues := s.bursts.queues.set p [] } } : State) = s
  rw [kept]

theorem revokeRecord_rest (b : Bank) (x : HoldRecord) : (revokeRecord b s x).1 = s := by
  unfold revokeRecord
  rw [answerTag_rest h, notify_rest h]
  split_ifs <;> rfl

theorem sweep_rest (b : Bank) : ∀ hs : List HoldRecord, (sweep (revokeRecord b) hs s).1 = s
  | [] => rfl
  | x :: hs => by
    unfold sweep
    simp only [revokeRecord_rest h b x]
    exact sweep_rest b hs

/-- At FORCED entry a bank of a state at rest is left by records, or has them marked, without an answer or a notice. -/
theorem revokeBank_rest (b : Bank) : s.RestsIn (s.revokeBank b) := by
  obtain ⟨-, upgrade, -⟩ := h.bank b
  have emptied : allFour.foldl (fun s p => s.removeBankBursts p b .revoked) s = s := by
    simp only [allFour, List.foldl_cons, List.foldl_nil, removeBankBursts_rest h]
  have revoked : s.revokeBank b =
      s.setBank b (BankRecord.left { s.bank b with holds := (sweep (revokeRecord b) (s.bank b).holds s).2 } s.now) := by
    unfold State.revokeBank
    rw [emptied]
    simp only [upgrade, sweep_rest h]
    rw [afterLeaving_of_no_upgrade (by rw [bank_setBank_same]), bank_setBank_same, setBank_setBank]
    rfl
  rw [revoked]
  exact restsIn_left h b _ _

theorem reclaimBank_rest (b : Bank) (debt : Int) : s.reclaimBank b debt = s := by
  unfold State.reclaimBank
  induction (s.bank b).holds with
  | nil => rfl
  | cons x hs ih =>
    rw [List.foldl_cons, notify_rest h, ite_self]
    exact ih

theorem reclaimQuad_rest (q : Quad) : s.reclaimQuad q = s := by
  unfold State.reclaimQuad
  generalize (s.quad q).debt = debt
  induction quadBanks q with
  | nil => rfl
  | cons b bs ih =>
    rw [List.foldl_cons, reclaimBank_rest h]
    exact ih

end

theorem restsIn_foldl {α : Type} {f : State → α → State} (hf : ∀ {s : State} x, s.AtRest → s.RestsIn (f s x)) :
    ∀ (xs : List α) {s : State}, s.AtRest → s.RestsIn (xs.foldl f s)
  | [], _, h => ⟨h, rfl⟩
  | x :: xs, _, h => restsIn_trans (hf x h) (restsIn_foldl hf xs (hf x h).rest)

theorem setMaintenance_rest {s : State} (h : s.AtRest) (q : Quad) (m : Maintenance) : s.RestsIn (s.setMaintenance q m) :=
  ⟨⟨h.silent, h.queue, h.bank⟩, rfl⟩

theorem evaluateQuad_rest_in {s : State} (h : s.AtRest) (q : Quad) : s.RestsIn (s.evaluateQuad q) := by
  have set := setMaintenance_rest h q (maintenanceOf s.config.reclaimLevel (s.quad q).debt)
  have revoked := restsIn_trans set (restsIn_foldl (fun b h => revokeBank_rest h b) (quadBanks q) set.rest)
  unfold State.evaluateQuad
  simp only []
  split
  case h_1 => rw [reclaimQuad_rest set.rest]; exact set
  case h_2 | h_3 => exact revoked
  case h_4 => rw [serveQuad_unwaited q fun b => (set.rest.bank b).1]; exact set
  case h_5 | h_6 | h_7 | h_8 | h_9 => exact set

theorem evaluateAll_rest {s : State} (h : s.AtRest) : s.RestsIn s.evaluateAll :=
  restsIn_foldl (fun q h => evaluateQuad_rest_in h q) allFour h

/-! ## The blocks reset (R8, R69, R114, R132, R148, R156) -/

theorem atReset_state (x : Session) : x.atReset.state = if x.state = .none then .none else .teardown := by
  unfold Session.atReset
  cases x.state <;> rfl

theorem resetBanks_frame (s : State) : s.resetBanks = { s with banks := s.resetBanks.banks } :=
  foldl_keeps (P := fun t : State => t = { s with banks := t.banks })
    (fun t b ht => by
      rw [resetBank_eq]
      exact congrArg (fun u : State => { u with banks := (t.setBank b ((t.resetRecord b).left t.now)).banks }) ht) allBanks rfl

theorem resetBlocks_frame (s : State) : s.resetBlocks =
    { s with
      links := s.links.map Link.atReset, sessions := s.sessions.map Session.atReset
      integrity := { s.integrity with counts := sixteenAll 0 }
      bursts := s.bursts.atReset s.now, config := ConfigTable.default, banks := s.resetBlocks.banks } := by
  have banks : s.resetBlocks.banks = s.quieted.resetBanks.banks := by
    simp only [resetBlocks_eq, clearAllCounts_banks]
  have banked := resetBanks_frame s.quieted
  rw [banks, resetBlocks_eq]
  generalize s.quieted.resetBanks = u at banked
  rw [banked]
  rfl

theorem resetBlocks_session (s : State) (p : Port) : s.resetBlocks.session p = (s.session p).atReset := by
  unfold State.session
  rw [resetBlocks_frame]
  exact four_get_map ..

theorem resetBlocks_rest (s : State) : s.resetBlocks.AtRest := by
  refine ⟨fun p => answerable_false ?_, fun p => ?_, fun b => ?_⟩
  · rw [resetBlocks_session, atReset_state]
    split
    · exact Or.inl rfl
    · exact Or.inr rfl
  · unfold State.burstQueue
    rw [resetBlocks_bursts]
    exact four_get_all _ p
  · rw [resetBlocks_bank, left_waitQueue, left_upgrade, left_lastGranted]
    exact ⟨rfl, rfl, rfl⟩

/-! ## The cut (R69) -/

/-- The executing burst, if any, after a cut at once: one that is not cut at the end of a unit is gone. -/
def BurstEngine.afterCut (x : BurstEngine) : BurstEngine := { x with executing := x.executing.filter (fun e => e.cut.isSome) }

theorem afterCut_eq_self {x : BurstEngine} (h : ∀ e, x.executing = some e → e.cut.isSome = true) : x.afterCut = x := by
  have kept : x.executing.filter (fun e => e.cut.isSome) = x.executing := by
    cases he : x.executing with
    | none => rfl
    | some e => exact if_pos (h e he)
  unfold BurstEngine.afterCut
  rw [kept]

theorem afterCut_eq_idle {x : BurstEngine} {e : Execution} (he : x.executing = some e) (h : e.cut.isNone = true) :
    x.afterCut = { x with executing := none } := by
  have gone : x.executing.filter (fun e => e.cut.isSome) = none := by
    rw [he]
    exact if_neg (by simp [Option.isNone_iff_eq_none.1 h])
  unfold BurstEngine.afterCut
  rw [gone]

/-- The end of a cut burst makes the engine idle, and its port's record leaves its bank. -/
theorem endCut_rest {s : State} (h : s.AtRest) (x : QueuedBurst) : (s.setExecuting none).RestsIn (s.endCut x) := by
  have freed : (s.setExecuting none).AtRest := ⟨h.silent, h.queue, h.bank⟩
  unfold State.endCut
  simp only []
  split
  · rw [leaveBank_of_no_upgrade x.port (freed.bank x.bank).2.1]
    exact restsIn_left freed x.bank _ _
  · exact ⟨freed, rfl⟩

theorem cutAtOnce_rest {s : State} (h : s.AtRest) : State.RestsIn { s with bursts := s.bursts.afterCut } s.cutAtOnce := by
  have same (hx : s.bursts.afterCut = s.bursts) : State.RestsIn { s with bursts := s.bursts.afterCut } s := by
    rw [hx]
    exact ⟨h, rfl⟩
  unfold State.cutAtOnce
  split
  · next e he =>
    split
    · next uncut =>
      rw [afterCut_eq_idle he uncut]
      exact endCut_rest h e.burst
    · next cut =>
      refine same (afterCut_eq_self fun f hf => ?_)
      obtain rfl := Option.some.inj (he.symm.trans hf)
      simpa [Option.isSome_iff_ne_none] using cut
  · next he => exact same (afterCut_eq_self fun f hf => nomatch he.symm.trans hf)

/-- The engine after RESET_N fall: what executes is a burst cut before, or one with a unit in progress, cut at that unit's end. -/
theorem afterCut_atReset (x : BurstEngine) (now : Nat) : (x.atReset now).afterCut.executing =
    x.executing.bind (fun e => if e.cut ≠ none then some e
      else if e.inUnit now = true then some { e with cut := some e.nextUnitEnds } else none) := by
  unfold BurstEngine.afterCut BurstEngine.atReset Execution.cutAt
  cases x.executing with
  | none => rfl
  | some e => cases hc : e.cut <;> cases hu : e.inUnit now <;> simp [hc, hu]

/-! ## What RESET_N fall has made of every block before the sessions' ends and the arbiter's choice -/

/-- RESET_N fall up to the evaluation against the defaults. -/
def State.fallen (s : State) : State := s.resetMode.resetBlocks.cutAtOnce.evaluateAll

theorem resetFall_eq (s : State) : s.resetFall = s.fallen.finishSessions.refreshChoice := rfl

theorem fallen_rests (s : State) :
    State.RestsIn { s.resetMode.resetBlocks with bursts := s.resetMode.resetBlocks.bursts.afterCut } s.fallen := by
  have cut := cutAtOnce_rest (resetBlocks_rest s.resetMode)
  exact restsIn_trans cut (evaluateAll_rest cut.rest)

theorem fallen_frame (s : State) : s.fallen =
    { s with
      modeCtl := s.resetMode.modeCtl, array := s.resetMode.array
      links := s.links.map Link.atReset, sessions := s.sessions.map Session.atReset
      integrity := { s.integrity with counts := sixteenAll 0 }
      bursts := (s.bursts.atReset s.now).afterCut, config := ConfigTable.default
      banks := s.fallen.banks, quads := s.fallen.quads } := by
  refine (fallen_rests s).frame.trans ?_
  rw [resetBlocks_frame, resetMode_frame]

theorem fallen_quad (s : State) (q : Quad) : s.fallen.quad q = { s.quad q with state := maintenanceOf 8 (s.quad q).debt } := by
  have cut := cutAtOnce_rest (resetBlocks_rest s.resetMode)
  have quads : s.resetMode.resetBlocks.cutAtOnce.quads = s.quads := by
    obtain ⟨-, -, -, hcut, -⟩ := onlyHolds_keeps (cutAtOnce_holds s.resetMode.resetBlocks)
    rw [hcut, resetBlocks_frame, resetMode_frame]
  have config : s.resetMode.resetBlocks.cutAtOnce.config = ConfigTable.default := by
    rw [cut.frame, resetBlocks_frame]
  have account : s.resetMode.resetBlocks.cutAtOnce.quad q = s.quad q := congrArg (fun t : Four QuadAccount => t.get q) quads
  unfold State.fallen
  rw [evaluateAll_quad, account, config]
  rfl

/-! ## The mode controller and the array (R17, R172) -/

theorem resetMode_modeCtl (s : State) : s.resetMode.modeCtl =
    { mode := .reset, resetDuringClearing := s.mode == .clearing, wakeEndsAt := none, clearRun := none
      clearStates := s.resetMode.modeCtl.clearStates } := by
  unfold State.resetMode State.abandonClear
  simp only []
  split
  · next idle => simp only [idle]
  · rfl

theorem resetMode_clearState (s : State) (q : Quad) : s.resetMode.clearState q =
    if s.modeCtl.clearRun.map (fun r => r.quad) = some q then .uncleared else s.clearState q := by
  unfold State.resetMode State.abandonClear
  simp only []
  split
  · next idle => rw [if_neg (by simp [idle])]; rfl
  · next r run =>
    refine (four_get_set ..).trans ?_
    simp only [run, Option.map_some, Option.some.injEq, eq_comm (a := r.quad)]
    rfl

theorem resetMode_array_idle {s : State} (idle : s.modeCtl.clearRun = none) : s.resetMode.array = s.array := by
  unfold State.resetMode State.abandonClear
  simp only [idle]

/-- An abandoned clear leaves each unit as it stood (R17, log 11). -/
theorem resetMode_unit {s : State} (law : s.arrayLaw) (u : Nat) : s.resetMode.array.unit u = s.unitNow u := by
  unfold State.resetMode State.abandonClear State.unitNow
  simp only []
  split
  · next idle => rw [idle]; rfl
  · next r run =>
    rw [run]
    exact unit_abandonClear law r s.now u

/-! ## The links and sessions (R132, R148) -/

theorem fallen_link (s : State) (p : Port) : s.fallen.link p = (s.link p).atReset := by
  unfold State.link
  rw [fallen_frame]
  exact four_get_map ..

theorem fallen_session (s : State) (p : Port) : s.fallen.session p = (s.session p).atReset := by
  unfold State.session
  rw [fallen_frame]
  exact four_get_map ..

/-- The ends of the sessions and the arbiter's choice leave outstanding work as it is. -/
theorem resetFall_outstanding (s : State) (p : Port) : s.resetFall.outstanding p = s.fallen.outstanding p := by
  rw [resetFall_eq]
  refine (outstanding_congr (fun b => ?_) (refreshChoice_bursts _) p).trans
    (outstanding_of_answers (finishSessions_answers s.fallen) p)
  rcases refreshChoice_bank s.fallen.finishSessions b with e | ⟨-, e⟩ <;> rw [e] <;> exact ⟨rfl, rfl, rfl⟩

/-- A port whose session was up, or down with work left, is in TEARDOWN while it has work, and every other in NONE. -/
theorem resetFall_port (s : State) (p : Port) : s.resetFall.link p = (s.link p).atReset
    ∧ s.resetFall.session p =
      { tornDownSession with
        state := if (s.session p).state ≠ .none ∧ s.resetFall.outstanding p = true then .teardown else .none } := by
  have link : s.resetFall.link p = s.fallen.finishSessions.link p := congrArg (fun t : Four Link => t.get p) (refreshChoice_links _)
  have session : s.resetFall.session p = s.fallen.finishSessions.session p :=
    congrArg (fun t : Four Session => t.get p) (refreshChoice_sessions _)
  obtain ⟨u, hlink, hsession, hwork, endLink, endSession⟩ := finishSessions_port s.fallen p
  rw [fallen_link] at hlink
  rw [fallen_session] at hsession
  rw [link, session, endLink, endSession, resetFall_outstanding, ← hwork]
  have state := atReset_state (s.session p)
  by_cases none : (s.session p).state = .none
  · rw [if_pos none] at state
    rw [finishSession_idle (Or.inl (by rw [hsession]; exact state)), hlink, hsession, if_neg fun hc => hc.1 none]
    refine ⟨rfl, ?_⟩
    unfold Session.atReset
    rw [none]
  · rw [if_neg none] at state
    obtain ⟨keptLink, ended⟩ := finishSession_teardown (s := u) (p := p) (by rw [hsession]; exact state)
    rw [keptLink, ended, hlink, hsession]
    refine ⟨rfl, ?_⟩
    simp only [ne_eq, none, not_false_eq_true, true_and]
    rfl

/-! ## The banks (R8, R13, R17) -/

/-- R13 looked at again after more records have left comes to the same as looking at it once. -/
theorem left_left (r : BankRecord) {hs : List HoldRecord} (now : Nat) (h : r.holds = [] → hs = []) :
    BankRecord.left { r.left now with holds := hs } now = BankRecord.left { r with holds := hs } now := by
  by_cases leaves : r.holds = [] ∧ r.phase = .opened
  · obtain ⟨empty, opened⟩ := leaves
    obtain rfl := h empty
    by_cases expired : r.dwellExpired = some true <;> simp [BankRecord.left, empty, opened, expired]
  · have stays : r.left now = r := if_neg leaves
    rw [stays]

/-- A cut at once takes at most a record away from a bank whose records have left. -/
theorem cutAtOnce_left {s : State} (h : s.AtRest) {b : Bank} {r : BankRecord} (hr : s.bank b = r.left s.now) :
    ∃ hs, s.cutAtOnce.bank b = BankRecord.left { r with holds := hs } s.now := by
  have kept : ∃ hs, s.bank b = BankRecord.left { r with holds := hs } s.now := ⟨r.holds, hr⟩
  unfold State.cutAtOnce
  split
  · next e _ =>
    split
    · unfold State.endCut
      simp only []
      split
      · rw [leaveBank_of_no_upgrade (s := s.setExecuting none) _ (h.bank _).2.1, bank_setBank]
        split
        · next hb =>
          subst hb
          refine ⟨r.holds.filter (fun y => y.port != e.burst.port), ?_⟩
          unfold BankRecord.dropRecord
          rw [setExecuting_bank, hr, left_holds]
          exact left_left r s.now fun empty => by rw [empty]; rfl
        · exact kept
      · exact kept
    · exact kept
  · exact kept

/-- The bank records that RESET_N fall leaves, before the arbiter's choice: those of R8, with R13 looked at. -/
theorem fallen_bank {s : State} (level : s.maintenanceLaw) (b : Bank) : ∃ hs,
    s.fallen.bank b = BankRecord.left { s.resetMode.resetRecord b with holds := hs } s.now := by
  have rest := resetBlocks_rest s.resetMode
  have now : s.resetMode.now = s.now := by rw [resetMode_frame]
  have nowBlocks : s.resetMode.resetBlocks.now = s.now := by rw [resetBlocks_frame, now]
  have cut := cutAtOnce_left rest (b := b) (by rw [resetBlocks_bank, nowBlocks, now])
  have evaluated := evaluateAll_bank (resetBlocks_levelled level) (fun c => ((cutAtOnce_rest rest).rest.bank c).1) b
  unfold State.fallen
  rw [evaluated, ← nowBlocks]
  exact cut

/-- In a state that holds the phase law, the records of R8 with R13 looked at: the banks of an abandoned clear are CLOSED, an OPEN bank
without a record goes to CLOSE_WAIT or CLOSING, and every other stays. -/
theorem resetRecord_left {s : State} (law : s.phaseLaw) (b : Bank) (hs : List HoldRecord) {left : Bool}
    (hleft : left = ((s.bank b).phase == .opened && hs == [])) :
    BankRecord.left { s.resetMode.resetRecord b with holds := hs } s.now =
      { s.bank b with
        waitQueue := [], upgrade := none, lastGranted := 3, holds := hs
        phase :=
          if s.modeCtl.clearRun.map (fun r => r.quad) = some (groupOf b) then .closed
          else if left = true then (if (s.bank b).dwellExpired = some true then .closing else .closeWait)
          else (s.bank b).phase
        endsAt := if left = true ∧ (s.bank b).dwellExpired = some true then some (s.now + 28) else (s.bank b).endsAt } := by
  unfold State.resetRecord
  rw [resetMode_bank]
  by_cases abandoned : s.modeCtl.clearRun.map (fun r => r.quad) = some (groupOf b)
  · obtain ⟨r, hr, hq⟩ := Option.map_eq_some_iff.1 abandoned
    have shut : left = false := by
      rw [hleft, law.1 r hr b hq.symm]
      rfl
    simp [BankRecord.left, abandoned, shut]
  · by_cases leaves : hs = [] ∧ (s.bank b).phase = .opened
    · have isLeft : left = true := by simp [hleft, leaves]
      by_cases expired : (s.bank b).dwellExpired = some true <;>
        simp [BankRecord.left, abandoned, isLeft, leaves, expired, rowCloseTime]
    · have stays : left = false := by
        refine Bool.eq_false_iff.2 fun opened => leaves ?_
        rw [hleft] at opened
        simpa [and_comm] using opened
      simp [BankRecord.left, abandoned, stays, leaves]

/-! ## The obligation -/

theorem resetFall_exec {s : State} (h : s.mode ≠ .reset) : exec .resetNFall s = .next s.resetFall := by
  show execResetNFall s = _
  unfold execResetNFall
  rw [if_neg h]

/-- The sessions' ends and the arbiter's choice change sessions, links, bank records, the refresh and its mark alone. -/
theorem resetFall_frame (s : State) : s.resetFall =
    { s.fallen with
      sessions := s.resetFall.sessions, links := s.resetFall.links, banks := s.resetFall.banks
      refresh := s.resetFall.refresh, marks := s.resetFall.marks } := by
  have finished := finishSessions_answers s.fallen
  have chosen := refreshChoice_frame s.fallen.finishSessions
  rw [resetFall_eq]
  unfold State.OnlyAnswers at finished
  generalize s.fallen.finishSessions.refreshChoice = t at chosen
  rw [chosen]
  generalize s.fallen.finishSessions = u at finished
  rw [finished]

/-- What the fall leaves of every bank, whatever the state: no waits, no upgrade, the rotation at its start. -/
theorem resetFall_emptied (s : State) (b : Bank) :
    (s.resetFall.bank b).waitQueue = [] ∧ (s.resetFall.bank b).upgrade = none ∧ (s.resetFall.bank b).lastGranted = 3 := by
  have rest := (fallen_rests s).rest.bank b
  rw [resetFall_eq]
  rcases refreshChoice_bank s.fallen.finishSessions b with e | ⟨-, e⟩ <;> rw [e] <;> simpa using rest

theorem resetFall_bank {s : State} (level : s.maintenanceLaw) (b : Bank) : s.fallen.finishSessions.bank b =
    BankRecord.left { s.resetMode.resetRecord b with holds := (s.resetFall.bank b).holds } s.now := by
  obtain ⟨hs, record⟩ := fallen_bank level b
  have kept : s.fallen.finishSessions.bank b = s.fallen.bank b := finishSessions_bank s.fallen b
  have holds : (s.resetFall.bank b).holds = hs := by
    rw [resetFall_eq]
    rcases refreshChoice_bank s.fallen.finishSessions b with e | ⟨-, e⟩ <;> rw [e, kept, record] <;> exact left_holds _ _
  rw [kept, record, holds]

/-- Settles O4: RESET_N fall block by block, each block by its own rule. -/
theorem resetFallResetsEveryBlock : Obligations.ResetFallResetsEveryBlock := by
  unfold Obligations.ResetFallResetsEveryBlock
  intro s hmode
  have frame : s.resetFall =
      { s with
        modeCtl := s.resetMode.modeCtl, array := s.resetMode.array
        integrity := { s.integrity with counts := sixteenAll 0 }
        bursts := (s.bursts.atReset s.now).afterCut, config := ConfigTable.default, quads := s.fallen.quads
        sessions := s.resetFall.sessions, links := s.resetFall.links, banks := s.resetFall.banks
        refresh := s.resetFall.refresh, marks := s.resetFall.marks } :=
    (resetFall_frame s).trans (by rw [fallen_frame])
  have modeCtl : s.resetFall.modeCtl = s.resetMode.modeCtl := by rw [frame]
  have array : s.resetFall.array = s.resetMode.array := by rw [frame]
  have quads : s.resetFall.quads = s.fallen.quads := by rw [frame]
  have executing : s.resetFall.bursts.executing = (s.bursts.atReset s.now).afterCut.executing := by rw [frame]
  rw [afterCut_atReset] at executing
  have controller := modeCtl.trans (resetMode_modeCtl s)
  refine ⟨_, resetFall_exec hmode, congrArg ModeController.mode controller, congrArg ModeController.resetDuringClearing controller,
    congrArg ModeController.wakeEndsAt controller, congrArg ModeController.clearRun controller,
    fun q => ?_, fun p => (resetFall_port s p).1, fun p => (resetFall_port s p).2, resetFall_emptied s, fun p => ?_, ?_,
    fun idle => ?_, fun e he => ?_, fun q => ?_, ?_, ?_, ?_, fun b => ?_, ?_, fun idle => array.trans (resetMode_array_idle idle),
    fun law v => (congrArg (fun a : ArrayState => a.unit v) array).trans (resetMode_unit law v), fun level law => ?_, ?_, ?_⟩
  · exact (congrArg (fun m : ModeController => m.clearStates.get q) modeCtl).trans (resetMode_clearState s q)
  · unfold State.burstQueue
    rw [frame]
    exact four_get_all _ p
  · rw [frame]
    rfl
  · rw [executing, idle]
    rfl
  · rw [executing, he]
    rfl
  · exact (congrArg (fun t : Four QuadAccount => t.get q) quads).trans (fallen_quad s q)
  · rw [frame]
  · rw [frame]
  · rw [frame]
  · rw [frame]
    exact sixteen_get_all _ b
  · rw [frame]
    rfl
  · have ended : s.fallen.finishSessions.refresh = s.refresh ∧ s.fallen.finishSessions.now = s.now := by
      have answers := finishSessions_answers s.fallen
      unfold State.OnlyAnswers at answers
      rw [answers, fallen_frame]
      exact ⟨rfl, rfl⟩
    exact ⟨s.fallen.finishSessions, resetFall_eq s, ended.1, ended.2, fun b left hleft =>
      (resetFall_bank level b).trans (resetRecord_left law b _ hleft)⟩
  · rw [frame]
  · rw [frame]

end Sys2Proof.Machine
end
section
/-!
The frame and the bodies of the request packets, read back from the bytes the encoder writes: the check word, byte 1 and the length
of a frame (R177), the two-byte fields, the flag bits and the units of a body (11.2), and the content of every request (R178).
-/

namespace Sys2Proof.Machine

open Sys2Proof

/-! ## Fields -/

/-- Bits 7 to 4 of byte 1 are the sequence number (11.1). -/
theorem sequenceOf_append (n : Seq) (low : BitVec 4) : sequenceOf (n ++ low : BitVec (4 + 4)) = n :=
  BitVec.extractLsb'_append_eq_left

/-- Bits 3 to 0 of byte 1 are the tag (11.1). -/
theorem tagOf_append (n : Seq) (tag : Tag) : tagOf (n ++ BitVec.ofNat 4 tag.val : BitVec (4 + 4)) = tag := by
  have low : (n.toNat <<< 4 ||| tag.val) % 2 ^ 4 = tag.val := by
    rw [Nat.or_mod_two_pow, Nat.shiftLeft_eq, Nat.mul_mod_left, Nat.zero_or, Nat.mod_eq_of_lt tag.isLt]
  have ofTag : (BitVec.ofNat 4 tag.val).toNat = tag.val := Nat.mod_eq_of_lt tag.isLt
  ext
  simp only [tagOf, BitVec.toNat_append, ofTag]
  exact low

@[simp] theorem twoBytes_high_low (w : BitVec 16) : twoBytes (highByte w) (lowByte w) = w := by
  unfold twoBytes highByte lowByte
  rw [BitVec.extractLsb'_append_extractLsb'_eq_extractLsb' (by rfl)]
  exact BitVec.extractLsb'_eq_self

@[simp] theorem flagByte_bit (b : Bool) : (flagByte b)[0] = b := by
  cases b <;> rfl

@[simp] theorem modeOfBit_modeByte (mode : HoldMode) : modeOfBit (modeByte mode)[0] = mode := by
  cases mode <;> rfl

/-- The mode leaves bit 1 of an OPEN's flags byte to the wait flag (11.2). -/
@[simp] theorem modeByte_waitBit (mode : HoldMode) : (modeByte mode)[1] = false := by
  cases mode <;> rfl

/-! ## The units of a WRITE -/

/-- Only the first 8 bytes are the unit's: what follows it in the packet does not matter. -/
theorem joinUnit_unitBytes_append (d : UnitData) (rest : List Byte) : joinUnit (unitBytes d ++ rest) = d :=
  joinUnit_unitBytes d

theorem encodeUnits_length (data : List WriteUnit) : (encodeUnits data).length = 9 * data.length := by
  induction data with
  | nil => rfl
  | cons w ws ih =>
    have first : (encodeUnits (w :: ws)).length = (encodeUnits ws).length + 9 := rfl
    rw [first, ih, List.length_cons, Nat.mul_succ]

theorem decodeUnits_encodeUnits (data : List WriteUnit) : decodeUnits data.length (encodeUnits data) = data := by
  induction data with
  | nil => rfl
  | cons w ws ih =>
    have later : (encodeUnits (w :: ws)).drop 9 = encodeUnits ws := rfl
    have unit : joinUnit ((encodeUnits (w :: ws)).drop 1) = w.data := joinUnit_unitBytes_append w.data (encodeUnits ws)
    rw [List.length_cons, decodeUnits, later, unit, ih]
    rfl

/-- A WRITE that a packet can spell has the data its unit count names, at most 27 units of it (R120, R177). -/
theorem writeShape_iff (units : Byte) (data : List WriteUnit) :
    writeShape units data = true ↔ data.length = units.toNat ∧ units.toNat ≤ 27 := by
  simp only [writeShape, Bool.and_eq_true, beq_iff_eq, decide_eq_true_iff]
  rfl

/-! ## The frame -/

/-- A string that ends in the check word of what stands before it agrees, when a header stands there (R177). -/
theorem checkAgrees_append {checked : List Byte} (header : 3 ≤ checked.length) :
    checkAgrees (checked ++ [highByte (checkWord checked), lowByte (checkWord checked)]) = true := by
  have cut : (checked ++ [highByte (checkWord checked), lowByte (checkWord checked)]).length - 2 = checked.length := by simp
  unfold checkAgrees checkedPart
  rw [cut, List.take_left, List.drop_left]
  simp only [List.length_append, List.length_cons, List.length_nil, beq_self_eq_true, Bool.and_true, decide_eq_true_eq]
  omega

/-- What the link checks see of a frame: its own fields, its own length and its body. -/
theorem decodePacket_frame (kind : Byte) (n : Seq) (tag : Tag) (body : List Byte) :
    decodePacket (frame kind n tag body) =
      { checkAgrees := true, sequence := n, tag := tag
        content := contentOf kind (BitVec.ofNat 8 (body.length + 5)) (body.length + 5) body } := by
  have agrees : checkAgrees (frame kind n tag body) = true := checkAgrees_append (by simp)
  have length : (frame kind n tag body).length = body.length + 5 := by simp [frame]
  have inner : ((frame kind n tag body).drop 3).take body.length = body := by simp [frame]
  have second : (frame kind n tag body).getD 1 0 = (n ++ BitVec.ofNat 4 tag.val : BitVec (4 + 4)) := rfl
  unfold decodePacket
  rw [agrees, length, Nat.add_sub_cancel, inner, second]
  dsimp only
  rw [sequenceOf_append, tagOf_append]
  rfl

/-! ## The content -/

/-- The packet of a request has at most 255 bytes, so that its length byte gives its length (R177). -/
theorem lengthByte_toNat {r : Request} (he : r.encodable = true) :
    (BitVec.ofNat 8 ((requestBody r).length + 5)).toNat = (requestBody r).length + 5 := by
  have bound : (requestBody r).length + 5 ≤ 255 := by
    cases r with
    | write bank column units autoClose data =>
      obtain ⟨count, most⟩ := (writeShape_iff units data).1 he
      simp only [requestBody, List.length_append, List.length_cons, List.length_nil, encodeUnits_length]
      omega
    | _ => simp [requestBody]
  exact Nat.mod_eq_of_lt (by omega)

/-- The units of a WRITE's body are taken by the count it names. -/
theorem contentOf_write {bank column units : Byte} {autoClose : Bool} {data : List WriteUnit} {lengthByte : Byte}
    (count : data.length = units.toNat)
    (hl : lengthByte.toNat = (requestBody (.write bank column units autoClose data)).length + 5) :
    contentOf 0x31 lengthByte lengthByte.toNat (requestBody (.write bank column units autoClose data)) =
      .request (.write bank column units autoClose data) := by
  have length : lengthByte.toNat = 9 + 9 * units.toNat := by
    rw [hl, ← count]
    simp only [requestBody, List.length_append, List.length_cons, List.length_nil, encodeUnits_length]
    omega
  have read : decodeUnits units.toNat (encodeUnits data) = data := by rw [← count, decodeUnits_encodeUnits]
  simp [contentOf, requestBody, whenLength, length, read]

/-- A body, under the kind code of its request and its own length, is read as the request (table 11-1, 11.2). -/
theorem contentOf_requestBody {r : Request} (he : r.encodable = true) {lengthByte : Byte}
    (hl : lengthByte.toNat = (requestBody r).length + 5) :
    contentOf (requestKind r) lengthByte lengthByte.toNat (requestBody r) = .request r := by
  cases r with
  | write bank column units autoClose data => exact contentOf_write ((writeShape_iff units data).1 he).1 hl
  | _ => simp [contentOf, requestKind, requestBody, whenLength, hl]

/-! ## Every request -/

/-- Settles O60: the frame gives back check word, sequence number, tag and body, and the body gives back the request. -/
theorem requestPacketsDecodeToTheirRequests : Obligations.RequestPacketsDecodeToTheirRequests := by
  unfold Obligations.RequestPacketsDecodeToTheirRequests
  intro n tag r he
  have length := lengthByte_toNat he
  have content := contentOf_requestBody he length
  rw [length] at content
  unfold encodeRequest goodArrival
  rw [decodePacket_frame, content, if_pos he]

end Sys2Proof.Machine
end

section
/-!
PROOF. A step on a queue that is not empty (00_scope.md section 6, log 4): the timed events and the passing of time have no
part in it.
-/

namespace Sys2Proof.Machine

open Sys2Proof

/-- The front command decides the step, whatever else the state holds. -/
theorem step_of_pending_cons {s : State} {c : Instr} {rest : List Instr} (front : s.pending = c :: rest) :
    step s = exec c { s with pending := rest } := by
  unfold step
  split
  · next c' rest' waiting =>
    obtain ⟨rfl, rfl⟩ := List.cons.inj (front.symm.trans waiting)
    rfl
  · next empty => exact absurd (front.symm.trans empty) (List.cons_ne_nil c rest)

/-- Settles O1: the queue is the command and its rest, and the step replaces nothing else of the state. -/
theorem stepTakesFrontCommand : Obligations.StepTakesFrontCommand := by
  unfold Obligations.StepTakesFrontCommand
  intro c rest s
  exact step_of_pending_cons (s := { s with pending := c :: rest }) rfl

end Sys2Proof.Machine
end
section
/-!
SUPPORT. The laws of hold records, places, bank records and bursts as one predicate of the state, what narrowing of a bank's
records keeps of it, and which changes of the state it does not see (R5, R6, R23, R55).
-/

namespace Sys2Proof.Machine

open Sys2Proof

/-! ## The laws of one bank record -/

/-- The hold records and the wait entries of a port on a bank, counted together (R23). -/
def BankRecord.places (r : BankRecord) (p : Port) : Nat :=
  (r.holds.filter (fun h => h.port == p)).length + (r.waitQueue.filter (fun w => w.port == p)).length

/-- What `State.holdLaw` and `State.placeLaw` ask of one bank record. -/
structure BankRecord.Ruly (r : BankRecord) : Prop where
  modes : (∀ h ∈ r.holds, h.mode = .shared) ∨ ∃ h, r.holds = [h]
  closeWait : r.phase = .closeWait → r.holds = []
  place : ∀ p, r.places p ≤ 1

/-- A bank in this state has a row (R5). -/
def BankPhase.hasRow : BankPhase → Bool
  | .opening | .opened | .closeWait | .closing => true
  | .closed | .refreshing | .clearing => false

/-- A bank in this state has a hold record (R6). -/
def BankPhase.hasRecords : BankPhase → Bool
  | .opening | .opened => true
  | .closed | .closeWait | .closing | .refreshing | .clearing => false

/-- What dwell expired may be in this state (R5). -/
def BankPhase.allowsDwell : BankPhase → Option Bool → Prop
  | .closed, d | .refreshing, d | .clearing, d => d = none
  | .opening, d | .closeWait, d => d = some false
  | .opened, d => d ≠ none
  | .closing, d => d = some true

/-- What `State.bankLaw` asks of one bank record, field by field. -/
structure BankRecord.Filled (r : BankRecord) : Prop where
  row : r.row ≠ none ↔ r.phase.hasRow = true
  dwell : r.phase.allowsDwell r.dwellExpired
  records : r.holds ≠ [] ↔ r.phase.hasRecords = true
  upgrade : r.holds = [] → r.upgrade = none

theorem bankLaw_iff (s : State) : s.bankLaw ↔ ∀ b, (s.bank b).Filled := by
  refine forall_congr' fun b => ?_
  have split (r : BankRecord) : r.Filled ↔ (r.row ≠ none ↔ r.phase.hasRow = true) ∧ r.phase.allowsDwell r.dwellExpired
      ∧ (r.holds ≠ [] ↔ r.phase.hasRecords = true) ∧ (r.holds = [] → r.upgrade = none) :=
    ⟨fun ⟨row, dwell, records, upgrade⟩ => ⟨row, dwell, records, upgrade⟩,
      fun ⟨row, dwell, records, upgrade⟩ => ⟨row, dwell, records, upgrade⟩⟩
  rw [split]
  cases (s.bank b).phase <;> simp +contextual [BankPhase.hasRow, BankPhase.hasRecords, BankPhase.allowsDwell]

/-! ## The laws together -/

/-- The laws of hold records and places, and where `full` holds those of bank records and bursts as well. One law with a premise
inside, so that each operation is looked at once. -/
structure State.RecordLaws (full : Prop) (s : State) : Prop where
  ruly : ∀ b, (s.bank b).Ruly
  filled : full → ∀ b, (s.bank b).Filled
  bursts : full → s.burstLaw

theorem recordLaws_iff (full : Prop) (s : State) :
    s.RecordLaws full ↔ s.holdLaw ∧ s.placeLaw ∧ (full → s.bankLaw ∧ s.burstLaw) := by
  constructor
  · intro law
    exact ⟨fun b => ⟨(law.ruly b).modes, (law.ruly b).closeWait⟩, fun b => (law.ruly b).place,
      fun hf => ⟨(bankLaw_iff s).2 (law.filled hf), law.bursts hf⟩⟩
  · rintro ⟨holds, places, rest⟩
    exact ⟨fun b => ⟨(holds b).1, (holds b).2, places b⟩, fun hf => (bankLaw_iff s).1 (rest hf).1, fun hf => (rest hf).2⟩

/-! ## Hold records that become fewer or change in their marks -/

/-- The records `ks` are some of `hs` in their order, each with the port and mode that it had. -/
def Narrowed (hs ks : List HoldRecord) : Prop :=
  ∃ (stays : HoldRecord → Bool) (f : HoldRecord → HoldRecord),
    (∀ h, (f h).port = h.port ∧ (f h).mode = h.mode) ∧ ks = (hs.filter stays).map f

theorem narrowed_filter (hs : List HoldRecord) (stays : HoldRecord → Bool) : Narrowed hs (hs.filter stays) :=
  ⟨stays, id, fun _ => ⟨rfl, rfl⟩, by rw [List.map_id]⟩

theorem narrowed_map (hs : List HoldRecord) {f : HoldRecord → HoldRecord}
    (hf : ∀ h, (f h).port = h.port ∧ (f h).mode = h.mode) : Narrowed hs (hs.map f) :=
  ⟨fun _ => true, f, hf, by rw [List.filter_true]⟩

theorem narrowed_mem {hs ks : List HoldRecord} (h : Narrowed hs ks) {k : HoldRecord} (hk : k ∈ ks) :
    ∃ h ∈ hs, h.port = k.port ∧ h.mode = k.mode := by
  obtain ⟨stays, f, same, rfl⟩ := h
  obtain ⟨h, hh, rfl⟩ := List.mem_map.1 hk
  exact ⟨h, (List.mem_filter.1 hh).1, (same h).1.symm, (same h).2.symm⟩

theorem narrowed_length {hs ks : List HoldRecord} (h : Narrowed hs ks) (p : Port) :
    (ks.filter (fun h => h.port == p)).length ≤ (hs.filter (fun h => h.port == p)).length := by
  obtain ⟨stays, f, same, rfl⟩ := h
  rw [List.filter_map, List.length_map]
  simp only [Function.comp_def, same]
  exact (List.filter_sublist.filter _).length_le

theorem narrowed_modes {hs ks : List HoldRecord} (h : Narrowed hs ks)
    (modes : (∀ h ∈ hs, h.mode = .shared) ∨ ∃ h, hs = [h]) : (∀ h ∈ ks, h.mode = .shared) ∨ ∃ h, ks = [h] := by
  rcases modes with shared | ⟨x, rfl⟩
  · refine Or.inl fun k hk => ?_
    obtain ⟨h, hh, -, mode⟩ := narrowed_mem h hk
    exact mode ▸ shared h hh
  · obtain ⟨stays, f, -, rfl⟩ := h
    cases hx : stays x with
    | true => exact Or.inr ⟨f x, by simp [hx]⟩
    | false => exact Or.inl (by simp [hx])

theorem narrowed_nil {ks : List HoldRecord} (h : Narrowed [] ks) : ks = [] := by
  obtain ⟨stays, f, -, rfl⟩ := h
  rfl

/-- A bank with fewer records and fewer wait entries stays ruly. -/
theorem ruly_of_narrowed {r r' : BankRecord} (law : r.Ruly) (holds : Narrowed r.holds r'.holds)
    (waits : r'.waitQueue.Sublist r.waitQueue) (phase : r'.phase = .closeWait → r.phase = .closeWait ∨ r'.holds = []) :
    r'.Ruly where
  modes := narrowed_modes holds law.modes
  closeWait hp := (phase hp).elim (fun h => narrowed_nil (law.closeWait h ▸ holds)) id
  place p := (Nat.add_le_add (narrowed_length holds p) (waits.filter _).length_le).trans (law.place p)

/-- A bank whose state stays keeps the presence of its fields, if what it has of row, dwell and records stays present or absent. -/
theorem filled_of_phase {r r' : BankRecord} (law : r.Filled) (phase : r'.phase = r.phase) (row : r'.row = r.row)
    (dwell : r'.dwellExpired = r.dwellExpired) (records : r'.holds = [] ↔ r.holds = [])
    (upgrade : r'.holds = [] → r'.upgrade = none ∨ r'.upgrade = r.upgrade) : r'.Filled where
  row := by rw [row, phase]; exact law.row
  dwell := by rw [dwell, phase]; exact law.dwell
  records := by rw [phase, ← law.records, not_iff_not]; exact records
  upgrade h := (upgrade h).elim id fun e => e.trans (law.upgrade (records.1 h))

/-! ## What keeps the law of bursts -/

/-- A record of the port is on the bank. -/
def BankRecord.heldBy (r : BankRecord) (p : Port) : Prop := ∃ h ∈ r.holds, h.port = p

/-- A record of the port that is not marked revoke pending is on the bank. -/
def BankRecord.usableBy (r : BankRecord) (p : Port) : Prop := ∃ h ∈ r.holds, h.port = p ∧ h.revokePending = false

/-- What keeps the law of bursts: no burst is new, and the banks and sessions of those that there are stay fit for them. -/
theorem burstLaw_of {s t : State} (law : s.burstLaw)
    (executing : ∀ e, t.bursts.executing = some e →
      ∃ e', s.bursts.executing = some e' ∧ e.burst = e'.burst ∧ (e.cut ≠ none → e'.cut ≠ none ∨
        (t.session e.burst.port).state = .teardown))
    (queues : ∀ p x, x ∈ t.burstQueue p → x ∈ s.burstQueue p)
    (busy : ∀ e, t.bursts.executing = some e → (s.bank e.burst.bank).phase = .opened →
      (s.bank e.burst.bank).heldBy e.burst.port →
      (t.bank e.burst.bank).phase = .opened ∧ (t.bank e.burst.bank).heldBy e.burst.port)
    (waits : ∀ p, ∀ x ∈ t.burstQueue p, (s.bank x.bank).usableBy p → (t.bank x.bank).usableBy p)
    (live : ∀ e, t.bursts.executing = some e → (s.session e.burst.port).state ≠ .none →
      (t.session e.burst.port).state ≠ .none
        ∧ ((s.session e.burst.port).state = .teardown → (t.session e.burst.port).state = .teardown))
    (attached : ∀ p, t.burstQueue p ≠ [] → (s.session p).state = .attached → (t.session p).state = .attached) :
    t.burstLaw := by
  refine ⟨fun e he => ?_, fun p x hx => ?_⟩
  · obtain ⟨e', he', burst, cut⟩ := executing e he
    obtain ⟨open', held, alive, torn⟩ := law.1 e' he'
    rw [← burst] at open' held alive torn
    obtain ⟨opened, holds⟩ := busy e he open' held
    obtain ⟨lives, stays⟩ := live e he alive
    exact ⟨opened, holds, lives, fun hcut => (cut hcut).elim (fun h => stays (torn h)) id⟩
  · obtain ⟨port, att, usable⟩ := law.2 p x (queues p x hx)
    exact ⟨port, attached p (List.ne_nil_of_mem hx) att, waits p x hx usable⟩

/-- Banks, burst engine and session states are the same: what the laws of records and bursts look at. -/
structure State.SameWork (s t : State) : Prop where
  banks : t.banks = s.banks
  bursts : t.bursts = s.bursts
  states : ∀ p, (t.session p).state = (s.session p).state

theorem sameWork_refl (s : State) : s.SameWork s := ⟨rfl, rfl, fun _ => rfl⟩

theorem sameWork_trans {s t u : State} (h1 : s.SameWork t) (h2 : t.SameWork u) : s.SameWork u :=
  ⟨h2.banks.trans h1.banks, h2.bursts.trans h1.bursts, fun p => (h2.states p).trans (h1.states p)⟩

theorem sameWork_foldl {α : Type} {f : State → α → State} (hf : ∀ (s : State) x, s.SameWork (f s x)) :
    ∀ (xs : List α) (s : State), s.SameWork (xs.foldl f s)
  | [], s => sameWork_refl s
  | x :: xs, s => sameWork_trans (hf s x) (sameWork_foldl hf xs (f s x))

theorem sameWork_of_answers {s t : State} (h : s.OnlyAnswers t)
    (states : ∀ p, (t.session p).state = (s.session p).state) : s.SameWork t :=
  ⟨(onlyAnswers_keeps h).1, (onlyAnswers_keeps h).2.1, states⟩

theorem State.SameWork.bank {s t : State} (h : s.SameWork t) (b : Bank) : t.bank b = s.bank b := by
  unfold State.bank
  rw [h.banks]

theorem State.SameWork.burstQueue {s t : State} (h : s.SameWork t) (p : Port) : t.burstQueue p = s.burstQueue p := by
  unfold State.burstQueue
  rw [h.bursts]

section
variable {full : Prop}

theorem recordLaws_same {s t : State} (law : s.RecordLaws full) (h : s.SameWork t) : t.RecordLaws full where
  ruly b := h.bank b ▸ law.ruly b
  filled hf b := h.bank b ▸ law.filled hf b
  bursts hf := by
    have kept := law.bursts hf
    unfold State.burstLaw at kept ⊢
    simpa only [h.bursts, h.bank, h.burstQueue, h.states] using kept

theorem executingOn_iff (s : State) (p : Port) (b : Bank) : s.executingOn p b = true ↔
    ∃ e, s.bursts.executing = some e ∧ e.burst.port = p ∧ e.burst.bank = b := by
  unfold State.executingOn
  split
  · next e he => simp [he]
  · next he => simp [he]

theorem queuedOn_iff (s : State) (p : Port) (b : Bank) :
    s.queuedOn p b = true ↔ ∃ x ∈ s.burstQueue p, x.bank = b := by
  unfold State.queuedOn
  simp

/-- One bank record replaced by one that is lawful itself and still fit for the bursts that are executing on the bank or queued to it. -/
theorem recordLaws_setBank {s : State} (law : s.RecordLaws full) {b : Bank} {r : BankRecord} (ruly : r.Ruly)
    (filled : full → r.Filled)
    (busy : full → ∀ p, s.executingOn p b = true → (s.bank b).phase = .opened → (s.bank b).heldBy p →
      r.phase = .opened ∧ r.heldBy p)
    (waits : full → ∀ p, s.queuedOn p b = true → (s.bank b).usableBy p → r.usableBy p) :
    (s.setBank b r).RecordLaws full where
  ruly c := by
    rw [bank_setBank]
    split
    · exact ruly
    · exact law.ruly c
  filled hf c := by
    rw [bank_setBank]
    split
    · exact filled hf
    · exact law.filled hf c
  bursts hf := by
    refine burstLaw_of (law.bursts hf) (fun e he => ⟨e, he, rfl, Or.inl⟩) (fun _ _ hx => hx) (fun e he opened held => ?_)
      (fun p x hx usable => ?_) (fun _ _ alive => ⟨alive, id⟩) (fun _ _ att => att)
    · rw [bank_setBank]
      split
      · next hb =>
        subst hb
        exact busy hf e.burst.port ((executingOn_iff s _ _).2 ⟨e, he, rfl, rfl⟩) opened held
      · exact ⟨opened, held⟩
    · rw [bank_setBank]
      split
      · next hb =>
        subst hb
        exact waits hf p ((queuedOn_iff s p x.bank).2 ⟨x, hx, rfl⟩) usable
      · exact usable

end
end Sys2Proof.Machine
end
section
/-!
SUPPORT. The laws of records and bursts under answers and notices, under the leaving of records, and under grants (R12, R15, R27 to
R34).
-/

namespace Sys2Proof.Machine

open Sys2Proof

/-! ## Answers -/

theorem enqueue_same (s : State) (p : Port) (e : OutEntry) : s.SameWork (s.enqueue p e) :=
  sameWork_of_answers (enqueue_answers s p e) fun q => by unfold State.session; rw [enqueue_sessions]

theorem setTag_same (s : State) (p : Port) (t : Tag) (x : TagState) : s.SameWork (s.setTag p t x) :=
  ⟨rfl, rfl, fun q => by
    unfold State.setTag
    rw [session_setSession]
    split
    · next h => rw [h]
    · rfl⟩

theorem answer_same (s : State) (p : Port) (t : Tag) (a : Answer) : s.SameWork (s.answer p t a) :=
  sameWork_trans (setTag_same s p t a.tagAfter) (enqueue_same _ p _)

theorem answerWork_same (s : State) (p : Port) (t : Tag) (a : Answer) : s.SameWork (s.answerWork p t a) := by
  unfold State.answerWork
  split
  · exact answer_same s p t a
  · exact sameWork_refl s

theorem answerTag_same (s : State) (p : Port) (t : Option Tag) (a : Answer) : s.SameWork (s.answerTag p t a) := by
  cases t with
  | none => exact sameWork_refl s
  | some t => exact answerWork_same s p t a

theorem notify_same (s : State) (p : Port) (e : OutEntry) : s.SameWork (s.notify p e) := by
  unfold State.notify
  split
  · exact enqueue_same s p e
  · exact sameWork_refl s

theorem answerBursts_same (s : State) (p : Port) (a : Answer) (bs : List QueuedBurst) : s.SameWork (s.answerBursts p a bs) :=
  sameWork_foldl (fun s (b : QueuedBurst) => answerWork_same s p b.tag a) bs s

section
variable {full : Prop}

/-! ## Upgrades and the leaving of records -/

/-- The only record of a bank becomes EXCLUSIVE. -/
theorem recordLaws_soleExclusive {s : State} (law : s.RecordLaws full) {b : Bank} {h : HoldRecord} (hh : (s.bank b).holds = [h])
    {r : BankRecord} (hr : r = { s.bank b with holds := [{ h with mode := .exclusive }], upgrade := r.upgrade }) :
    (s.setBank b r).RecordLaws full := by
  generalize r.upgrade = u at hr
  subst hr
  have place (p : Port) : ([{ h with mode := .exclusive }].filter (fun h => h.port == p)).length
      + ((s.bank b).waitQueue.filter (fun w => w.port == p)).length ≤ 1 := by
    have before := (law.ruly b).place p
    unfold BankRecord.places at before
    rw [hh] at before
    by_cases hq : h.port = p <;> simpa [hq] using before
  refine recordLaws_setBank law ⟨Or.inr ⟨_, rfl⟩, fun hc => ?_, place⟩
    (fun hf => filled_of_phase (law.filled hf b) rfl rfl rfl ?_ fun h => absurd h (List.cons_ne_nil _ _))
    (fun _ p _ opened held => ⟨opened, ?_⟩) fun _ p _ usable => ?_
  · exact absurd ((law.ruly b).closeWait hc) (by rw [hh]; exact List.cons_ne_nil _ _)
  · rw [hh]; simp
  · unfold BankRecord.heldBy at held ⊢
    simpa [hh] using held
  · unfold BankRecord.usableBy at usable ⊢
    simpa [hh] using usable

theorem recordLaws_completeUpgrade {s : State} (law : s.RecordLaws full) (b : Bank) : (s.completeUpgrade b).RecordLaws full := by
  rcases completeUpgrade_cases s b with ⟨u, h, hu, hh, hp⟩ | other
  · rw [completeUpgrade_alone hu hh hp]
    exact recordLaws_same (recordLaws_soleExclusive law hh rfl) (answerWork_same _ _ _ _)
  · rw [completeUpgrade_otherwise other]
    exact law

/-- Records leave a bank, and what follows their leaving: the bank is OPEN where none is left, and no burst loses its record. -/
theorem recordLaws_leaving {s : State} (law : s.RecordLaws full) {b : Bank} {kept : List HoldRecord}
    (narrowed : Narrowed (s.bank b).holds kept)
    (opened : full → kept = [] → (s.bank b).holds ≠ [] → (s.bank b).phase = .opened)
    (busy : full → ∀ p, s.executingOn p b = true → (s.bank b).phase = .opened → (s.bank b).heldBy p → ∃ k ∈ kept, k.port = p)
    (waits : full → ∀ p, s.queuedOn p b = true → (s.bank b).usableBy p → ∃ k ∈ kept, k.port = p ∧ k.revokePending = false) :
    ((s.setBank b { s.bank b with holds := kept }).afterLeaving b).RecordLaws full := by
  have ruly {r : BankRecord} (holds : r.holds = kept) (queue : r.waitQueue = (s.bank b).waitQueue)
      (phase : r.phase = .closeWait → (s.bank b).phase = .closeWait ∨ r.holds = []) : r.Ruly :=
    ruly_of_narrowed (law.ruly b) (holds ▸ narrowed) (by rw [queue]) phase
  unfold State.afterLeaving
  simp only [bank_setBank_same, setBank_setBank, setBank_now]
  by_cases hk : kept = []
  · subst hk
    rw [if_pos (by rfl)]
    have busy' (hf : full) (p : Port) (on : s.executingOn p b = true) (hp : (s.bank b).phase = .opened)
        (held : (s.bank b).heldBy p) : False := by
      obtain ⟨k, hk, -⟩ := busy hf p on hp held
      cases hk
    have waits' (hf : full) (p : Port) (on : s.queuedOn p b = true) (usable : (s.bank b).usableBy p) : False := by
      obtain ⟨k, hk, -⟩ := waits hf p on usable
      cases hk
    split
    · next hp =>
      have row (hf : full) := (law.filled hf b).row
      have dwell (hf : full) := (law.filled hf b).dwell
      rw [hp] at row dwell
      split
      · next hd =>
        exact recordLaws_setBank law (ruly rfl rfl nofun) (fun hf => ⟨row hf, hd, by simp [BankPhase.hasRecords], fun _ => rfl⟩)
          (fun hf p on hp held => (busy' hf p on hp held).elim) fun hf p on usable => (waits' hf p on usable).elim
      · next hd =>
        refine recordLaws_setBank law (ruly rfl rfl fun _ => Or.inr rfl)
          (fun hf => ⟨row hf, ?_, by simp [BankPhase.hasRecords], fun _ => rfl⟩)
          (fun hf p on hp held => (busy' hf p on hp held).elim) fun hf p on usable => (waits' hf p on usable).elim
        show (s.bank b).dwellExpired = some false
        match hv : (s.bank b).dwellExpired with
        | none => exact absurd hv (dwell hf)
        | some true => exact absurd hv hd
        | some false => rfl
    · next hp =>
      refine recordLaws_setBank law (ruly rfl rfl Or.inl) (fun hf => ?_)
        (fun hf p on hp held => (busy' hf p on hp held).elim) fun hf p on usable => (waits' hf p on usable).elim
      have none' : (s.bank b).holds = [] := by
        by_contra h
        exact hp (opened hf rfl h)
      exact filled_of_phase (law.filled hf b) rfl rfl rfl ⟨fun _ => none', fun _ => rfl⟩ fun _ => Or.inr rfl
  · rw [if_neg (mt List.isEmpty_iff.1 hk)]
    refine recordLaws_completeUpgrade ?_ b
    refine recordLaws_setBank law (ruly rfl rfl Or.inl) (fun hf => ?_)
      (fun hf p on hp held => ⟨hp, busy hf p on hp held⟩) fun hf p on usable => waits hf p on usable
    refine filled_of_phase (law.filled hf b) rfl rfl rfl ⟨fun h => absurd h hk, fun h => ?_⟩ fun _ => Or.inr rfl
    exact narrowed_nil (h ▸ narrowed)

/-- One port's record leaves an OPEN bank on which none of its bursts executes, and to which none is queued that needs it. -/
theorem recordLaws_leaveBank {s : State} (law : s.RecordLaws full) {b : Bank} {p : Port}
    (opened : full → (s.bank b).phase = .opened) (idle : full → s.executingOn p b = false)
    (unused : full → s.queuedOn p b = true → ¬ (s.bank b).usableBy p) : (s.leaveBank b p).RecordLaws full := by
  refine recordLaws_leaving law (narrowed_filter _ _) (fun hf _ _ => opened hf) (fun hf q on _ held => ?_)
    fun hf q on usable => ?_
  · obtain ⟨h, hm, hq⟩ := held
    refine ⟨h, List.mem_filter.2 ⟨hm, ?_⟩, hq⟩
    rw [bne_iff_ne]
    rintro hp
    rw [hq] at hp
    exact absurd on (by rw [hp, idle hf]; nofun)
  · obtain ⟨h, hm, hq, hr⟩ := usable
    refine ⟨h, List.mem_filter.2 ⟨hm, ?_⟩, hq, hr⟩
    rw [bne_iff_ne]
    rintro hp
    obtain rfl := hq.symm.trans hp
    exact unused hf on ⟨h, hm, hp, hr⟩

theorem updRecord_mem {r : BankRecord} {p q : Port} {f : HoldRecord → HoldRecord} (hf : ∀ h, (f h).port = h.port)
    {h : HoldRecord} (hm : h ∈ r.holds) (hq : h.port = q) :
    ∃ k ∈ (r.updRecord p f).holds, k.port = q ∧ (k = h ∨ q = p ∧ k = f h) := by
  refine ⟨_, List.mem_map.2 ⟨h, hm, rfl⟩, ?_⟩
  split
  · next hp => exact ⟨(hf h).trans hq, Or.inr ⟨hq.symm.trans hp, rfl⟩⟩
  · exact ⟨hq, Or.inl rfl⟩

/-- A change of a record in its marks, in which no queued burst loses its record. -/
theorem recordLaws_markRecord {s : State} (law : s.RecordLaws full) (b : Bank) (p : Port) {f : HoldRecord → HoldRecord}
    (hf : ∀ h, (f h).port = h.port ∧ (f h).mode = h.mode)
    (usable : full → s.queuedOn p b = true → ∀ h, (f h).revokePending = h.revokePending) :
    (s.markRecord b p f).RecordLaws full := by
  have port (h : HoldRecord) := (hf h).1
  refine recordLaws_setBank law (ruly_of_narrowed (law.ruly b) (narrowed_map _ fun h => ?_) (List.Sublist.refl _) Or.inl)
    (fun hf => filled_of_phase (law.filled hf b) rfl rfl rfl List.map_eq_nil_iff fun _ => Or.inr rfl)
    (fun _ q _ opened held => ⟨opened, ?_⟩) fun hfull q on held => ?_
  · split
    · exact hf h
    · exact ⟨rfl, rfl⟩
  · obtain ⟨h, hm, hq⟩ := held
    obtain ⟨k, hk, kq, -⟩ := updRecord_mem (p := p) port hm hq
    exact ⟨k, hk, kq⟩
  · obtain ⟨h, hm, hq, hr⟩ := held
    obtain ⟨k, hk, kq, rfl | ⟨rfl, rfl⟩⟩ := updRecord_mem (p := p) port hm hq
    · exact ⟨k, hk, kq, hr⟩
    · exact ⟨_, hk, kq, (usable hfull on h).trans hr⟩

/-- A change of a bank record that touches neither its state nor row, dwell and records, and adds no wait entry. -/
theorem recordLaws_rest {s : State} (law : s.RecordLaws full) {b : Bank} {r : BankRecord} (phase : r.phase = (s.bank b).phase)
    (row : r.row = (s.bank b).row) (dwell : r.dwellExpired = (s.bank b).dwellExpired) (holds : r.holds = (s.bank b).holds)
    (queue : r.waitQueue.Sublist (s.bank b).waitQueue)
    (upgrade : r.holds = [] → r.upgrade = none ∨ r.upgrade = (s.bank b).upgrade) : (s.setBank b r).RecordLaws full := by
  refine recordLaws_setBank law (ruly_of_narrowed (law.ruly b) ?_ queue fun h => Or.inl (phase ▸ h))
    (fun hf => filled_of_phase (law.filled hf b) phase row dwell (by rw [holds]) upgrade)
    (fun _ p _ opened held => ⟨phase.trans opened, ?_⟩) fun _ p _ usable => ?_
  · rw [holds]
    exact ⟨fun _ => true, id, fun _ => ⟨rfl, rfl⟩, by rw [List.filter_true, List.map_id]⟩
  · unfold BankRecord.heldBy
    rw [holds]
    exact held
  · unfold BankRecord.usableBy
    rw [holds]
    exact usable

theorem recordLaws_dropUpgrade {s : State} (law : s.RecordLaws full) (b : Bank) (p : Port) (a : Answer) :
    (s.dropUpgrade b p a).RecordLaws full := by
  unfold State.dropUpgrade
  split
  · split
    · refine recordLaws_same ?_ (answerWork_same _ _ _ _)
      exact recordLaws_rest law rfl rfl rfl rfl (List.Sublist.refl _) fun _ => Or.inl rfl
    · exact law
  · exact law

theorem recordLaws_dropWait {s : State} (law : s.RecordLaws full) (b : Bank) (p : Port) (a : Answer) :
    (s.dropWait b p a).RecordLaws full := by
  unfold State.dropWait
  split
  · refine recordLaws_same ?_ (answerWork_same _ _ _ _)
    exact recordLaws_rest law rfl rfl rfl rfl List.filter_sublist fun _ => Or.inr rfl
  · exact law

/-! ## Grants -/

/-- Of a bank that is CLOSED with a lawful record, no port holds it. -/
theorem closed_unheld {r : BankRecord} (law : r.Filled) (closed : r.phase = .closed) : r.holds = [] := by
  have records := law.records
  rw [closed] at records
  simpa [BankPhase.hasRecords] using records

/-- A CLOSED bank goes to OPENING on a row with new records. -/
theorem recordLaws_grant {s : State} (law : s.RecordLaws full) {b : Bank} {r : BankRecord}
    (closed : (s.bank b).phase = .closed) (phase : r.phase = .opening) (row : r.row ≠ none)
    (dwell : r.dwellExpired = some false) (records : r.holds ≠ [])
    (modes : (∀ h ∈ r.holds, h.mode = .shared) ∨ ∃ h, r.holds = [h]) (place : ∀ p, r.places p ≤ 1) :
    (s.setBank b r).RecordLaws full := by
  refine recordLaws_setBank law ⟨modes, fun h => ?_, place⟩
    (fun _ => ⟨by simp [phase, row, BankPhase.hasRow], by rw [phase]; exact dwell, by simp [phase, records, BankPhase.hasRecords],
      fun h => absurd h records⟩)
    (fun _ p _ opened => ?_) fun hf p _ usable => ?_
  · exact absurd (phase.symm.trans h) (by decide)
  · exact absurd (closed.symm.trans opened) (by decide)
  · obtain ⟨h, hm, -⟩ := usable
    rw [closed_unheld (law.filled hf b) closed] at hm
    cases hm

theorem tickStamp_same (s : State) (n : Nat) : s.SameWork (s.tickStamp n) := ⟨rfl, rfl, fun _ => rfl⟩

theorem places_of_absent {r : BankRecord} {p : Port} (record : r.recordOf p = none) (wait : r.waitOf p = none) : r.places p = 0 := by
  unfold BankRecord.places
  rw [List.filter_eq_nil_iff.2 (List.find?_eq_none.1 record), List.filter_eq_nil_iff.2 (List.find?_eq_none.1 wait)]
  rfl

theorem waiting_of_absent {r : BankRecord} {p : Port} (wait : r.waitOf p = none) :
    r.waitQueue.filter (fun w => w.port == p) = [] :=
  List.filter_eq_nil_iff.2 (List.find?_eq_none.1 wait)

theorem recordLaws_freshGrant {s : State} (law : s.RecordLaws full) {b : Bank} {p : Port} (t : Tag) (row : Row) (mode : HoldMode)
    (closed : (s.bank b).phase = .closed) (wait : (s.bank b).waitOf p = none) : (s.freshGrant b p t row mode).RecordLaws full := by
  refine recordLaws_same ?_ (tickStamp_same _ 1)
  refine recordLaws_grant law closed rfl (Option.some_ne_none row) rfl (List.cons_ne_nil _ _) (Or.inr ⟨_, rfl⟩) fun q => ?_
  unfold BankRecord.places
  by_cases hq : q = p
  · rw [hq, waiting_of_absent wait]
    simp [newRecord]
  · have other := (law.ruly b).place q
    unfold BankRecord.places at other
    simp only [newRecord, List.filter_cons, beq_iff_eq, if_neg (Ne.symm hq), List.filter_nil, List.length_nil, Nat.zero_add]
    omega

/-- A record of a port that has neither record nor wait on the bank is added, on a bank that is OPENING or OPEN then. -/
theorem recordLaws_add {s : State} (law : s.RecordLaws full) {b : Bank} {h : HoldRecord} {r : BankRecord}
    (hr : r = { s.bank b with phase := r.phase, holds := (s.bank b).holds ++ [h] })
    (record : (s.bank b).recordOf h.port = none) (wait : (s.bank b).waitOf h.port = none)
    (modes : (h.mode = .shared ∧ ∀ x ∈ (s.bank b).holds, x.mode = .shared) ∨ (s.bank b).holds = [])
    (phases : r.phase = .opening ∧ (s.bank b).phase = .opening
      ∨ r.phase = .opened ∧ ((s.bank b).phase = .opened ∨ (s.bank b).phase = .closeWait)) :
    (s.setBank b r).RecordLaws full := by
  generalize r.phase = phase at hr phases
  subst hr
  have absent := places_of_absent record wait
  refine recordLaws_setBank law ⟨?_, fun hc => ?_, fun q => ?_⟩ (fun hf => ?_)
    (fun _ q _ opened ⟨x, hx, hq⟩ => ⟨?_, x, List.mem_append_left _ hx, hq⟩)
    fun _ q _ ⟨x, hx, hq⟩ => ⟨x, List.mem_append_left _ hx, hq⟩
  · rcases modes with ⟨shared, all⟩ | none
    · refine Or.inl fun x hx => ?_
      rcases List.mem_append.1 hx with hx | hx
      · exact all x hx
      · rw [List.mem_singleton.1 hx, shared]
    · exact Or.inr ⟨h, by rw [none]; rfl⟩
  · rcases phases with ⟨rfl, -⟩ | ⟨rfl, -⟩ <;> cases hc
  · have before := (law.ruly b).place q
    unfold BankRecord.places at before absent ⊢
    by_cases hq : q = h.port
    · subst hq
      simp only [List.filter_append, List.length_append, List.filter_cons, beq_self_eq_true, if_true, List.filter_nil,
        List.length_cons, List.length_nil]
      omega
    · simp only [List.filter_append, List.length_append, List.filter_cons, beq_iff_eq, if_neg (Ne.symm hq), List.filter_nil,
        List.length_nil]
      omega
  · have filled := law.filled hf b
    have row := filled.row
    have dwell := filled.dwell
    rcases phases with ⟨rfl, hp⟩ | ⟨rfl, hp | hp⟩ <;> rw [hp] at row dwell
    · exact ⟨row, dwell, by simp [BankPhase.hasRecords], by simp⟩
    · exact ⟨row, dwell, by simp [BankPhase.hasRecords], by simp⟩
    · refine ⟨row, ?_, by simp [BankPhase.hasRecords], by simp⟩
      show (s.bank b).dwellExpired ≠ none
      rw [show (s.bank b).dwellExpired = some false from dwell]
      nofun
  · rcases phases with ⟨-, hp⟩ | ⟨rfl, -⟩
    · exact absurd (hp.symm.trans opened) (by decide)
    · rfl

/-! ## Queue service -/

/-- The wait entries of a port that is not the chosen one's are, in number, those granted with it and those left waiting. -/
theorem batch_and_left (keep joins : WaitEntry → Bool) (p : Port) (queue : List WaitEntry) :
    ((queue.filter (fun w => keep w && joins w)).filter (fun w => w.port == p)).length
      + ((queue.filter (fun w => keep w && !joins w)).filter (fun w => w.port == p)).length
      ≤ (queue.filter (fun w => w.port == p)).length := by
  induction queue with
  | nil => simp
  | cons w queue ih =>
    by_cases hp : w.port == p <;> cases hk : keep w <;> cases hj : joins w <;>
      simp only [List.filter_cons, hp, hk, hj, Bool.and_true, Bool.and_false, Bool.not_true, Bool.not_false, if_true,
        Bool.false_eq_true, if_false, List.length_cons] <;> omega

theorem batchRecords_ports (batch : List WaitEntry) (n : Nat) (p : Port) :
    ((batchRecords batch n).filter (fun h => h.port == p)).length = (batch.filter (fun w => w.port == p)).length := by
  induction batch generalizing n with
  | nil => rfl
  | cons w batch ih =>
    rw [batchRecords, List.filter_cons, List.filter_cons]
    show (if w.port == p then _ else _ : List HoldRecord).length = _
    split
    · rw [List.length_cons, List.length_cons, ih]
    · exact ih (n + 1)

theorem batchRecords_modes {w : WaitEntry} (queue : List WaitEntry) (n : Nat) :
    (∀ h ∈ batchRecords (batchOf w queue) n, h.mode = .shared) ∨ ∃ h, batchRecords (batchOf w queue) n = [h] := by
  have shared (batch : List WaitEntry) : ∀ n, (∀ y ∈ batch, y.mode = .shared) → ∀ h ∈ batchRecords batch n, h.mode = .shared := by
    induction batch with
    | nil => exact fun _ _ _ hm => nomatch hm
    | cons y batch ih =>
      intro n all h hm
      rcases List.mem_cons.1 hm with rfl | hm
      · exact all y List.mem_cons_self
      · exact ih (n + 1) (fun z hz => all z (List.mem_cons_of_mem _ hz)) h hm
  cases hw : w.mode with
  | shared =>
    refine Or.inl (shared _ n fun y hy => ?_)
    rcases List.mem_cons.1 hy with rfl | hy
    · exact hw
    · have joins := (List.mem_filter.1 hy).2
      unfold WaitEntry.joinsBatch at joins
      simp only [Bool.and_eq_true, beq_iff_eq] at joins
      exact joins.2.1.2
  | exclusive =>
    have alone : queue.filter (fun y => y.port != w.port && w.joinsBatch y) = [] :=
      List.filter_eq_nil_iff.2 fun y _ => by simp [WaitEntry.joinsBatch, hw]
    refine Or.inr ⟨newRecord w.port w.mode (some w.tag) n, ?_⟩
    unfold batchOf
    rw [alone]
    rfl

theorem recordLaws_grantBatch {s : State} (law : s.RecordLaws full) {b : Bank} {w : WaitEntry}
    (closed : (s.bank b).phase = .closed) : (s.grantBatch b w).RecordLaws full := by
  unfold State.grantBatch State.openOn
  simp only [setBank_setBank, bank_setBank_same, setBank_now]
  refine recordLaws_same ?_ (tickStamp_same _ _)
  refine recordLaws_grant law closed rfl (Option.some_ne_none _) rfl (List.cons_ne_nil _ _) (batchRecords_modes _ _) fun p => ?_
  have before := (law.ruly b).place p
  unfold BankRecord.places at before ⊢
  simp only [batchRecords_ports]
  have split := batch_and_left (fun y => y.port != w.port) w.joinsBatch p (s.bank b).waitQueue
  unfold batchOf leftWaiting
  by_cases hp : w.port = p
  · have others (f : WaitEntry → Bool) :
        ((s.bank b).waitQueue.filter (fun y => y.port != w.port && f y)).filter (fun y => y.port == p) = [] := by
      rw [List.filter_filter, List.filter_eq_nil_iff]
      simp +contextual [hp]
    rw [List.filter_cons_of_pos (by simpa using hp), others, others]
    simp
  · rw [List.filter_cons_of_neg (by simpa using hp)]
    omega

theorem recordLaws_serveBank {s : State} (law : s.RecordLaws full) (b : Bank) : (s.serveBank b).RecordLaws full := by
  unfold State.serveBank
  split
  · next h =>
    split
    · exact recordLaws_grantBatch law h.1
    · exact law
  · exact law

theorem recordLaws_foldl {α : Type} {f : State → α → State} (hf : ∀ (s : State) x, s.RecordLaws full → (f s x).RecordLaws full)
    (xs : List α) {s : State} (law : s.RecordLaws full) : (xs.foldl f s).RecordLaws full :=
  foldl_keeps (P := State.RecordLaws full) hf xs law

theorem recordLaws_serveQuad {s : State} (law : s.RecordLaws full) (q : Quad) : (s.serveQuad q).RecordLaws full :=
  recordLaws_foldl (fun _ b law => recordLaws_serveBank law b) _ law

end
end Sys2Proof.Machine
end
section
/-!
SUPPORT. The laws of records and bursts under OPEN, CLOSE and UPGRADE at the hold controller and under the acceptance and the start
of bursts (R27, R36 to R44, R53 to R58).
-/

namespace Sys2Proof.Machine

open Sys2Proof

section
variable {full : Prop}

/-! ## OPEN (R25 to R31) -/

/-- An OPEN that passes the checks of R25 names a bank and a row, and its port has neither record nor wait there. -/
theorem openRefusal_none {s : State} {p : Port} {bank : Option Bank} {row : Option Row} (h : s.openRefusal p bank row = none) :
    ∃ b r, bank = some b ∧ row = some r ∧ (s.session p).state = .attached
      ∧ (s.bank b).recordOf p = none ∧ (s.bank b).waitOf p = none := by
  unfold State.openRefusal at h
  split at h
  · cases h
  · next att =>
    split at h
    · next b r =>
      split at h
      · cases h
      · next record =>
        split at h
        · cases h
        · next wait => exact ⟨b, r, rfl, rfl, not_not.1 att, by simpa using record, by simpa using wait⟩
    · cases h

/-- An OPEN that is granted or joined finds its bank CLOSED, or on its row with a place for it (R26). -/
theorem openConflict_none {s : State} {b : Bank} {row : Row} {mode : HoldMode} (h : s.openConflict b row mode = none) :
    (s.bank b).phase = .closed
      ∨ ((s.bank b).phase = .opening ∨ (s.bank b).phase = .opened) ∧ (s.bank b).joinable row mode = true
      ∨ (s.bank b).phase = .closeWait := by
  unfold State.openConflict at h
  simp only [] at h
  split at h
  · cases h
  · split at h
    · cases h
    · split at h
      · cases h
      · cases hp : (s.bank b).phase <;> simp_all

theorem recordLaws_placeOpen {s : State} (law : s.RecordLaws full) {b : Bank} {p : Port} (t : Tag) {row : Row} {mode : HoldMode}
    (record : (s.bank b).recordOf p = none) (wait : (s.bank b).waitOf p = none) (conflict : s.openConflict b row mode = none) :
    (s.placeOpen b p t row mode).RecordLaws full := by
  have joined (tag : Option Tag) (phase : (s.bank b).phase = .opening ∨ (s.bank b).phase = .opened)
      (shared : ∀ x ∈ (s.bank b).holds, x.mode = .shared) :
      (s.addRecord b (newRecord p .shared tag s.stamp)).RecordLaws full := by
    refine recordLaws_same ?_ (tickStamp_same _ 1)
    refine recordLaws_add law rfl record wait (Or.inl ⟨rfl, shared⟩) ?_
    exact phase.imp (fun h => ⟨h, h⟩) fun h => ⟨h, Or.inl h⟩
  unfold State.placeOpen
  rcases openConflict_none conflict with hp | ⟨hp, join⟩ | hp
  · rw [hp]
    exact recordLaws_freshGrant law t row mode hp wait
  · unfold BankRecord.joinable at join
    simp only [Bool.and_eq_true, List.all_eq_true, beq_iff_eq] at join
    have join : (s.joinBank b p t).RecordLaws full := by
      unfold State.joinBank
      split
      · exact joined _ hp join.1.2
      · exact recordLaws_same (joined _ hp join.1.2) (answer_same _ _ _ _)
    rcases hp with hp | hp <;> rw [hp] <;> exact join
  · rw [hp]
    refine recordLaws_same ?_ (answer_same _ _ _ _)
    refine recordLaws_same ?_ (tickStamp_same _ 1)
    rw [bank_setBank_same, setBank_setBank]
    exact recordLaws_add law rfl record wait (Or.inr ((law.ruly b).closeWait hp)) (Or.inr ⟨rfl, Or.inr hp⟩)

theorem recordLaws_addWait {s : State} (law : s.RecordLaws full) {b : Bank} {p : Port} (t : Tag) (row : Row) (mode : HoldMode)
    (record : (s.bank b).recordOf p = none) (wait : (s.bank b).waitOf p = none) : (s.addWait b p t row mode).RecordLaws full := by
  refine recordLaws_same ?_ (answer_same _ _ _ _)
  refine recordLaws_same ?_ (tickStamp_same _ 1)
  have absent := places_of_absent record wait
  refine recordLaws_setBank law ⟨(law.ruly b).modes, (law.ruly b).closeWait, fun q => ?_⟩
    (fun hf => filled_of_phase (law.filled hf b) rfl rfl rfl Iff.rfl fun _ => Or.inr rfl)
    (fun _ _ _ opened held => ⟨opened, held⟩) fun _ _ _ usable => usable
  have before := (law.ruly b).place q
  unfold BankRecord.places at before absent ⊢
  by_cases hq : p = q
  · subst hq
    simp only [List.filter_append, List.length_append, List.filter_cons, beq_self_eq_true, if_true, List.filter_nil,
      List.length_cons, List.length_nil]
    omega
  · simp only [List.filter_append, List.length_append, List.filter_cons, beq_iff_eq, if_neg hq, List.filter_nil,
      List.length_nil]
    omega

theorem recordLaws_answer {s : State} (law : s.RecordLaws full) (p : Port) (t : Tag) (a : Answer) :
    (s.answer p t a).RecordLaws full := recordLaws_same law (answer_same s p t a)

theorem recordLaws_holdOpen {s : State} (law : s.RecordLaws full) (p : Port) (t : Tag) (bank : Byte) (row : BitVec 16)
    (mode : HoldMode) (wait : Bool) : (s.holdOpen p t bank row mode wait).RecordLaws full := by
  unfold State.holdOpen
  split
  · exact recordLaws_answer law p t _
  · next b r hrefusal hb hr =>
    obtain ⟨b', r', eb, er, -, record, waits⟩ := openRefusal_none hrefusal
    obtain rfl := Option.some.inj (hb.symm.trans eb)
    split
    · next conflict => exact recordLaws_placeOpen law t record waits conflict
    · split
      · exact recordLaws_addWait law t _ mode record waits
      · exact recordLaws_answer law p t _
  · exact recordLaws_answer law p t _

/-! ## CLOSE and UPGRADE (R36, R37, R42) -/

theorem recordLaws_closeRecord {s : State} (law : s.RecordLaws full) (b : Bank) (p : Port) (t : Tag) :
    (s.closeRecord b p t).RecordLaws full := by
  have marked := recordLaws_dropUpgrade (recordLaws_markRecord law b p
    (f := fun h => { h with releasing := true, closeTag := some t }) (fun _ => ⟨rfl, rfl⟩) fun _ _ _ => rfl) b p .cancelled
  unfold State.closeRecord
  simp only []
  split
  · next h =>
    refine recordLaws_answer (recordLaws_leaveBank marked (fun _ => h.1) (fun _ => by simpa using h.2.2) fun _ on => ?_) p t _
    simp [on] at h
  · exact marked

theorem recordLaws_holdClose {s : State} (law : s.RecordLaws full) (p : Port) (t : Tag) (bank : Byte) :
    (s.holdClose p t bank).RecordLaws full := by
  unfold State.holdClose
  split
  · exact recordLaws_answer law p t _
  · split
    · exact recordLaws_answer law p t _
    · next b _ =>
      split
      · exact recordLaws_answer (recordLaws_dropWait law b p _) p t _
      · split
        · split
          · exact recordLaws_closeRecord law b p t
          · exact recordLaws_answer law p t _
        · exact recordLaws_answer law p t _

theorem recordOf_some {r : BankRecord} {p : Port} {h : HoldRecord} (hr : r.recordOf p = some h) : h ∈ r.holds ∧ h.port = p :=
  ⟨List.mem_of_find?_eq_some hr, by simpa using List.find?_some hr⟩

theorem recordLaws_holdUpgrade {s : State} (law : s.RecordLaws full) (p : Port) (t : Tag) (bank : Byte) :
    (s.holdUpgrade p t bank).RecordLaws full := by
  unfold State.holdUpgrade
  split
  · exact recordLaws_answer law p t _
  · split
    · exact recordLaws_answer law p t _
    · next b _ =>
      split
      · exact recordLaws_answer law p t _
      · next h hh =>
        obtain ⟨hm, hp⟩ := recordOf_some hh
        split
        · exact recordLaws_answer law p t _
        · split
          · exact recordLaws_answer law p t _
          · split
            · next one =>
              obtain ⟨x, hx⟩ := List.length_eq_one_iff.1 one
              obtain rfl : h = x := List.mem_singleton.1 (hx ▸ hm)
              refine recordLaws_answer ?_ p t _
              refine recordLaws_soleExclusive law hx ?_
              unfold BankRecord.updRecord
              rw [hx, List.map_singleton, if_pos hp]
            · split
              · exact recordLaws_answer law p t _
              · refine recordLaws_answer ?_ p t _
                exact recordLaws_rest law rfl rfl rfl rfl (List.Sublist.refl _) fun none =>
                  absurd none (List.ne_nil_of_mem hm)

/-! ## Bursts (R53, R55, R58) -/

/-- The burst engine has some of the bursts that it had, on the same banks and for sessions in the same states. -/
theorem recordLaws_fewer {s t : State} (law : s.RecordLaws full) (banks : t.banks = s.banks)
    (executing : t.bursts.executing = none ∨ t.bursts.executing = s.bursts.executing)
    (queues : ∀ p x, x ∈ t.burstQueue p → x ∈ s.burstQueue p)
    (states : ∀ p, (t.session p).state = (s.session p).state) : t.RecordLaws full := by
  have bank (b : Bank) : t.bank b = s.bank b := by
    unfold State.bank
    rw [banks]
  refine ⟨fun b => bank b ▸ law.ruly b, fun hf b => bank b ▸ law.filled hf b, fun hf => ?_⟩
  refine burstLaw_of (law.bursts hf) (fun e he => ?_) queues (fun e _ opened held => bank _ ▸ ⟨opened, held⟩)
    (fun p x _ usable => bank _ ▸ usable) (fun e _ alive => by rw [states]; exact ⟨alive, id⟩)
    fun p _ att => (states p).trans att
  rcases executing with none | same
  · rw [none] at he
    cases he
  · exact ⟨e, same ▸ he, rfl, Or.inl⟩

theorem mem_setBurstQueue {s : State} {p q : Port} {l : List QueuedBurst} {x : QueuedBurst}
    (h : x ∈ (s.setBurstQueue p l).burstQueue q) : (q = p ∧ x ∈ l) ∨ q ≠ p ∧ x ∈ s.burstQueue q := by
  by_cases hq : q = p
  · subst hq
    rw [burstQueue_setBurstQueue_same] at h
    exact Or.inl ⟨rfl, h⟩
  · rw [burstQueue_setBurstQueue_ne _ _ hq] at h
    exact Or.inr ⟨hq, h⟩

theorem recordLaws_removeBankBursts {s : State} (law : s.RecordLaws full) (p : Port) (b : Bank) (a : Answer) :
    (s.removeBankBursts p b a).RecordLaws full := by
  refine recordLaws_same ?_ (answerBursts_same _ p a _)
  refine recordLaws_fewer law rfl (Or.inr rfl) (fun q x hx => ?_) fun _ => rfl
  rcases mem_setBurstQueue hx with ⟨rfl, hx⟩ | ⟨-, hx⟩
  · exact (List.mem_filter.1 hx).1
  · exact hx

theorem firstCandidate_some {s : State} {p : Port} {b : QueuedBurst} {ports : List Port}
    (h : s.firstCandidate ports = some (p, b)) : s.candidate p = some b := by
  induction ports with
  | nil => cases h
  | cons q ports ih =>
    unfold State.firstCandidate at h
    split at h
    · next hb =>
      obtain ⟨rfl, rfl⟩ := Prod.mk.inj (Option.some.inj h)
      exact hb
    · exact ih h

/-- The chosen burst was at the head of its queue with its bank OPEN, so that it has its port's record there. -/
theorem recordLaws_arbiterChoice {s : State} (law : s.RecordLaws full) : s.arbiterChoice.RecordLaws full := by
  unfold State.arbiterChoice
  split
  · exact law
  · split
    · next p x chosen =>
      obtain ⟨head, opened⟩ := (candidate_iff s p x).1 (firstCandidate_some chosen)
      refine ⟨law.ruly, law.filled, fun hf => ?_⟩
      obtain ⟨-, queued⟩ := law.bursts hf
      refine ⟨fun e he => ?_, fun q y hy => queued q y ?_⟩
      · obtain rfl := Option.some.inj he
        obtain ⟨port, att, h, hm, hp, -⟩ := queued p x (List.mem_of_head? head)
        have att : (s.session x.port).state = .attached := port ▸ att
        refine ⟨opened, ⟨h, hm, hp.trans port.symm⟩, ?_, fun cut => absurd rfl cut⟩
        exact fun none => by cases att.symm.trans none
      · have hy : y ∈ (s.bursts.queues.set p ((s.burstQueue p).drop 1)).get q := hy
        rw [four_get_set] at hy
        split at hy
        · next hq => exact hq ▸ List.mem_of_mem_drop hy
        · exact hy
    · exact law

/-- A burst of an ATTACHED port joins its queue, with a record of the port on its bank that may be used. -/
theorem recordLaws_queueBurst {s : State} (law : s.RecordLaws full) {x : QueuedBurst}
    (att : (s.session x.port).state = .attached) (usable : (s.bank x.bank).usableBy x.port) :
    (s.queueBurst x).RecordLaws full := by
  refine ⟨law.ruly, law.filled, fun hf => ⟨(law.bursts hf).1, fun q y hy => ?_⟩⟩
  rcases mem_setBurstQueue (p := x.port) hy with ⟨rfl, own⟩ | ⟨-, hy⟩
  · rcases List.mem_append.1 own with hy | hy
    · exact (law.bursts hf).2 _ y hy
    · obtain rfl := List.mem_singleton.1 hy
      exact ⟨rfl, att, usable⟩
  · exact (law.bursts hf).2 q y hy

/-- A burst that passes the checks of R54 has a record of its port that is not marked, in an ATTACHED session. -/
theorem burstRefusal_none {s : State} {p : Port} {kind : BurstKind} {b : Bank} {column units : Byte}
    (h : s.burstRefusal p kind (some b) column units = none) :
    (s.session p).state = .attached ∧ (s.bank b).usableBy p := by
  unfold State.burstRefusal at h
  split at h
  · cases h
  · next att =>
    simp only [] at h
    split at h
    · cases h
    · split at h
      · cases h
      · next x hx =>
        split at h
        · cases h
        · next unmarked =>
          obtain ⟨hm, hp⟩ := recordOf_some hx
          exact ⟨not_not.1 att, x, hm, hp, ((unmarked_iff x).1 (by simpa using unmarked)).2⟩

theorem recordLaws_acceptBurst {s : State} (law : s.RecordLaws full) (p : Port) (t : Tag) (kind : BurstKind)
    (bank column units : Byte) (ac : Bool) (data : List WriteUnit) :
    (s.acceptBurst p t kind bank column units ac data).RecordLaws full := by
  unfold State.acceptBurst
  split
  · exact recordLaws_answer law p t _
  · next b refusal hb =>
    rw [hb] at refusal
    obtain ⟨att, usable⟩ := burstRefusal_none refusal
    refine recordLaws_arbiterChoice ?_
    have queued {x : QueuedBurst} (hp : x.port = p) (hb : x.bank = b) : (s.queueBurst x).RecordLaws full :=
      recordLaws_queueBurst law (hp ▸ att) (hp ▸ hb ▸ usable)
    split
    · have queued := queued (x := ⟨p, t, kind, b, (s.bank b).openRow, column.toNat, units.toNat, ac, data⟩) rfl rfl
      exact recordLaws_dropUpgrade
          (recordLaws_markRecord queued b p (f := HoldRecord.release) (fun _ => ⟨rfl, rfl⟩) fun _ _ _ => rfl) b p .cancelled
    · exact queued rfl rfl
  · exact recordLaws_answer law p t _

end
end Sys2Proof.Machine
end
section
/-!
SUPPORT. The laws of records and bursts under completions, FORCED entry, refreshes and clears (R10, R13, R16, R17, R46, R47, R61).
-/

namespace Sys2Proof.Machine

open Sys2Proof

section
variable {full : Prop}

/-! ## Timed events of a bank (R11, R12, R15) -/

theorem states_of_replied {s t : State} (h : ∀ p, ∃ es, s.RepliedTo t p es) (p : Port) :
    (t.session p).state = (s.session p).state := by
  obtain ⟨es, -, session⟩ := h p
  rw [session]
  split <;> rfl

theorem recordLaws_openedSweep {s : State} (law : s.RecordLaws full) (b : Bank) :
    (sweep (openRecord b) (s.bank b).holds s).1.RecordLaws full := by
  obtain ⟨executing, -, queues⟩ := sweep_openRecord_bursts b (s.bank b).holds s
  refine recordLaws_fewer law ?_ (Or.inr executing) (fun p x hx => ?_)
    (states_of_replied fun p => sweep_openRecord_answers b p _ s)
  · exact sixteen_ext fun c => sweep_bank (openRecord_bank b) (s.bank b).holds s c
  · rw [queues] at hx
    split at hx
    · exact (List.mem_filter.1 hx).1
    · exact hx

/-- At open completion the unmarked records stay; a queued burst whose record goes has gone with it. -/
theorem recordLaws_completeOpen {s : State} (law : s.RecordLaws full) {b : Bank} (opening : (s.bank b).phase = .opening) :
    (s.completeOpen b).RecordLaws full := by
  rw [completeOpen_eq]
  refine recordLaws_completeUpgrade ?_ b
  have bank := sweep_bank (openRecord_bank b) (s.bank b).holds s b
  have queues := (sweep_openRecord_bursts b (s.bank b).holds s).2.2
  have narrowed : Narrowed (s.bank b).holds (s.bank b).openKept := ⟨_, fun h => { h with openTag := none }, fun _ => ⟨rfl, rfl⟩, rfl⟩
  unfold State.opened
  rw [afterOpening_eq]
  refine recordLaws_setBank (recordLaws_openedSweep law b)
    (ruly_of_narrowed (law.ruly b) narrowed (List.Sublist.refl _) fun hc => Or.inr ?_) (fun hf => ?_)
    (fun _ p _ opened => ?_) fun hf p queued usable => ?_
  · by_contra kept
    exact absurd (hc.symm.trans (if_neg kept)) (by decide)
  · have row := (law.filled hf b).row
    rw [opening] at row
    by_cases kept : (s.bank b).openKept = []
    · simp only [kept, if_true]
      exact ⟨row, rfl, by simp [BankPhase.hasRecords], fun _ => by simp⟩
    · simp only [kept, if_false]
      exact ⟨row, Option.some_ne_none _, by simp [BankPhase.hasRecords, kept], fun h => absurd h kept⟩
  · rw [bank, opening] at opened
    cases opened
  · rw [bank] at usable
    obtain ⟨x, hx, hp, hr⟩ := usable
    obtain ⟨y, hy, hb⟩ := (queuedOn_iff _ p b).1 queued
    rw [queues] at hy
    split at hy
    · have := (List.mem_filter.1 hy).2
      simp [hb] at this
    · next unreleased =>
      refine ⟨{ x with openTag := none }, List.mem_map.2 ⟨x, List.mem_filter.2 ⟨hx, ?_⟩, rfl⟩, hp, hr⟩
      rw [hr, Bool.not_false, Bool.and_true, Bool.not_eq_true']
      by_contra released
      exact unreleased (List.any_eq_true.2 ⟨x, hx, by simpa [hp] using released⟩)

theorem recordLaws_expireDwell {s : State} (law : s.RecordLaws full) {b : Bank} (runs : (s.bank b).dwellRuns = true) :
    (s.expireDwell b).RecordLaws full := by
  unfold BankRecord.dwellRuns at runs
  simp only [Bool.and_eq_true, Bool.or_eq_true, beq_iff_eq] at runs
  have row (hf : full) := (law.filled hf b).row
  have records (hf : full) := (law.filled hf b).records
  have upgrade (hf : full) := (law.filled hf b).upgrade
  rcases runs.1 with hp | hp <;> rw [hp] at row records
  · rw [expireDwell_opened hp]
    refine recordLaws_setBank law ⟨(law.ruly b).modes, (law.ruly b).closeWait, (law.ruly b).place⟩ (fun hf => ?_)
      (fun _ _ _ opened held => ⟨opened, held⟩) fun _ _ _ usable => usable
    exact ⟨by rw [← hp] at row; exact row hf, by simp only [hp]; exact Option.some_ne_none _,
      by rw [← hp] at records; exact records hf, upgrade hf⟩
  · rw [expireDwell_closeWait hp]
    refine recordLaws_setBank law ⟨(law.ruly b).modes, nofun, (law.ruly b).place⟩
      (fun hf => ⟨row hf, rfl, records hf, upgrade hf⟩) (fun _ _ _ opened => ?_) fun _ _ _ usable => usable
    exact absurd (hp.symm.trans opened) (by decide)

theorem recordLaws_completeClose {s : State} (law : s.RecordLaws full) {b : Bank} (closing : (s.bank b).phase = .closing) :
    (s.completeClose b).RecordLaws full := by
  refine recordLaws_serveBank ?_ b
  refine recordLaws_setBank law ⟨(law.ruly b).modes, nofun, (law.ruly b).place⟩ (fun hf => ?_) (fun _ _ _ opened => ?_)
    fun _ _ _ usable => usable
  · have records := (law.filled hf b).records
    rw [closing] at records
    exact ⟨by simp [BankPhase.hasRow], rfl, records, (law.filled hf b).upgrade⟩
  · exact absurd (closing.symm.trans opened) (by decide)

/-! ## The end of a burst (R65, R69) -/

theorem oneRecord_of_ruly {r : BankRecord} (law : r.Ruly) : r.oneRecord := fun p => (Nat.le_add_right _ _).trans (law.place p)

theorem recordLaws_reportCompletion {s : State} (law : s.RecordLaws full) (p : Port) (b : Bank)
    (opened : full → (s.bank b).phase = .opened) (idle : s.bursts.executing = none) :
    (s.reportCompletion p b).RecordLaws full := by
  have idle (_ : full) : s.executingOn p b = false := by
    unfold State.executingOn
    rw [idle]
  unfold State.reportCompletion
  split
  · exact law
  · next h hh =>
    obtain ⟨hm, hp⟩ := recordOf_some hh
    split
    · split
      · exact law
      · next unqueued =>
        exact recordLaws_same (recordLaws_leaveBank law opened idle fun _ on => absurd on unqueued) (answerTag_same _ _ _ _)
    · split
      · next revoked =>
        refine recordLaws_same (recordLaws_leaveBank law opened idle fun _ _ ⟨x, hx, xp, xr⟩ => ?_) (notify_same _ _ _)
        obtain rfl := oneRecord_unique (oneRecord_of_ruly (law.ruly b)) hx hm (xp.trans hp.symm)
        exact absurd revoked (by rw [xr]; nofun)
      · exact law

theorem recordLaws_finishBurst {s : State} (law : s.RecordLaws full) {e : Execution} (he : s.bursts.executing = some e) :
    (s.finishBurst e).RecordLaws full := by
  have answered := answerWork_same s e.burst.port e.burst.tag (burstAnswer e.burst (s.lapseOf e.burst) e.results)
  refine recordLaws_reportCompletion ?_ _ _ (fun hf => ?_) rfl
  · exact recordLaws_fewer (recordLaws_same law answered) rfl (Or.inl rfl) (fun _ _ hx => hx) fun _ => rfl
  exact (congrArg BankRecord.phase (answered.bank e.burst.bank)).trans ((law.bursts hf).1 e he).1

/-- The end of a cut burst, whose port has no burst queued on the bank that needs its record. -/
theorem recordLaws_endCut {s : State} (law : s.RecordLaws full) {x : QueuedBurst} (opened : full → (s.bank x.bank).phase = .opened)
    (unused : full → s.queuedOn x.port x.bank = false) : (s.endCut x).RecordLaws full := by
  have freed : (s.setExecuting none).RecordLaws full := recordLaws_fewer law rfl (Or.inl rfl) (fun _ _ hx => hx) fun _ => rfl
  unfold State.endCut
  simp only []
  split
  · exact recordLaws_leaveBank freed opened (fun _ => rfl) fun hf on => absurd on (by
      rw [show (s.setExecuting none).queuedOn x.port x.bank = s.queuedOn x.port x.bank from rfl, unused hf]
      nofun)
  · exact freed

/-! ## Revocation (R46, R47, R66) -/

/-- The record stays on its bank at a FORCED entry (R47). -/
def State.staysAtForced (s : State) (b : Bank) (h : HoldRecord) : Bool :=
  (s.bank b).phase != .opened || h.revokePending || s.executingOn h.port b

theorem revokeRecord_stays (b : Bank) (s : State) (h : HoldRecord) :
    (revokeRecord b s h).2 = if s.staysAtForced b h then some h.revoke else none := by
  unfold revokeRecord State.staysAtForced HoldRecord.revoke
  by_cases hp : (s.bank b).phase = .opened
  · cases hv : h.revokePending with
    | true =>
      simp only [hp, ne_eq, not_true, if_false, if_true, Bool.or_true, Bool.true_or]
      split
      · rfl
      · rw [← hv]
    | false => cases s.executingOn h.port b <;> cases h.releasing <;> simp [hp]
  · simp [hp]

theorem executingOn_congr {s t : State} (h : t.bursts.executing = s.bursts.executing) (p : Port) (b : Bank) :
    t.executingOn p b = s.executingOn p b := by
  unfold State.executingOn
  rw [h]

theorem staysAtForced_congr {s t : State} {b : Bank} (hphase : (t.bank b).phase = (s.bank b).phase)
    (hexecuting : t.bursts.executing = s.bursts.executing) : t.staysAtForced b = s.staysAtForced b := by
  funext h
  unfold State.staysAtForced
  rw [hphase, executingOn_congr hexecuting]

theorem sweep_revokeRecord_stays (b : Bank) : ∀ (hs : List HoldRecord) (s : State),
    (sweep (revokeRecord b) hs s).2 = (hs.filter (s.staysAtForced b)).map HoldRecord.revoke
  | [], _ => rfl
  | h :: hs, s => by
    have answers := onlyAnswers_keeps (revokeRecord_answers b s h)
    have stays : (revokeRecord b s h).1.staysAtForced b = s.staysAtForced b :=
      staysAtForced_congr (by rw [revokeRecord_bank]) (by rw [answers.2.1])
    show (revokeRecord b s h).2.toList ++ (sweep (revokeRecord b) hs (revokeRecord b s h).1).2 = _
    rw [sweep_revokeRecord_stays b hs, stays, revokeRecord_stays, List.filter_cons]
    split <;> rfl

theorem revokeRecord_same (b : Bank) (s : State) (h : HoldRecord) : s.SameWork (revokeRecord b s h).1 := by
  unfold revokeRecord
  split
  · exact sameWork_refl s
  · split
    · exact sameWork_refl s
    · split
      · exact sameWork_refl s
      · split
        · exact answerTag_same _ _ _ _
        · exact notify_same _ _ _

theorem sweep_same {f : State → HoldRecord → State × Option HoldRecord} (hf : ∀ (s : State) h, s.SameWork (f s h).1) :
    ∀ (hs : List HoldRecord) (s : State), s.SameWork (sweep f hs s).1
  | [], s => sameWork_refl s
  | h :: hs, s => sameWork_trans (hf s h) (sweep_same hf hs _)

theorem revoke_same (h : HoldRecord) : h.revoke.port = h.port ∧ h.revoke.mode = h.mode := by
  unfold HoldRecord.revoke
  split <;> exact ⟨rfl, rfl⟩

/-- A bank without its queued bursts and its pending upgrade, before its records are looked at (R46, R66). -/
def State.stripped (s : State) (b : Bank) : State :=
  let removed := allFour.foldl (fun s p => s.removeBankBursts p b .revoked) s
  (removed.bank b).upgrade.elim removed (fun u => removed.dropUpgrade b u.port .revoked)

/-- The records of the bank that stay at a FORCED entry, marked. -/
def State.forcedKept (s : State) (b : Bank) : List HoldRecord :=
  ((s.bank b).holds.filter (s.staysAtForced b)).map HoldRecord.revoke

theorem revokeBank_eq (s : State) (b : Bank) : s.revokeBank b =
    ((sweep (revokeRecord b) ((s.stripped b).bank b).holds (s.stripped b)).1.setBank b
      { (s.stripped b).bank b with holds := (s.stripped b).forcedKept b }).afterLeaving b := by
  unfold State.revokeBank State.forcedKept
  simp only []
  rw [sweep_revokeRecord_stays, sweep_bank (revokeRecord_bank b)]
  unfold State.stripped
  simp only []
  cases ((allFour.foldl (fun s p => s.removeBankBursts p b .revoked) s).bank b).upgrade <;> rfl

theorem stripped_bursts (s : State) (b : Bank) : (s.stripped b).bursts = s.bursts.keeping (fun x => x.bank != b) := by
  rw [← removeBursts_bursts]
  unfold State.stripped
  simp only []
  cases ((allFour.foldl (fun s p => s.removeBankBursts p b .revoked) s).bank b).upgrade with
  | none => rfl
  | some u => exact dropUpgrade_bursts _ b u.port _

theorem recordLaws_stripped {s : State} (law : s.RecordLaws full) (b : Bank) : (s.stripped b).RecordLaws full := by
  have removed := recordLaws_foldl (fun s p law => recordLaws_removeBankBursts (full := full) law p b .revoked) allFour law
  unfold State.stripped
  simp only []
  cases ((allFour.foldl (fun s p => s.removeBankBursts p b .revoked) s).bank b).upgrade with
  | none => exact removed
  | some u => exact recordLaws_dropUpgrade removed b u.port .revoked

theorem stripped_unqueued (s : State) (p : Port) (b : Bank) : (s.stripped b).queuedOn p b = false := by
  rw [Bool.eq_false_iff, ne_eq, queuedOn_iff]
  rintro ⟨x, hx, hb⟩
  unfold State.burstQueue at hx
  rw [stripped_bursts] at hx
  unfold BurstEngine.keeping at hx
  rw [four_get_map] at hx
  have := (List.mem_filter.1 hx).2
  simp [hb] at this

/-- A FORCED entry leaves the executing burst its record, and no burst queued on the bank that would need one. -/
theorem recordLaws_revokeBank {s : State} (law : s.RecordLaws full) (b : Bank) : (s.revokeBank b).RecordLaws full := by
  have stripped := recordLaws_stripped law b
  have unqueued (p : Port) := stripped_unqueued s p b
  rw [revokeBank_eq]
  generalize s.stripped b = v at stripped unqueued ⊢
  have same := sweep_same (revokeRecord_same b) (v.bank b).holds v
  have swept := recordLaws_same stripped same
  have executing (p : Port) := executingOn_congr (congrArg BurstEngine.executing same.bursts) p b
  have queued (p : Port) : (sweep (revokeRecord b) (v.bank b).holds v).1.queuedOn p b = false := by
    unfold State.queuedOn at unqueued ⊢
    rw [same.burstQueue]
    exact unqueued p
  generalize (sweep (revokeRecord b) (v.bank b).holds v).1 = w at same swept executing queued ⊢
  have left := recordLaws_leaving (b := b) (kept := v.forcedKept b) swept ⟨_, _, revoke_same, by rw [same.bank]; rfl⟩
    (fun _ kept none => ?_) (fun _ p on _ held => ?_) fun _ p on => absurd on (by rw [queued]; nofun)
  · rw [same.bank] at left
    exact left
  · rw [same.bank] at none ⊢
    by_contra shut
    obtain ⟨h, hm⟩ := List.exists_mem_of_ne_nil _ none
    exact List.filter_eq_nil_iff.1 (List.map_eq_nil_iff.1 kept) h hm (by simp [State.staysAtForced, shut])
  · rw [same.bank] at held
    rw [executing] at on
    obtain ⟨h, hm, rfl⟩ := held
    exact ⟨h.revoke, List.mem_map.2 ⟨h, List.mem_filter.2 ⟨hm, by simp [State.staysAtForced, on]⟩, rfl⟩, (revoke_same h).1⟩

theorem recordLaws_revokeQuad {s : State} (law : s.RecordLaws full) (q : Quad) : (s.revokeQuad q).RecordLaws full :=
  recordLaws_foldl (fun _ b law => recordLaws_revokeBank law b) _ law

/-! ## The retention controller -/

theorem setQuad_same (s : State) (q : Quad) (x : QuadAccount) : s.SameWork (s.setQuad q x) := ⟨rfl, rfl, fun _ => rfl⟩

theorem reclaimQuad_same (s : State) (q : Quad) : s.SameWork (s.reclaimQuad q) :=
  sameWork_of_answers (reclaimQuad_answers s q) fun p => by unfold State.session; rw [reclaimQuad_sessions]

theorem recordLaws_evaluateQuad {s : State} (law : s.RecordLaws full) (q : Quad) : (s.evaluateQuad q).RecordLaws full := by
  have set := recordLaws_same law
    (setQuad_same s q { s.quad q with state := maintenanceOf s.config.reclaimLevel (s.quad q).debt })
  unfold State.evaluateQuad
  simp only []
  split
  · exact recordLaws_same set (reclaimQuad_same _ q)
  · exact recordLaws_revokeQuad set q
  · exact recordLaws_revokeQuad set q
  · exact recordLaws_serveQuad set q
  all_goals exact set

theorem recordLaws_evaluateAll {s : State} (law : s.RecordLaws full) : s.evaluateAll.RecordLaws full :=
  recordLaws_foldl (fun _ q law => recordLaws_evaluateQuad law q) _ law

theorem lapseNotices_same (s : State) (q : Quad) : s.SameWork (s.lapseNotices q) :=
  sameWork_of_answers (lapseNotices_answers s q) fun p => (lapseNotices_posted s q p).2

theorem recordLaws_expireQuad {s : State} (law : s.RecordLaws full) (q : Quad) : (s.expireQuad q).RecordLaws full := by
  unfold State.expireQuad
  split
  · exact law
  · split
    · exact recordLaws_evaluateQuad (recordLaws_same law (setQuad_same s q _)) q
    · exact recordLaws_same (recordLaws_same law (setQuad_same s q _)) (lapseNotices_same _ q)

/-! ## Starts and ends of clears and refreshes -/

/-- The banks of a quad go together from one state without row and records to another. -/
theorem recordLaws_setQuadPhase {s : State} (law : s.RecordLaws full) {q : Quad} {phase : BankPhase}
    (idle : phase = .closed ∨ phase = .refreshing ∨ phase = .clearing)
    (before : full → ∀ b, groupOf b = q → (s.bank b).phase = .closed ∨ (s.bank b).phase = .refreshing ∨ (s.bank b).phase = .clearing) :
    (s.setQuadPhase q phase).RecordLaws full := by
  refine ⟨fun b => ?_, fun hf b => ?_, fun hf => ?_⟩
  · rw [bank_setQuadPhase]
    split
    · refine ⟨(law.ruly b).modes, fun hc => ?_, (law.ruly b).place⟩
      obtain rfl : phase = .closeWait := hc
      rcases idle with h | h | h <;> cases h
    · exact law.ruly b
  · rw [bank_setQuadPhase]
    split
    · next hb =>
      have filled := law.filled hf b
      obtain ⟨row, dwell, records, upgrade⟩ := filled
      rcases before hf b hb with h | h | h <;> rw [h] at row dwell records <;>
        rcases idle with rfl | rfl | rfl <;> exact ⟨row, dwell, records, upgrade⟩
    · exact law.filled hf b
  · have keeps (b : Bank) : ((s.setQuadPhase q phase).bank b).holds = (s.bank b).holds := by
      rw [bank_setQuadPhase]
      split <;> rfl
    refine burstLaw_of (law.bursts hf) (fun e he => ⟨e, he, rfl, Or.inl⟩) (fun _ _ hx => hx) (fun e _ opened held => ?_)
      (fun p x _ usable => ?_) (fun _ _ alive => ⟨alive, id⟩) fun _ _ att => att
    · refine ⟨?_, by unfold BankRecord.heldBy; rw [keeps]; exact held⟩
      rw [bank_setQuadPhase]
      split
      · next hb => rcases before hf _ hb with h | h | h <;> exact absurd (h.symm.trans opened) (by decide)
      · exact opened
    · unfold BankRecord.usableBy
      rw [keeps]
      exact usable

theorem recordLaws_startRefresh {s : State} (law : s.RecordLaws full) {q : Quad}
    (closed : ∀ b, groupOf b = q → (s.bank b).phase = .closed) : (s.startRefresh q).RecordLaws full :=
  recordLaws_same (recordLaws_setQuadPhase law (q := q) (phase := .refreshing) (Or.inr (Or.inl rfl))
    fun _ b hb => Or.inl (closed b hb)) ⟨rfl, rfl, fun _ => rfl⟩

theorem recordLaws_refreshChoice {s : State} (law : s.RecordLaws full) : s.refreshChoice.RecordLaws full := by
  rcases refreshChoice_cases s with e | ⟨q, -, closed, e⟩ <;> rw [e]
  · exact law
  · exact recordLaws_startRefresh law closed

theorem recordLaws_tryClearStart {s : State} (law : s.RecordLaws full) : s.tryClearStart.RecordLaws full := by
  rcases tryClearStart_cases s with e | ⟨q, -, -, -, closed, e⟩ <;> rw [e]
  · exact law
  · exact recordLaws_same (recordLaws_setQuadPhase law (q := q) (phase := .clearing) (Or.inr (Or.inr rfl))
      fun _ b hb => Or.inl (closed b hb)) ⟨rfl, rfl, fun _ => rfl⟩

theorem enterRetention_same (s : State) : s.SameWork s.enterRetention := by
  unfold State.enterRetention
  split
  · exact ⟨rfl, rfl, fun _ => rfl⟩
  · exact sameWork_refl s

theorem recordLaws_enterRetention {s : State} (law : s.RecordLaws full) : s.enterRetention.RecordLaws full :=
  recordLaws_same law (enterRetention_same s)

/-- The banks of the quad are REFRESHING up to the end of the refresh. -/
theorem recordLaws_finishRefresh {s : State} (law : s.RecordLaws full) {r : RefreshRun} (hr : s.refresh = some r)
    (phases : full → s.phaseLaw) : (s.finishRefresh r.quad).RecordLaws full := by
  unfold State.finishRefresh
  simp only []
  refine recordLaws_same (recordLaws_serveQuad (recordLaws_setQuadPhase ?_ (Or.inl rfl) fun hf b hb => ?_) r.quad)
    ⟨rfl, rfl, fun _ => rfl⟩
  · split
    · exact recordLaws_evaluateQuad (recordLaws_same law (setQuad_same s r.quad _)) r.quad
    · exact law
  · have refreshing := (phases hf).2 r hr b hb
    split
    · have kept := (evaluateQuad_runs (s.setDebt r.quad ((s.quad r.quad).debt - 1)) r.quad).phases b (Or.inr refreshing)
      exact Or.inr (Or.inl (kept.trans refreshing))
    · exact Or.inr (Or.inl refreshing)

theorem recordLaws_finishClear {s : State} (law : s.RecordLaws full) {r : ClearRun} (hr : s.modeCtl.clearRun = some r)
    (phases : full → s.phaseLaw) : (s.finishClear r.quad).RecordLaws full := by
  refine recordLaws_serveQuad (recordLaws_setQuadPhase ?_ (Or.inl rfl) fun hf b hb => Or.inr (Or.inr ?_)) r.quad
  · exact recordLaws_same law ⟨rfl, rfl, fun _ => rfl⟩
  · exact (phases hf).1 r hr b hb

theorem recordLaws_withoutStart {s : State} (law : s.RecordLaws full) {r : RefreshRun} (hr : s.refresh = some r)
    (phases : full → s.phaseLaw) : (s.withoutStart r.quad).RecordLaws full :=
  recordLaws_same (recordLaws_setQuadPhase law (q := r.quad) (Or.inl rfl)
    fun hf b hb => Or.inr (Or.inl ((phases hf).2 r hr b hb))) ⟨rfl, rfl, fun _ => rfl⟩

end
end Sys2Proof.Machine
end
section
/-!
SUPPORT. The laws of records and bursts under sessions that begin and end, and under the bank records' part in a device reset (R8,
R140, R144, R145, R148, R149).
-/

namespace Sys2Proof.Machine

open Sys2Proof

section
variable {full : Prop}

/-! ## Sessions that begin and end (R140, R144, R145, R148, R149) -/

theorem detachHolds_split (s : State) (p : Port) : s.detachHolds p = ((s.dropWaits p).dropUpgrades p).detachRecords p := rfl

theorem teardownHolds_split (s : State) (p : Port) : s.teardownHolds p = ((s.dropWaits p).dropUpgrades p).tearRecords p := rfl

/-- A port without queued bursts goes on without its record on one bank, or with its record marked. -/
theorem recordLaws_teardownRecord {s : State} {p : Port} (law : s.RecordLaws full) (unqueued : s.burstQueue p = []) (b : Bank) :
    (s.teardownRecord p b).RecordLaws full := by
  have unqueued : s.queuedOn p b = false := by
    unfold State.queuedOn
    rw [unqueued]
    rfl
  unfold State.teardownRecord
  split
  · exact law
  · split
    · exact law
    · split
      · next h =>
        exact recordLaws_leaveBank law (fun _ => h.1) (fun _ => by simpa using h.2) fun _ on => absurd on (by rw [unqueued]; nofun)
      · exact recordLaws_markRecord law b p revoke_same fun _ on => absurd on (by rw [unqueued]; nofun)

theorem recordLaws_detachRecord {s : State} {p : Port} (law : s.RecordLaws full) (unqueued : s.burstQueue p = []) (b : Bank) :
    (s.detachRecord p b).RecordLaws full := by
  have unqueued : s.queuedOn p b = false := by
    unfold State.queuedOn
    rw [unqueued]
    rfl
  unfold State.detachRecord
  split
  · exact law
  · split
    · exact law
    · split
      · next h =>
        exact recordLaws_same (recordLaws_leaveBank law (fun _ => h.1) (fun _ => by simpa using h.2)
          fun _ on => absurd on (by rw [unqueued]; nofun)) (answerTag_same _ _ _ _)
      · exact recordLaws_markRecord law b p (f := HoldRecord.release) (fun _ => ⟨rfl, rfl⟩) fun _ _ _ => rfl

/-- Waits and upgrades withdrawn, and then one operation for each record of a port that has no burst queued. -/
theorem recordLaws_withdraw {s : State} {p : Port} {f : State → Bank → State}
    (hf : ∀ (s : State) b, s.RecordLaws full → s.burstQueue p = [] → (f s b).RecordLaws full)
    (bursts : ∀ (s : State) b, (f s b).bursts = s.bursts) (law : s.RecordLaws full) (unqueued : s.burstQueue p = []) :
    ((((s.dropWaits p).dropUpgrades p).heldBanks p).foldl f ((s.dropWaits p).dropUpgrades p)).RecordLaws full := by
  have withdrawn : ((s.dropWaits p).dropUpgrades p).RecordLaws full :=
    recordLaws_foldl (fun _ b law => recordLaws_dropUpgrade law b p _) _
      (recordLaws_foldl (fun _ b law => recordLaws_dropWait law b p _) _ law)
  refine (foldl_keeps (P := fun t => State.RecordLaws full t ∧ t.burstQueue p = []) (fun t b h => ⟨hf t b h.1 h.2, ?_⟩) _
    ⟨withdrawn, ?_⟩).1
  · unfold State.burstQueue
    rw [bursts]
    exact h.2
  · unfold State.burstQueue
    rw [dropUpgrades_bursts, dropWaits_bursts]
    exact unqueued

theorem recordLaws_detachHolds {s : State} {p : Port} (law : s.RecordLaws full) (unqueued : s.burstQueue p = []) :
    (s.detachHolds p).RecordLaws full := by
  rw [detachHolds_split]
  exact recordLaws_withdraw (f := fun s b => s.detachRecord p b) (fun _ b law h => recordLaws_detachRecord law h b)
    (fun s b => detachRecord_bursts s p b) law unqueued

theorem recordLaws_teardownHolds {s : State} {p : Port} (law : s.RecordLaws full) (unqueued : s.burstQueue p = []) :
    (s.teardownHolds p).RecordLaws full := by
  rw [teardownHolds_split]
  exact recordLaws_withdraw (f := fun s b => s.teardownRecord p b) (fun _ b law h => recordLaws_teardownRecord law h b)
    (fun s b => teardownRecord_bursts s p b) law unqueued

/-- A session that begins to end loses its queued bursts; an executing one of it is not cut, since a cut one's session has been torn down. -/
theorem recordLaws_sessionEnd {s : State} (law : s.RecordLaws full) {p : Port} {x : Session} (a : Answer)
    (live : (s.session p).state = .attached ∨ (s.session p).state = .detaching) (ends : x.state ≠ .none) :
    (((s.setSession p x).releaseRole p).removePortBursts p a).RecordLaws full
      ∧ (((s.setSession p x).releaseRole p).removePortBursts p a).burstQueue p = [] := by
  have same := answerBursts_same (((s.setSession p x).releaseRole p).setBurstQueue p []) p a
    (((s.setSession p x).releaseRole p).burstQueue p)
  rw [releaseRole_frame] at same
  have emptied : ((s.setSession p x).setBurstQueue p []).RecordLaws full := by
    refine ⟨law.ruly, law.filled, fun hf => ?_⟩
    refine burstLaw_of (law.bursts hf) (fun e he => ⟨e, he, rfl, Or.inl⟩) (fun q y hy => ?_)
      (fun _ _ opened held => ⟨opened, held⟩) (fun _ _ _ usable => usable) (fun e _ alive => ?_) fun q some att => ?_
    · rcases mem_setBurstQueue (s := s.setSession p x) hy with ⟨-, hy⟩ | ⟨-, hy⟩
      · cases hy
      · exact hy
    · rw [setBurstQueue_session, session_setSession]
      split
      · next hq =>
        refine ⟨ends, fun torn => ?_⟩
        rw [hq] at torn
        rcases live with h | h <;> cases h.symm.trans torn
      · exact ⟨alive, id⟩
    · have hq : q ≠ p := by
        rintro rfl
        exact some (burstQueue_setBurstQueue_same _ _ _)
      rw [setBurstQueue_session, session_setSession_ne _ _ hq]
      exact att
  unfold State.removePortBursts
  rw [releaseRole_frame]
  refine ⟨recordLaws_same ?_ same, ?_⟩
  · exact recordLaws_same emptied ⟨rfl, rfl, fun _ => rfl⟩
  rw [same.burstQueue]
  exact burstQueue_setBurstQueue_same _ _ _

theorem recordLaws_detachSession {s : State} (law : s.RecordLaws full) {p : Port} (t : Tag)
    (att : (s.session p).state = .attached) : (s.detachSession p t).RecordLaws full := by
  have ended := recordLaws_sessionEnd law (p := p)
    (x := { s.session p with state := .detaching, detachTag := some t, idleVote := false, role := none }) .cancelled
    (Or.inl att) (by nofun)
  unfold State.detachSession
  exact recordLaws_detachHolds ended.1 ended.2

theorem recordLaws_teardownSession {s : State} (law : s.RecordLaws full) (p : Port) : (s.teardownSession p).RecordLaws full := by
  have torn (live : (s.session p).state = .attached ∨ (s.session p).state = .detaching) :
      ((((s.setSession p tornDownSession).releaseRole p).removePortBursts p .cancelled).teardownHolds p).RecordLaws full := by
    have ended := recordLaws_sessionEnd law (p := p) (x := tornDownSession) .cancelled live (by nofun)
    exact recordLaws_teardownHolds ended.1 ended.2
  unfold State.teardownSession
  split
  · next h => exact torn (Or.inl h)
  · next h => exact torn (Or.inr h)
  · exact law
  · exact law

/-- A session without outstanding work has no burst, so that its end concerns none. -/
theorem recordLaws_endSession {s : State} (law : s.RecordLaws full) {p : Port} (x : Session) (done : s.outstanding p = false) :
    (s.setSession p x).RecordLaws full := by
  unfold State.outstanding at done
  simp only [Bool.or_eq_false_iff, Bool.not_eq_false', List.isEmpty_iff] at done
  obtain ⟨⟨-, unqueued⟩, idle⟩ := done
  refine ⟨law.ruly, law.filled, fun hf => ?_⟩
  refine burstLaw_of (law.bursts hf) (fun e he => ⟨e, he, rfl, Or.inl⟩) (fun _ _ hy => hy)
    (fun _ _ opened held => ⟨opened, held⟩) (fun _ _ _ usable => usable) (fun e he alive => ?_) fun q some att => ?_
  · have hq : e.burst.port ≠ p := fun hq => by
      unfold State.executes at idle
      rw [show s.bursts.executing = some e from he] at idle
      simp [hq] at idle
    rw [session_setSession_ne _ _ hq]
    exact ⟨alive, id⟩
  · have hq : q ≠ p := by
      rintro rfl
      exact some unqueued
    rw [session_setSession_ne _ _ hq]
    exact att

theorem recordLaws_finishSession {s : State} (law : s.RecordLaws full) (p : Port) : (s.finishSession p).RecordLaws full := by
  unfold State.finishSession
  simp only []
  split
  · split
    · next h =>
      rw [Bool.and_eq_true, Bool.not_eq_true'] at h
      refine recordLaws_endSession (recordLaws_same law (answerTag_same s p _ _)) _ ?_
      rw [outstanding_of_answers (answerTag_answers s p _ _)]
      exact h.1
    · exact law
  · split
    · exact law
    · next h => exact recordLaws_endSession law _ (by simpa using h)
  · exact law
  · exact law

theorem recordLaws_finishSessions {s : State} (law : s.RecordLaws full) : s.finishSessions.RecordLaws full :=
  recordLaws_foldl (fun _ p law => recordLaws_finishSession law p) allFour law

theorem recordLaws_settle {s : State} (law : s.RecordLaws full) : s.settle.RecordLaws full :=
  recordLaws_enterRetention (recordLaws_refreshChoice (recordLaws_finishSessions (recordLaws_arbiterChoice law)))

/-- A session begins in NONE, where no burst of the port is left. -/
theorem recordLaws_attachSession {s : State} (law : s.RecordLaws full) {p : Port} (t : Tag) (role : Byte)
    (none : (s.session p).state = .none) : (s.attachSession p t role).RecordLaws full := by
  have begun (x : Session) (hx : x.state = .attached) : (s.setSession p x).RecordLaws full := by
    refine ⟨law.ruly, law.filled, fun hf => ?_⟩
    refine burstLaw_of (law.bursts hf) (fun e he => ⟨e, he, rfl, Or.inl⟩) (fun _ _ hy => hy)
      (fun _ _ opened held => ⟨opened, held⟩) (fun _ _ _ usable => usable) (fun e _ alive => ?_) fun q _ att => ?_
    · have hq : e.burst.port ≠ p := fun hq => alive (hq ▸ none)
      rw [session_setSession_ne _ _ hq]
      exact ⟨alive, id⟩
    · rw [session_setSession]
      split
      · exact hx
      · exact att
  unfold State.attachSession
  split
  · exact recordLaws_answer law p t _
  · refine recordLaws_answer ?_ p t _
    exact recordLaws_same (begun (attachedSession _ t) rfl) ⟨rfl, rfl, fun _ => rfl⟩

/-! ## Device reset (R8, R69, R148, R172) -/

theorem resetBanks_sessions (s : State) : s.resetBanks.sessions = s.sessions :=
  foldl_keeps (P := fun t : State => t.sessions = s.sessions)
    (fun t b h => by rw [resetBank_eq]; exact h) allBanks rfl

/-- The bank records at RESET_N fall keep the record of an executing burst, and no burst stays queued. -/
theorem recordLaws_resetBlocks {s : State} (law : s.RecordLaws full) : s.resetBlocks.RecordLaws full := by
  have narrowed (b : Bank) : Narrowed (s.bank b).holds (s.resetRecord b).holds := ⟨_, _, revoke_same, rfl⟩
  have reset (b : Bank) : (s.resetRecord b).phase = (s.bank b).phase := rfl
  have dwells (b : Bank) : (s.resetRecord b).dwellExpired = (s.bank b).dwellExpired := rfl
  refine ⟨fun b => ?_, fun hf b => ?_, fun hf => ?_⟩
  · rw [resetBlocks_bank]
    refine ruly_of_narrowed (law.ruly b) (by rw [left_holds]; exact narrowed b)
      (by rw [left_waitQueue]; exact List.nil_sublist _) fun hc => ?_
    rw [left_holds]
    unfold BankRecord.left at hc
    split at hc
    · next h => exact Or.inr h.1
    · exact Or.inl hc
  · obtain ⟨row, dwell, records, upgrade⟩ := law.filled hf b
    rw [resetBlocks_bank]
    unfold BankRecord.left
    split
    · next h =>
      obtain ⟨none, opened⟩ := h
      rw [reset] at opened
      rw [opened] at row dwell
      split
      · next hd => exact ⟨row, hd, by simp [none, BankPhase.hasRecords], fun _ => rfl⟩
      · next hd =>
        refine ⟨row, ?_, by simp [none, BankPhase.hasRecords], fun _ => rfl⟩
        rw [dwells] at hd
        show (s.bank b).dwellExpired = some false
        match hv : (s.bank b).dwellExpired with
        | .none => exact absurd hv dwell
        | .some true => exact absurd hv hd
        | .some false => rfl
    · next h =>
      refine ⟨row, dwell, ?_, fun _ => rfl⟩
      rw [reset, ← records, not_iff_not]
      refine ⟨fun none => ?_, fun none => narrowed_nil (none ▸ narrowed b)⟩
      by_contra some
      have opened : (s.bank b).phase ≠ .opened := fun opened => h ⟨none, opened⟩
      obtain ⟨x, hx⟩ := List.exists_mem_of_ne_nil _ some
      exact List.filter_eq_nil_iff.1 (List.map_eq_nil_iff.1 none) x hx (by simp [State.staysAtReset, opened])
  · have sessions (p : Port) : (s.resetBlocks.session p).state
        = if (s.session p).state = .none then .none else .teardown := by
      have same : s.resetBlocks.sessions = s.quieted.sessions := by
        rw [resetBlocks_eq, clearAllCounts_sessions]
        exact resetBanks_sessions _
      unfold State.session
      rw [same]
      unfold State.quieted Session.atReset
      simp only [four_get_map]
      split <;> simp_all
    refine burstLaw_of (law.bursts hf) (fun e he => ?_) (fun p x hx => ?_) (fun e he opened held => ?_)
      (fun p x hx => ?_) (fun e _ alive => ?_) fun p some => ?_
    · rw [resetBlocks_bursts] at he
      obtain ⟨e', he', rfl⟩ := Option.map_eq_some_iff.1 he
      refine ⟨e', he', cutAt_burst e' _, fun _ => Or.inr ?_⟩
      have alive := ((law.bursts hf).1 e' he').2.2.1
      rw [sessions, cutAt_burst, if_neg alive]
    · exact absurd hx (by unfold State.burstQueue; rw [resetBlocks_bursts]; simp [BurstEngine.atReset])
    · rw [resetBlocks_bursts] at he
      obtain ⟨e', he', rfl⟩ := Option.map_eq_some_iff.1 he
      rw [cutAt_burst] at opened held ⊢
      obtain ⟨x, hx, hp⟩ := held
      have on : s.executingOn x.port e'.burst.bank = true := (executingOn_iff s _ _).2 ⟨e', he', hp.symm, rfl⟩
      have kept : x.revoke ∈ (s.resetRecord e'.burst.bank).holds :=
        List.mem_map.2 ⟨x, List.mem_filter.2 ⟨hx, by simp [State.staysAtReset, on]⟩, rfl⟩
      rw [resetBlocks_bank]
      refine ⟨?_, x.revoke, by rw [left_holds]; exact kept, (revoke_same x).1.trans hp⟩
      unfold BankRecord.left
      rw [if_neg fun h => List.ne_nil_of_mem kept h.1]
      exact opened
    · exact absurd hx (by unfold State.burstQueue; rw [resetBlocks_bursts]; simp [BurstEngine.atReset])
    · rw [sessions, if_neg alive]
      exact ⟨nofun, fun _ => rfl⟩
    · exact absurd (by unfold State.burstQueue; rw [resetBlocks_bursts]; simp [BurstEngine.atReset]) some

end
end Sys2Proof.Machine
end
section
/-!
PROOF. Every step keeps the laws of hold records, places, bank records and bursts (O56).
-/

namespace Sys2Proof.Machine

open Sys2Proof

section
variable {full : Prop}

/-! ## The step of a unit -/

/-- An executing burst goes on with results added; all else that the laws look at is the same. -/
theorem recordLaws_stepNextUnit {s : State} (law : s.RecordLaws full) {e : Execution} (he : s.bursts.executing = some e) (ends : Nat) :
    ((s.reach ends).stepNextUnit e).RecordLaws full := by
  rw [stepNextUnit_frame]
  refine ⟨law.ruly, law.filled, fun hf => ?_⟩
  refine burstLaw_of (law.bursts hf) (fun d hd => ?_) (fun _ _ hx => hx) (fun _ _ opened held => ⟨opened, held⟩)
    (fun _ _ _ usable => usable) (fun _ _ alive => ⟨alive, id⟩) fun _ _ att => att
  obtain rfl := Option.some.inj hd
  exact ⟨e, he, rfl, Or.inl⟩

theorem recordLaws_stepUnits : ∀ (n : Nat) {s : State}, s.RecordLaws full → (State.stepUnits n s).RecordLaws full
  | 0, _, law => law
  | n + 1, s, law => by
    unfold State.stepUnits
    split
    · next e he => exact recordLaws_stepUnits n (recordLaws_stepNextUnit law he _)
    · exact law

theorem unitStep_same (s : State) (x : QueuedBurst) (k : Nat) : s.SameWork (s.unitStep x k).1 := by
  rw [unitStep_onlyUnits s x k]
  exact ⟨rfl, rfl, fun _ => rfl⟩

/-! ## Requests -/

theorem recordLaws_ifAttached {s : State} {f : State → State} (law : s.RecordLaws full) (p : Port) (t : Tag)
    (attached : (s.session p).state = .attached → (f s).RecordLaws full) : (s.ifAttached p t f).RecordLaws full := by
  unfold State.ifAttached
  split
  · next h => exact attached (by simpa [State.attached] using h)
  · exact recordLaws_answer law p t _

theorem recordLaws_unlessNone {s : State} {f : State → State} (law : s.RecordLaws full) (p : Port) (t : Tag)
    (taken : (f s).RecordLaws full) : (s.unlessNone p t f).RecordLaws full := by
  unfold State.unlessNone
  split
  · exact recordLaws_answer law p t _
  · exact taken

theorem recordLaws_orderedOpen {s : State} (law : s.RecordLaws full) (phases : full → s.phaseLaw) (p : Port) (t : Tag) (bank : Byte)
    (row : BitVec 16) (mode : HoldMode) (wait : Bool) : (s.orderedOpen p t bank row mode wait).RecordLaws full := by
  rcases orderedOpen_cases s p t bank row mode wait with e | ⟨q, hq, -, e⟩ <;> rw [e]
  · exact recordLaws_holdOpen law p t bank row mode wait
  · obtain ⟨r, hr, rfl⟩ := startTogether_refresh hq
    exact recordLaws_refreshChoice (recordLaws_holdOpen (recordLaws_withoutStart law hr phases) p t bank row mode wait)

theorem recordLaws_requestClose {s : State} (law : s.RecordLaws full) (p : Port) (t : Tag) (bank : Byte) :
    (s.requestClose p t bank).RecordLaws full := by
  refine recordLaws_unlessNone law p t ?_
  split
  · exact recordLaws_refreshChoice (recordLaws_holdClose law p t bank)
  · exact recordLaws_holdClose law p t bank

theorem recordLaws_itemEffect {s : State} (law : s.RecordLaws full) (i : Item) : (s.itemEffect i).RecordLaws full := by
  cases i with
  | reclaimLevel => exact recordLaws_refreshChoice (recordLaws_evaluateAll law)
  | pullIn => exact recordLaws_refreshChoice law
  | retentionInterval | holdQuota | grantPolicy | idleEntry => exact law

theorem recordLaws_applyItem {s : State} (law : s.RecordLaws full) (i : Item) (v : Nat) : (s.applyItem i v).RecordLaws full := by
  unfold State.applyItem
  split
  · exact law
  · exact recordLaws_itemEffect (recordLaws_same law (t := s.setItem i v) ⟨rfl, rfl, fun _ => rfl⟩) i

theorem recordLaws_cfgWrite {s : State} (law : s.RecordLaws full) (p : Port) (t : Tag) (code index value : Byte) :
    (s.cfgWrite p t code index value).RecordLaws full := by
  unfold State.cfgWrite
  split
  · exact recordLaws_answer law p t _
  · simp only []
    split
    · exact recordLaws_enterRetention (recordLaws_answer (recordLaws_applyItem law _ _) p t _)
    · exact recordLaws_answer (recordLaws_applyItem law _ _) p t _
  · exact recordLaws_answer law p t _

theorem cfgRead_same (s : State) (p : Port) (t : Tag) (code index : Byte) : s.SameWork (s.cfgRead p t code index) := by
  unfold State.cfgRead
  split
  · exact answer_same s p t _
  · split <;> exact answer_same s p t _

theorem inspect_same (s : State) (p : Port) (t : Tag) (code number : Byte) : s.SameWork (s.inspect p t code number) := by
  unfold State.inspect
  split <;> exact answer_same s p t _

/-- An answer after a change of what the laws of records and bursts do not look at. -/
theorem answered_same {s u : State} (p : Port) (t : Tag) (a : Answer) (banks : u.banks = s.banks) (bursts : u.bursts = s.bursts)
    (sessions : u.sessions = s.sessions) : s.SameWork (u.answer p t a) :=
  sameWork_trans (t := u) ⟨banks, bursts, fun q => congrArg (fun x => (Four.get x q).state) sessions⟩ (answer_same u p t a)

theorem faultClear_same (s : State) (p : Port) (t : Tag) (index : Byte) : s.SameWork (s.faultClear p t index) := by
  unfold State.faultClear
  split
  · exact answer_same s p t _
  · split
    · exact answered_same p t _ rfl rfl rfl
    · split
      · split
        · exact answered_same p t _ rfl rfl rfl
        · exact answer_same s p t _
      · exact answer_same s p t _

theorem lapseClear_same (s : State) (p : Port) (t : Tag) (quad : Byte) : s.SameWork (s.lapseClear p t quad) := by
  unfold State.lapseClear
  split
  · exact answer_same s p t _
  · split
    · exact answered_same p t _ rfl rfl rfl
    · split
      · exact answered_same p t _ rfl rfl rfl
      · exact answer_same s p t _

theorem countClear_same (s : State) (p : Port) (t : Tag) (bank : Byte) : s.SameWork (s.countClear p t bank) := by
  unfold State.countClear
  split
  · exact answer_same s p t _
  · split
    · exact answered_same p t _ rfl rfl rfl
    · split
      · exact answered_same p t _ rfl rfl rfl
      · exact answer_same s p t _

theorem setVote_same (s : State) (p : Port) (v : Bool) : s.SameWork (s.setVote p v) := by
  refine ⟨rfl, rfl, fun q => ?_⟩
  show ((s.setSession p { s.session p with idleVote := v }).session q).state = _
  rw [session_setSession]
  split
  · next h => rw [h]
  · rfl

theorem recordLaws_dispatch {s : State} (law : s.RecordLaws full) (phases : full → s.phaseLaw) (p : Port) (t : Tag) (r : Request) :
    (s.dispatch p t r).RecordLaws full := by
  have burst (kind : BurstKind) (bank column units : Byte) (ac : Bool) (data : List WriteUnit) :
      (s.requestBurst p t kind bank column units ac data).RecordLaws full :=
    recordLaws_unlessNone law p t (recordLaws_acceptBurst law p t kind bank column units ac data)
  have taken {f : State → State} (h : (f s).RecordLaws full) : (s.unlessNone p t f).RecordLaws full := recordLaws_unlessNone law p t h
  have same {f : State → State} (h : s.SameWork (f s)) : (s.ifAttached p t f).RecordLaws full :=
    recordLaws_ifAttached law p t fun _ => recordLaws_same law h
  cases r with
  | attach role =>
    show (s.requestAttach p t role).RecordLaws full
    unfold State.requestAttach
    split
    · next none => exact recordLaws_attachSession law t role none
    · exact recordLaws_answer law p t _
  | detach =>
    show (s.ifAttached p t (fun s => (s.detachSession p t).settle)).RecordLaws full
    exact recordLaws_ifAttached law p t fun att => recordLaws_settle (recordLaws_detachSession law t att)
  | idle =>
    show (s.requestIdle p t).RecordLaws full
    refine recordLaws_ifAttached law p t fun _ => ?_
    exact recordLaws_enterRetention (recordLaws_answer (recordLaws_same law (setVote_same s p true)) p t _)
  | openBank bank row mode wait =>
    exact taken (f := fun s => s.orderedOpen p t bank row mode wait) (recordLaws_orderedOpen law phases p t bank row mode wait)
  | upgrade bank => exact taken (f := fun s => s.holdUpgrade p t bank) (recordLaws_holdUpgrade law p t bank)
  | closeBank bank => exact recordLaws_requestClose law p t bank
  | read bank column units ac => exact burst .read bank column units ac []
  | write bank column units ac data => exact burst .write bank column units ac data
  | cfgRead item index => exact same (f := fun s => s.cfgRead p t item index) (cfgRead_same s p t item index)
  | cfgWrite item index value => 
    exact recordLaws_ifAttached (f := fun s => s.cfgWrite p t item index value) law p t fun _ =>
      recordLaws_cfgWrite law p t item index value
  | inspect target number =>
    show (s.requestInspect p t target number).RecordLaws full
    unfold State.requestInspect
    split
    · exact recordLaws_same law (inspect_same s p t target number)
    · exact same (inspect_same s p t target number)
  | faultClear index => exact same (f := fun s => s.faultClear p t index) (faultClear_same s p t index)
  | lapseClear quad => exact same (f := fun s => s.lapseClear p t quad) (lapseClear_same s p t quad)
  | countClear bank => exact same (f := fun s => s.countClear p t bank) (countClear_same s p t bank)

/-! ## Packets -/

theorem beginRequest_same (s : State) (p : Port) (t : Tag) (r : Request) : s.SameWork (s.beginRequest p t r) := by
  have marked (u : State) : u.SameWork (u.setTag p t .busy).countRequest :=
    sameWork_trans (setTag_same u p t .busy) ⟨rfl, rfl, fun _ => rfl⟩
  unfold State.beginRequest
  split
  · exact marked s
  · exact sameWork_trans (setVote_same s p false) (marked _)

theorem phaseLaw_beginRequest {s : State} (p : Port) (t : Tag) (r : Request) (law : s.phaseLaw) : (s.beginRequest p t r).phaseLaw := by
  refine phaseLaw_of_runs ?_ law
  unfold State.beginRequest
  split <;> exact keepsRuns_of_eq rfl rfl rfl

theorem recordLaws_linkFault {s : State} (law : s.RecordLaws full) (p : Port) (reason : FaultReason) :
    (s.linkFault p reason).RecordLaws full :=
  recordLaws_settle (recordLaws_teardownSession (recordLaws_same law (t := s.setLink p _) ⟨rfl, rfl, fun _ => rfl⟩) p)

/-- The laws of records and bursts, with the law of clears and refreshes where they need it. -/
def State.PhasedLaws (full : Prop) (s : State) : Prop := s.RecordLaws full ∧ (full → s.phaseLaw)

theorem phasedLaws_records {s : State} (law : s.PhasedLaws full) : s.RecordLaws full := law.1

theorem keptByPackets_phasedLaws : KeptByPackets (State.PhasedLaws full) where
  link _ _ _ law := ⟨recordLaws_same law.1 ⟨rfl, rfl, fun _ => rfl⟩, law.2⟩
  fault p reason law := ⟨recordLaws_linkFault law.1 p reason, fun hf => phaseLaw_linkFault p reason (law.2 hf)⟩
  take p t r law := ⟨recordLaws_dispatch (recordLaws_same law.1 (beginRequest_same _ p t r))
    (fun hf => phaseLaw_beginRequest p t r (law.2 hf)) p t r, fun hf => phaseLaw_take p t r (law.2 hf)⟩
  wake law := ⟨recordLaws_same law.1 ⟨rfl, rfl, fun _ => rfl⟩, law.2⟩
  stamp n law := ⟨recordLaws_same law.1 (tickStamp_same _ n), law.2⟩
  retention law := ⟨recordLaws_enterRetention law.1, fun hf => phaseLaw_enterRetention (law.2 hf)⟩

/-! ## Device reset and power-on (R8, R69, R172, R174) -/

/-- The banks of an abandoned clear have been CLEARING. -/
theorem recordLaws_resetMode {s : State} (law : s.RecordLaws full) (phases : full → s.phaseLaw) : s.resetMode.RecordLaws full := by
  unfold State.resetMode State.abandonClear
  simp only []
  split
  · exact recordLaws_same law ⟨rfl, rfl, fun _ => rfl⟩
  · next r hr =>
    have closed := recordLaws_setQuadPhase law (q := r.quad) (Or.inl rfl) fun hf b hb => Or.inr (Or.inr ((phases hf).1 r hr b hb))
    exact recordLaws_same closed ⟨rfl, rfl, fun _ => rfl⟩

/-- A burst cut at once is on an OPEN bank, and no other is queued after it. -/
theorem recordLaws_cutAtOnce {s : State} (law : s.RecordLaws full) (unqueued : ∀ p, s.burstQueue p = []) :
    s.cutAtOnce.RecordLaws full := by
  unfold State.cutAtOnce
  split
  · next e he =>
    split
    · refine recordLaws_endCut law (fun hf => ((law.bursts hf).1 e he).1) fun _ => ?_
      unfold State.queuedOn
      rw [unqueued]
      rfl
    · exact law
  · exact law

theorem recordLaws_resetFall {s : State} (law : s.RecordLaws full) (phases : full → s.phaseLaw) : s.resetFall.RecordLaws full := by
  refine recordLaws_refreshChoice (recordLaws_finishSessions (recordLaws_evaluateAll (recordLaws_cutAtOnce
    (recordLaws_resetBlocks (recordLaws_resetMode law phases)) fun p => ?_)))
  unfold State.burstQueue
  rw [resetBlocks_bursts]
  exact four_get_all [] p

theorem recordLaws_resetRise {s : State} (law : s.RecordLaws full) : s.resetRise.RecordLaws full := by
  unfold State.resetRise
  simp only []
  split
  · exact recordLaws_tryClearStart (recordLaws_same law ⟨rfl, rfl, fun _ => rfl⟩)
  · exact recordLaws_enterRetention (recordLaws_same law ⟨rfl, rfl, fun _ => rfl⟩)

/-- At power-on no bank has a record and no burst is there. -/
theorem recordLaws_powerOn (high : Bool) (carrier : Four Bool) (now epoch : Nat) (marks : RecentMarks) (pending : List Instr) :
    (State.powerOn high carrier now epoch marks pending).RecordLaws full := by
  refine ⟨fun b => ?_, fun _ b => ?_, fun _ => ⟨nofun, fun p x hx => ?_⟩⟩
  · rw [powerOn_bank]
    refine ⟨Or.inl nofun, fun _ => rfl, fun p => Nat.zero_le 1⟩
  · rw [powerOn_bank]
    split <;> exact ⟨by decide, rfl, by decide, fun _ => rfl⟩
  · have none : (State.powerOn high carrier now epoch marks pending).burstQueue p = [] := four_get_all [] p
    rw [none] at hx
    cases hx

theorem recordLaws_expireAll {s : State} (law : s.RecordLaws full) : (allFour.foldl (fun s q => s.expireQuad q) s).RecordLaws full :=
  recordLaws_foldl (fun _ q law => recordLaws_expireQuad law q) allFour law

theorem nextPeriod_same (s : State) : s.SameWork s.nextPeriod := ⟨rfl, rfl, fun _ => rfl⟩

theorem recordLaws_cutCompletion {s : State} (law : s.RecordLaws full) {e : Execution} (he : s.bursts.executing = some e)
    (cut : e.cut ≠ none) : (s.endCut e.burst).RecordLaws full := by
  refine recordLaws_endCut law (fun hf => ((law.bursts hf).1 e he).1) fun hf => ?_
  by_contra queued
  obtain ⟨x, hx, -⟩ := (queuedOn_iff s _ _).1 (by simpa using queued)
  have torn := ((law.bursts hf).1 e he).2.2.2 cut
  cases torn.symm.trans ((law.bursts hf).2 _ x hx).2.1

/-! ## Every command and every step -/

theorem exec_keeps_recordLaws {i : Instr} {s t : State} (law : s.RecordLaws full) (phases : full → s.phaseLaw)
    (hx : exec i s = .next t) : t.RecordLaws full := by
  have packets := keptByPackets_phasedLaws (full := full)
  have both : s.PhasedLaws full := ⟨law, phases⟩
  have later (n : Nat) : (s.reach n).RecordLaws full := recordLaws_same law ⟨rfl, rfl, fun _ => rfl⟩
  have laterBank (b : Bank) : (s.reachBank b).RecordLaws full := recordLaws_same law ⟨rfl, rfl, fun _ => rfl⟩
  cases i
  case powerOn high carrier =>
    obtain rfl := Host.Outcome.next.inj hx
    exact recordLaws_powerOn _ _ _ _ _ _
  case resetNFall =>
    obtain rfl := Host.Outcome.next.inj hx
    split
    · exact law
    · exact recordLaws_resetFall law phases
  case resetNRise =>
    obtain rfl := Host.Outcome.next.inj hx
    split
    · exact recordLaws_resetRise law
    · exact law
  case carrierLoss p =>
    obtain rfl := Host.Outcome.next.inj hx
    exact (loseCarrier_keeps packets p both).1
  case carrierReturn p =>
    obtain rfl := Host.Outcome.next.inj hx
    exact recordLaws_same law ⟨rfl, rfl, fun _ => rfl⟩
  case unitCorruption bank row column data check =>
    obtain rfl := Host.Outcome.next.inj hx
    exact recordLaws_same law ⟨rfl, rfl, fun _ => rfl⟩
  case burstUnitStep =>
    obtain ⟨e, he, -, -, rfl⟩ := burstUnitStep_next hx
    exact recordLaws_stepNextUnit law he _
  case executionCompletion =>
    obtain ⟨e, done, -, -, hd, rfl⟩ := executionCompletion_next hx
    have stepped := recordLaws_stepUnits e.unitsLeft law
    have reached : ((State.stepUnits e.unitsLeft s).reach e.endsAt).RecordLaws full := recordLaws_same stepped ⟨rfl, rfl, fun _ => rfl⟩
    exact recordLaws_settle (recordLaws_finishBurst reached hd)
  case cutCompletion =>
    obtain ⟨e, ends, he, cut, rfl⟩ := cutCompletion_next hx
    have same := unitStep_same (s.reach ends) e.burst e.results.length
    exact recordLaws_settle (recordLaws_cutCompletion (recordLaws_same (later ends) same) (same.bursts ▸ he) (by rw [cut]; nofun))
  case openCompletion b =>
    obtain ⟨hp, rfl⟩ := openCompletion_next hx
    exact recordLaws_settle (recordLaws_completeOpen (laterBank b) hp)
  case dwellExpiry b =>
    obtain ⟨hd, rfl⟩ := dwellExpiry_next hx
    exact recordLaws_expireDwell (laterBank b) hd
  case closeCompletion b =>
    obtain ⟨hp, rfl⟩ := closeCompletion_next hx
    exact recordLaws_enterRetention (recordLaws_refreshChoice (recordLaws_tryClearStart (recordLaws_completeClose (laterBank b) hp)))
  case retentionTimerExpiry =>
    obtain rfl := Host.Outcome.next.inj hx
    exact recordLaws_settle (recordLaws_same (recordLaws_expireAll (later _)) (nextPeriod_same _))
  case refreshCompletion =>
    obtain ⟨r, hr, rfl⟩ := refreshCompletion_next hx
    exact recordLaws_enterRetention (recordLaws_refreshChoice (recordLaws_tryClearStart
      (recordLaws_finishRefresh (later r.endsAt) hr phases)))
  case clearCompletion =>
    obtain ⟨r, hr, rfl⟩ := clearCompletion_next hx
    have finished := recordLaws_refreshChoice (recordLaws_finishClear (later (r.startedAt + clearTime)) hr phases)
    refine recordLaws_enterRetention ?_
    unfold State.afterClear
    split
    · exact recordLaws_same finished ⟨rfl, rfl, fun _ => rfl⟩
    · exact recordLaws_tryClearStart finished
  case wakeCompletion =>
    obtain ⟨ends, -, rfl⟩ := wakeCompletion_next hx
    refine phasedLaws_records (finishWake_keeps packets ?_)
    exact ⟨recordLaws_same law ⟨rfl, rfl, fun _ => rfl⟩, phases⟩
  case transmission p =>
    obtain ⟨bytes, -, rfl⟩ := transmission_next hx
    exact recordLaws_enterRetention (recordLaws_same law (t := s.setLink p _) ⟨rfl, rfl, fun _ => rfl⟩)
  all_goals
    obtain rfl := Host.Outcome.next.inj hx
    refine phasedLaws_records ?_
    exact receive_keeps packets _ _ both

end

/-- Settles O56: the laws of records and bursts as one predicate that every operation keeps, the law of clears and refreshes beside
it. -/
theorem stepKeepsHoldAndPlaceLaws : Obligations.StepKeepsHoldAndPlaceLaws := by
  intro s t hold place hx
  have start : s.PhasedLaws (s.phaseLaw ∧ s.bankLaw ∧ s.burstLaw) :=
    ⟨(recordLaws_iff _ s).2 ⟨hold, place, fun h => h.2⟩, fun h => h.1⟩
  have kept : t.PhasedLaws (s.phaseLaw ∧ s.bankLaw ∧ s.burstLaw) :=
    step_keeps (P := State.PhasedLaws _)
      (fun _ law => ⟨recordLaws_same law.1 ⟨rfl, rfl, fun _ => rfl⟩, law.2⟩)
      (fun law hx => ⟨exec_keeps_recordLaws law.1 law.2 hx, fun hf => exec_keeps_phaseLaw (law.2 hf) hx⟩)
      (fun law => ⟨recordLaws_same law.1 ⟨rfl, rfl, fun _ => rfl⟩, law.2⟩) start hx
  obtain ⟨holds, places, full⟩ := (recordLaws_iff _ t).1 kept.1
  exact ⟨holds, places, fun phases banks bursts => full ⟨phases, banks, bursts⟩⟩

end Sys2Proof.Machine
end
section
/-!
SUPPORT and PROOF. The checks of an OPEN and its grants: a fresh grant, a join, a rejoin (O22, O23, O24, O25; R25, R26, R29 to R31).
-/

namespace Sys2Proof.Machine

open Sys2Proof

/-! ## From an arrival to the hold controller -/

/-- A request that every session but one in NONE passes on (R136). -/
theorem request_passed {s : State} {h : Header} (hh : s.hears h) (hs : (s.session h.port).state = .attached) {r : Request}
    (he : r.encodable = true) (hr : r ≠ .idle) (f : State → State)
    (owned : ∀ t : State, t.dispatch h.port h.tag r = t.unlessNone h.port h.tag f) : s.request h r = f (s.taken h) := by
  rw [request_taken hh he hr, owned, State.unlessNone, if_neg (by rw [taken_session_state, hs]; decide)]

theorem rowOf_some {row : BitVec 16} (h : row.toNat < 8192) : rowOf row = some ⟨row.toNat, h⟩ := dif_pos h

theorem rowOf_none {row : BitVec 16} (h : 8192 ≤ row.toNat) : rowOf row = none := dif_neg (not_lt.2 h)

/-- QUEUED as the request is taken: the response enters the queue, and the tag is QUEUED (R28, R43, R138). -/
theorem heard_queued {w : State} {h : Header} (up : (w.link h.port).up = true) :
    (w.heard h).answer h.port h.tag .queued = (w.replied h false .queued).setSession h.port
      { w.session h.port with idleVote := false, tags := sixteenSet (w.session h.port).tags h.tag .queued } := by
  rw [answer_up (by rw [heard_link_same]; exact up), heard_link_same, heard_session_same, sixteen_set_set]
  simp [State.heard, State.replied, State.setLink, State.setSession, State.link, Answer.tagAfter]

/-! ## The checks of an OPEN (R25) -/

section
variable {s : State} {p : Port} {t : Tag} {bank : Byte} {row : BitVec 16} {mode : HoldMode} {wait : Bool}

theorem openRefusal_bounds (hs : (s.session p).state = .attached) (out : 16 ≤ bank.toNat ∨ 8192 ≤ row.toNat) :
    s.openRefusal p (bankOf bank) (rowOf row) = some .bounds := by
  unfold State.openRefusal
  rw [if_neg (not_not.2 hs)]
  rcases out with out | out
  · rw [bankOf_none out]
  · rw [rowOf_none out]
    split
    · next h => cases h
    · rfl

/-- Past the bounds the records, the wait entries and the use of the port decide (R23, R25, R154). -/
theorem openRefusal_inside (hs : (s.session p).state = .attached) (b : Bank) (r : Row) :
    s.openRefusal p (some b) (some r) =
      if ((s.bank b).recordOf p).isSome then some .alreadyHeld
      else if ((s.bank b).waitOf p).isSome then some .alreadyWaiting
      else if s.use p < s.config.holdQuota.get p then none
      else some .quota := by
  unfold State.openRefusal
  rw [if_neg (not_not.2 hs)]

theorem openRefusal_passed (hs : (s.session p).state = .attached) {b : Bank} (r : Row)
    (record : ((s.bank b).recordOf p).isNone = true) (waiting : ((s.bank b).waitOf p).isNone = true)
    (use : s.use p < s.config.holdQuota.get p) : s.openRefusal p (some b) (some r) = none := by
  rw [openRefusal_inside hs, if_neg (by rw [Option.isNone_iff_eq_none.1 record]; nofun),
    if_neg (by rw [Option.isNone_iff_eq_none.1 waiting]; nofun), if_pos use]

/-- An OPEN that does not take a bank from a refresh start is the hold controller's alone. -/
theorem orderedOpen_alone (h : ∀ q, s.startTogether = some q → s.takesBankFrom q p bank row mode = false) :
    s.orderedOpen p t bank row mode wait = s.holdOpen p t bank row mode wait := by
  rcases orderedOpen_cases s p t bank row mode wait with e | ⟨q, together, takes, -⟩
  · exact e
  · rw [h q together] at takes
    cases takes

theorem orderedOpen_refused {reason : Reason} (h : s.openRefusal p (bankOf bank) (rowOf row) = some reason) :
    s.orderedOpen p t bank row mode wait = s.answer p t (.refused reason) := by
  rw [orderedOpen_alone fun q _ => by unfold State.takesBankFrom; rw [h]; rfl]
  unfold State.holdOpen
  rw [h]

/-- An OPEN that passed its checks, on a bank that is not REFRESHING: nothing but the bank decides. -/
theorem orderedOpen_steady {b : Bank} {r : Row} (hb : bankOf bank = some b) (hr : rowOf row = some r)
    (steady : (s.bank b).phase ≠ .refreshing) :
    s.orderedOpen p t bank row mode wait = s.holdOpen p t bank row mode wait :=
  orderedOpen_alone fun q _ => by
    unfold State.takesBankFrom
    rw [hb, hr]
    simp [beq_false_of_ne steady]

section
variable {b : Bank} {r : Row} (hb : bankOf bank = some b) (hr : rowOf row = some r)
  (passed : s.openRefusal p (some b) (some r) = none)
include hb hr passed

theorem holdOpen_free (free : s.openConflict b r mode = none) :
    s.holdOpen p t bank row mode wait = s.placeOpen b p t r mode := by
  unfold State.holdOpen
  simp only [hb, hr, passed, free]

theorem holdOpen_conflict {reason : Reason} (conflict : s.openConflict b r mode = some reason) :
    s.holdOpen p t bank row mode wait = if wait then s.addWait b p t r mode else s.answer p t (.refused reason) := by
  unfold State.holdOpen
  simp only [hb, hr, passed, conflict]

end

end

section
variable {s : State} {h : Header} {bank : Byte} {row : BitVec 16} {mode : HoldMode} {wait : Bool}
  (hh : s.hears h) (hs : (s.session h.port).state = .attached)
include hh hs

theorem open_exec : exec (.openBank h bank row mode wait) s =
    .next ((s.taken h).orderedOpen h.port h.tag bank row mode wait) :=
  congrArg Host.Outcome.next (request_passed hh hs (r := .openBank bank row mode wait) rfl (by simp)
    (fun t => t.orderedOpen h.port h.tag bank row mode wait) fun _ => rfl)

theorem open_refused {reason : Reason} (refusal : (s.taken h).openRefusal h.port (bankOf bank) (rowOf row) = some reason) :
    exec (.openBank h bank row mode wait) s = .next (s.answered h false (.refused reason)) := by
  rw [open_exec hh hs, orderedOpen_refused refusal, taken_answer hh rfl]

end

/-- Settles O22: each check is one branch of `openRefusal`, and no refused OPEN takes a bank from a refresh start. -/
theorem openChecksInOrder : Obligations.OpenChecksInOrder := by
  unfold Obligations.OpenChecksInOrder
  intro s h bank row mode wait hh
  refine ⟨fun out => ?_, fun hs => ?_⟩
  · exact requestWithoutSessionIsRefused s (.openBank h bank row mode wait) h (.openBank bank row mode wait) rfl rfl hh out
      (by simp) (by simp)
  have state : ((s.taken h).session h.port).state = .attached := (taken_session_state s h).trans hs
  refine ⟨fun out => open_refused hh hs (openRefusal_bounds state out), fun b hb hr => ?_⟩
  have inside := openRefusal_inside state b ⟨row.toNat, hr⟩
  rw [← hb, ← rowOf_some hr] at inside
  simp only [taken_bank, taken_use, taken_config] at inside
  refine ⟨fun held => ?_, fun record waits => ?_, fun record waits use => ?_⟩
  · exact open_refused hh hs (inside.trans (if_pos held))
  · exact open_refused hh hs (inside.trans (by simp [Option.isNone_iff_eq_none.1 record, waits]))
  · exact open_refused hh hs (inside.trans (by
      simp [Option.isNone_iff_eq_none.1 record, Option.isNone_iff_eq_none.1 waits, not_lt.2 use]))

/-! ## Grants at an OPEN (R26, R29 to R31) -/

section
variable {s : State} {h : Header} {bank : Byte} {row : BitVec 16} {mode : HoldMode} {wait : Bool} {b : Bank} {r : Row}

theorem joinable_iff {k : BankRecord} : k.joinable r mode = true ↔
    k.row = some r ∧ mode = .shared ∧ (∀ x ∈ k.holds, x.mode = .shared) ∧ k.upgrade = none := by
  unfold BankRecord.joinable
  simp [and_assoc]

section
variable (cleared : s.cleared (groupOf b) = true) (current : (s.quad (groupOf b)).state = .current)
  (nobody : (s.bank b).waitQueue = [])
include cleared current nobody

theorem openConflict_closed (closed : (s.bank b).phase = .closed) : s.openConflict b r mode = none := by
  unfold State.openConflict
  simp [cleared, current, nobody, closed]

theorem openConflict_held (held : (s.bank b).phase = .opening ∨ (s.bank b).phase = .opened) :
    s.openConflict b r mode = if (s.bank b).joinable r mode then none else some .bankBusy := by
  unfold State.openConflict
  rcases held with phase | phase <;> simp [cleared, current, nobody, phase]

theorem openConflict_closeWait (leaving : (s.bank b).phase = .closeWait) :
    s.openConflict b r mode = if (s.bank b).row = some r then none else some .bankBusy := by
  unfold State.openConflict
  simp [cleared, current, nobody, leaving]

end

end

section
variable {s : State} {h : Header} {bank : Byte} {row : BitVec 16} {mode : HoldMode} {wait : Bool} {b : Bank} {r : Row}
  (hh : s.hears h) (hs : (s.session h.port).state = .attached) (hb : bankOf bank = some b) (hr : rowOf row = some r)
  (record : ((s.bank b).recordOf h.port).isNone = true) (waiting : ((s.bank b).waitOf h.port).isNone = true)
  (use : s.use h.port < s.config.holdQuota.get h.port)
include hh hs hb hr record waiting use

/-- An OPEN without a conflict is placed as the bank's state calls for (R26). -/
theorem open_placed (steady : (s.bank b).phase ≠ .refreshing) (free : s.openConflict b r mode = none) :
    exec (.openBank h bank row mode wait) s = .next ((s.taken h).placeOpen b h.port h.tag r mode) := by
  have state : ((s.taken h).session h.port).state = .attached := (taken_session_state s h).trans hs
  rw [open_exec hh hs, orderedOpen_steady (s := s.taken h) hb hr steady,
    holdOpen_free (s := s.taken h) hb hr (openRefusal_passed state r record waiting use) free]

end

/-- Open completion of a bank with one unmarked record and no pending upgrade, at the link of the record's port. -/
theorem openCompletion_granted {s : State} {b : Bank} {x : HoldRecord} {t : Tag} (opening : (s.bank b).phase = .opening)
    (sole : (s.bank b).holds = [x]) (unmarked : x.releasing = false ∧ x.revokePending = false) (tag : x.openTag = some t)
    (upgrade : (s.bank b).upgrade = none) (hs : (s.session x.port).state = .attached) (up : (s.link x.port).up = true) :
    ∃ u, exec (.openCompletion b) s = .next u
      ∧ (u.link x.port).queue = (s.link x.port).queue ++ [.response t (.granted b (s.bank b).openRow x.mode)] := by
  refine ⟨((s.reachBank b).completeOpen b).settle, if_pos opening, ?_⟩
  have swept : (s.reachBank b).RepliedTo (sweep (openRecord b) ((s.reachBank b).bank b).holds (s.reachBank b)).1 x.port
      [(t, .granted b (s.bank b).openRow x.mode)] := by
    have answered := answerTag_replied (s.reachBank b) x.port x.openTag (.granted b (s.bank b).openRow x.mode) x.port
    rw [if_pos rfl, tag] at answered
    have left : (openRecord b (s.reachBank b) x).1
        = (s.reachBank b).answerTag x.port x.openTag (.granted b (s.bank b).openRow x.mode) := by
      unfold openRecord
      rw [if_neg (by rw [unmarked.1]; nofun), if_neg (by rw [unmarked.2]; nofun)]
      rfl
    rw [show ((s.reachBank b).bank b).holds = [x] from sole]
    show (s.reachBank b).RepliedTo (openRecord b (s.reachBank b) x).1 x.port _
    rw [left, tag]
    exact answered
  have opened : (s.reachBank b).RepliedTo ((s.reachBank b).completeOpen b) x.port [(t, .granted b (s.bank b).openRow x.mode)] := by
    rw [completeOpen_otherwise fun u hu => by cases upgrade.symm.trans hu]
    exact swept
  exact settle_replied_attached opened hs up

/-- Settles O23: a CLOSED bank is no bank of a refresh start, and its grant is the only branch left. -/
theorem openOfClosedBankIsFreshGrant : Obligations.OpenOfClosedBankIsFreshGrant := by
  unfold Obligations.OpenOfClosedBankIsFreshGrant
  intro s h bank row mode wait b r t hh hs hb hr record waiting use cleared current closed nobody ht
  have placed := open_placed (mode := mode) (wait := wait) hh hs hb hr record waiting use (by rw [closed]; nofun)
    (openConflict_closed cleared current nobody closed)
  have granted : (s.taken h).placeOpen b h.port h.tag r mode = t := by
    unfold State.placeOpen
    rw [taken_bank, closed, ht]
    rfl
  refine ⟨placed.trans (congrArg _ granted), fun upgrade => ?_⟩
  have bank : t.bank b = { s.bank b with
      phase := .opening, row := some r, dwellExpired := some false, endsAt := some (s.now + 28)
      holds := [newRecord h.port mode (some h.tag) s.stamp] } := by
    rw [ht]
    exact bank_setBank_same _ _ _
  have link : t.link h.port = (s.taken h).link h.port := by rw [ht]; rfl
  have session : t.session h.port = (s.taken h).session h.port := by rw [ht]; rfl
  have completed := openCompletion_granted (s := t) (b := b) (x := newRecord h.port mode (some h.tag) s.stamp) (t := h.tag)
    (by rw [bank]) (by rw [bank]) ⟨rfl, rfl⟩ rfl (by rw [bank]; exact upgrade)
    (by show (t.session h.port).state = _; rw [session, taken_session_state]; exact hs)
    (by show (t.link h.port).up = _; rw [link, taken_heard, heard_link_same]; exact hh.2.1)
  rw [show (t.bank b).openRow = r by rw [bank]; rfl] at completed
  exact completed

/-- Settles O24: the bank joins, and GRANTED is sent at once where no open completion is to come. -/
theorem openOfSharedRowJoins : Obligations.OpenOfSharedRowJoins := by
  unfold Obligations.OpenOfSharedRowJoins
  intro s h bank row wait b r hh hs hb hr record waiting use cleared current nobody hrow shared upgrade
  have joins : (s.bank b).joinable r .shared = true := joinable_iff.2 ⟨hrow, rfl, shared, upgrade⟩
  have placed (held : (s.bank b).phase = .opening ∨ (s.bank b).phase = .opened) :
      exec (.openBank h bank row .shared wait) s = .next ((s.taken h).placeOpen b h.port h.tag r .shared) := by
    refine open_placed hh hs hb hr record waiting use (by rcases held with e | e <;> rw [e] <;> nofun) ?_
    rw [openConflict_held cleared current nobody held, if_pos joins]
  refine ⟨fun opened => (placed (Or.inr opened)).trans (congrArg _ ?_), fun opening => (placed (Or.inl opening)).trans (congrArg _ ?_)⟩
  · have row : ((s.taken h).bank b).openRow = r := congrArg (fun x => x.getD 0) hrow
    unfold State.placeOpen State.joinBank
    rw [taken_bank, opened]
    simp only []
    rw [if_neg (by nofun), ← taken_bank s h b, row]
    exact worked_answer (w := s.countRequest.addRecord b (newRecord h.port .shared none s.stamp)) hh rfl rfl rfl
  · unfold State.placeOpen State.joinBank
    rw [taken_bank, opening]
    simp only []
    rw [if_pos trivial]
    rfl

/-- Settles O25: CLOSE_WAIT on the row is no conflict, whatever the mode. -/
theorem openInCloseWaitRejoins : Obligations.OpenInCloseWaitRejoins := by
  unfold Obligations.OpenInCloseWaitRejoins
  intro s h bank row mode wait b r hh hs hb hr record waiting use cleared current nobody leaving hrow
  have free : s.openConflict b r mode = none := by rw [openConflict_closeWait cleared current nobody leaving, if_pos hrow]
  refine (open_placed hh hs hb hr record waiting use (by rw [leaving]; nofun) free).trans (congrArg _ ?_)
  have row : ((s.taken h).bank b).openRow = r := congrArg (fun x => x.getD 0) hrow
  unfold State.placeOpen State.rejoinBank
  rw [taken_bank, leaving]
  simp only []
  rw [← taken_bank s h b, row]
  have rejoined := worked_answer (s := s) (a := .granted b r mode)
    (w := (s.countRequest.setBank b { s.bank b with phase := .opened }).addRecord b (newRecord h.port mode none s.stamp)) hh rfl rfl rfl
  refine rejoined.trans ?_
  unfold State.addRecord
  rw [bank_setBank_same, setBank_setBank]
  rfl

end Sys2Proof.Machine
end
section
/-!
SUPPORT and PROOF. An OPEN that is not granted, and an OPEN beside a refresh start of the same moment (O26; R27, R28, R92).
-/

namespace Sys2Proof.Machine

open Sys2Proof

/-! ## Why an OPEN is not granted (R27) -/

section
variable {s : State} {b : Bank} {r : Row} {mode : HoldMode}

theorem openConflict_starting (cleared : s.cleared (groupOf b) = false) : s.openConflict b r mode = some .starting := by
  unfold State.openConflict
  simp [cleared]

theorem openConflict_maintenance (cleared : s.cleared (groupOf b) = true)
    (work : (s.quad (groupOf b)).state ≠ .current ∨ (s.bank b).phase = .refreshing) :
    s.openConflict b r mode = some .maintenance := by
  unfold State.openConflict
  simp [cleared, work]

section
variable (cleared : s.cleared (groupOf b) = true) (current : (s.quad (groupOf b)).state = .current)
  (steady : (s.bank b).phase ≠ .refreshing)
include cleared current steady

theorem openConflict_waited (queue : (s.bank b).waitQueue ≠ []) : s.openConflict b r mode = some .bankBusy := by
  unfold State.openConflict
  simp [cleared, current, steady, queue]

/-- A bank that another port has, or that closes, makes an OPEN wait. -/
theorem openConflict_busy (busy : (s.bank b).waitQueue ≠ []
      ∨ (((s.bank b).phase = .opening ∨ (s.bank b).phase = .opened)
          ∧ ((s.bank b).row ≠ some r ∨ mode = .exclusive ∨ (∃ x ∈ (s.bank b).holds, x.mode = .exclusive)
              ∨ (s.bank b).upgrade ≠ none))
      ∨ ((s.bank b).phase = .closeWait ∧ (s.bank b).row ≠ some r)
      ∨ (s.bank b).phase = .closing) : s.openConflict b r mode = some .bankBusy := by
  by_cases queue : (s.bank b).waitQueue = []
  · rcases busy with waits | ⟨held, differs⟩ | ⟨leaving, row⟩ | closing
    · exact absurd queue waits
    · rw [openConflict_held cleared current queue held, if_neg]
      rw [joinable_iff]
      rintro ⟨row, shared, records, upgrade⟩
      rcases differs with other | exclusive | ⟨x, hx, exclusive⟩ | upgrading
      · exact other row
      · cases shared.symm.trans exclusive
      · cases (records x hx).symm.trans exclusive
      · exact upgrading upgrade
    · rw [openConflict_closeWait cleared current queue leaving, if_neg row]
    · unfold State.openConflict
      simp [cleared, current, queue, closing]
  · exact openConflict_waited cleared current steady queue

end

/-- An OPEN that would be granted but for the bank's being REFRESHING finds its quad cleared and CURRENT, and nobody waiting. -/
theorem openConflict_free (free : s.openConflict b r mode = none) :
    s.cleared (groupOf b) = true ∧ (s.quad (groupOf b)).state = .current ∧ (s.bank b).waitQueue = [] := by
  have cleared : s.cleared (groupOf b) = true := by
    by_contra h
    rw [openConflict_starting (by simpa using h)] at free
    cases free
  have steady : ¬ ((s.quad (groupOf b)).state ≠ .current ∨ (s.bank b).phase = .refreshing) := fun work => by
    rw [openConflict_maintenance cleared work] at free
    cases free
  obtain ⟨current, steady⟩ := not_or.1 steady
  have current := not_not.1 current
  refine ⟨cleared, current, ?_⟩
  by_contra queue
  rw [openConflict_waited cleared current steady queue] at free
  cases free

end

/-! ## An OPEN beside a refresh start of the same moment (R92) -/

/-- The request that is taken is the first since the refresh start. -/
theorem startTogether_taken {s : State} {h : Header} {q : Quad} : (s.taken h).startTogether = some q ↔
    s.refresh = some { quad := q, endsAt := s.now + 560 } ∧ s.marks.requests = s.marks.startedAfter := by
  unfold State.startTogether
  constructor
  · intro start
    split at start
    · next r hr =>
      split at start
      · next both =>
        obtain rfl := Option.some.inj start
        obtain ⟨ends, first⟩ := both
        exact ⟨hr.trans (congrArg (fun n => some (RefreshRun.mk r.quad n)) ends), Nat.succ.inj first⟩
      · cases start
    · cases start
  · rintro ⟨run, first⟩
    simp only [show (s.taken h).refresh = _ from run]
    exact if_pos ⟨rfl, congrArg (· + 1) first⟩

section
variable {s : State} {h : Header} {bank : Byte} {row : BitVec 16} {mode : HoldMode} {wait : Bool} {b : Bank} {r : Row}
  {reason : Reason}

theorem takesBankFrom_passed {q : Quad} {p : Port} (hb : bankOf bank = some b) (hr : rowOf row = some r)
    (takes : s.takesBankFrom q p bank row mode = true) : groupOf b = q ∧ (s.bank b).phase = .refreshing
      ∧ (s.withoutStart q).openConflict b r mode = none := by
  unfold State.takesBankFrom at takes
  rw [hb, hr] at takes
  simp only [Bool.and_eq_true, beq_iff_eq, Option.isNone_iff_eq_none, and_assoc] at takes
  exact takes.2

/-- The state that the OPEN leaves: refused, or with a wait entry at the tail. -/
theorem open_waits (hh : s.hears h) : (s.taken h).addWait b h.port h.tag r mode =
    (({ s.answered h false .queued with stamp := s.stamp + 1 } : State).setSession h.port
      { s.session h.port with
        idleVote := false, tags := sixteenSet (s.session h.port).tags h.tag .queued }).setBank b
      { s.bank b with waitQueue := (s.bank b).waitQueue ++
        [{ port := h.port, tag := h.tag, row := r, mode := mode, stamp := s.stamp }] } :=
  heard_queued (w := ((s.countRequest.setBank b { s.bank b with waitQueue := (s.bank b).waitQueue ++
    [{ port := h.port, tag := h.tag, row := r, mode := mode, stamp := s.stamp }] }).tickStamp 1)) hh.2.1

end

section
variable {s : State} {h : Header} {bank : Byte} {row : BitVec 16} {mode : HoldMode} {b : Bank} {r : Row} {reason : Reason}
  (hb : bankOf bank = some b) (hr : rowOf row = some r)
  (passed : (s.taken h).openRefusal h.port (some b) (some r) = none) (conflict : s.openConflict b r mode = some reason)
include hb hr passed conflict

theorem holdOpen_without_wait (hh : s.hears h) :
    (s.taken h).holdOpen h.port h.tag bank row mode false = s.answered h false (.refused reason) := by
  rw [holdOpen_conflict (s := s.taken h) hb hr passed conflict, if_neg (by nofun), taken_answer hh rfl]

theorem holdOpen_with_wait : (s.taken h).holdOpen h.port h.tag bank row mode true = (s.taken h).addWait b h.port h.tag r mode := by
  rw [holdOpen_conflict (s := s.taken h) hb hr passed conflict, if_pos rfl]

end

/-- An OPEN taken without the refresh start of its moment, upon which the arbiter chooses. -/
theorem open_beforeStart {s : State} {h : Header} {bank : Byte} {row : BitVec 16} {mode : HoldMode} {wait : Bool} {q : Quad}
    (hh : s.hears h) (hs : (s.session h.port).state = .attached) :
    exec (.openBank h bank row mode wait) (s.withoutStart q)
      = .next (((s.taken h).withoutStart q).holdOpen h.port h.tag bank row mode wait) := by
  have heard : (s.withoutStart q).hears h := hh
  have alone : ((s.withoutStart q).taken h).startTogether = none := rfl
  rw [open_exec heard hs, orderedOpen_apart alone]
  rfl

/-- Settles O26: the first reason that applies is the conflict, and only a refresh start of the same moment that the OPEN would take the
bank from leaves another order free. -/
theorem openThatCannotBeGrantedWaitsOrIsRefused : Obligations.OpenThatCannotBeGrantedWaitsOrIsRefused := by
  unfold Obligations.OpenThatCannotBeGrantedWaitsOrIsRefused
  intro s h bank row mode b r reason hh hs hb hr record waiting use cases refused waits hrefused hwaits together htogether
  have conflict : s.openConflict b r mode = some reason := by
    rcases cases with ⟨cleared, rfl⟩ | ⟨cleared, work, rfl⟩ | ⟨cleared, current, steady, busy, rfl⟩
    · exact openConflict_starting cleared
    · exact openConflict_maintenance cleared work
    · exact openConflict_busy cleared current steady busy
  have state : ((s.taken h).session h.port).state = .attached := (taken_session_state s h).trans hs
  have passed := openRefusal_passed state r record waiting use
  have alone : (s.taken h).holdOpen h.port h.tag bank row mode false = refused :=
    (holdOpen_without_wait hb hr passed conflict hh).trans hrefused.symm
  have queued : (s.taken h).holdOpen h.port h.tag bank row mode true = waits :=
    ((holdOpen_with_wait hb hr passed conflict).trans (open_waits hh)).trans hwaits.symm
  refine ⟨fun apart => ?_, fun _ => ⟨s.withoutStart (groupOf b), rfl, fun c => bank_setQuadPhase s (groupOf b) .closed c, ?_⟩⟩
  · have ordered (wait : Bool) : (s.taken h).orderedOpen h.port h.tag bank row mode wait
        = (s.taken h).holdOpen h.port h.tag bank row mode wait := by
      refine orderedOpen_alone fun q start => ?_
      by_contra takes
      obtain ⟨rfl, refreshing, free⟩ := takesBankFrom_passed (s := s.taken h) hb hr (by simpa using takes)
      obtain ⟨cleared, current, nobody⟩ := openConflict_free free
      rw [show (((s.taken h).withoutStart (groupOf b)).bank b).waitQueue = (s.bank b).waitQueue by
        show (((s.taken h).setQuadPhase (groupOf b) .closed).bank b).waitQueue = _
        rw [bank_setQuadPhase, if_pos rfl]
        rfl] at nobody
      exact apart (htogether.2 ⟨startTogether_taken.1 start, cleared, current, refreshing, nobody⟩)
    rw [open_exec hh hs, open_exec hh hs, ordered, ordered, alone, queued]
    exact ⟨rfl, rfl⟩
  · have either (wait : Bool) : exec (.openBank h bank row mode wait) s
          = .next ((s.taken h).holdOpen h.port h.tag bank row mode wait)
        ∨ ∃ t, exec (.openBank h bank row mode wait) (s.withoutStart (groupOf b)) = .next t
          ∧ exec (.openBank h bank row mode wait) s = .next t.refreshChoice := by
      rw [open_exec hh hs]
      rcases orderedOpen_cases (s.taken h) h.port h.tag bank row mode wait with e | ⟨q, -, takes, e⟩
      · exact Or.inl (congrArg _ e)
      · obtain ⟨rfl, -, -⟩ := takesBankFrom_passed (s := s.taken h) hb hr takes
        exact Or.inr ⟨_, open_beforeStart hh hs, congrArg _ e⟩
    rw [← alone, ← queued]
    exact ⟨either false, either true⟩

end Sys2Proof.Machine
end
section
/-!
SUPPORT and PROOF. UPGRADE (O27; R42, R43).
-/

namespace Sys2Proof.Machine

open Sys2Proof

section
variable {s : State} {p : Port} {t : Tag} {bank : Byte} (hs : (s.session p).state = .attached)
include hs

theorem holdUpgrade_bounds (out : 16 ≤ bank.toNat) : s.holdUpgrade p t bank = s.answer p t (.refused .bounds) := by
  unfold State.holdUpgrade
  rw [if_neg (not_not.2 hs)]
  simp only [bankOf_none out]

theorem holdUpgrade_unheld {b : Bank} (hb : bankOf bank = some b) (hx : (s.bank b).recordOf p = none) :
    s.holdUpgrade p t bank = s.answer p t (.refused .notHeld) := by
  unfold State.holdUpgrade
  rw [if_neg (not_not.2 hs)]
  simp only [hb, hx]

/-- With a record of the port on the bank, its marks, its mode, the other records and the pending upgrade decide, in this order
(R42). -/
theorem holdUpgrade_held {b : Bank} {x : HoldRecord} (hb : bankOf bank = some b) (hx : (s.bank b).recordOf p = some x) :
    s.holdUpgrade p t bank =
      if !x.unmarked then s.answer p t (.refused .notHeld)
      else if x.mode = .exclusive then s.answer p t (.ok .plain)
      else if (s.bank b).holds.length = 1 then
        (s.markRecord b p (fun y => { y with mode := .exclusive })).answer p t (.ok .plain)
      else if (s.bank b).upgrade.isSome then s.answer p t (.refused .upgradeConflict)
      else (s.setBank b { s.bank b with upgrade := some { port := p, tag := t } }).answer p t .queued := by
  unfold State.holdUpgrade
  rw [if_neg (not_not.2 hs)]
  simp only [hb, hx]

end

theorem not_unmarked_iff (x : HoldRecord) : (!x.unmarked) = true ↔ x.releasing = true ∨ x.revokePending = true := by
  rw [Bool.not_eq_true', ← Bool.not_eq_true, unmarked_iff, not_and_or, Bool.not_eq_false, Bool.not_eq_false]

theorem upgrade_exec {s : State} {h : Header} {bank : Byte} (hh : s.hears h) (hs : (s.session h.port).state = .attached) :
    exec (.upgrade h bank) s = .next ((s.taken h).holdUpgrade h.port h.tag bank) :=
  congrArg Host.Outcome.next (request_passed hh hs (r := .upgrade bank) rfl (by simp)
    (fun t => t.holdUpgrade h.port h.tag bank) fun _ => rfl)

/-- The port's record, the only one of its bank, changed by an owner whose answer is final. -/
theorem markSole_answer {s : State} {h : Header} {b : Bank} {x : HoldRecord} {f : HoldRecord → HoldRecord} {a : Answer}
    (hh : s.hears h) (hx : (s.bank b).recordOf h.port = some x) (sole : (s.bank b).holds = [x]) (final : a.tagAfter = .free) :
    ((s.taken h).markRecord b h.port f).answer h.port h.tag a
      = (s.answered h false a).setBank b { s.bank b with holds := [f x] } := by
  have marked : (s.bank b).updRecord h.port f = { s.bank b with holds := [f x] } := by
    unfold BankRecord.updRecord
    rw [sole]
    simp [(recordOf_some hx).2]
  have answered := worked_answer (w := s.countRequest.setBank b ((s.bank b).updRecord h.port f)) hh rfl rfl final
  rw [marked] at answered
  unfold State.markRecord
  rw [taken_bank, marked]
  exact answered

/-- Settles O27: one branch of `holdUpgrade` for each outcome. -/
theorem upgradeOutcomesInOrder : Obligations.UpgradeOutcomesInOrder := by
  unfold Obligations.UpgradeOutcomesInOrder
  intro s h bank hh
  have answers {a : Answer} (final : a.tagAfter = .free) (hs : (s.session h.port).state = .attached)
      (decided : (s.taken h).holdUpgrade h.port h.tag bank = (s.taken h).answer h.port h.tag a) :
      exec (.upgrade h bank) s = .next (s.answered h false a) := by
    rw [upgrade_exec hh hs, decided, taken_answer hh final]
  refine ⟨fun out => ?_, fun hs out => ?_, fun b hs hb => ?_⟩
  · exact requestWithoutSessionIsRefused s (.upgrade h bank) h (.upgrade bank) rfl rfl hh out (by simp) (by simp)
  · exact answers rfl hs (holdUpgrade_bounds ((taken_session_state s h).trans hs) out)
  have state : ((s.taken h).session h.port).state = .attached := (taken_session_state s h).trans hs
  refine ⟨fun unheld => answers rfl hs (holdUpgrade_unheld state hb unheld), fun x hx => ?_⟩
  have held := holdUpgrade_held (t := h.tag) state hb hx
  refine ⟨fun marked => ?_, fun releasing revoked => ?_⟩
  · exact answers rfl hs (held.trans (if_pos ((not_unmarked_iff x).2 marked)))
  have usable := held.trans (if_neg (by rw [(unmarked_iff x).2 ⟨releasing, revoked⟩]; nofun))
  refine ⟨fun exclusive => answers rfl hs (usable.trans (if_pos exclusive)), fun shared sole => ?_,
    fun shared others pending => ?_, fun shared others free => ?_⟩
  all_goals have asks := usable.trans (if_neg (by rw [shared]; nofun))
  · rw [upgrade_exec hh hs, asks.trans (if_pos (congrArg List.length sole))]
    exact congrArg _ (markSole_answer hh hx sole rfl)
  · exact answers rfl hs (asks.trans ((if_neg others).trans (if_pos (Option.isSome_iff_ne_none.2 pending))))
  · have recorded := asks.trans ((if_neg others).trans (if_neg (by rw [taken_bank, free]; nofun)))
    rw [upgrade_exec hh hs, recorded]
    exact congrArg _ (heard_queued
      (w := s.countRequest.setBank b { s.bank b with upgrade := some { port := h.port, tag := h.tag } }) hh.2.1)

end Sys2Proof.Machine
end
section
/-!
SUPPORT and PROOF. CLOSE at the hold controller, and the earlier CLOSE of a releasing record (O28; R11, R36, R38, R39).
-/

namespace Sys2Proof.Machine

open Sys2Proof

/-! ## CLOSE at the hold controller (R36, R39) -/

section
variable {s : State} {p : Port} {t : Tag} {bank : Byte} (hs : (s.session p).state = .attached)
include hs

theorem holdClose_bounds (out : 16 ≤ bank.toNat) : s.holdClose p t bank = s.answer p t (.refused .bounds) := by
  unfold State.holdClose
  rw [if_neg (not_not.2 hs)]
  simp only [bankOf_none out]

theorem holdClose_waiting {b : Bank} (hb : bankOf bank = some b) (waits : ((s.bank b).waitOf p).isSome = true) :
    s.holdClose p t bank = (s.dropWait b p .cancelled).answer p t (.ok (.close false)) := by
  unfold State.holdClose
  rw [if_neg (not_not.2 hs)]
  simp only [hb]
  rw [if_pos waits]

/-- A CLOSE that finds no record that it may mark. -/
theorem holdClose_unheld {b : Bank} (hb : bankOf bank = some b) (waits : ((s.bank b).waitOf p).isNone = true)
    (unheld : ∀ x, (s.bank b).recordOf p = some x → x.unmarked = false) :
    s.holdClose p t bank = s.answer p t (.ok (.close true)) := by
  unfold State.holdClose
  rw [if_neg (not_not.2 hs)]
  simp only [hb]
  rw [if_neg (by simpa using waits)]
  split
  · next x hx => rw [if_neg (by rw [unheld x hx]; nofun)]
  · rfl

theorem holdClose_held {b : Bank} {x : HoldRecord} (hb : bankOf bank = some b) (waits : ((s.bank b).waitOf p).isNone = true)
    (hx : (s.bank b).recordOf p = some x) (unmarked : x.unmarked = true) : s.holdClose p t bank = s.closeRecord b p t := by
  unfold State.holdClose
  rw [if_neg (not_not.2 hs)]
  simp only [hb, hx]
  rw [if_neg (by simpa using waits), if_pos unmarked]

end

section
variable {s : State} {h : Header} {bank : Byte} (hh : s.hears h) (hs : (s.session h.port).state = .attached)
include hh hs

theorem close_exec : exec (.closeBank h bank) s = .next (if (s.taken h).withdraws h.port bank
    then ((s.taken h).holdClose h.port h.tag bank).refreshChoice else (s.taken h).holdClose h.port h.tag bank) :=
  congrArg Host.Outcome.next (request_passed hh hs (r := .closeBank bank) rfl (by simp)
    (fun t => if t.withdraws h.port bank then (t.holdClose h.port h.tag bank).refreshChoice else t.holdClose h.port h.tag bank)
    fun _ => rfl)

theorem close_keeping (kept : ∀ b, bankOf bank = some b → ((s.bank b).waitOf h.port).isNone = true) :
    exec (.closeBank h bank) s = .next ((s.taken h).holdClose h.port h.tag bank) := by
  rw [close_exec hh hs, if_neg]
  unfold State.withdraws
  cases hb : bankOf bank with
  | none => simp
  | some b => simpa using fun _ => kept b hb

theorem close_withdrawing {b : Bank} (hb : bankOf bank = some b) (waits : ((s.bank b).waitOf h.port).isSome = true) :
    exec (.closeBank h bank) s = .next ((s.taken h).holdClose h.port h.tag bank).refreshChoice := by
  rw [close_exec hh hs, if_pos]
  unfold State.withdraws State.attached
  rw [taken_session_state, hs, hb]
  exact waits

theorem close_held {b : Bank} {x : HoldRecord} (hb : bankOf bank = some b) (waits : ((s.bank b).waitOf h.port).isNone = true)
    (hx : (s.bank b).recordOf h.port = some x) (releasing : x.releasing = false) (revoked : x.revokePending = false) :
    exec (.closeBank h bank) s = .next ((s.taken h).closeRecord b h.port h.tag) := by
  rw [close_keeping hh hs fun c hc => by rw [Option.some.inj (hc.symm.trans hb)]; exact waits,
    holdClose_held (s := s.taken h) ((taken_session_state s h).trans hs) hb waits hx ((unmarked_iff x).2 ⟨releasing, revoked⟩)]

end

/-! ## The earlier CLOSE of a releasing record (R11, R38) -/

theorem responses_last (queue : List OutEntry) (es : List (Tag × Answer)) (t : Tag) (a : Answer) :
    queue ++ responses (es ++ [(t, a)]) = (queue ++ responses es) ++ [.response t a] := by
  unfold responses
  rw [List.map_append, ← List.append_assoc]
  rfl

section
variable {s : State} {b : Bank} {x : HoldRecord} {earlier : Tag} (hs : (s.session x.port).state = .attached)
  (up : (s.link x.port).up = true) (releasing : x.releasing = true) (tag : x.closeTag = some earlier)
include hs up releasing tag

/-- A releasing record leaves at open completion, and its CLOSE is answered last. -/
theorem openCompletion_closes (law : s.placeLaw) (opening : (s.bank b).phase = .opening) (hx : x ∈ (s.bank b).holds) :
    ∃ u before, exec (.openCompletion b) s = .next u
      ∧ (u.link x.port).queue = before ++ [.response earlier (.ok (.close false))] := by
  have replied := completeOpen_replied (s := s.reachBank b) (b := b) law hx fun u _ hu kept => by
    obtain ⟨y, hy, port⟩ := List.map_eq_singleton_iff.1 kept
    have left : y ∈ (s.bank b).openKept := (congrArg (y ∈ ·) hy).mpr List.mem_cons_self
    exact openKept_marked law hx (Or.inl releasing) y left (port.trans hu)
  have queue := settle_replied_attached replied hs up
  unfold State.openAnswers at queue
  rw [if_pos releasing, tag] at queue
  exact ⟨_, _, if_pos opening, queue.trans (responses_last _ _ _ _)⟩

/-- A releasing record leaves at the completion of its port's last burst to the bank, and its CLOSE is answered last. -/
theorem executionCompletion_closes {e : Execution} (he : s.bursts.executing = some e) (uncut : e.cut = none)
    (done : e.results.length = e.burst.units) (port : e.burst.port = x.port) (bank : e.burst.bank = b)
    (hx : (s.bank b).recordOf x.port = some x) (unqueued : s.queuedOn x.port b = false) :
    ∃ u before, exec .executionCompletion s = .next u
      ∧ (u.link x.port).queue = before ++ [.response earlier (.ok (.close false))] := by
  subst bank
  rw [← port] at hs up hx unqueued ⊢
  have queue := settle_replied_attached (finishBurst_replied_released (s := s.reach e.endsAt) hx releasing unqueued) hs up
  rw [tag] at queue
  exact ⟨_, _, executionCompletion_exec he uncut done, queue.trans (responses_last _ [_] _ _)⟩

end

/-- Settles O28: neither a wait entry nor a record that may be marked leaves `holdClose` its last answer, and the answer changes nothing
that the earlier CLOSE waits for. -/
theorem closeOfNothingHeldAnswersNotHeld : Obligations.CloseOfNothingHeldAnswersNotHeld := by
  unfold Obligations.CloseOfNothingHeldAnswersNotHeld
  intro s h bank t hh hs ht
  have state : ((s.taken h).session h.port).state = .attached := (taken_session_state s h).trans hs
  have session : (t.session h.port).state = .attached := by
    rw [ht]
    unfold State.answered State.replied
    rw [session_setSession_same]
    exact hs
  have up : (t.link h.port).up = true := by
    rw [ht]
    unfold State.answered State.replied
    rw [setSession_link, link_setLink_same]
    exact hh.2.1
  refine ⟨fun out => ?_, fun b hb waits marked => ?_, fun b x earlier law opening hx port releasing tag => ?_,
    fun b x earlier e he uncut done port bank hx releasing tag unqueued => ?_⟩
  · have nobody (b : Bank) (hb : bankOf bank = some b) : ((s.bank b).waitOf h.port).isNone = true := by
      rw [bankOf_none out] at hb
      cases hb
    rw [close_keeping hh hs nobody, holdClose_bounds state out, taken_answer hh rfl]
  · have kept (c : Bank) (hc : bankOf bank = some c) : ((s.bank c).waitOf h.port).isNone = true := by
      rw [Option.some.inj (hc.symm.trans hb)]
      exact waits
    have unheld (x : HoldRecord) (hx : (s.bank b).recordOf h.port = some x) : x.unmarked = false := by
      rw [← Bool.not_eq_true', not_unmarked_iff]
      exact marked x hx
    rw [close_keeping hh hs kept, holdClose_unheld (s := s.taken h) state hb waits unheld, taken_answer hh rfl, ht]
  · rw [← port] at session up ⊢
    exact openCompletion_closes session up releasing tag (by rw [ht]; exact law) (by rw [ht]; exact opening) (by rw [ht]; exact hx)
  · have port' := (recordOf_some hx).2
    rw [← port'] at session up ⊢
    exact executionCompletion_closes session up releasing tag (by rw [ht]; exact he) uncut done (port.trans port'.symm) bank
      (by rw [ht, port']; exact hx) (by rw [ht, port']; exact unqueued)

end Sys2Proof.Machine
end
section
/-!
SUPPORT and PROOF. CLOSE of a wait entry, of a record in use, and of an upgrader's record (O29, O31, O32; R37, R39, R45, R138).
-/

namespace Sys2Proof.Machine

open Sys2Proof

/-! ## Two answers to a request's port in one event -/

/-- The tag of earlier work and then the request's own: after both the first is FREE and the other as before (R138). -/
theorem tags_answered_twice {tags : Sixteen TagState} {t u : Tag} (free : sixteenGet tags t = .free) (apart : u ≠ t) :
    sixteenSet (sixteenSet (sixteenSet tags t .busy) u .free) t .free = sixteenSet tags u .free := by
  refine sixteen_ext fun i => ?_
  simp only [sixteen_get_set]
  by_cases hi : i = t
  · subst hi
    rw [if_pos rfl, if_neg (Ne.symm apart), free]
  · rw [if_neg hi, if_neg hi]

section
variable {v : State} {h : Header} {u : Tag}
  (up : (v.link h.port).up = true) (attached : (v.session h.port).state = .attached)
include up attached

/-- An answer to earlier work of the port while its request is under way. -/
theorem heard_answerWork {c : Answer} (ends : c.tagAfter = .free) :
    (v.heard h).answerWork h.port u c = (v.setLink h.port
        { v.link h.port with
          expectedSeq := (v.link h.port).expectedSeq + 1
          queue := (v.link h.port).queue ++ [.response u c] }).setSession h.port
      { v.session h.port with
        idleVote := false
        tags := sixteenSet (sixteenSet (v.session h.port).tags h.tag .busy) u .free } := by
  have answerable : (v.heard h).answerable h.port = true := by
    rw [heard_answerable]
    unfold State.answerable
    rw [attached]
  unfold State.answerWork
  rw [if_pos answerable, answer_up (by rw [heard_link_same]; exact up), heard_link_same, heard_session_same, ends]
  simp [State.heard, State.setLink, State.setSession, State.link, State.session]

/-- An answer to earlier work of the port, and then the final one to its request. -/
theorem heard_answered_twice {c a : Answer} (ends : c.tagAfter = .free) (final : a.tagAfter = .free)
    (free : sixteenGet (v.session h.port).tags h.tag = .free) (apart : u ≠ h.tag) :
    ((v.heard h).answerWork h.port u c).answer h.port h.tag a = (v.setLink h.port
        { v.link h.port with
          expectedSeq := (v.link h.port).expectedSeq + 1
          queue := (v.link h.port).queue ++ [.response u c, .response h.tag a] }).setSession h.port
      { v.session h.port with idleVote := false, tags := sixteenSet (v.session h.port).tags u .free } := by
  have tags := tags_answered_twice free apart
  unfold State.session at tags
  rw [heard_answerWork up attached ends, answer_up]
  · simp [State.setLink, State.setSession, State.link, State.session, final, tags]
  · rw [setSession_link, link_setLink_same]
    exact up

end

/-- Settles O29: the entry leaves and is answered, then the CLOSE; whether the refresh arbiter then finds more to choose from is its own
matter. -/
theorem closeWithdrawsWait : Obligations.CloseWithdrawsWait := by
  unfold Obligations.CloseWithdrawsWait
  intro s h bank b w hh hs hb hw apart
  have waits : ((s.bank b).waitOf h.port).isSome = true := by rw [hw]; rfl
  rw [close_withdrawing hh hs hb waits, holdClose_waiting (s := s.taken h) ((taken_session_state s h).trans hs) hb waits]
  have dropped : (s.taken h).dropWait b h.port .cancelled
      = ((s.countRequest.setBank b ((s.bank b).dropWait h.port)).heard h).answerWork h.port w.tag .cancelled := by
    unfold State.dropWait
    simp only [taken_bank, hw]
    rfl
  rw [dropped, heard_answered_twice (v := s.countRequest.setBank b _) hh.2.1 hs rfl rfl (tag_free_of_hears hh) apart]
  rfl

/-! ## CLOSE of a record (R37, R45) -/

section
variable {s : State} {b : Bank} {p : Port} {f : HoldRecord → HoldRecord}

theorem dropRecord_updRecord {r : BankRecord} (keeps : ∀ x, (f x).port = x.port) :
    (r.updRecord p f).holds.filter (fun y => y.port != p) = r.holds.filter (fun y => y.port != p) := by
  unfold BankRecord.updRecord
  simp only []
  induction r.holds with
  | nil => rfl
  | cons x xs ih =>
    rw [List.map_cons]
    by_cases hx : x.port = p
    · rw [if_pos hx, List.filter_cons_of_neg (by simp [keeps, hx]), List.filter_cons_of_neg (by simp [hx]), ih]
    · rw [if_neg hx, List.filter_cons_of_pos (by simpa using hx), List.filter_cons_of_pos (by simpa using hx), ih]

/-- Marks on a record that leaves at once are not seen. -/
theorem leaveBank_markRecord (keeps : ∀ x, (f x).port = x.port) : (s.markRecord b p f).leaveBank b p = s.leaveBank b p := by
  unfold State.leaveBank State.markRecord BankRecord.dropRecord
  rw [bank_setBank_same, dropRecord_updRecord keeps, setBank_setBank]
  rfl

theorem dropUpgrade_absent (h : s.upgradeOn p b = false) (a : Answer) : s.dropUpgrade b p a = s := by
  unfold State.upgradeOn at h
  unfold State.dropUpgrade
  split
  · next u hu =>
    simp only [hu] at h
    rw [if_neg (by simpa using h)]
  · rfl

theorem dropUpgrade_present {u : PendingUpgrade} (hu : (s.bank b).upgrade = some u) (hp : u.port = p) (a : Answer) :
    s.dropUpgrade b p a = (s.setBank b { s.bank b with upgrade := none }).answerWork p u.tag a := by
  unfold State.dropUpgrade
  simp only [hu]
  rw [if_pos hp, hp]

end

/-- What a CLOSE makes of the record it marks (R37). -/
def HoldRecord.closing (t : Tag) (x : HoldRecord) : HoldRecord := { x with releasing := true, closeTag := some t }

section
variable {s : State} {b : Bank} {p : Port} {t : Tag}

/-- The record as marked, without the port's pending upgrade. -/
def State.marked (s : State) (b : Bank) (p : Port) (t : Tag) : State :=
  (s.markRecord b p (HoldRecord.closing t)).dropUpgrade b p .cancelled

theorem marked_phase (s : State) (b : Bank) (p : Port) (t : Tag) : ((s.marked b p t).bank b).phase = (s.bank b).phase := by
  unfold State.marked State.markRecord
  rw [dropUpgrade_bank, bank_setBank_same]
  rfl

theorem marked_bursts (s : State) (b : Bank) (p : Port) (t : Tag) : (s.marked b p t).bursts = s.bursts :=
  dropUpgrade_bursts _ b p .cancelled

theorem marked_idle_iff (s : State) (b : Bank) (p : Port) (t : Tag) :
    (((s.marked b p t).bank b).phase = .opened ∧ (!(s.marked b p t).queuedOn p b) = true ∧ (!(s.marked b p t).executingOn p b) = true)
      ↔ (s.bank b).phase = .opened ∧ s.queuedOn p b = false ∧ s.executingOn p b = false := by
  have queued : (s.marked b p t).queuedOn p b = s.queuedOn p b := by
    unfold State.queuedOn State.burstQueue
    rw [marked_bursts]
  rw [marked_phase, queued, executingOn_congr (congrArg BurstEngine.executing (marked_bursts s b p t)), Bool.not_eq_true',
    Bool.not_eq_true']

theorem closeRecord_idle (opened : (s.bank b).phase = .opened) (queued : s.queuedOn p b = false)
    (executing : s.executingOn p b = false) :
    s.closeRecord b p t = ((s.marked b p t).leaveBank b p).answer p t (.ok (.close false)) :=
  if_pos ((marked_idle_iff s b p t).2 ⟨opened, queued, executing⟩)

theorem closeRecord_busy (busy : (s.bank b).phase = .opening
      ∨ ((s.bank b).phase = .opened ∧ (s.queuedOn p b = true ∨ s.executingOn p b = true))) :
    s.closeRecord b p t = s.marked b p t := by
  refine if_neg ((marked_idle_iff s b p t).not.2 ?_)
  rintro ⟨opened, queued, executing⟩
  rcases busy with opening | ⟨-, on | on⟩
  · cases opening.symm.trans opened
  · cases queued.symm.trans on
  · cases executing.symm.trans on

theorem marked_without_upgrade (h : s.upgradeOn p b = false) : s.marked b p t = s.markRecord b p (HoldRecord.closing t) := by
  refine dropUpgrade_absent ?_ _
  unfold State.upgradeOn State.markRecord at *
  rw [bank_setBank_same]
  exact h

theorem marked_with_upgrade {u : PendingUpgrade} (hu : (s.bank b).upgrade = some u) (hp : u.port = p) : s.marked b p t =
    (s.setBank b { (s.bank b).updRecord p (HoldRecord.closing t) with upgrade := none }).answerWork p u.tag .cancelled := by
  have pending : ((s.markRecord b p (HoldRecord.closing t)).bank b).upgrade = some u := by
    unfold State.markRecord
    rw [bank_setBank_same]
    exact hu
  unfold State.marked
  rw [dropUpgrade_present pending hp]
  unfold State.markRecord
  rw [bank_setBank_same, setBank_setBank]

end

/-- Settles O31: a bank that is OPENING, or a burst of the port, keeps the record until later. -/
theorem closeOfBusyHoldMarksReleasing : Obligations.CloseOfBusyHoldMarksReleasing := by
  unfold Obligations.CloseOfBusyHoldMarksReleasing
  intro s h bank b x hh hs hb waits hx releasing revoked upgrade busy
  rw [close_held hh hs hb waits hx releasing revoked, closeRecord_busy (s := s.taken h) busy,
    marked_without_upgrade (s := s.taken h) upgrade]
  rfl

/-- A bank that a record leaves while no upgrade is pending: other records stay, or the bank goes to CLOSE_WAIT or to CLOSING (R13). -/
def BankRecord.without (r : BankRecord) (p : Port) (now : Nat) : BankRecord :=
  if r.holds.filter (fun y => y.port != p) ≠ [] then
    { r with holds := r.holds.filter (fun y => y.port != p), upgrade := none }
  else if r.dwellExpired = some true then { r with holds := [], upgrade := none, phase := .closing, endsAt := some (now + 28) }
  else { r with holds := [], upgrade := none, phase := .closeWait }

theorem leaveBank_without {s : State} {b : Bank} {p : Port} (opened : (s.bank b).phase = .opened) (absent : (s.bank b).upgrade = none) :
    s.leaveBank b p = s.setBank b ((s.bank b).without p s.now) := by
  unfold BankRecord.without
  by_cases last : (s.bank b).holds.filter (fun y => y.port != p) = []
  · rw [if_neg (not_not.2 last), leaveBank_last last opened]
  · rw [if_pos last, leaveBank_stays last fun u hu => by cases absent.symm.trans hu]
    unfold BankRecord.dropRecord
    rw [absent]

theorem without_updRecord {r : BankRecord} {p : Port} {f : HoldRecord → HoldRecord} (keeps : ∀ x, (f x).port = x.port) (now : Nat) :
    ({ r.updRecord p f with upgrade := none } : BankRecord).without p now = r.without p now := by
  unfold BankRecord.without
  rw [dropRecord_updRecord keeps]
  rfl

/-- An answer looks at no bank. -/
theorem answerWork_setBank (s : State) (b : Bank) (r : BankRecord) (p : Port) (t : Tag) (a : Answer) :
    (s.answerWork p t a).setBank b r = (s.setBank b r).answerWork p t a := by
  have answered : (s.answer p t a).setBank b r = (s.setBank b r).answer p t a := by
    unfold State.answer State.enqueue
    exact apply_ite (fun x : State => x.setBank b r) _ _ _
  unfold State.answerWork
  rw [apply_ite (fun x : State => x.setBank b r), answered]
  rfl

/-- Settles O32: the UPGRADE is answered first, and then the record leaves or stays marked as in every CLOSE. -/
theorem closeCancelsThePortsUpgrade : Obligations.CloseCancelsThePortsUpgrade := by
  unfold Obligations.CloseCancelsThePortsUpgrade
  intro s h bank b x u hh hs hb waits hx releasing revoked hu hp apart
  have cancelled : (s.taken h).marked b h.port h.tag = ((s.countRequest.setBank b
      { (s.bank b).updRecord h.port (HoldRecord.closing h.tag) with upgrade := none }).heard h).answerWork h.port u.tag .cancelled :=
    marked_with_upgrade (s := s.taken h) hu hp
  rw [close_held hh hs hb waits hx releasing revoked]
  refine ⟨fun opened queued executing others hothers => congrArg _ ?_, fun busy => congrArg _ ?_⟩
  · have left : ((s.taken h).marked b h.port h.tag).leaveBank b h.port
        = ((s.countRequest.setBank b ((s.bank b).without h.port s.now)).heard h).answerWork h.port u.tag .cancelled := by
      have shut : (s.countRequest.setBank b { (s.bank b).updRecord h.port (HoldRecord.closing h.tag) with upgrade := none }).bank b
          = { (s.bank b).updRecord h.port (HoldRecord.closing h.tag) with upgrade := none } := bank_setBank_same _ _ _
      rw [cancelled, leaveBank_without (by rw [answerWork_bank]; exact (congrArg BankRecord.phase shut).trans opened)
        (by rw [answerWork_bank]; exact congrArg BankRecord.upgrade shut), answerWork_setBank, answerWork_bank,
        (onlyHolds_keeps (onlyHolds_of_answers (answerWork_answers _ _ _ _))).1]
      refine congrArg (fun x : State => x.answerWork h.port u.tag .cancelled) ?_
      show ((s.countRequest.setBank b _).setBank b (((s.countRequest.setBank b _).bank b).without h.port s.now)).heard h = _
      rw [shut, setBank_setBank, without_updRecord (f := HoldRecord.closing h.tag) fun _ => rfl]
    rw [closeRecord_idle (s := s.taken h) opened queued executing, left,
      heard_answered_twice (v := s.countRequest.setBank b _) hh.2.1 hs rfl rfl (tag_free_of_hears hh) apart, hothers]
    rfl
  · rw [closeRecord_busy (s := s.taken h) busy, cancelled, heard_answerWork (v := s.countRequest.setBank b _) hh.2.1 hs rfl]
    rfl

end Sys2Proof.Machine
end
section
/-!
SUPPORT and PROOF. CLOSE of an idle record, which leaves its bank at once (O30; R13, R37, R44).
-/

namespace Sys2Proof.Machine

open Sys2Proof

/-- The leaving of a record answers no port but that of the bank's pending upgrade. -/
theorem leaveBank_replied_apart {s : State} {b : Bank} {p q : Port} (h : ∀ u, (s.bank b).upgrade = some u → u.port ≠ q) :
    s.RepliedTo (s.leaveBank b p) q [] := by
  by_cases last : (s.bank b).holds.filter (fun y => y.port != p) = []
  · by_cases opened : (s.bank b).phase = .opened
    · rw [leaveBank_last last opened]
      exact repliedTo_of_eq rfl rfl
    · rw [leaveBank_last_shut last opened]
      exact repliedTo_of_eq rfl rfl
  · rw [leaveBank_others last]
    refine completeUpgrade_others (s := s.setBank b _) fun u hu hq => ?_
    rw [bank_setBank_same] at hu
    exact absurd hq (h u hu)

/-- The record of the port leaves a bank, and the request is answered; what each port and the bank see of it. -/
def State.closedOn (s : State) (h : Header) (b : Bank) : State :=
  ((s.taken h).leaveBank b h.port).answer h.port h.tag (.ok (.close false))

section
variable {s : State} {h : Header} {b : Bank}

theorem closedOn_bank (s : State) (h : Header) (b c : Bank) : (s.closedOn h b).bank c = ((s.taken h).leaveBank b h.port).bank c :=
  answer_bank _ _ _ _ c

theorem closedOn_other_bank {c : Bank} (hc : c ≠ b) : (s.closedOn h b).bank c = s.bank c := by
  rw [closedOn_bank]
  exact leaveBank_onlyBank (s.taken h) b h.port c hc

theorem closedOn_holds (s : State) (h : Header) (b : Bank) : (s.taken h).OnlyHolds (s.closedOn h b) :=
  onlyHolds_trans (leaveBank_holds _ _ _) (onlyHolds_of_answers (answer_answers _ _ _ _))

theorem closedOn_bursts (s : State) (h : Header) (b : Bank) : (s.closedOn h b).bursts = s.bursts :=
  (bursts_of_answers (answer_answers _ _ _ _)).trans (leaveBank_bursts (s.taken h) b h.port)

/-- The port that closes: its sequence number advanced, its vote withdrawn, the CLOSE answered. -/
theorem closedOn_own (hh : s.hears h) :
    (s.closedOn h b).link h.port = { s.link h.port with
        expectedSeq := (s.link h.port).expectedSeq + 1
        queue := (s.link h.port).queue ++ [.response h.tag (.ok (.close false))] }
      ∧ (s.closedOn h b).session h.port = { s.session h.port with idleVote := false } := by
  obtain ⟨link, session⟩ := repliedTo_nil (leaveBank_replied_own (s.taken h) b h.port)
  rw [taken_heard, heard_link_same] at link
  rw [taken_heard, heard_session_same] at session
  have tags : sixteenSet (sixteenSet (s.session h.port).tags h.tag .busy) h.tag .free = (s.session h.port).tags := by
    rw [sixteen_set_set, ← tag_free_of_hears hh, sixteen_set_get]
  unfold State.closedOn
  rw [taken_heard, answer_up (by rw [link]; exact hh.2.1), setSession_link, link_setLink_same, session_setSession_same, link, session]
  exact ⟨rfl, congrArg (fun x => { s.session h.port with idleVote := false, tags := x }) tags⟩

/-- Every other port sees no more than the leaving itself. -/
theorem closedOn_other (up : (((s.taken h).leaveBank b h.port).link h.port).up = true) {p : Port} (hp : p ≠ h.port) :
    (s.closedOn h b).link p = ((s.taken h).leaveBank b h.port).link p
      ∧ (s.closedOn h b).session p = ((s.taken h).leaveBank b h.port).session p := by
  unfold State.closedOn
  rw [answer_up up, setSession_link, link_setLink_ne _ _ hp, session_setSession_ne _ _ hp]
  exact ⟨rfl, rfl⟩

theorem taken_other {p : Port} (hp : p ≠ h.port) : (s.taken h).link p = s.link p ∧ (s.taken h).session p = s.session p := by
  unfold State.taken
  rw [setSession_link, link_setLink_ne _ _ hp, session_setSession_ne _ _ hp]
  exact ⟨rfl, rfl⟩

end

/-- Settles O30: the marks of the CLOSE are not seen, and the record leaves as at the end of its port's last burst. -/
theorem closeOfIdleHoldLeavesAtOnce : Obligations.CloseOfIdleHoldLeavesAtOnce := by
  unfold Obligations.CloseOfIdleHoldLeavesAtOnce
  intro s h bank b x hh hs hb waits hx releasing revoked opened upgrade queued executing
  have up : (((s.taken h).leaveBank b h.port).link h.port).up = true := by
    rw [(repliedTo_nil (leaveBank_replied_own _ _ _)).1, taken_heard, heard_link_same]
    exact hh.2.1
  have other {p : Port} (hp : p ≠ h.port) := closedOn_other (b := b) up hp
  obtain ⟨link, session⟩ := closedOn_own (b := b) hh
  obtain ⟨now, -, array, quads, timer, -, integrity, config, pending⟩ := onlyHolds_keeps (closedOn_holds s h b)
  refine ⟨s.closedOn h b, ?_, fun others hothers => ⟨fun last => ?_, fun some stays => ?_, fun u y hu hy hp => ⟨?_, fun att uup => ?_⟩,
    link, session, ⟨now, array, timer, integrity, pending⟩, quads, config, closedOn_bursts s h b,
    fun c hc => closedOn_other_bank hc, fun p hp apart => ?_⟩⟩
  · rw [close_held hh hs hb waits hx releasing revoked, closeRecord_idle (s := s.taken h) opened queued executing,
      marked_without_upgrade (s := s.taken h) upgrade, leaveBank_markRecord (f := HoldRecord.closing h.tag) fun _ => rfl]
    rfl
  · rw [closedOn_bank, leaveBank_last (s := s.taken h) (hothers.symm.trans last) opened, bank_setBank_same]
    rfl
  · rw [hothers] at some stays
    rw [closedOn_bank, leaveBank_stays (s := s.taken h) some stays, bank_setBank_same, hothers]
    rfl
  · rw [closedOn_bank, leaveBank_upgrade (s := s.taken h) hu (hothers.symm.trans hy) hp, answerWork_bank, bank_setBank_same]
    rfl
  · have ne := upgrader_ne_leaver (hothers.symm.trans hy) hp
    obtain ⟨ulink, usession⟩ := leaveBank_replied_upgrader (s := s.taken h) hu (hothers.symm.trans hy) hp
    obtain ⟨tlink, tsession⟩ := taken_other (s := s) (h := h) ne
    have answerable : (s.taken h).answerable u.port = true := by
      unfold State.answerable
      rw [tsession, att]
    rw [if_pos answerable] at ulink usession
    rw [(other ne).1, (other ne).2, ulink, usession, tlink, tsession]
    unfold Link.answered
    rw [if_pos uup]
    exact ⟨rfl, rfl⟩
  · obtain ⟨olink, osession⟩ := repliedTo_nil (leaveBank_replied_apart (s := s.taken h) (p := h.port) apart)
    rw [(other hp).1, (other hp).2, olink, osession]
    exact taken_other hp

end Sys2Proof.Machine
end
section
/-!
SUPPORT. What a FORCED entry sends a port for one bank, and what it makes of the bank (R13, R46, R47, R66).
-/

namespace Sys2Proof.Machine

open Sys2Proof

/-! ## What a FORCED entry sends a port for one bank (R46, R47, R66) -/

/-- What a record of the port gives: its CLOSE answered or a REVOKED notice, where it leaves as the entry comes (R47). -/
def State.recordEntries (s : State) (b : Bank) (p : Port) (h : HoldRecord) : List OutEntry :=
  if (s.bank b).phase = .opened ∧ h.revokePending = false ∧ s.executingOn p b = false then
    if h.releasing = true then h.closeTag.toList.map (fun ct => .response ct (.ok (.close false)))
    else [.revoked b (s.bank b).openRow 1]
  else []

/-- REVOKED for the port's bursts in queue order, then for its upgrade, then what its record gives (R46). -/
def State.revocations (s : State) (b : Bank) (p : Port) : List OutEntry :=
  if s.answerable p = true then
    ((s.burstQueue p).filter (fun x => x.bank == b)).map (fun x => .response x.tag .revoked)
      ++ ((s.bank b).upgrade.filter (fun u => u.port == p)).toList.map (fun u => .response u.tag .revoked)
      ++ ((s.bank b).holds.filter (fun h => h.port == p)).flatMap (fun h => s.recordEntries b p h)
  else []

theorem removeBankBursts_burstQueue {s : State} {p q : Port} (hq : q ≠ p) (b : Bank) (a : Answer) :
    (s.removeBankBursts q b a).burstQueue p = s.burstQueue p := by
  unfold State.burstQueue
  rw [removeBankBursts_bursts]
  exact four_get_set_ne _ _ (Ne.symm hq)

/-- The bursts of the other ports concern no port but theirs. -/
theorem removeOtherBursts_replied {b : Bank} {p : Port} : ∀ (qs : List Port) (s : State), p ∉ qs →
    s.RepliedTo (qs.foldl (fun s q => s.removeBankBursts q b .revoked) s) p []
      ∧ (qs.foldl (fun s q => s.removeBankBursts q b .revoked) s).burstQueue p = s.burstQueue p
  | [], s, _ => ⟨repliedTo_refl s p, rfl⟩
  | q :: qs, s, hp => by
    obtain ⟨hq, hqs⟩ := not_or.1 (mt List.mem_cons.2 hp)
    obtain ⟨replied, queue⟩ := removeOtherBursts_replied qs (s.removeBankBursts q b .revoked) hqs
    have own := removeBankBursts_replied s q b .revoked p
    rw [if_neg (Ne.symm hq)] at own
    exact ⟨repliedTo_trans own replied, queue.trans (removeBankBursts_burstQueue (Ne.symm hq) b .revoked)⟩

theorem removeBursts_replied (s : State) (b : Bank) (p : Port) :
    s.RepliedTo (allFour.foldl (fun s q => s.removeBankBursts q b .revoked) s) p
      (((s.burstQueue p).filter (fun x => x.bank == b)).map (fun x => (x.tag, Answer.revoked))) := by
  obtain ⟨before, after, split, below, above⟩ := allFour_split p
  rw [split, List.foldl_append, List.foldl_cons]
  obtain ⟨first, queue⟩ := removeOtherBursts_replied (b := b) before s fun h => lt_irrefl p (below p h)
  have own := removeBankBursts_replied (before.foldl (fun s q => s.removeBankBursts q b .revoked) s) p b .revoked p
  rw [if_pos rfl, queue] at own
  have last (t : State) := (removeOtherBursts_replied (b := b) after t fun h => lt_irrefl p (above p h)).1
  have all := repliedTo_trans first (repliedTo_trans own (last _))
  rwa [List.append_nil, List.nil_append] at all

theorem removeBursts_bank (s : State) (b c : Bank) :
    (allFour.foldl (fun s q => s.removeBankBursts q b .revoked) s).bank c = s.bank c :=
  foldl_bank (fun s p => removeBankBursts_bank s p b .revoked c) allFour s

theorem stripped_bank (s : State) (b : Bank) : (s.stripped b).bank b = { s.bank b with upgrade := none } := by
  unfold State.stripped
  simp only [removeBursts_bank]
  cases hu : (s.bank b).upgrade with
  | none => rw [Option.elim_none, removeBursts_bank, ← hu]
  | some u =>
    rw [Option.elim_some, dropUpgrade_present (by rw [removeBursts_bank]; exact hu) rfl, answerWork_bank, bank_setBank_same,
      removeBursts_bank]

theorem stripped_holds (s : State) (b : Bank) : s.OnlyHolds (s.stripped b) := by
  have removed : s.OnlyHolds (allFour.foldl (fun s q => s.removeBankBursts q b .revoked) s) :=
    onlyHolds_foldl (fun s q => removeBankBursts_holds s q b .revoked) allFour s
  unfold State.stripped
  simp only []
  cases ((allFour.foldl (fun s q => s.removeBankBursts q b .revoked) s).bank b).upgrade with
  | none => exact removed
  | some u => exact onlyHolds_trans removed (dropUpgrade_holds _ b u.port .revoked)

/-- The answers for bursts and upgrade, before the records are looked at. -/
theorem stripped_replied (s : State) (b : Bank) (p : Port) : s.RepliedTo (s.stripped b) p
    (((s.burstQueue p).filter (fun x => x.bank == b)).map (fun x => (x.tag, Answer.revoked))
      ++ ((s.bank b).upgrade.filter (fun u => u.port == p)).toList.map (fun u => (u.tag, Answer.revoked))) := by
  have removed := removeBursts_replied s b p
  unfold State.stripped
  simp only [removeBursts_bank]
  cases hu : (s.bank b).upgrade with
  | none => simpa using removed
  | some u =>
    rw [Option.elim_some, dropUpgrade_present (by rw [removeBursts_bank]; exact hu) rfl]
    have dropped := repliedTo_trans removed (setBank_answerWork_replied _ b
      { (allFour.foldl (fun s q => s.removeBankBursts q b .revoked) s).bank b with upgrade := none } u.port u.tag .revoked p)
    by_cases hp : u.port = p <;> simpa [hp, Option.filter] using dropped

theorem recordEntries_congr {s t : State} {b : Bank} (phase : (t.bank b).phase = (s.bank b).phase)
    (row : (t.bank b).openRow = (s.bank b).openRow) (executing : t.bursts.executing = s.bursts.executing) (p : Port) (h : HoldRecord) :
    t.recordEntries b p h = s.recordEntries b p h := by
  unfold State.recordEntries
  rw [phase, row, executingOn_congr executing]

/-- One record at FORCED entry, at its own port. -/
theorem revokeRecord_posted_own (b : Bank) (s : State) (h : HoldRecord) :
    s.Posted (revokeRecord b s h).1 h.port (if s.answerable h.port = true then s.recordEntries b h.port h else []) := by
  unfold revokeRecord
  split
  · next shut => simpa [State.recordEntries, shut] using posted_refl s h.port
  · next opened =>
    split
    · next revoked => simpa [State.recordEntries, revoked] using posted_refl s h.port
    · next unrevoked =>
      split
      · next busy => simpa [State.recordEntries, busy] using posted_refl s h.port
      · next idle =>
        have leaves : s.recordEntries b h.port h = if h.releasing = true
            then h.closeTag.toList.map (fun ct => .response ct (.ok (.close false))) else [.revoked b (s.bank b).openRow 1] :=
          if_pos ⟨not_not.1 opened, by simpa using unrevoked, by simpa using idle⟩
        rw [leaves]
        split
        · next releasing =>
          have closed := posted_of_replied (answerTag_replied s h.port h.closeTag (.ok (.close false)) h.port)
          rw [if_pos rfl] at closed
          simpa [responses, Function.comp_def] using closed
        · simpa using notify_posted s h.port h.port (.revoked b (s.bank b).openRow 1)

theorem revokeRecord_posted_other (b : Bank) (s : State) {h : HoldRecord} {p : Port} (hp : h.port ≠ p) :
    s.Posted (revokeRecord b s h).1 p [] := by
  unfold revokeRecord
  split
  · exact posted_refl s p
  · split
    · exact posted_refl s p
    · split
      · exact posted_refl s p
      · split
        · have closed := answerTag_replied s h.port h.closeTag (.ok (.close false)) p
          rw [if_neg hp] at closed
          obtain ⟨link, session⟩ := repliedTo_nil closed
          exact posted_of_eq link session
        · simpa [hp] using notify_posted s h.port p (.revoked b (s.bank b).openRow 1)

/-- The records of a bank at FORCED entry, in grant order, seen at one port. -/
theorem sweep_revokeRecord_posted (b : Bank) (p : Port) : ∀ (hs : List HoldRecord) (s : State),
    s.Posted (sweep (revokeRecord b) hs s).1 p
      (if s.answerable p = true then (hs.filter (fun h => h.port == p)).flatMap (fun h => s.recordEntries b p h) else [])
  | [], s => by
    show s.Posted s p _
    simpa using posted_refl s p
  | h :: hs, s => by
    have same := revokeRecord_same b s h
    have entries : (fun x => (revokeRecord b s h).1.recordEntries b p x) = fun x => s.recordEntries b p x := by
      funext x
      exact recordEntries_congr (by rw [same.bank]) (by rw [same.bank]) (by rw [same.bursts]) p x
    have rest := sweep_revokeRecord_posted b p hs (revokeRecord b s h).1
    rw [entries, answerable_congr (same.states p)] at rest
    show s.Posted (sweep (revokeRecord b) hs (revokeRecord b s h).1).1 p _
    by_cases hp : h.port = p
    · subst hp
      have both := posted_trans (revokeRecord_posted_own b s h) rest
      cases ha : s.answerable h.port <;> simpa [ha] using both
    · have both := posted_trans (revokeRecord_posted_other b s hp) rest
      rwa [List.nil_append, ← List.filter_cons_of_neg (a := h) (by simpa using hp)] at both

/-- All that one bank's revocation sends a port: the stripping leaves no upgrade that the leaving of records could complete. -/
theorem revokeBank_posted (s : State) (b : Bank) (p : Port) : s.Posted (s.revokeBank b) p (s.revocations b p) := by
  have stripped := posted_of_replied (stripped_replied s b p)
  have swept := sweep_revokeRecord_posted b p ((s.stripped b).bank b).holds (s.stripped b)
  have entries : (fun x => (s.stripped b).recordEntries b p x) = fun x => s.recordEntries b p x := by
    funext x
    exact recordEntries_congr (by rw [stripped_bank]) (by rw [stripped_bank]; rfl) (by rw [stripped_bursts]; rfl) p x
  rw [entries, posted_answerable stripped, stripped_bank] at swept
  rw [revokeBank_eq, stripped_bank]
  rw [afterLeaving_of_no_upgrade (by rw [bank_setBank_same]), bank_setBank_same, setBank_setBank]
  have all (r : BankRecord) := posted_trans stripped (posted_trans swept (posted_of_eq (t := State.setBank _ b r) rfl rfl))
  unfold State.revocations
  cases ha : s.answerable p <;> simpa [ha, responses, List.map_append, Function.comp_def] using all _

/-- The bank of a revocation: no upgrade, the records that stay marked, and an OPEN bank that loses its last one left (R13, R47). -/
theorem revokeBank_bank (s : State) (b : Bank) :
    (s.revokeBank b).bank b = BankRecord.left { s.bank b with upgrade := none, holds := s.forcedKept b } s.now := by
  have stays : (s.stripped b).forcedKept b = s.forcedKept b := by
    have marks : (s.stripped b).staysAtForced b = s.staysAtForced b :=
      staysAtForced_congr (by rw [stripped_bank]) (by rw [stripped_bursts]; rfl)
    unfold State.forcedKept
    rw [marks, stripped_bank]
  have now : (sweep (revokeRecord b) ((s.stripped b).bank b).holds (s.stripped b)).1.now = s.now :=
    (onlyHolds_keeps (onlyHolds_trans (stripped_holds s b) (onlyHolds_of_answers (sweep_answers (revokeRecord_answers b) _ _)))).1
  rw [revokeBank_eq, afterLeaving_of_no_upgrade (by rw [bank_setBank_same, stripped_bank]), bank_setBank_same, bank_setBank_same,
    stays, stripped_bank, setBank_now]
  rw [stripped_bank] at now
  rw [now]

end Sys2Proof.Machine
end
section
/-!
SUPPORT. The revocation of a quad's four banks, and an expiry seen by the one quad that it brings to FORCED (R46, R73, R74, R76).
-/

namespace Sys2Proof.Machine

open Sys2Proof

/-! ## The four banks of the quad (R46) -/

/-- What the revocation of a bank and of other quads leave alone for the banks named by `mine`: what a FORCED entry of theirs looks at. -/
structure State.SparesBanks (s t : State) (mine : Bank → Prop) : Prop where
  executing : t.bursts.executing = s.bursts.executing
  states : ∀ p, (t.session p).state = (s.session p).state
  bank : ∀ b, mine b → t.bank b = s.bank b
  queued : ∀ b p, mine b → (t.burstQueue p).filter (fun x => x.bank == b) = (s.burstQueue p).filter (fun x => x.bank == b)

section
variable {s t u : State} {mine : Bank → Prop}

theorem sparesBanks_refl (s : State) : s.SparesBanks s mine := ⟨rfl, fun _ => rfl, fun _ _ => rfl, fun _ _ _ => rfl⟩

theorem sparesBanks_trans (h1 : s.SparesBanks t mine) (h2 : t.SparesBanks u mine) : s.SparesBanks u mine :=
  ⟨h2.executing.trans h1.executing, fun p => (h2.states p).trans (h1.states p), fun b hb => (h2.bank b hb).trans (h1.bank b hb),
    fun b p hb => (h2.queued b p hb).trans (h1.queued b p hb)⟩

theorem revocations_congr (h : s.SparesBanks t mine) {b : Bank} (hb : mine b) (p : Port) : t.revocations b p = s.revocations b p := by
  have entries : (fun x => t.recordEntries b p x) = fun x => s.recordEntries b p x := by
    funext x
    exact recordEntries_congr (by rw [h.bank b hb]) (by rw [h.bank b hb]) h.executing p x
  unfold State.revocations
  rw [answerable_congr (h.states p), h.queued b p hb, h.bank b hb, entries]

theorem forcedKept_congr (h : s.SparesBanks t mine) {b : Bank} (hb : mine b) : t.forcedKept b = s.forcedKept b := by
  unfold State.forcedKept
  rw [staysAtForced_congr (by rw [h.bank b hb]) h.executing, h.bank b hb]

/-- Bursts that leave are none of the banks named. -/
theorem queued_keeping {keep : QueuedBurst → Bool} (bursts : t.bursts = s.bursts.keeping keep) {b : Bank}
    (kept : ∀ x : QueuedBurst, x.bank = b → keep x = true) (p : Port) :
    (t.burstQueue p).filter (fun x => x.bank == b) = (s.burstQueue p).filter (fun x => x.bank == b) := by
  unfold State.burstQueue
  rw [bursts, BurstEngine.keeping, four_get_map, List.filter_filter]
  refine List.filter_congr fun x _ => ?_
  by_cases hx : x.bank = b
  · simp [kept x hx]
  · simp [hx]

end

theorem revokeBank_spares (s : State) (b : Bank) : s.SparesBanks (s.revokeBank b) (fun c => c ≠ b) where
  executing := by rw [revokeBank_bursts]; rfl
  states p := (revokeBank_posted s b p).2
  bank c hc := revokeBank_onlyBank s b c hc
  queued c p hc := queued_keeping (revokeBank_bursts s b) (fun x hx => by simpa [hx] using hc) p

/-- The banks of a quad, each after the others, and what they send. -/
theorem revokeBanks_posted (p : Port) : ∀ (bs : List Bank), bs.Nodup → ∀ s : State,
    s.Posted (bs.foldl (fun s b => s.revokeBank b) s) p (bs.flatMap (fun b => s.revocations b p))
  | [], _, s => posted_refl s p
  | b :: bs, nodup, s => by
    obtain ⟨hb, hbs⟩ := List.nodup_cons.1 nodup
    have rest := revokeBanks_posted p bs hbs (s.revokeBank b)
    rw [List.flatMap_congr fun c hc => revocations_congr (revokeBank_spares s b) (fun e => hb (e ▸ hc)) p] at rest
    exact posted_trans (revokeBank_posted s b p) rest

theorem revokeQuad_posted (s : State) (q : Quad) (p : Port) :
    s.Posted (s.revokeQuad q) p ((quadBanks q).flatMap (fun b => s.revocations b p)) :=
  revokeBanks_posted p (quadBanks q) (quadBanks_nodup q) s

theorem revokeBank_now (s : State) (b : Bank) : (s.revokeBank b).now = s.now := (onlyHolds_keeps (revokeBank_holds s b)).1

theorem revokeQuad_bank (s : State) {q : Quad} {b : Bank} (hb : groupOf b = q) :
    (s.revokeQuad q).bank b = BankRecord.left { s.bank b with upgrade := none, holds := s.forcedKept b } s.now := by
  have apart (s : State) (b c : Bank) (hc : c ≠ b) : ((s.revokeBank b).revokeBank c).bank c = (s.revokeBank c).bank c := by
    rw [revokeBank_bank, revokeBank_bank, forcedKept_congr (revokeBank_spares s b) hc, revokeBank_onlyBank s b c hc, revokeBank_now]
  exact (foldl_bank_mem revokeBank_onlyBank apart (quadBanks_nodup q) s ((mem_quadBanks q b).2 hb)).trans (revokeBank_bank s b)

/-! ## The expiry that brings a quad to FORCED (R73, R74, R76) -/

/-- A quad that enters FORCED is revoked, and no more. -/
theorem expireQuad_forced {s : State} {q : Quad} (level : s.config.reclaimLevel ≤ 11)
    (state : (s.quad q).state = maintenanceOf s.config.reclaimLevel (s.quad q).debt) (hc : s.cleared q = true)
    (hd : (s.quad q).debt = 11) :
    s.expireQuad q = ((s.setDebt q 12).setMaintenance q .forced).revokeQuad q := by
  have own : (s.setDebt q 12).quad q = { s.quad q with debt := 12 } := quad_setQuad_same s q _
  have forced : maintenanceOf s.config.reclaimLevel 12 = .forced := (maintenanceOf_forced level 12).2 (by decide)
  have before : (s.quad q).state ≠ .forced := by
    rw [state, ne_eq, maintenanceOf_forced level, hd]
    decide
  unfold State.expireQuad
  rw [hc, if_neg (by decide), if_pos (by rw [hd]; decide), hd]
  show (s.setDebt q 12).evaluateQuad q = _
  unfold State.evaluateQuad
  simp only [own, setDebt_config]
  rw [forced]
  cases hstate : (s.quad q).state with
  | current => rfl
  | due => rfl
  | forced => exact absurd hstate before

theorem forced_spares (s : State) (q : Quad) : s.SparesBanks ((s.setDebt q 12).setMaintenance q .forced) (fun _ => True) :=
  ⟨rfl, fun _ => rfl, fun _ _ => rfl, fun _ _ _ => rfl⟩

theorem expireQuad_revokes {s : State} {q : Quad} (level : s.config.reclaimLevel ≤ 11)
    (state : (s.quad q).state = maintenanceOf s.config.reclaimLevel (s.quad q).debt) (hc : s.cleared q = true)
    (hd : (s.quad q).debt = 11) (p : Port) :
    s.Posted (s.expireQuad q) p ((quadBanks q).flatMap (fun b => s.revocations b p))
      ∧ ∀ b, groupOf b = q →
        (s.expireQuad q).bank b = BankRecord.left { s.bank b with upgrade := none, holds := s.forcedKept b } s.now := by
  have posted := revokeQuad_posted ((s.setDebt q 12).setMaintenance q .forced) q p
  rw [List.flatMap_congr fun b _ => revocations_congr (forced_spares s q) trivial p] at posted
  rw [expireQuad_forced level state hc hd]
  refine ⟨posted_beginning posted rfl rfl, fun b hb => ?_⟩
  rw [revokeQuad_bank _ hb, forcedKept_congr (forced_spares s q) trivial]
  rfl

/-! ## What the expiries of other quads leave to it -/

/-- An entry that is no REVOKED notice of a bank of the quad. -/
def OutEntry.revokesElsewhere (q : Quad) : OutEntry → Prop
  | .revoked b .. => groupOf b ≠ q
  | .response .. | .reclaim .. | .lapse .. => True

theorem revocations_bank {s : State} {b : Bank} {p : Port} {e : OutEntry} (he : e ∈ s.revocations b p) :
    (∃ t a, e = .response t a) ∨ e = .revoked b (s.bank b).openRow 1 := by
  unfold State.revocations at he
  split at he
  · simp only [List.mem_append, List.mem_map, List.mem_flatMap] at he
    rcases he with (⟨x, -, rfl⟩ | ⟨u, -, rfl⟩) | ⟨h, -, he⟩
    · exact Or.inl ⟨_, _, rfl⟩
    · exact Or.inl ⟨_, _, rfl⟩
    · unfold State.recordEntries at he
      split at he
      · split at he
        · obtain ⟨ct, -, rfl⟩ := List.mem_map.1 he
          exact Or.inl ⟨_, _, rfl⟩
        · exact Or.inr (List.mem_singleton.1 he)
      · cases he
  · cases he

/-- `t` is `s` after what concerns other quads alone. -/
structure State.LeavesQuad (s t : State) (q : Quad) : Prop where
  spares : s.SparesQuad t q
  banks : s.SparesBanks t (fun b => groupOf b = q)
  now : t.now = s.now
  posts : ∀ p, s.Posts t p (OutEntry.revokesElsewhere q)

theorem expireQuad_bursts_elsewhere (s : State) (r : Quad) :
    ∃ keep : QueuedBurst → Bool, (s.expireQuad r).bursts = s.bursts.keeping keep ∧ ∀ x, groupOf x.bank ≠ r → keep x = true := by
  unfold State.expireQuad
  split
  · exact ⟨fun _ => true, (keeping_all fun _ => rfl).symm, fun _ _ => rfl⟩
  · split
    · exact ⟨_, evaluateQuad_bursts (s.setDebt r _) r, fun x hx => by simp [hx]⟩
    · exact ⟨fun _ => true, ((bursts_of_answers (lapseNotices_answers _ r)).trans (keeping_all fun _ => rfl).symm), fun _ _ => rfl⟩

theorem serveQuad_posts_nothing {Q : OutEntry → Prop} (s : State) (q : Quad) (p : Port) : s.Posts (s.serveQuad q) p Q := by
  have granted := serveQuad_grants s q
  unfold State.OnlyGrants at granted
  exact posts_of_eq (by rw [granted]; rfl) (by rw [granted]; rfl)

theorem expireQuad_posts_elsewhere (s : State) {r q : Quad} (hr : r ≠ q) (p : Port) :
    s.Posts (s.expireQuad r) p (OutEntry.revokesElsewhere q) := by
  have evaluated (v : State) : v.Posts (v.evaluateQuad r) p (OutEntry.revokesElsewhere q) := by
    have revoked (w : State) : w.Posts (w.revokeQuad r) p (OutEntry.revokesElsewhere q) := by
      refine ⟨_, revokeQuad_posted w r p, fun e he => ?_⟩
      obtain ⟨b, hb, he⟩ := List.mem_flatMap.1 he
      rcases revocations_bank he with ⟨t, a, rfl⟩ | rfl
      · trivial
      · exact ((mem_quadBanks r b).1 hb).trans_ne hr
    have set {t : State} (m : Maintenance) (h : (v.setMaintenance r m).Posts t p (OutEntry.revokesElsewhere q)) :
        v.Posts t p (OutEntry.revokesElsewhere q) := posts_trans (posts_of_eq rfl rfl) h
    unfold State.evaluateQuad
    simp only []
    split
    case h_1 =>
      refine set _ ⟨_, reclaimQuad_posted _ r p, fun e he => ?_⟩
      obtain ⟨b, -, he⟩ := List.mem_flatMap.1 he
      obtain ⟨rfl, -⟩ := (mem_reclaims _ _ _ _ _).1 he
      trivial
    case h_2 | h_3 => exact set _ (revoked _)
    case h_4 => exact set _ (serveQuad_posts_nothing _ r p)
    case h_5 | h_6 | h_7 | h_8 | h_9 => exact posts_of_eq rfl rfl
  unfold State.expireQuad
  split
  · exact posts_refl s
  · split
    · exact posts_trans (t := s.setDebt r _) (posts_of_eq rfl rfl) (evaluated _)
    · refine posts_trans (t := s.setQuad r _) (posts_of_eq rfl rfl) ⟨_, lapseNotices_posted _ r p, fun e he => ?_⟩
      split at he
      · obtain rfl := List.mem_singleton.1 he
        trivial
      · cases he

theorem expireQuad_leaves (s : State) {r q : Quad} (hr : r ≠ q) : s.LeavesQuad (s.expireQuad r) q := by
  have spares := expireQuad_spares s hr
  obtain ⟨keep, bursts, kept⟩ := expireQuad_bursts_elsewhere s r
  refine ⟨spares, ⟨by rw [bursts]; rfl, fun p => ?_, spares.bank, fun b p hb => ?_⟩, (onlyHolds_keeps (expireQuad_holds s r)).1,
    expireQuad_posts_elsewhere s hr⟩
  · obtain ⟨es, posted, -⟩ := spares.posts p
    exact posted.2
  · exact queued_keeping bursts (fun x hx => kept x fun e => hr (by rw [← e, hx, hb])) p

theorem leavesQuad_refl (s : State) (q : Quad) : s.LeavesQuad s q :=
  ⟨sparesQuad_refl s q, sparesBanks_refl s, rfl, fun _ => posts_refl s⟩

theorem leavesQuad_trans {s t u : State} {q : Quad} (h1 : s.LeavesQuad t q) (h2 : t.LeavesQuad u q) : s.LeavesQuad u q :=
  ⟨sparesQuad_trans h1.spares h2.spares, sparesBanks_trans h1.banks h2.banks, h2.now.trans h1.now,
    fun p => posts_trans (h1.posts p) (h2.posts p)⟩

/-- A quad's expiry, between those of the quads before it and after it. -/
theorem expireAll_between {R : State → State → Prop} {q : Quad} (refl : ∀ s, R s s) (trans : ∀ {s t u}, R s t → R t u → R s u)
    (others : ∀ (s : State) r, r ≠ q → R s (s.expireQuad r)) (s : State) : ∃ u, R s u ∧ R (u.expireQuad q) s.expireAll := by
  have all (rs : List Quad) : q ∉ rs → ∀ u : State, R u (rs.foldl (fun s r => s.expireQuad r) u) := by
    induction rs with
    | nil => exact fun _ u => refl u
    | cons r rs ih =>
      intro hq u
      obtain ⟨hr, hrs⟩ := not_or.1 (mt List.mem_cons.2 hq)
      exact trans (others u r (Ne.symm hr)) (ih hrs _)
  obtain ⟨before, after, split, below, above⟩ := allFour_split q
  refine ⟨before.foldl (fun s r => s.expireQuad r) s, all before (fun h => lt_irrefl q (below q h)) s, ?_⟩
  unfold State.expireAll
  rw [split, List.foldl_append, List.foldl_cons]
  exact all after (fun h => lt_irrefl q (above q h)) _

/-- Where no other quad is cleared, an expiry is that of the one quad. -/
theorem expireAll_alone {s : State} {q : Quad} (alone : ∀ r, r ≠ q → s.cleared r = false) : s.expireAll = s.expireQuad q := by
  have same {u v : State} (h : v.modeCtl = u.modeCtl) (r : Quad) : v.cleared r = u.cleared r := by
    unfold State.cleared State.clearState
    rw [h]
  obtain ⟨u, hu, hall⟩ := expireAll_between (q := q) (R := fun s t => (∀ r, r ≠ q → s.cleared r = false) → t = s)
    (fun _ _ => rfl) (fun {s t u} h1 h2 h => by
      have e := h1 h
      subst e
      exact h2 h)
    (fun s r hr h => by
      unfold State.expireQuad
      exact if_pos (by rw [h r hr]; rfl)) s
  obtain rfl := hu alone
  exact hall fun r hr => (same (expireQuad_modeCtl u q) r).trans (alone r hr)

end Sys2Proof.Machine
end
section
/-!
PROOF. Entry to FORCED at an expiry (O44; R46, R47, R66, R127, R128).
-/

namespace Sys2Proof.Machine

open Sys2Proof

/-- The arbiter's choice queues no burst. -/
theorem arbiterChoice_burstQueue_sub {s : State} {p : Port} {x : QueuedBurst} (hx : x ∈ s.arbiterChoice.burstQueue p) :
    x ∈ s.burstQueue p := by
  unfold State.arbiterChoice at hx
  split at hx
  · exact hx
  · split at hx
    · next q y _ =>
      have hx : x ∈ (s.bursts.queues.set q ((s.burstQueue q).drop 1)).get p := hx
      rw [four_get_set] at hx
      split at hx
      · next hp => exact hp ▸ List.mem_of_mem_drop hx
      · exact hx
    · exact hx

section
variable {s : State} {q : Quad} (law : s.maintenanceLaw) (hc : s.cleared q = true) (hd : (s.quad q).debt = 11)
include law hc hd

/-- The expiry of a quad that enters FORCED, in what the other quads' expiries leave to it: what it sends, between entries that revoke
elsewhere, and what becomes of its banks. -/
theorem expireAll_forced (p : Port) :
    (∃ before after, s.Posted s.expireAll p (before ++ (quadBanks q).flatMap (fun b => s.revocations b p) ++ after)
        ∧ ∀ e ∈ before ++ after, e.revokesElsewhere q)
      ∧ ∀ b, groupOf b = q →
        s.expireAll.bank b = BankRecord.left { s.bank b with upgrade := none, holds := s.forcedKept b } s.now := by
  obtain ⟨u, hu, hall⟩ := expireAll_between (R := fun s t => s.LeavesQuad t q) (fun s => leavesQuad_refl s q) leavesQuad_trans
    (fun s r hr => expireQuad_leaves s hr) s
  have cleared : u.cleared q = true := by
    unfold State.cleared State.clearState at hc ⊢
    rw [hu.spares.modeCtl, hc]
  obtain ⟨own, banks⟩ := expireQuad_revokes (s := u) (by rw [hu.spares.config]; exact law.1.2)
    (by rw [hu.spares.config, hu.spares.quad]; exact law.2 q) cleared (by rw [hu.spares.quad]; exact hd) p
  have entries : ∀ b ∈ quadBanks q, u.revocations b p = s.revocations b p :=
    fun b hb => revocations_congr hu.banks ((mem_quadBanks q b).1 hb) p
  rw [List.flatMap_congr entries] at own
  obtain ⟨before, first, hbefore⟩ := hu.posts p
  obtain ⟨after, last, hafter⟩ := hall.posts p
  refine ⟨⟨before, after, ?_, fun e he => (List.mem_append.1 he).elim (hbefore e) (hafter e)⟩, fun b hb => ?_⟩
  · exact posted_trans (posted_trans first own) last
  · rw [hall.spares.bank b hb, banks b hb, hu.spares.bank b hb, forcedKept_congr hu.banks hb, hu.now]

/-- What the quad's revocation sends a port stays in its queue, a notice with a count that may have risen (R127, R128). -/
theorem forced_queued {p : Port} {b : Bank} {e : OutEntry} (up : (s.link p).up = true) (hb : groupOf b = q)
    (he : e ∈ s.revocations b p) : ∃ n, e.recount n ∈ (s.expireAll.nextPeriod.settle.link p).queue := by
  obtain ⟨⟨before, after, posted, elsewhere⟩, -⟩ := expireAll_forced law hc hd p
  have sent : e ∈ (quadBanks q).flatMap (fun c => s.revocations c p) := List.mem_flatMap.2 ⟨b, (mem_quadBanks q b).2 hb, he⟩
  have unique (x : OutEntry) (hx : x ∈ before ++ (quadBanks q).flatMap (fun c => s.revocations c p) ++ after)
      (same : x.sameSubject e = true) : x = e := by
    rcases revocations_bank he with ⟨t, a, rfl⟩ | rfl
    · cases x <;> cases same
    · cases x with
      | response | reclaim | lapse => cases same
      | revoked c row n =>
        obtain rfl : c = b := eq_of_beq same
        simp only [List.mem_append, List.mem_flatMap] at hx
        rcases hx with (hx | ⟨d, -, hx⟩) | hx
        · exact absurd hb (elsewhere _ (List.mem_append_left _ hx))
        · rcases revocations_bank hx with ⟨t, a, absurd⟩ | named
          · cases absurd
          · obtain rfl : c = d := by injection named
            exact named
        · exact absurd hb (elsewhere _ (List.mem_append_right _ hx))
  obtain ⟨n, hn⟩ := placeEntries_mem _ (s.link p).queue unique (Or.inl (List.mem_append_left _ (List.mem_append_right _ sent)))
  rw [← posted_up posted up] at hn
  exact ⟨n, settle_queue_mem (s := s.expireAll.nextPeriod) hn⟩

/-- Where no other quad is cleared, an ATTACHED port is sent what its quad's revocation sends and nothing else. -/
theorem forced_queue {p : Port} (alone : ∀ r, r ≠ q → s.cleared r = false) (attached : (s.session p).state = .attached)
    (up : (s.link p).up = true) : (s.expireAll.nextPeriod.settle.link p).queue =
      ((quadBanks q).flatMap (fun b => s.revocations b p)).foldl placeEntry (s.link p).queue := by
  obtain ⟨posted, -⟩ := expireQuad_revokes law.1.2 (law.2 q) hc hd p
  rw [← expireAll_alone alone] at posted
  have still : (s.expireAll.nextPeriod.session p).state = .attached := posted.2.trans attached
  rw [settle_attached still]
  exact posted_up posted up

/-- No burst of the quad stays queued, and the arbiter's choice queues none. -/
theorem forced_unqueued {p : Port} {x : QueuedBurst} (hx : x ∈ s.expireAll.nextPeriod.settle.burstQueue p) : groupOf x.bank ≠ q := by
  have chosen := arbiterChoice_burstQueue_sub (s := s.expireAll.nextPeriod) (p := p) (x := x) (by
    unfold State.burstQueue at hx ⊢
    rwa [settle_bursts] at hx)
  unfold State.burstQueue at chosen
  rw [nextPeriod_bursts, expireAll_bursts law, BurstEngine.keeping, four_get_map] at chosen
  rintro rfl
  have kept := (List.mem_filter.1 chosen).2
  simp [State.entersForced, hc, hd] at kept

end

/-! ## The entries of a revocation, one by one -/

section
variable {s : State} {b : Bank} {p : Port} (live : (s.session p).state = .attached ∨ (s.session p).state = .detaching)
include live

theorem revocations_live : s.revocations b p =
    ((s.burstQueue p).filter (fun x => x.bank == b)).map (fun x => .response x.tag .revoked)
      ++ ((s.bank b).upgrade.filter (fun u => u.port == p)).toList.map (fun u => .response u.tag .revoked)
      ++ ((s.bank b).holds.filter (fun h => h.port == p)).flatMap (fun h => s.recordEntries b p h) := by
  refine if_pos ?_
  unfold State.answerable
  rcases live with e | e <;> rw [e]

theorem burst_revoked {x : QueuedBurst} (hx : x ∈ s.burstQueue p) (hb : x.bank = b) :
    OutEntry.response x.tag .revoked ∈ s.revocations b p := by
  rw [revocations_live live]
  exact List.mem_append_left _ (List.mem_append_left _ (List.mem_map.2 ⟨x, List.mem_filter.2 ⟨hx, beq_iff_eq.2 hb⟩, rfl⟩))

theorem upgrade_revoked {u : PendingUpgrade} (hu : (s.bank b).upgrade = some u) (hp : u.port = p) :
    OutEntry.response u.tag .revoked ∈ s.revocations b p := by
  rw [revocations_live live]
  exact List.mem_append_left _ (List.mem_append_right _ (by simp [hu, hp, Option.filter]))

theorem record_revoked {h : HoldRecord} {e : OutEntry} (hm : h ∈ (s.bank b).holds) (hp : h.port = p) (he : e ∈ s.recordEntries b p h) :
    e ∈ s.revocations b p := by
  rw [revocations_live live]
  exact List.mem_append_right _ (List.mem_flatMap.2 ⟨h, List.mem_filter.2 ⟨hm, beq_iff_eq.2 hp⟩, he⟩)

end

/-! ## A bank after its revocation -/

/-- A record that stays at a FORCED entry is marked. -/
theorem forcedKept_marked {s : State} {b : Bank} {h : HoldRecord} (hm : h ∈ s.forcedKept b) :
    h.releasing = true ∨ h.revokePending = true := by
  obtain ⟨x, -, rfl⟩ := List.mem_map.1 hm
  unfold HoldRecord.revoke
  split
  · next releasing => exact Or.inl releasing
  · exact Or.inr rfl

/-- The end of an event leaves the waits, the upgrade and the records of a revoked bank, and one that was OPEN in all. -/
theorem settle_left {v : State} {b : Bank} {r : BankRecord} {now : Nat} (hv : v.bank b = r.left now) :
    (v.settle.bank b).waitQueue = r.waitQueue ∧ (v.settle.bank b).upgrade = r.upgrade ∧ (v.settle.bank b).holds = r.holds
      ∧ (r.phase = .opened → v.settle.bank b = r.left now) := by
  have same := settle_work v b
  refine ⟨?_, ?_, ?_, fun opened => ?_⟩
  · rcases settle_bank v b with e | ⟨-, e⟩ <;> rw [e, hv] <;> exact left_waitQueue r now
  · rw [same.2, hv, left_upgrade]
  · rw [same.1, hv, left_holds]
  · rw [settle_bank_of_not_closed, hv]
    rw [hv]
    unfold BankRecord.left
    split
    · split <;> nofun
    · rw [opened]
      nofun

/-- Settles O44: the quad's own expiry revokes its banks in turn, the other quads' leave them alone, and the end of the event takes
nothing back. -/
theorem forcedEntryRevokesTheQuad : Obligations.ForcedEntryRevokesTheQuad := by
  unfold Obligations.ForcedEntryRevokesTheQuad
  intro s q law hc hd
  have queued {p : Port} {b : Bank} {e : OutEntry} := forced_queued (s := s.reach s.timer.endsAt) (p := p) (b := b) (e := e) law hc hd
  refine ⟨_, retentionTimerExpiry_exec s, fun b p hb live up => ⟨fun x hx hxb => ?_, fun u hu hp => ?_,
    fun h hm hp opened unrevoked idle => ⟨fun kept => ?_, fun ct releasing hct => ?_⟩⟩, fun p alone attached up => ?_, fun b hb => ?_⟩
  · obtain ⟨n, hn⟩ := queued up hb (burst_revoked live hx hxb)
    exact hn
  · obtain ⟨n, hn⟩ := queued up hb (upgrade_revoked live hu hp)
    exact hn
  · have entry : OutEntry.revoked b (s.bank b).openRow 1 ∈ (s.reach s.timer.endsAt).recordEntries b p h := by
      unfold State.recordEntries
      rw [if_pos ⟨opened, unrevoked, idle⟩, if_neg (by rw [kept]; nofun)]
      exact List.mem_singleton.2 rfl
    exact queued up hb (record_revoked live hm hp entry)
  · have entry : OutEntry.response ct (.ok (.close false)) ∈ (s.reach s.timer.endsAt).recordEntries b p h := by
      unfold State.recordEntries
      rw [if_pos ⟨opened, unrevoked, idle⟩, if_pos releasing, hct]
      exact List.mem_singleton.2 rfl
    obtain ⟨n, hn⟩ := queued up hb (record_revoked live hm hp entry)
    exact hn
  · rw [forced_queue (s := s.reach s.timer.endsAt) law hc hd alone attached up]
    rw [List.flatMap_congr fun b _ => revocations_live (s := s.reach s.timer.endsAt) (b := b) (Or.inl attached)]
    rfl
  · obtain ⟨-, banks⟩ := expireAll_forced (s := s.reach s.timer.endsAt) law hc hd 0
    have left : (s.reach s.timer.endsAt).expireAll.nextPeriod.bank b = _ := banks b hb
    obtain ⟨waits, upgrade, holds, still⟩ := settle_left left
    have now : (s.reach s.timer.endsAt).expireAll.nextPeriod.settle.now = (s.reach s.timer.endsAt).now :=
      (settle_store _).1.trans (expireAll_store (s.reach s.timer.endsAt)).1
    refine ⟨waits, upgrade, fun p x hx e => ?_, fun h hm => ?_, fun stays hstays => ?_⟩
    · exact forced_unqueued (s := s.reach s.timer.endsAt) law hc hd hx (e ▸ hb)
    · rw [holds] at hm
      exact forcedKept_marked hm
    · obtain rfl : stays = s.staysAtForced b := funext hstays
      refine ⟨holds, fun opened _ none => ?_⟩
      have gone : (s.reach s.timer.endsAt).forcedKept b = [] := List.map_eq_nil_iff.2 none
      rw [still opened, now, gone]
      exact if_pos ⟨rfl, opened⟩

end Sys2Proof.Machine
end
